-- ==== Sys2Proof/Word.lean ====
section
/-! DEFINITION. The words of the machine (R7, R8): 32-bit register words, bytes, binary32 values, and the small fixed-size
register files that State is built of. -/

namespace Sys2Proof

/-- A register word: 32 bits, bit 0 least significant (R7). -/
abbrev Word := BitVec 32

/-- A byte of the sample memory as the model stores it. -/
abbrev Byte := BitVec 8

/-- An IEEE 754 binary32 value (R8), one constructor per class, each bit pattern exactly once.
`fin` holds bits [30:0] of a finite pattern (exponent field below 255), which also order the magnitudes;
`nan` holds the fraction field less one. `F32.ofBits` and `F32.toBits` are the two directions. -/
inductive F32 where
  | fin (neg : Bool) (mag : Fin 0x7F800000)
  | inf (neg : Bool)
  | nan (neg : Bool) (pay : Fin 0x7FFFFF)
deriving DecidableEq, Repr, Inhabited

/-- The four arithmetic primitives of R9. -/
inductive FloatOp where
  | add | sub | mul | div
deriving DecidableEq, Repr

/-- Two like registers. -/
structure Per2 (α : Type) where
  e0 : α
  e1 : α
deriving DecidableEq, Repr

/-- Three like registers (the averaging buffer, R30). -/
structure Per3 (α : Type) where
  e0 : α
  e1 : α
  e2 : α
deriving DecidableEq, Repr

/-- Four like registers: one per channel, grain or parameter slot. -/
structure Per4 (α : Type) where
  e0 : α
  e1 : α
  e2 : α
  e3 : α
deriving DecidableEq, Repr

/-- Eight like registers: `ARG`, `RES`, the smoothers. -/
structure Per8 (α : Type) where
  e0 : α
  e1 : α
  e2 : α
  e3 : α
  e4 : α
  e5 : α
  e6 : α
  e7 : α
deriving DecidableEq, Repr

end Sys2Proof
end

