-- ==== Sys2Proof/Machine/Bits.lean ====
section
/-! DEFINITION. Bit patterns of binary32 (R8) and access to the fixed-size register files (R12: `x[i]`, `x[i] <- v`). -/

namespace Sys2Proof

/-- The value a bit pattern stands for (R8): sign [31], exponent [30:23], fraction [22:0]. -/
def F32.ofBits (w : Word) : F32 :=
  if h : w.toNat % 2 ^ 31 < 0x7F800000 then .fin (decide (2 ^ 31 ≤ w.toNat)) ⟨w.toNat % 2 ^ 31, h⟩
  else if h' : w.toNat % 2 ^ 31 = 0x7F800000 then .inf (decide (2 ^ 31 ≤ w.toNat))
  else .nan (decide (2 ^ 31 ≤ w.toNat)) ⟨w.toNat % 2 ^ 31 - 0x7F800001, by omega⟩

/-- Bit 31 of a pattern as a number. -/
def signBit (neg : Bool) : Nat := if neg then 2 ^ 31 else 0

/-- The bit pattern of a value (R8). -/
def F32.toBits : F32 → Word
  | .fin neg mag => BitVec.ofNat 32 (signBit neg + mag.val)
  | .inf neg => BitVec.ofNat 32 (signBit neg + 0x7F800000)
  | .nan neg pay => BitVec.ofNat 32 (signBit neg + 0x7F800001 + pay.val)

/-- Element `i` of a pair. -/
def Per2.get {α : Type} (v : Per2 α) (i : Fin 2) : α :=
  match i with
  | 0 => v.e0
  | 1 => v.e1

/-- The pair with element `i` replaced. -/
def Per2.set {α : Type} (v : Per2 α) (i : Fin 2) (x : α) : Per2 α :=
  match i with
  | 0 => { v with e0 := x }
  | 1 => { v with e1 := x }

/-- Element `i` of three. -/
def Per3.get {α : Type} (v : Per3 α) (i : Fin 3) : α :=
  match i with
  | 0 => v.e0
  | 1 => v.e1
  | 2 => v.e2

/-- The three with element `i` replaced. -/
def Per3.set {α : Type} (v : Per3 α) (i : Fin 3) (x : α) : Per3 α :=
  match i with
  | 0 => { v with e0 := x }
  | 1 => { v with e1 := x }
  | 2 => { v with e2 := x }

/-- Element `i` of four. -/
def Per4.get {α : Type} (v : Per4 α) (i : Fin 4) : α :=
  match i with
  | 0 => v.e0
  | 1 => v.e1
  | 2 => v.e2
  | 3 => v.e3

/-- The four with element `i` replaced. -/
def Per4.set {α : Type} (v : Per4 α) (i : Fin 4) (x : α) : Per4 α :=
  match i with
  | 0 => { v with e0 := x }
  | 1 => { v with e1 := x }
  | 2 => { v with e2 := x }
  | 3 => { v with e3 := x }

/-- Every element of four mapped. -/
def Per4.map {α β : Type} (f : α → β) (v : Per4 α) : Per4 β := ⟨f v.e0, f v.e1, f v.e2, f v.e3⟩

/-- Four elements from their indices. -/
def Per4.ofFn {α : Type} (f : Fin 4 → α) : Per4 α := ⟨f 0, f 1, f 2, f 3⟩

/-- Element `i` of eight. -/
def Per8.get {α : Type} (v : Per8 α) (i : Fin 8) : α :=
  match i with
  | 0 => v.e0
  | 1 => v.e1
  | 2 => v.e2
  | 3 => v.e3
  | 4 => v.e4
  | 5 => v.e5
  | 6 => v.e6
  | 7 => v.e7

/-- The eight with element `i` replaced. -/
def Per8.set {α : Type} (v : Per8 α) (i : Fin 8) (x : α) : Per8 α :=
  match i with
  | 0 => { v with e0 := x }
  | 1 => { v with e1 := x }
  | 2 => { v with e2 := x }
  | 3 => { v with e3 := x }
  | 4 => { v with e4 := x }
  | 5 => { v with e5 := x }
  | 6 => { v with e6 := x }
  | 7 => { v with e7 := x }

/-- Eight copies of one value. -/
def Per8.fill {α : Type} (x : α) : Per8 α := ⟨x, x, x, x, x, x, x, x⟩

/-- Four copies of one value. -/
def Per4.fill {α : Type} (x : α) : Per4 α := ⟨x, x, x, x⟩

end Sys2Proof
end

