-- ==== Sys2Proof/Syntax.lean ====
section
/-! DEFINITION. The syntax: effect and clock modes, the instructions (one constructor per row of spec/opcode_table.json),
the fields of a command word, the names of the registers (R27) and the bus transactions a program is made of (R110). -/

namespace Sys2Proof

/-- The twelve effect modes in the order of R105. -/
inductive FxMode where
  | basic | pingpong | unlinked | resonator | chorus | knuth
  | gran | octave | texture | shimmer | crystals | fluid
deriving DecidableEq, Repr

/-- The three clock modes in the order of R104. -/
inductive ClockMode where
  | internal | externalCV | midiClock
deriving DecidableEq, Repr

/-- A CORE operation: one constructor per row of the opcode table (R108). `c` is the channel, `k` the smoother,
`tri` the triangle flag (R103), `m` and `slot` the effect mode and parameter slot of R106. -/
inductive Instr where
  | nop
  | dlInit (c : Fin 4)
  | dlWrite (c : Fin 4)
  | dlWriteg (c : Fin 4)
  | dlSetdly (c : Fin 4)
  | dlRead0 (c : Fin 4)
  | dlRead (c : Fin 4)
  | dlReadh (c : Fin 4)
  | phInit (c : Fin 4)
  | phSetdly (c : Fin 4)
  | phSetratio (c : Fin 4)
  | phSetdepth (c : Fin 4)
  | phProc (c : Fin 4)
  | phGetpos (c : Fin 4) (tri : Bool)
  | phGetsmp (c : Fin 4) (tri : Bool)
  | ckInit
  | ckTick
  | ckSetmodeInt
  | ckSetmodeCv
  | ckSetmodeMidi
  | ckSetbpm
  | ckSetfreq
  | ckSetsmp
  | ckSetspqn
  | ckGetbpm
  | ckGetfreq
  | ckGetspb
  | ckPresent
  | ckGetppqn
  | fxInit
  | fxProcBasic
  | fxProcPingpong
  | fxProcUnlinked
  | fxProcResonator
  | fxProcChorus
  | fxProcKnuth
  | fxProcGran
  | fxProcOctave
  | fxProcTexture
  | fxProcShimmer
  | fxProcCrystals
  | fxProcFluid
  | wsFold
  | wsDiode
  | wsQuant
  | wsMod
  | wsTanh
  | wsTanhf
  | smSet (k : Fin 8)
  | smCoef (k : Fin 8)
  | smStep (k : Fin 8)
  | gdFin
  | gdDnk
  | psGet (m : FxMode) (slot : Fin 4)
  | psMap (m : FxMode) (slot : Fin 4)
  | psUnmap (m : FxMode) (slot : Fin 4)
deriving DecidableEq, Repr

/-- The five fields of a command word (R101). -/
structure Fields where
  unit : BitVec 4
  fn : BitVec 4
  inst : BitVec 4
  zero : BitVec 4
  imm : BitVec 16
deriving DecidableEq, Repr

/-- Why a command word is illegal: the cases R112 lists, in the order the decoder tests them. -/
inductive Illegal where
  /-- units 8 to 15 -/
  | reservedUnit
  /-- an `fn` its unit does not assign -/
  | unassignedFn
  /-- an `inst` out of range (0 only, 0..3 or 0..7, as the format says) -/
  | instRange
  /-- a non-zero `zero` field -/
  | zeroField
  /-- a non-zero immediate bit that is not live -/
  | deadImmediate
  /-- clock mode 3 -/
  | clockMode
  /-- effect mode 12 to 15 -/
  | effectMode
deriving DecidableEq, Repr

/-- The registers of the host's address map (R27). -/
inductive Reg where
  | id | status | cmd | capr
  | arg (i : Fin 8)
  | res (i : Fin 8)
  | ckMode | ckSpqn | ckPpqnInt | ckPpqnExt | ckTimeout | ckLastvalid | ckFlags | ckSr | ckBlock
  | ckOutacc | ckDetacc | ckPulsecnt | ckTimeoutcnt | ckGatetimer
  | ckAvg (j : Fin 3)
  | ckAvgptr
  | dlWp (c : Fin 4) | dlDlyi (c : Fin 4) | dlDlyf (c : Fin 4)
  | phMain (c : Fin 4) | phMod (c : Fin 4) | phSr (c : Fin 4) | phDsamp (c : Fin 4) | phFreq (c : Fin 4)
  | phRatio (c : Fin 4) | phDepth (c : Fin 4)
  | fxDry (c : Fin 4) | fxDly (c : Fin 4)
  | fxMeta1 | fxMeta2 | fxCtl | fxFb
  | fxP (k : Fin 4)
  | fxWet (c : Fin 4) | fxWhich (c : Fin 4)
  | fxMode | fxRng | fxSr
  | smY (k : Fin 8) | smA (k : Fin 8)
deriving DecidableEq, Repr

/-- How the host may access a register (R27). -/
inductive Access where
  | rw | ro | wo | w1c
deriving DecidableEq, Repr

/-- One bus transaction (R74, R110): an access of `bits` bits at a byte address of the 4 KiB window. R75 makes every width
but 32 an ignored access, whatever its data. -/
inductive Txn where
  | write (addr : BitVec 12) (bits : Nat) (value : Word)
  | read (addr : BitVec 12) (bits : Nat)
deriving DecidableEq, Repr

end Sys2Proof
end

