-- ==== Sys2Proof/Config.lean ====
section
/-! DEFINITION. The configuration layer R6 asks for: the open parameters and free values as constants without a body, and every
named constant, kernel tunable and spec-table entry at the value the spec gives it. No step writes any of them (R42). -/

namespace Sys2Proof.Config

/-! ### Open parameters and free values: nothing in Lean can evaluate them -/

/-- The open parameter `CAP` less 8 (R6: 8 <= CAP <= 2^24). log 1: safe, every legal capacity is a value of it. -/
opaque capOffset : Fin 16777209

/-- What byte `k` of the sample memory of line `c` holds from hardware reset until it is written or its line is initialised (R43: 'an
arbitrary F32 bit pattern'). log 2: safe. -/
opaque powerOnByte : Fin 4 → Nat → Byte

/-- Sign and payload of the NaN an arithmetic primitive produces from two operands (R9, U4). log 4: safe. -/
opaque nanResult : FloatOp → F32 → F32 → Bool × Fin 0x7FFFFF

/-- The order of the positions on the number line, as Mathlib's monotone maps take it. -/
abbrev positionOrder : Preorder Int := Int.instLinearOrder.toPartialOrder.toPreorder

/-- `cfg.exp2` as a monotone map between positions on the number line (`rank`, Machine/Float.lean): its type is property (d) of R13;
(a) and (b) are imposed in Machine/Float.lean. log 5. -/
opaque rawExp2 : @OrderHom Int Int positionOrder positionOrder
/-- `cfg.log2` for positive operands, likewise (R13 (d)). log 5. -/
opaque rawLog2 : @OrderHom Int Int positionOrder positionOrder
/-- The sign of a result of `cfg.exp2` that is a zero, by the operand. log 5. -/
opaque exp2ZeroSign : F32 → Bool
/-- The sign of a result of `cfg.log2` that is a zero, by the operand (but `cfg.log2(1.0)`). log 5. -/
opaque log2ZeroSign : F32 → Bool
/-- `cfg.exp2` of a NaN, of which R13 says nothing. log 5. -/
opaque exp2OfNan : F32 → F32
/-- `cfg.log2` outside its domain x > 0, of which R13 says nothing. log 5. -/
opaque log2Outside : F32 → F32
/-- `cfg.sin2pi` before R13 (a) to (c). log 5. -/
opaque rawSin2pi : F32 → F32
/-- `cfg.cos2pi` before R13 (a) to (c). log 5. -/
opaque rawCos2pi : F32 → F32
/-- `cfg.tanh` before R13 (a) to (c). log 5. -/
opaque rawTanh : F32 → F32

/-! ### Numbers of R6, the sizes. The register files' types have these sizes too (`Per4`, `Per8`, `Per3`, `Fin 4`, `Fin 8`, `Fin 3`). -/

/-- `NCH`, delay lines and phasors (R6). -/
def nch : Nat := 4
/-- `NGRAIN`, grains per channel (R6, R37). -/
def nGrain : Nat := 4
/-- `NSM`, smoothers (R6). -/
def nSm : Nat := 8
/-- `AVG_N`, slots of the averaging buffer (R6, R183). -/
def avgN : Nat := 3

/-! ### Numbers of R6, the clock -/

/-- `ID` (R26). -/
def idWord : Word := 0x4B4C0701#32
/-- `SR_NOM` in Hz (R6). -/
def srNom : Nat := 48000
/-- `SR_NOM` as binary32. -/
def srNomF : F32 := F32.ofBits 0x473B8000#32
/-- `MIDI_PPQN` (R6). -/
def midiPpqn : Nat := 24
/-- `SANITY_LO` (R6, R182). -/
def sanityLo : Nat := 10
/-- `SANITY_HI` (R6, R182). -/
def sanityHi : Nat := 10000000
/-- `GATE_MS` (R6, R172). -/
def gateMs : Nat := 5
/-- `TIMEOUT_MS` (R6, R171). -/
def timeoutMs : Nat := 500
/-- `BPM_DEFAULT` (R6, R172, R194). -/
def bpmDefault : Nat := 120
/-- Milliseconds in a second (R171, R172). -/
def msPerSec : Nat := 1000
/-- Seconds in a minute (R172, R194). -/
def secPerMin : Nat := 60
/-- The default frequency of `CK.GETFREQ`, 120 BPM (R195). -/
def freqDefault : F32 := F32.ofBits 0x40000000#32

/-! ### The phasor -/

/-- Lower bound of `PH[c].dsamp` (R152). -/
def dsampMin : F32 := F32.ofBits 0x3F800000#32
/-- Upper bound of `PH[c].dsamp`, 2^24 (R152). -/
def dsampMax : F32 := F32.ofBits 0x4B800000#32
/-- Upper bound of `PH[c].ratio` (R153). -/
def ratioMax : F32 := F32.ofBits 0x44800000#32
/-- `DEPTH_MAX` (R6, R154). -/
def depthMax : F32 := F32.ofBits 0x41A00000#32

/-! ### The effect engine: shared stages -/

/-- `XF_LEN` (R6, R217). -/
def xfLen : Nat := 24
/-- `SEAM_MIN` (R6, R216). -/
def seamMin : F32 := F32.ofBits 0x42800000#32
/-- `SEAM_FRAC` (R6, R216). -/
def seamFrac : F32 := F32.ofBits 0x3EE66666#32
/-- `DMIN` (R6, R214). -/
def dMin : F32 := F32.ofBits 0x40000000#32
/-- `DN_K` (R6, R366). -/
def dnK : F32 := F32.ofBits 0x219392EF#32
/-- `AP_GMAX`, the allpass coefficient at full feedback (R219). -/
def apGmax : F32 := F32.ofBits 0x3F333333#32
/-- The generator's multiplier (R222). -/
def rngMul : Nat := 1664525
/-- The generator's increment (R222). -/
def rngAdd : Nat := 1013904223
/-- 2^-24, the scale of a draw (R222). -/
def rngScale : F32 := F32.ofBits 0x33800000#32

/-! ### The delay-type kernels -/

/-- Milliseconds per second in the divisor crossfade (R251). -/
def msPerSecond : F32 := F32.ofBits 0x447A0000#32
/-- 440 Hz (R254). -/
def tuneHz : F32 := F32.ofBits 0x43DC0000#32
/-- Note 69 (R254). -/
def tuneNote : F32 := F32.ofBits 0x428A0000#32
/-- Twelve notes per octave (R254, R281). -/
def notesPerOctave : F32 := F32.ofBits 0x41400000#32
/-- `CH_RATE_MIN`, 0.1 Hz (R6, R380). -/
def chRateMin : Word := 0x3DCCCCCD#32
/-- `CH_RATE_MAX`, 5 Hz (R6, R380). -/
def chRateMax : Word := 0x40A00000#32
/-- `CH_MAXFRAC` (R6, R255). -/
def chMaxFrac : F32 := F32.ofBits 0x3E4CCCCD#32

/-! ### The granular kernels -/

/-- `GR_DB`, the half-width of the dead-band (R281). -/
def grDb : F32 := F32.ofBits 0x3D4CCCCD#32
/-- The wobble's fraction of the base delay (R283). -/
def wobbleFrac : F32 := F32.ofBits 0x3DCCCCCD#32
/-- `ACC_LO`, the magnitude of the window's lower end (R285). -/
def accLo : F32 := F32.ofBits 0x3DCCCCCD#32
/-- `ACC_HI` (R285). -/
def accHi : F32 := F32.ofBits 0x3E99999A#32
/-- `GRID_DIV` as binary32 (R284): 1, 2, 3, 4, 6, 8, 12, 16. -/
def gridDiv : Per8 F32 :=
  ⟨F32.ofBits 0x3F800000#32, F32.ofBits 0x40000000#32, F32.ofBits 0x40400000#32, F32.ofBits 0x40800000#32,
    F32.ofBits 0x40C00000#32, F32.ofBits 0x41000000#32, F32.ofBits 0x41400000#32, F32.ofBits 0x41800000#32⟩
/-- The least block length and nominal grain size (R287, R288). -/
def grSizeMin : F32 := F32.ofBits 0x42800000#32
/-- `GR_SIZE_FRAC` (R288). -/
def grSizeFrac : F32 := F32.ofBits 0x3E800000#32
/-- The amplitude a grain is triggered with (R288). -/
def grAmp : F32 := F32.ofBits 0x3F000000#32
/-- The fixed grain jitter of the shimmer and crystals modes (R280, R289). -/
def grJitterFixed : F32 := F32.ofBits 0x3E800000#32
/-- `SHIM_SEMI_MAX`, 7 semitones (R6, R293, R380). -/
def shimSemiMax : Word := 0x40E00000#32
/-- `CRY_STEPS`, sub-steps of the crystals mode (R6, R287). -/
def crySteps : Nat := 4
/-- The fraction of a block a sub-step moves the head (R287). -/
def cryStepFrac : F32 := F32.ofBits 0x3E800000#32

/-- The rate range [lo, hi] of a granular mode (R280); the modes that are not granular have none and get [1, 1]. -/
def rateRange : FxMode → F32 × F32
  | .gran | .shimmer | .crystals => (F32.ofBits 0x3F000000#32, F32.ofBits 0x40000000#32)
  | .octave => (F32.ofBits 0x3E800000#32, F32.ofBits 0x40800000#32)
  | .texture => (F32.ofBits 0x3F400000#32, F32.ofBits 0x3FC00000#32)
  | .basic | .pingpong | .unlinked | .resonator | .chorus | .knuth | .fluid =>
    (F32.ofBits 0x3F800000#32, F32.ofBits 0x3F800000#32)

/-! ### The fluid kernel -/

/-- Orbit radius of the vortex centres (R322). -/
def flRadius : F32 := F32.ofBits 0x3E800000#32
/-- Field strength at full meta1 (R321). -/
def flGain : F32 := F32.ofBits 0x3D4CCCCD#32
/-- Floor of the squared distance (R321). -/
def flR2min : F32 := F32.ofBits 0x38D1B717#32
/-- Turbulence smoothing coefficient (R321). -/
def flTurb : F32 := F32.ofBits 0x3A83126F#32
/-- Damping per unit viscosity (R321). -/
def flDamp : F32 := F32.ofBits 0x3A83126F#32
/-- Relaxation rate in 1/s (R321). -/
def flRelax : F32 := F32.ofBits 0x42480000#32

/-! ### The waveshapers -/

/-- Least threshold of `WS.FOLD` and `WS.MOD` (R341, R344). -/
def wsMin : F32 := F32.ofBits 0x3A83126F#32
/-- Greatest threshold or drive (R341, R344 to R346). -/
def wsMax : F32 := F32.ofBits 0x447A0000#32
/-- Greatest number of steps of `WS.QUANT` (R343). -/
def wsStepsMax : F32 := F32.ofBits 0x47800000#32
/-- Clamp of the operand of `cfg.tanh` (R345). -/
def wsTanhMax : F32 := F32.ofBits 0x41A00000#32
/-- Its negative. -/
def wsTanhMin : F32 := F32.ofBits 0xC1A00000#32
/-- Clamp of the rational approximation (R346). -/
def wsTanhfMax : F32 := F32.ofBits 0x40400000#32
/-- Its negative. -/
def wsTanhfMin : F32 := F32.ofBits 0xC0400000#32
/-- 27, of the rational approximation (R346). -/
def wsPade27 : F32 := F32.ofBits 0x41D80000#32
/-- 9, of the rational approximation (R346). -/
def wsPade9 : F32 := F32.ofBits 0x41100000#32

/-! ### The parameter spec table (R380, R386) -/

/-- The mapping curve of an entry (R386). -/
inductive Curve where
  | lin | exp
deriving DecidableEq, Repr

/-- The unit tag of an entry (R386). -/
inductive UnitTag where
  | none | hz | ms | pct | semi
deriving DecidableEq, Repr

/-- The code of a curve (R386). -/
def curveCode : Curve → Word
  | .lin => 0#32
  | .exp => 1#32

/-- The code of a unit (R386). -/
def unitCode : UnitTag → Word
  | .none => 0#32
  | .hz => 1#32
  | .ms => 2#32
  | .pct => 3#32
  | .semi => 4#32

/-- An entry of the table (R386). -/
structure SpecEntry where
  min : F32
  max : F32
  curve : Curve
  tag : UnitTag
  dflt : F32
deriving DecidableEq, Repr

/-- An entry from its three bit patterns. -/
def entry (min max : Word) (curve : Curve) (tag : UnitTag) (dflt : Word) : SpecEntry :=
  ⟨F32.ofBits min, F32.ofBits max, curve, tag, F32.ofBits dflt⟩

/-- A slot the mode does not use (R386). -/
def unused : SpecEntry := entry 0x00000000#32 0x3F800000#32 .lin .none 0x00000000#32

/-- A percentage 0..100 with the given default. -/
def percent (dflt : Word) : SpecEntry := entry 0x00000000#32 0x42C80000#32 .lin .pct dflt

/-- A modulation ratio 0.125..8 with the given default. -/
def ratio (dflt : Word) : SpecEntry := entry 0x3E000000#32 0x41000000#32 .exp .none dflt

/-- A chorus rate 0.1..5 Hz with the given default. -/
def chorusRate (dflt : Word) : SpecEntry := entry chRateMin chRateMax .exp .hz dflt

/-- P1 to P4 of modes 0, 1 and 2. -/
def specBasic : Per4 SpecEntry :=
  ⟨entry 0x40A00000#32 0x42C80000#32 .exp .ms 0x41A00000#32, entry 0x3F800000#32 0x42480000#32 .lin .pct 0x41200000#32,
    unused, unused⟩

/-- `SPEC[mode][0..3]` (R380). -/
def spec : FxMode → Per4 SpecEntry
  | .basic => specBasic
  | .pingpong => specBasic
  | .unlinked => specBasic
  | .resonator =>
    ⟨entry 0x41400000#32 0x42700000#32 .lin .semi 0x41C00000#32, entry 0x41400000#32 0x42A80000#32 .lin .semi 0x42900000#32,
      unused, unused⟩
  | .chorus => ⟨chorusRate 0x3F000000#32, percent 0x42480000#32, chorusRate 0x3F333333#32, percent 0x42480000#32⟩
  | .knuth => ⟨ratio 0x3F800000#32, entry 0x00000000#32 0x41A00000#32 .lin .none 0x00000000#32, unused, unused⟩
  | .gran => ⟨percent 0x00000000#32, ratio 0x3F800000#32, percent 0x00000000#32, percent 0x41C80000#32⟩
  | .octave => ⟨percent 0x00000000#32, ratio 0x3F800000#32, percent 0x00000000#32, percent 0x41C80000#32⟩
  | .texture => ⟨percent 0x41200000#32, ratio 0x3E800000#32, percent 0x42480000#32, percent 0x42480000#32⟩
  | .shimmer =>
    ⟨percent 0x41F00000#32, ratio 0x40800000#32, percent 0x42480000#32,
      entry 0x00000000#32 shimSemiMax .lin .semi 0x40E00000#32⟩
  | .crystals => ⟨percent 0x00000000#32, ratio 0x3F800000#32, percent 0x00000000#32, percent 0x42480000#32⟩
  | .fluid =>
    ⟨percent 0x41A00000#32, percent 0x41200000#32, entry 0x00000000#32 0x41A00000#32 .lin .pct 0x40A00000#32,
      entry 0x3C23D70A#32 0x40000000#32 .exp .hz 0x3DCCCCCD#32⟩

end Sys2Proof.Config
end

