-- ==== Sys2Proof/Machine/RegMap.lean ====
section
/-! DEFINITION. The register map of R27: address and access of every register, and the register at an address. -/

namespace Sys2Proof

/-- The byte address of a register (R27). -/
def Reg.addr : Reg → Nat
  | .id => 0x000
  | .status => 0x004
  | .cmd => 0x008
  | .capr => 0x00C
  | .arg i => 0x010 + 4 * i.val
  | .res i => 0x030 + 4 * i.val
  | .ckMode => 0x100
  | .ckSpqn => 0x104
  | .ckPpqnInt => 0x108
  | .ckPpqnExt => 0x10C
  | .ckTimeout => 0x110
  | .ckLastvalid => 0x114
  | .ckFlags => 0x118
  | .ckSr => 0x11C
  | .ckBlock => 0x120
  | .ckOutacc => 0x124
  | .ckDetacc => 0x128
  | .ckPulsecnt => 0x12C
  | .ckTimeoutcnt => 0x130
  | .ckGatetimer => 0x134
  | .ckAvg j => 0x138 + 4 * j.val
  | .ckAvgptr => 0x144
  | .dlWp c => 0x200 + 16 * c.val
  | .dlDlyi c => 0x204 + 16 * c.val
  | .dlDlyf c => 0x208 + 16 * c.val
  | .phMain c => 0x280 + 32 * c.val
  | .phMod c => 0x284 + 32 * c.val
  | .phSr c => 0x288 + 32 * c.val
  | .phDsamp c => 0x28C + 32 * c.val
  | .phFreq c => 0x290 + 32 * c.val
  | .phRatio c => 0x294 + 32 * c.val
  | .phDepth c => 0x298 + 32 * c.val
  | .fxDry c => 0x300 + 4 * c.val
  | .fxDly c => 0x310 + 4 * c.val
  | .fxMeta1 => 0x320
  | .fxMeta2 => 0x324
  | .fxCtl => 0x328
  | .fxFb => 0x32C
  | .fxP k => 0x330 + 4 * k.val
  | .fxWet c => 0x340 + 4 * c.val
  | .fxWhich c => 0x350 + 4 * c.val
  | .fxMode => 0x360
  | .fxRng => 0x364
  | .fxSr => 0x368
  | .smY k => 0x380 + 8 * k.val
  | .smA k => 0x384 + 8 * k.val

/-- The access column of R27. -/
def Reg.access : Reg → Access
  | .status => .w1c
  | .cmd => .wo
  | .arg _ | .ckPpqnInt | .ckPpqnExt | .ckTimeout => .rw
  | .fxDry _ | .fxDly _ | .fxMeta1 | .fxMeta2 | .fxCtl | .fxFb | .fxP _ | .fxRng => .rw
  | .id | .capr | .res _ => .ro
  | .ckMode | .ckSpqn | .ckLastvalid | .ckFlags | .ckSr | .ckBlock => .ro
  | .ckOutacc | .ckDetacc | .ckPulsecnt | .ckTimeoutcnt | .ckGatetimer | .ckAvg _ | .ckAvgptr => .ro
  | .dlWp _ | .dlDlyi _ | .dlDlyf _ => .ro
  | .phMain _ | .phMod _ | .phSr _ | .phDsamp _ | .phFreq _ | .phRatio _ | .phDepth _ => .ro
  | .fxWet _ | .fxWhich _ | .fxMode | .fxSr | .smY _ | .smA _ => .ro

/-- The registers a channel index names (R27), for one channel. -/
def regsOfChannel (c : Fin 4) : List Reg :=
  [.dlWp c, .dlDlyi c, .dlDlyf c, .phMain c, .phMod c, .phSr c, .phDsamp c, .phFreq c, .phRatio c, .phDepth c,
    .fxDry c, .fxDly c, .fxP c, .fxWet c, .fxWhich c]

/-- The registers an eight-way index names (R27), for one index. -/
def regsOfIndex (i : Fin 8) : List Reg := [.arg i, .res i, .smY i, .smA i]

/-- Every register of the map (R27). -/
def allRegs : List Reg :=
  [.id, .status, .cmd, .capr, .ckMode, .ckSpqn, .ckPpqnInt, .ckPpqnExt, .ckTimeout, .ckLastvalid, .ckFlags, .ckSr,
    .ckBlock, .ckOutacc, .ckDetacc, .ckPulsecnt, .ckTimeoutcnt, .ckGatetimer, .ckAvg 0, .ckAvg 1, .ckAvg 2, .ckAvgptr,
    .fxMeta1, .fxMeta2, .fxCtl, .fxFb, .fxMode, .fxRng, .fxSr]
  ++ regsOfIndex 0 ++ regsOfIndex 1 ++ regsOfIndex 2 ++ regsOfIndex 3
  ++ regsOfIndex 4 ++ regsOfIndex 5 ++ regsOfIndex 6 ++ regsOfIndex 7
  ++ regsOfChannel 0 ++ regsOfChannel 1 ++ regsOfChannel 2 ++ regsOfChannel 3

/-- The register at a byte address, if one is mapped there (R27: 'Any address not in the table is unmapped'). -/
def regAt (addr : Nat) : Option Reg := allRegs.find? (fun r => r.addr == addr)

/-- The register a 32-bit aligned access reaches; any other width, a misaligned or an unmapped address reaches none
(R75, R77). -/
def accessTarget (addr : BitVec 12) (bits : Nat) : Option Reg :=
  if bits = 32 ∧ addr.toNat % 4 = 0 then regAt addr.toNat else none

end Sys2Proof
end

