-- ==== Sys2Proof/WellFormed.lean ====
section
/-! DEFINITION. Which command words and which bus transactions a program may hold. `legalWord` states legality by the match and
mask columns of spec/opcode_table.json (R109), independently of the field-wise decoder of Decode.lean. A term of `Instr` needs no
check: the types of its operands admit exactly the legal values of R101 to R106. A transaction that is not well-formed still
has its meaning in `step` (R75, R112); R110 only does not let a program be written with it. -/

namespace Sys2Proof

/-- One row of the opcode table: a word selects it when its bits under `mask` are `pattern` (R109). -/
structure OpcodeRow where
  mask : Word
  pattern : Word
deriving DecidableEq, Repr

/-- The 56 rows of spec/opcode_table.json, in its order. -/
def opcodeRows : List OpcodeRow :=
  [
    ⟨0xFFFFFFFF, 0x00000000⟩, ⟨0xFFCFFFFF, 0x10000000⟩, ⟨0xFFCFFFFF, 0x11000000⟩, ⟨0xFFCFFFFF, 0x12000000⟩,
    ⟨0xFFCFFFFF, 0x13000000⟩, ⟨0xFFCFFFFF, 0x14000000⟩, ⟨0xFFCFFFFF, 0x15000000⟩, ⟨0xFFCFFFFF, 0x16000000⟩,
    ⟨0xFFCFFFFF, 0x20000000⟩, ⟨0xFFCFFFFF, 0x21000000⟩, ⟨0xFFCFFFFF, 0x22000000⟩, ⟨0xFFCFFFFF, 0x23000000⟩,
    ⟨0xFFCFFFFF, 0x24000000⟩, ⟨0xFFCFFFFE, 0x25000000⟩, ⟨0xFFCFFFFE, 0x26000000⟩, ⟨0xFFFFFFFF, 0x30000000⟩,
    ⟨0xFFFFFFFF, 0x31000000⟩, ⟨0xFFFFFFFF, 0x32000000⟩, ⟨0xFFFFFFFF, 0x32000001⟩, ⟨0xFFFFFFFF, 0x32000002⟩] ++
  [
    ⟨0xFFFFFFFF, 0x33000000⟩, ⟨0xFFFFFFFF, 0x34000000⟩, ⟨0xFFFFFFFF, 0x35000000⟩, ⟨0xFFFFFFFF, 0x36000000⟩,
    ⟨0xFFFFFFFF, 0x37000000⟩, ⟨0xFFFFFFFF, 0x38000000⟩, ⟨0xFFFFFFFF, 0x39000000⟩, ⟨0xFFFFFFFF, 0x3A000000⟩,
    ⟨0xFFFFFFFF, 0x3B000000⟩, ⟨0xFFFFFFFF, 0x40000000⟩, ⟨0xFFFFFFFF, 0x41000000⟩, ⟨0xFFFFFFFF, 0x41000001⟩,
    ⟨0xFFFFFFFF, 0x41000002⟩, ⟨0xFFFFFFFF, 0x41000003⟩, ⟨0xFFFFFFFF, 0x41000004⟩, ⟨0xFFFFFFFF, 0x41000005⟩,
    ⟨0xFFFFFFFF, 0x41000006⟩, ⟨0xFFFFFFFF, 0x41000007⟩, ⟨0xFFFFFFFF, 0x41000008⟩, ⟨0xFFFFFFFF, 0x41000009⟩] ++
  [
    ⟨0xFFFFFFFF, 0x4100000A⟩, ⟨0xFFFFFFFF, 0x4100000B⟩, ⟨0xFFFFFFFF, 0x50000000⟩, ⟨0xFFFFFFFF, 0x51000000⟩,
    ⟨0xFFFFFFFF, 0x52000000⟩, ⟨0xFFFFFFFF, 0x53000000⟩, ⟨0xFFFFFFFF, 0x54000000⟩, ⟨0xFFFFFFFF, 0x55000000⟩,
    ⟨0xFF8FFFFF, 0x60000000⟩, ⟨0xFF8FFFFF, 0x61000000⟩, ⟨0xFF8FFFFF, 0x62000000⟩, ⟨0xFFFFFFFF, 0x63000000⟩,
    ⟨0xFFFFFFFF, 0x64000000⟩, ⟨0xFFFFFF0C, 0x70000000⟩, ⟨0xFFFFFF0C, 0x71000000⟩, ⟨0xFFFFFF0C, 0x72000000⟩]

/-- The bits of `w` under the row's mask are the row's pattern (R109). -/
def OpcodeRow.selects (r : OpcodeRow) (w : Word) : Bool := w &&& r.mask == r.pattern

/-- The effect-mode field of the `PS.*` words is within 0..11 (R106, R109); no other row has a partly legal field. -/
def psModeLegal (w : Word) : Bool := decide (w.toNat / 2 ^ 28 = 7 → w.toNat / 16 % 16 < 12)

/-- A word that selects a row with every field legal (R109); every other word is illegal (R112). -/
def legalWord (w : Word) : Bool := opcodeRows.any (fun r => r.selects w) && psModeLegal w

/-- The access is 32 bits wide (R74). -/
def Txn.wide : Txn → Bool
  | .write _ bits _ => bits == 32
  | .read _ bits => bits == 32

/-- The address is a multiple of 4 (R77). -/
def Txn.aligned : Txn → Bool
  | .write a _ _ => a.toNat % 4 == 0
  | .read a _ => a.toNat % 4 == 0

/-- A register is mapped at the address (R27). -/
def Txn.mapped : Txn → Bool
  | .write a _ _ => (regAt a.toNat).isSome
  | .read a _ => (regAt a.toNat).isSome

/-- A write is not aimed at a read-only register (R75). -/
def Txn.permitted : Txn → Bool
  | .write a _ _ => (regAt a.toNat).all (fun r => r.access != .ro)
  | .read _ _ => true

/-- A write to `CMD` carries a legal command word (R110, R112). -/
def Txn.commandLegal : Txn → Bool
  | .write a _ v => regAt a.toNat != some .cmd || legalWord v
  | .read _ _ => true

/-- A transaction R110 lets a program hold. -/
def Txn.wellFormed (t : Txn) : Bool := t.wide && t.aligned && t.mapped && t.permitted && t.commandLegal

/-- A program (R110): a finite list of such transactions. -/
def programWellFormed (p : List Txn) : Bool := p.all Txn.wellFormed

end Sys2Proof
end

