-- ==== Sys2Proof/Decode.lean ====
section
/-! DEFINITION. The decoder of a command word, total, rejecting by name (R100 to R106, R112), and the encoder, both written from
the field layout of R101 and the opcode map of R108. -/

namespace Sys2Proof

/-- The five fields of a command word (R101): unit [31:28], fn [27:24], inst [23:20], zero [19:16], imm [15:0]. -/
def fieldsOf (w : Word) : Fields :=
  { unit := w.extractLsb' 28 4
    fn := w.extractLsb' 24 4
    inst := w.extractLsb' 20 4
    zero := w.extractLsb' 16 4
    imm := w.extractLsb' 0 16 }

/-- How many functions a unit assigns, from 0 up (R108, R112). -/
def fnCount (unit : Nat) : Nat :=
  match unit with
  | 0 => 1
  | 1 => 7
  | 2 => 7
  | 3 => 12
  | 4 => 2
  | 5 => 6
  | 6 => 5
  | 7 => 3
  | _ => 0

/-- How many instances the operation has: the channels, the smoothers, or 1 (the field must be 0) (R101, R102). -/
def instCount (unit fn : Nat) : Nat :=
  if unit = 1 ∨ unit = 2 then Config.nch else if unit = 6 ∧ fn < 3 then Config.nSm else 1

/-- The live bits of the immediate (R102 to R106). -/
def liveImm (unit fn : Nat) : BitVec 16 :=
  if unit = 2 ∧ (fn = 5 ∨ fn = 6) then 0x0001
  else if unit = 3 ∧ fn = 2 then 0x0003
  else if unit = 4 ∧ fn = 1 then 0x000F
  else if unit = 7 then 0x00F3
  else 0

/-- The clock mode an immediate names (R104); 3 names none. -/
def clockModeOf (n : Nat) : Option ClockMode :=
  match n with
  | 0 => some .internal
  | 1 => some .externalCV
  | 2 => some .midiClock
  | _ => none

/-- The effect mode a number names (R105); 12 to 15 name none. -/
def fxModeOf (n : Nat) : Option FxMode :=
  match n with
  | 0 => some .basic
  | 1 => some .pingpong
  | 2 => some .unlinked
  | 3 => some .resonator
  | 4 => some .chorus
  | 5 => some .knuth
  | 6 => some .gran
  | 7 => some .octave
  | 8 => some .texture
  | 9 => some .shimmer
  | 10 => some .crystals
  | 11 => some .fluid
  | _ => none

/-- The number of an effect mode (R105). -/
def FxMode.code : FxMode → Nat
  | .basic => 0
  | .pingpong => 1
  | .unlinked => 2
  | .resonator => 3
  | .chorus => 4
  | .knuth => 5
  | .gran => 6
  | .octave => 7
  | .texture => 8
  | .shimmer => 9
  | .crystals => 10
  | .fluid => 11

/-- The `CK.SETMODE` row of a clock mode. -/
def setmodeInstr : ClockMode → Instr
  | .internal => .ckSetmodeInt
  | .externalCV => .ckSetmodeCv
  | .midiClock => .ckSetmodeMidi

/-- The `FX.PROC` row of an effect mode. -/
def fxProcInstr : FxMode → Instr
  | .basic => .fxProcBasic
  | .pingpong => .fxProcPingpong
  | .unlinked => .fxProcUnlinked
  | .resonator => .fxProcResonator
  | .chorus => .fxProcChorus
  | .knuth => .fxProcKnuth
  | .gran => .fxProcGran
  | .octave => .fxProcOctave
  | .texture => .fxProcTexture
  | .shimmer => .fxProcShimmer
  | .crystals => .fxProcCrystals
  | .fluid => .fxProcFluid

/-- The channel in `inst` (R101). -/
def instChannel (inst : BitVec 4) : Fin 4 := ⟨inst.toNat % Config.nch, Nat.mod_lt _ (by decide)⟩

/-- The smoother in `inst` (R101). -/
def instSmoother (inst : BitVec 4) : Fin 8 := ⟨inst.toNat % Config.nSm, Nat.mod_lt _ (by decide)⟩

/-- The parameter slot imm[1:0] (R106). -/
def immSlot (imm : BitVec 16) : Fin 4 := ⟨imm.toNat % 4, Nat.mod_lt _ (by decide)⟩

/-- The triangle flag imm[0] (R103). -/
def immTri (imm : BitVec 16) : Bool := imm.toNat % 2 == 1

/-- The `FX.PROC` instruction of imm[3:0] (R105). -/
def decodeFxProc (imm : BitVec 16) : Except Illegal Instr :=
  match fxModeOf (imm.toNat % 16) with
  | some m => .ok (fxProcInstr m)
  | none => .error .effectMode

/-- The `CK.SETMODE` instruction of imm[1:0] (R104). -/
def decodeSetmode (imm : BitVec 16) : Except Illegal Instr :=
  match clockModeOf (imm.toNat % 4) with
  | some m => .ok (setmodeInstr m)
  | none => .error .clockMode

/-- A `PS.*` instruction of imm[7:4] and imm[1:0] (R106). -/
def decodePs (mk : FxMode → Fin 4 → Instr) (imm : BitVec 16) : Except Illegal Instr :=
  match fxModeOf (imm.toNat / 16 % 16) with
  | some m => .ok (mk m (immSlot imm))
  | none => .error .effectMode

/-- The operation of an opcode byte, split into unit and function (R108). -/
def decodeOp (unit fn : Nat) (inst : BitVec 4) (imm : BitVec 16) : Except Illegal Instr :=
  match unit, fn with
  | 0, 0 => .ok .nop
  | 1, 0 => .ok (.dlInit (instChannel inst))
  | 1, 1 => .ok (.dlWrite (instChannel inst))
  | 1, 2 => .ok (.dlWriteg (instChannel inst))
  | 1, 3 => .ok (.dlSetdly (instChannel inst))
  | 1, 4 => .ok (.dlRead0 (instChannel inst))
  | 1, 5 => .ok (.dlRead (instChannel inst))
  | 1, 6 => .ok (.dlReadh (instChannel inst))
  | 2, 0 => .ok (.phInit (instChannel inst))
  | 2, 1 => .ok (.phSetdly (instChannel inst))
  | 2, 2 => .ok (.phSetratio (instChannel inst))
  | 2, 3 => .ok (.phSetdepth (instChannel inst))
  | 2, 4 => .ok (.phProc (instChannel inst))
  | 2, 5 => .ok (.phGetpos (instChannel inst) (immTri imm))
  | 2, 6 => .ok (.phGetsmp (instChannel inst) (immTri imm))
  | 3, 0 => .ok .ckInit
  | 3, 1 => .ok .ckTick
  | 3, 2 => decodeSetmode imm
  | 3, 3 => .ok .ckSetbpm
  | 3, 4 => .ok .ckSetfreq
  | 3, 5 => .ok .ckSetsmp
  | 3, 6 => .ok .ckSetspqn
  | 3, 7 => .ok .ckGetbpm
  | 3, 8 => .ok .ckGetfreq
  | 3, 9 => .ok .ckGetspb
  | 3, 10 => .ok .ckPresent
  | 3, 11 => .ok .ckGetppqn
  | 4, 0 => .ok .fxInit
  | 4, 1 => decodeFxProc imm
  | 5, 0 => .ok .wsFold
  | 5, 1 => .ok .wsDiode
  | 5, 2 => .ok .wsQuant
  | 5, 3 => .ok .wsMod
  | 5, 4 => .ok .wsTanh
  | 5, 5 => .ok .wsTanhf
  | 6, 0 => .ok (.smSet (instSmoother inst))
  | 6, 1 => .ok (.smCoef (instSmoother inst))
  | 6, 2 => .ok (.smStep (instSmoother inst))
  | 6, 3 => .ok .gdFin
  | 6, 4 => .ok .gdDnk
  | 7, 0 => decodePs .psGet imm
  | 7, 1 => decodePs .psMap imm
  | 7, 2 => decodePs .psUnmap imm
  | _, _ => .error .unassignedFn

/-- The decoder on the fields of a word: the tests of R112 in turn, then the opcode map. -/
def decodeFields (f : Fields) : Except Illegal Instr :=
  let unit := f.unit.toNat
  let fn := f.fn.toNat
  if 8 ≤ unit then .error .reservedUnit
  else if fnCount unit ≤ fn then .error .unassignedFn
  else if instCount unit fn ≤ f.inst.toNat then .error .instRange
  else if f.zero ≠ 0 then .error .zeroField
  else if f.imm &&& ~~~(liveImm unit fn) ≠ 0 then .error .deadImmediate
  else decodeOp unit fn f.inst f.imm

/-- The instruction a command word encodes, or the name of what makes it illegal (R100, R112). -/
def decode (w : Word) : Except Illegal Instr := decodeFields (fieldsOf w)

/-- The command word with the given opcode byte, instance and immediate; the `zero` field is 0 (R101). -/
def commandWord (opcode inst imm : Nat) : Word := BitVec.ofNat 32 (opcode * 2 ^ 24 + inst * 2 ^ 20 + imm)

/-- The immediate of a `PS.*` word: mode in [7:4], slot in [1:0] (R106). -/
def psImm (m : FxMode) (slot : Fin 4) : Nat := m.code * 16 + slot.val

/-- The command word of an instruction (R101 to R108). -/
def encode : Instr → Word
  | .nop => commandWord 0x00 0 0
  | .dlInit c => commandWord 0x10 c.val 0
  | .dlWrite c => commandWord 0x11 c.val 0
  | .dlWriteg c => commandWord 0x12 c.val 0
  | .dlSetdly c => commandWord 0x13 c.val 0
  | .dlRead0 c => commandWord 0x14 c.val 0
  | .dlRead c => commandWord 0x15 c.val 0
  | .dlReadh c => commandWord 0x16 c.val 0
  | .phInit c => commandWord 0x20 c.val 0
  | .phSetdly c => commandWord 0x21 c.val 0
  | .phSetratio c => commandWord 0x22 c.val 0
  | .phSetdepth c => commandWord 0x23 c.val 0
  | .phProc c => commandWord 0x24 c.val 0
  | .phGetpos c tri => commandWord 0x25 c.val (if tri then 1 else 0)
  | .phGetsmp c tri => commandWord 0x26 c.val (if tri then 1 else 0)
  | .ckInit => commandWord 0x30 0 0
  | .ckTick => commandWord 0x31 0 0
  | .ckSetmodeInt => commandWord 0x32 0 0
  | .ckSetmodeCv => commandWord 0x32 0 1
  | .ckSetmodeMidi => commandWord 0x32 0 2
  | .ckSetbpm => commandWord 0x33 0 0
  | .ckSetfreq => commandWord 0x34 0 0
  | .ckSetsmp => commandWord 0x35 0 0
  | .ckSetspqn => commandWord 0x36 0 0
  | .ckGetbpm => commandWord 0x37 0 0
  | .ckGetfreq => commandWord 0x38 0 0
  | .ckGetspb => commandWord 0x39 0 0
  | .ckPresent => commandWord 0x3A 0 0
  | .ckGetppqn => commandWord 0x3B 0 0
  | .fxInit => commandWord 0x40 0 0
  | .fxProcBasic => commandWord 0x41 0 0
  | .fxProcPingpong => commandWord 0x41 0 1
  | .fxProcUnlinked => commandWord 0x41 0 2
  | .fxProcResonator => commandWord 0x41 0 3
  | .fxProcChorus => commandWord 0x41 0 4
  | .fxProcKnuth => commandWord 0x41 0 5
  | .fxProcGran => commandWord 0x41 0 6
  | .fxProcOctave => commandWord 0x41 0 7
  | .fxProcTexture => commandWord 0x41 0 8
  | .fxProcShimmer => commandWord 0x41 0 9
  | .fxProcCrystals => commandWord 0x41 0 10
  | .fxProcFluid => commandWord 0x41 0 11
  | .wsFold => commandWord 0x50 0 0
  | .wsDiode => commandWord 0x51 0 0
  | .wsQuant => commandWord 0x52 0 0
  | .wsMod => commandWord 0x53 0 0
  | .wsTanh => commandWord 0x54 0 0
  | .wsTanhf => commandWord 0x55 0 0
  | .smSet k => commandWord 0x60 k.val 0
  | .smCoef k => commandWord 0x61 k.val 0
  | .smStep k => commandWord 0x62 k.val 0
  | .gdFin => commandWord 0x63 0 0
  | .gdDnk => commandWord 0x64 0 0
  | .psGet m slot => commandWord 0x70 0 (psImm m slot)
  | .psMap m slot => commandWord 0x71 0 (psImm m slot)
  | .psUnmap m slot => commandWord 0x72 0 (psImm m slot)

/-- The 32-bit command word whose low `nbits` bits are `w`, the bits above them zero; none when `w` needs more bits than a
command word has. -/
def tableWord (nbits w : Nat) : Option Word :=
  if w % 2 ^ nbits < 2 ^ 32 then some (BitVec.ofNat 32 (w % 2 ^ nbits)) else none

/-- The instruction the decoder reads from an instruction whose bits are `w`, numbered as spec/opcode_table.json numbers
them. -/
def decodeTableWord (nbits w : Nat) : Option Instr :=
  match tableWord nbits w with
  | some v =>
    match decode v with
    | .ok i => some i
    | .error _ => none
  | none => none

end Sys2Proof
end

