-- ==== Sys2Proof/Machine/Float.lean ====
section
/-! DEFINITION. Binary32 arithmetic (R9), conversions (R10), helper functions (R11), elementary functions (R13). Operands are
converted to exact integers in units of 2^-149 (every finite binary32 is one), the result is computed exactly and rounded once, to
nearest, ties to even. -/

namespace Sys2Proof

/-! ### Classes, sign, exact values -/

/-- `isnan(a)` (R9). -/
def isNan : F32 → Bool
  | .nan _ _ => true
  | _ => false

/-- `isfinite(a)` (R9): neither a NaN nor an infinity. -/
def isFinite : F32 → Bool
  | .fin _ _ => true
  | _ => false

/-- `fabs(a)`: clears the sign bit (R9). -/
def fabs : F32 → F32
  | .fin _ m => .fin false m
  | .inf _ => .inf false
  | .nan _ p => .nan false p

/-- `fneg(a)`: flips the sign bit (R9). -/
def fneg : F32 → F32
  | .fin n m => .fin (!n) m
  | .inf n => .inf (!n)
  | .nan n p => .nan (!n) p

/-- The magnitude of the finite pattern with bits [30:0] = `m`, in units of 2^-149. -/
def magUnits (m : Nat) : Nat :=
  if m < 2 ^ 23 then m else (2 ^ 23 + m % 2 ^ 23) * 2 ^ (m / 2 ^ 23 - 1)

/-- The exact signed value of a finite pattern, in units of 2^-149. -/
def exactUnits (neg : Bool) (m : Fin 0x7F800000) : Int :=
  if neg then -(magUnits m.val : Int) else (magUnits m.val : Int)

/-- The exact value of a finite binary32 in units of 2^-149, 0 for the others. -/
def unitsOf : F32 → Int
  | .fin n m => exactUnits n m
  | .inf _ => 0
  | .nan _ _ => 0

/-! ### Rounding -/

/-- Bits [30:0] of the binary32 nearest to `num / den` units of 2^-149, ties to even (R9). The quantum is 2^k units, the quotient
has 24 bits (fewer when subnormal), and a quotient rounded up to 2^24 carries into the exponent by itself. At or above 0x7F800000
the result has overflowed. -/
def roundBits (num den : Nat) : Nat :=
  let k := Nat.log2 (num / den) - 23
  let d := den * 2 ^ k
  let q := num / d
  let r := num % d
  k * 2 ^ 23 + (if d < 2 * r ∨ (2 * r = d ∧ q % 2 = 1) then q + 1 else q)

/-- A sign and magnitude bits, an infinity when they overflow. -/
def ofMagBits (neg : Bool) (b : Nat) : F32 :=
  if h : b < 0x7F800000 then .fin neg ⟨b, h⟩ else .inf neg

/-- The binary32 nearest to ± `num / den` units of 2^-149. -/
def roundUnits (neg : Bool) (num den : Nat) : F32 := ofMagBits neg (roundBits num den)

/-- The NaN a primitive produces: sign and payload are free (R9, U4; log 4). -/
def nanOf (op : FloatOp) (a b : F32) : F32 := .nan (Config.nanResult op a b).1 (Config.nanResult op a b).2

/-! ### The four primitives -/

/-- The sum of two values, `q` where it is a NaN. An exact zero is -0 only when both operands are negative (IEEE 754, R9). -/
def sumOr (q : F32) : F32 → F32 → F32
  | .nan _ _, _ => q
  | _, .nan _ _ => q
  | .inf x, .inf y => if x = y then .inf x else q
  | .inf x, .fin _ _ => .inf x
  | .fin _ _, .inf y => .inf y
  | .fin x m, .fin y n =>
    let t := exactUnits x m + exactUnits y n
    if t = 0 then .fin (x && y) 0 else roundUnits (decide (t < 0)) t.natAbs 1

/-- `fadd(a, b)` (R9). -/
def fadd (a b : F32) : F32 := sumOr (nanOf .add a b) a b

/-- `fsub(a, b)` (R9). -/
def fsub (a b : F32) : F32 := sumOr (nanOf .sub a b) a (fneg b)

/-- `fmul(a, b)` (R9). -/
def fmul (a b : F32) : F32 :=
  match a, b with
  | .nan _ _, _ => nanOf .mul a b
  | _, .nan _ _ => nanOf .mul a b
  | .inf x, .inf y => .inf (x != y)
  | .inf x, .fin y n => if n.val = 0 then nanOf .mul a b else .inf (x != y)
  | .fin x m, .inf y => if m.val = 0 then nanOf .mul a b else .inf (x != y)
  | .fin x m, .fin y n => roundUnits (x != y) (magUnits m.val * magUnits n.val) (2 ^ 149)

/-- `fdiv(a, b)` (R9). -/
def fdiv (a b : F32) : F32 :=
  match a, b with
  | .nan _ _, _ => nanOf .div a b
  | _, .nan _ _ => nanOf .div a b
  | .inf _, .inf _ => nanOf .div a b
  | .inf x, .fin y _ => .inf (x != y)
  | .fin x _, .inf y => .fin (x != y) 0
  | .fin x m, .fin y n =>
    if n.val = 0 then (if m.val = 0 then nanOf .div a b else .inf (x != y))
    else roundUnits (x != y) (magUnits m.val * 2 ^ 149) (magUnits n.val)

/-! ### Comparisons -/

/-- The position of a value on the number line, none for a NaN: sign and magnitude bits order like the values, and the two
zeros share a position. -/
def rank : F32 → Option Int
  | .fin n m => some (if n then -(m.val : Int) else (m.val : Int))
  | .inf n => some (if n then -0x7F800000 else 0x7F800000)
  | .nan _ _ => none

/-- `a < b` (R9): false when either is a NaN. -/
def flt (a b : F32) : Bool :=
  match rank a, rank b with
  | some x, some y => decide (x < y)
  | _, _ => false

/-- `a <= b` (R9): false when either is a NaN. -/
def fle (a b : F32) : Bool :=
  match rank a, rank b with
  | some x, some y => decide (x ≤ y)
  | _, _ => false

/-- `a > b` (R9). -/
def fgt (a b : F32) : Bool := flt b a

/-- `a >= b` (R9). -/
def fge (a b : F32) : Bool := fle b a

/-! ### Conversions (R10) -/

/-- `i2f(n)`: the nearest binary32, ties to even. -/
def i2f (n : Int) : F32 := roundUnits (decide (n < 0)) (n.natAbs * 2 ^ 149) 1

/-- `f2i(x)`: truncation toward zero, saturating to -2^31 .. 2^31-1; a NaN gives 0. -/
def f2i : F32 → Int
  | .nan _ _ => 0
  | .inf n => if n then -2147483648 else 2147483647
  | .fin n m =>
    let q := magUnits m.val / 2 ^ 149
    if n then -((min q 2147483648 : Nat) : Int) else ((min q 2147483647 : Nat) : Int)

/-! ### Small constants of the pseudocode -/

/-- +0.0 -/
def fzero : F32 := F32.ofBits 0x00000000#32
/-- 0.25 -/
def fquarter : F32 := F32.ofBits 0x3E800000#32
/-- 0.5 -/
def fhalf : F32 := F32.ofBits 0x3F000000#32
/-- 1.0 -/
def fone : F32 := F32.ofBits 0x3F800000#32
/-- -1.0 -/
def fnegOne : F32 := F32.ofBits 0xBF800000#32
/-- 2.0 -/
def ftwo : F32 := F32.ofBits 0x40000000#32
/-- 4.0 -/
def ffour : F32 := F32.ofBits 0x40800000#32
/-- 8.0 -/
def feight : F32 := F32.ofBits 0x41000000#32
/-- 60.0 -/
def fsixty : F32 := F32.ofBits 0x42700000#32
/-- 100.0 -/
def fhundred : F32 := F32.ofBits 0x42C80000#32

/-! ### Helper functions (R11) -/

/-- `clamp(x, lo, hi)`; a NaN gives `lo`. -/
def clamp (x lo hi : F32) : F32 :=
  if isNan x then lo else if flt x lo then lo else if fgt x hi then hi else x

/-- `clamp01(x)`. -/
def clamp01 (x : F32) : F32 := clamp x fzero fone

/-- `fmax2(a, b)`. -/
def fmax2 (a b : F32) : F32 :=
  if isNan a then b else if isNan b then a else if fgt a b then a else b

/-- `fmin2(a, b)`. -/
def fmin2 (a b : F32) : F32 :=
  if isNan a then b else if isNan b then a else if flt a b then a else b

/-- The remainder of `wrap01` after its first line: `x - i2f(f2i(x))`. -/
def truncRemainder (x : F32) : F32 := fsub x (i2f (f2i x))

/-- The second line of `wrap01`: a negative remainder moves up by 1.0. -/
def liftNegative (r : F32) : F32 := if flt r fzero then fadd r fone else r

/-- The third line of `wrap01`: whatever is not in [0,1) becomes 0.0. -/
def keepUnit (r : F32) : F32 := if fge r fzero && flt r fone then r else fzero

/-- `wrap01(x)`: the fast truncation-based modulo into [0,1), total. -/
def wrap01 (x : F32) : F32 := keepUnit (liftNegative (truncRemainder x))

/-- `tri01(p)`: the triangle 2 |frac(p + 0.25) - 0.5|. -/
def tri01 (p : F32) : F32 := fmul ftwo (fabs (fsub (wrap01 (fadd p fquarter)) fhalf))

/-- `Dnk(x)`: two separate roundings, never simplified (R366). At 2^-35 it is not yet the identity R367 speaks of; R366 is followed
(log 16). -/
def dnk (x : F32) : F32 := fsub (fadd x Config.dnK) Config.dnK

/-! ### Elementary functions (R13): the raw function with properties (a) to (c) imposed; (d), monotonicity, is the type of the raw
exponential and logarithm. A raw function that has all of R13 is returned unchanged, so every configuration R13 allows is one of
these (log 5). -/

/-- `y` when it is within [-1, 1], +0.0 otherwise (R13 (c)). -/
def unitOr (y : F32) : F32 := if fle fnegOne y && fle y fone then y else fzero

/-- One of the two zeros. -/
def isZero (x : F32) : Bool := fle x fzero && fle fzero x

/-- The position (`rank`) of the greatest finite value. -/
def finitePos : Int := 0x7F7FFFFF

/-- The position of 1.0. -/
def onePos : Int := 0x3F800000

/-- The position of 20, the end of the domain on which (a) makes `cfg.exp2` finite. -/
def exp2DomainPos : Int := 0x41A00000

/-- The value at a position of the number line, beyond its ends an infinity; the zero at position 0 has the given sign. -/
def ofRank (negZero : Bool) (r : Int) : F32 := if r = 0 then .fin negZero 0 else ofMagBits (decide (r < 0)) r.natAbs

/-- A position moved into the finite values. -/
def finiteRank (r : Int) : Int := max (-finitePos) (min finitePos r)

/-- `cfg.exp2` on positions: on the side of 1.0 that (b) and (d) put it on, finite on [-20, 20] (a). -/
def exp2Rank (r : Int) : Int :=
  let y := if r = 0 then onePos else if r < 0 then min onePos (Config.rawExp2.toFun r) else max onePos (Config.rawExp2.toFun r)
  if -exp2DomainPos ≤ r ∧ r ≤ exp2DomainPos then finiteRank y else y

/-- `cfg.exp2(x)`: finite on [-20, 20] (a); 1.0 at 0.0 (b), and at -0.0, which (d) then forces; monotone (d); log 5. R281 and
R387 say more of it than R13 gives; the model follows R13 (log 17). -/
def cfgExp2 (x : F32) : F32 :=
  match rank x with
  | some r => ofRank (Config.exp2ZeroSign x) (exp2Rank r)
  | none => Config.exp2OfNan x

/-- `cfg.log2` on the positions of positive values: on the side of 0.0 that (b) and (d) put it on, finite for a finite operand (a). -/
def log2Rank (r : Int) : Int :=
  let y := if r < onePos then min 0 (Config.rawLog2.toFun r) else max 0 (Config.rawLog2.toFun r)
  if r ≤ finitePos then finiteRank y else y

/-- `cfg.log2(x)`: finite for finite x > 0 (a); 0.0 at 1.0 (b); monotone for x > 0 (d); free elsewhere; log 5. -/
def cfgLog2 (x : F32) : F32 :=
  if x = fone then fzero
  else if fgt x fzero then
    match rank x with
    | some r => ofRank (Config.log2ZeroSign x) (log2Rank r)
    | none => Config.log2Outside x
  else Config.log2Outside x

/-- `cfg.sin2pi(p)`: magnitude at most 1.0 (a, c); +0.0 at +0.0 (b), free in [-1, 1] at -0.0; log 5. -/
def cfgSin2pi (p : F32) : F32 := if p = fzero then fzero else unitOr (Config.rawSin2pi p)

/-- `cfg.cos2pi(p)`: magnitude at most 1.0 (a, c); 1.0 at +0.0 (b), free in [-1, 1] at -0.0; log 5. -/
def cfgCos2pi (p : F32) : F32 := if p = fzero then fone else unitOr (Config.rawCos2pi p)

/-- `cfg.tanh(x)`: magnitude at most 1.0 (a, c); +0.0 at +0.0 (b), free in [-1, 1] at -0.0, which `WS.TANH` reaches; R13 does not say
whether (b) covers -0.0 (log 5). -/
def cfgTanh (x : F32) : F32 := if x = fzero then fzero else unitOr (Config.rawTanh x)

end Sys2Proof
end

