-- ==== Sys2Proof/Machine/State.lean ====
section
/-! DEFINITION. The state of CORE as plain data (R20), the reasons a step can stop, and the state after reset (R430). -/

namespace Sys2Proof.Machine

/-- Why the machine stops. CORE raises no exception and never stops (R400: 'Every operation of every unit runs to completion'), so
there is no constructor, and no claim can be lost or gained by one. -/
inductive Fault where
deriving DecidableEq, Repr

/-- Why an instruction is refused. -/
inductive Refusal where
  /-- Raised by `exec` for an instruction that has no meaning yet. Safe: nothing can be proved of what it does. -/
  | notModelled (mnemonic : String)
deriving DecidableEq, Repr

/-- The six sticky diagnostic flags of `STATUS` (R25), bits 0 to 5. -/
structure Status where
  illcmd : Bool
  buserr : Bool
  range : Bool
  nonfin : Bool
  argerr : Bool
  clkrej : Bool
deriving DecidableEq, Repr

/-- The sample memory of one delay line (R70) as bytes. `cells` lists (key, byte) with keys strictly rising; the key of byte `b` of
slot `a` is 4 * a + b (log 3). What an unlisted byte reads as is `LineMemory.unlisted` (Machine/Ops.lean): zero once `DL.INIT` has
cleared the line, the power-on draw before (R43, log 2). -/
structure LineMemory where
  cells : List Host.Cell
  cleared : Bool
deriving DecidableEq, Repr

/-- The four sample memories, never aliased (R70). -/
structure Memory where
  line : Per4 LineMemory
deriving DecidableEq, Repr

/-- A delay line without its samples (R28). -/
structure DelayLine where
  wp : Word
  dlyI : Word
  dlyF : F32
deriving DecidableEq, Repr

/-- A phasor (R29). -/
structure Phasor where
  main : F32
  mod : F32
  sr : F32
  dsamp : F32
  freq : F32
  ratio : F32
  depth : F32
deriving DecidableEq, Repr

/-- The clock engine (R30). -/
structure Clock where
  mode : ClockMode
  spqn : Word
  ppqnInt : Word
  ppqnExt : Word
  outAcc : Word
  detAcc : Word
  pulseCnt : Word
  avg : Per3 Word
  avgIdx : Fin 3
  avgFill : Fin 4
  gate : Bool
  gateTimer : Word
  timeoutCnt : Word
  clockTimeout : Word
  lastValid : Word
  prevTrig : Bool
  firstSeen : Bool
  sr : Word
  block : Word
deriving DecidableEq, Repr

/-- The host-written input registers of the effect engine (R32, R33). -/
structure FxInput where
  dry : Per4 F32
  dly : Per4 F32
  meta1 : F32
  meta2 : F32
  ctl : Word
  fb : F32
  p : Per4 F32
deriving DecidableEq, Repr

/-- A grain (R37). -/
structure Grain where
  active : Bool
  pos : F32
  inc : F32
  amp : F32
  size : F32
  phase : F32
deriving DecidableEq, Repr

/-- The effect engine's state of one channel (R34, R35, R37, R38, R39). -/
structure FxChannel where
  lastOut : F32
  lastPos : F32
  posValid : Bool
  xfRem : Nat
  xfFrom : F32
  apX1 : Per2 F32
  apY1 : Per2 F32
  wet : F32
  which : F32
  curD : F32
  prevD : F32
  dxfPos : F32
  dvalid : Bool
  acc : F32
  lastSlice : Fin 8
  gphase : F32
  grain : Per4 Grain
  blkCnt : Word
  subStep : Fin 4
  rateSm : F32
  px : F32
  py : F32
  vx : F32
  vy : F32
  tx : F32
  ty : F32
deriving DecidableEq, Repr

/-- The effect engine's own state (R34 to R39). -/
structure Fx where
  sr : F32
  curMode : FxMode
  rng : Word
  chan : Per4 FxChannel
  lfoPh : Per2 F32
  orbit : F32
  cx : Per2 F32
  cy : Per2 F32
deriving DecidableEq, Repr

/-- A one-pole smoother (R40). -/
structure Smoother where
  y : F32
  a : F32
deriving DecidableEq, Repr

/-- The whole state of CORE (R20), with the pc R23 offers a model and four fields of the model's own: the transactions still to
be performed, the values reads have returned, and (in `capOffset` and `cleared`) what R6 and R43 leave open. -/
structure State where
  arg : Per8 Word
  res : Per8 Word
  status : Status
  mem : Memory
  dl : Per4 DelayLine
  ph : Per4 Phasor
  ck : Clock
  fxIn : FxInput
  fx : Fx
  sm : Per8 Smoother
  pc : Nat
  bus : List Txn
  readLog : List Word
  capOffset : Fin 16777209
deriving DecidableEq, Repr

/-- The parameter `CAP` (R6): 8 <= CAP <= 2^24 in every state. -/
def State.cap (s : State) : Nat := 8 + s.capOffset.val

/-- Grains after reset (R37). -/
def Grain.reset : Grain :=
  { active := false, pos := F32.ofBits 0x00000000#32, inc := F32.ofBits 0x3F800000#32, amp := F32.ofBits 0x00000000#32
    size := F32.ofBits 0x3F800000#32, phase := F32.ofBits 0x00000000#32 }

/-- A channel of the effect engine after reset, its particle at (`x`, `y`) (R34 to R39). -/
def FxChannel.resetAt (x y : F32) : FxChannel :=
  { lastOut := F32.ofBits 0x00000000#32, lastPos := F32.ofBits 0x00000000#32, posValid := false
    xfRem := 0, xfFrom := F32.ofBits 0x00000000#32
    apX1 := ⟨F32.ofBits 0x00000000#32, F32.ofBits 0x00000000#32⟩
    apY1 := ⟨F32.ofBits 0x00000000#32, F32.ofBits 0x00000000#32⟩
    wet := F32.ofBits 0x00000000#32, which := F32.ofBits 0x00000000#32
    curD := F32.ofBits 0x00000000#32, prevD := F32.ofBits 0x00000000#32, dxfPos := F32.ofBits 0x3F800000#32, dvalid := false
    acc := F32.ofBits 0x00000000#32, lastSlice := 0, gphase := F32.ofBits 0x00000000#32
    grain := ⟨Grain.reset, Grain.reset, Grain.reset, Grain.reset⟩
    blkCnt := 0#32, subStep := 0, rateSm := F32.ofBits 0x3F800000#32
    px := x, py := y, vx := F32.ofBits 0x00000000#32, vy := F32.ofBits 0x00000000#32
    tx := F32.ofBits 0x00000000#32, ty := F32.ofBits 0x00000000#32 }

/-- The effect engine with every field but the sample rate at its reset value (R34 to R39, R211). -/
def Fx.resetWith (sr : F32) : Fx :=
  { sr := sr, curMode := .basic, rng := 1#32
    chan :=
      ⟨FxChannel.resetAt (F32.ofBits 0x3E800000#32) (F32.ofBits 0x3E800000#32),
        FxChannel.resetAt (F32.ofBits 0x3F400000#32) (F32.ofBits 0x3E800000#32),
        FxChannel.resetAt (F32.ofBits 0x3E800000#32) (F32.ofBits 0x3F400000#32),
        FxChannel.resetAt (F32.ofBits 0x3F400000#32) (F32.ofBits 0x3F400000#32)⟩
    lfoPh := ⟨F32.ofBits 0x00000000#32, F32.ofBits 0x00000000#32⟩
    orbit := F32.ofBits 0x00000000#32
    cx := ⟨F32.ofBits 0x3F400000#32, F32.ofBits 0x3E800000#32⟩
    cy := ⟨F32.ofBits 0x3F000000#32, F32.ofBits 0x3F000000#32⟩ }

/-- A phasor after reset (R29). -/
def Phasor.reset : Phasor :=
  { main := F32.ofBits 0x00000000#32, mod := F32.ofBits 0x00000000#32, sr := Config.srNomF
    dsamp := Config.srNomF, freq := F32.ofBits 0x3F800000#32, ratio := F32.ofBits 0x3F800000#32
    depth := F32.ofBits 0x00000000#32 }

/-- 24000 at reset: samples per quarter at `BPM_DEFAULT` and `SR_NOM` (R6, R30). -/
def Clock.spqnReset : Word := BitVec.ofNat 32 (Config.srNom * Config.secPerMin / Config.bpmDefault)

/-- 24000 at reset: `TIMEOUT_MS` in frames at `SR_NOM` (R6, R30). -/
def Clock.timeoutReset : Word := BitVec.ofNat 32 (Config.srNom * Config.timeoutMs / Config.msPerSec)

/-- The clock engine after reset (R30): the state `CK.INIT` gives for (48000, 0, 4, 24000, 0) with `ppqn_ext` 1 (R430). -/
def Clock.reset : Clock :=
  { mode := .internal, spqn := Clock.spqnReset, ppqnInt := 4#32, ppqnExt := 1#32, outAcc := 0#32, detAcc := 0#32, pulseCnt := 0#32
    avg := ⟨0#32, 0#32, 0#32⟩, avgIdx := 0, avgFill := 0, gate := false, gateTimer := 0#32, timeoutCnt := 0#32
    clockTimeout := Clock.timeoutReset, lastValid := Clock.spqnReset, prevTrig := false, firstSeen := false
    sr := BitVec.ofNat 32 Config.srNom, block := 0#32 }

/-- The effect engine's input registers after reset (R27): `FX_P1..4` are 20.0, 10.0, 0, 0, the others 0. -/
def FxInput.reset : FxInput :=
  { dry := Per4.fill (F32.ofBits 0x00000000#32), dly := Per4.fill (F32.ofBits 0x00000000#32)
    meta1 := F32.ofBits 0x00000000#32, meta2 := F32.ofBits 0x00000000#32, ctl := 0#32, fb := F32.ofBits 0x00000000#32
    p := ⟨F32.ofBits 0x41A00000#32, F32.ofBits 0x41200000#32, F32.ofBits 0x00000000#32, F32.ofBits 0x00000000#32⟩ }

/-- The machine right after hardware reset (R430). The sample memory lists nothing and no line is cleared (R43); the
transactions come from outside (log 6); the capacity is the open parameter (log 1). -/
def State.reset : State :=
  { arg := Per8.fill 0#32
    res := Per8.fill 0#32
    status := ⟨false, false, false, false, false, false⟩
    mem := { line := Per4.fill { cells := [], cleared := false } }
    dl := Per4.fill { wp := 0#32, dlyI := 0#32, dlyF := F32.ofBits 0x00000000#32 }
    ph := Per4.fill Phasor.reset
    ck := Clock.reset
    fxIn := FxInput.reset
    fx := Fx.resetWith Config.srNomF
    sm := Per8.fill { y := F32.ofBits 0x00000000#32, a := F32.ofBits 0x3F800000#32 }
    pc := 0
    bus := []
    readLog := []
    capOffset := Config.capOffset }

end Sys2Proof.Machine
end

