-- ==== Sys2Proof/Machine/Ops.lean ====
section
/-! DEFINITION. The named operations over the sample memory and the registers. CORE takes no exception and returns from none (R400,
R403); what stands in their place, the sticky flag with a substitute result (R401), is `State.raise` of Machine/Flags.lean. -/

namespace Sys2Proof.Machine

/-! ### The sample memory (R70, R71) -/

/-- The key of byte `b` of slot `a` (log 3). -/
def slotKey (a b : Nat) : Nat := a * 4 + b

/-- What an unlisted byte is known to hold: zero once `DL.INIT` has cleared the line (R131), nothing before (R43). -/
def LineMemory.unlisted (m : LineMemory) : Option Byte := if m.cleared then some 0#8 else none

/-- The byte listed at a key. -/
def lookupCell (k : Nat) : List Host.Cell → Option Byte
  | [] => none
  | x :: rest => if x.1 = k then some x.2 else lookupCell k rest

/-- The byte a line is known to hold at a key. -/
def LineMemory.known (m : LineMemory) (k : Nat) : Option Byte := (lookupCell k m.cells).or m.unlisted

/-- The byte at key `k` of line `c`: the known one, else the power-on draw (R43; log 2). -/
def Memory.readByte (m : Memory) (c : Fin 4) (k : Nat) : Byte := ((m.line.get c).known k).getD (Config.powerOnByte c k)

/-- The cells with one key's byte replaced or added, keys kept rising. -/
def insertCell (k : Nat) (v : Byte) : List Host.Cell → List Host.Cell
  | [] => [(k, v)]
  | x :: rest => if k < x.1 then (k, v) :: x :: rest else if x.1 = k then (k, v) :: rest else x :: insertCell k v rest

/-- The cells without a key. -/
def eraseCell (k : Nat) : List Host.Cell → List Host.Cell
  | [] => []
  | x :: rest => if x.1 = k then rest else x :: eraseCell k rest

/-- A byte written; writing what an unlisted byte is known to hold removes the entry. -/
def LineMemory.writeByte (m : LineMemory) (k : Nat) (v : Byte) : LineMemory :=
  { m with cells := if m.unlisted = some v then eraseCell k m.cells else insertCell k v m.cells }

/-- The keys rise strictly, from `lo` on. -/
def risingFrom : Nat → List Host.Cell → Bool
  | _, [] => true
  | lo, x :: rest => decide (lo ≤ x.1) && risingFrom (x.1 + 1) rest

/-- The canonical form of one line: keys strictly rising, no entry equal to what an unlisted byte is known to hold. -/
def LineMemory.wf (m : LineMemory) : Bool :=
  risingFrom 0 m.cells && m.cells.all (fun x => decide (m.unlisted ≠ some x.2))

/-- The canonical form of the sample memory. -/
def Memory.wf (m : Memory) : Bool := m.line.e0.wf && m.line.e1.wf && m.line.e2.wf && m.line.e3.wf

/-- `MemRead(c, a)`: the 32 bits of a slot, its lowest key the least significant byte (R71; log 3). -/
def Memory.readSlot (m : Memory) (c : Fin 4) (a : Nat) : Word :=
  m.readByte c (slotKey a 3) ++ m.readByte c (slotKey a 2) ++ m.readByte c (slotKey a 1) ++ m.readByte c (slotKey a 0)

/-- The 32 bits of a slot of one line replaced. -/
def LineMemory.writeSlot (m : LineMemory) (a : Nat) (v : Word) : LineMemory :=
  (((m.writeByte (slotKey a 0) (v.extractLsb' 0 8)).writeByte (slotKey a 1) (v.extractLsb' 8 8)).writeByte
    (slotKey a 2) (v.extractLsb' 16 8)).writeByte (slotKey a 3) (v.extractLsb' 24 8)

/-- `MemWrite(c, a, v)`: replaces the 32 bits of a slot (R71). -/
def Memory.writeSlot (m : Memory) (c : Fin 4) (a : Nat) (v : Word) : Memory :=
  { line := m.line.set c ((m.line.get c).writeSlot a v) }

/-- Every slot of a line written with +0.0 (R131): the line's entries go and its unlisted bytes read as zero. -/
def Memory.clearLine (m : Memory) (c : Fin 4) : Memory := { line := m.line.set c { cells := [], cleared := true } }

/-! ### Register updates (R12: `x[i] <- v`) -/

/-- `ARG[i] <- v`. -/
def State.setArg (s : State) (i : Fin 8) (v : Word) : State := { s with arg := s.arg.set i v }

/-- `RES[i] <- v`. -/
def State.setRes (s : State) (i : Fin 8) (v : Word) : State := { s with res := s.res.set i v }

/-- The delay line's registers replaced. -/
def State.setDl (s : State) (c : Fin 4) (d : DelayLine) : State := { s with dl := s.dl.set c d }

/-- A phasor replaced. -/
def State.setPh (s : State) (c : Fin 4) (p : Phasor) : State := { s with ph := s.ph.set c p }

/-- The clock engine replaced. -/
def State.setCk (s : State) (k : Clock) : State := { s with ck := k }

/-- The effect engine's own state replaced. -/
def State.setFx (s : State) (f : Fx) : State := { s with fx := f }

/-- The effect engine's input registers replaced. -/
def State.setFxIn (s : State) (f : FxInput) : State := { s with fxIn := f }

/-- A smoother replaced. -/
def State.setSm (s : State) (k : Fin 8) (x : Smoother) : State := { s with sm := s.sm.set k x }

/-- The sample memory replaced. -/
def State.setMem (s : State) (m : Memory) : State := { s with mem := m }

/-- One transaction done (R23): it leaves the list and the pc advances by exactly 1. -/
def State.advance (s : State) : State := { s with bus := s.bus.tail, pc := s.pc + 1 }

/-- The value a read returned, kept for the host (R110; log 8). -/
def State.logRead (s : State) (v : Word) : State := { s with readLog := s.readLog ++ [v] }

/-! ### Delay-line addressing (R135, R139) -/

/-- `mod_floor(a, n)` (R11). -/
def modFloor (a : Int) (n : Nat) : Nat := (a % (n : Int)).toNat

/-- `tap(c, i, k)`: the sample `i + k` slots behind the cursor (R139). -/
def tap (s : State) (c : Fin 4) (i k : Int) : F32 :=
  F32.ofBits (s.mem.readSlot c (modFloor (((s.dl.get c).wp.toNat : Int) - i - k) s.cap))

/-- The integer part of `split(d)` (R139). `f2i` saturates beyond 2^31, so two delays `CAP` apart need not have integer parts `CAP` apart,
as R140's text takes for granted; R139's pseudocode is followed (log 18). -/
def splitInt (d : F32) : Int := f2i d

/-- The fraction of `split(d)` (R139). Where `f2i` saturates it is outside the [0,1) and (-1,0] of R139's text; the pseudocode is followed
(log 18). -/
def splitFrac (d : F32) : F32 := fsub d (i2f (f2i d))

/-- The delay is outside [0, CAP), or a NaN: the condition of `STATUS.RANGE` (R135). -/
def outOfRange (s : State) (d : F32) : Bool := !(fle fzero d && flt d (i2f (s.cap : Int)))

/-- Linear interpolation between the taps at `i` and `i + 1` (R136, R138). -/
def readLinAt (s : State) (c : Fin 4) (i : Int) (f : F32) : F32 :=
  fadd (tap s c i 0) (fmul (fsub (tap s c i 1) (tap s c i 0)) f)

/-- `ReadLin(c, d)` (R136). -/
def readLin (s : State) (c : Fin 4) (d : F32) : F32 := readLinAt s c (splitInt d) (splitFrac d)

/-- The Catmull-Rom cubic of four taps at fraction `f`, in the evaluation order of R137. -/
def hermite (xm1 x0 x1 x2 f : F32) : F32 :=
  let cc := fmul (fsub x1 xm1) fhalf
  let v := fsub x0 x1
  let w := fadd cc v
  let a := fadd (fadd w v) (fmul (fsub x2 x0) fhalf)
  let bn := fadd w a
  fadd (fmul (fadd (fmul (fsub (fmul a f) bn) f) cc) f) x0

/-- `ReadHerm(c, d)` (R137). -/
def readHerm (s : State) (c : Fin 4) (d : F32) : F32 :=
  hermite (tap s c (splitInt d) (-1)) (tap s c (splitInt d) 0) (tap s c (splitInt d) 1) (tap s c (splitInt d) 2) (splitFrac d)

/-- The slot the next write of the line fills: its cursor. -/
def writeSlotOf (s : State) (c : Fin 4) : Nat := (s.dl.get c).wp.toNat

/-- A sample stored at the cursor and the cursor advanced by one, wrapping at `CAP` (R132). -/
def lineWrite (s : State) (c : Fin 4) (v : Word) : State :=
  (s.setMem (s.mem.writeSlot c (writeSlotOf s c) v)).setDl c
    { s.dl.get c with wp := BitVec.ofNat 32 (modFloor ((writeSlotOf s c : Int) + 1) s.cap) }

end Sys2Proof.Machine
end

