-- ==== Sys2Proof/Machine/Flags.lean ====
section
/-! DEFINITION. The six sticky flags of `STATUS` (R25) and the conditions that set them (R401). -/

namespace Sys2Proof.Machine

/-- A flag of `STATUS`. -/
inductive Flag where
  | illcmd | buserr | range | nonfin | argerr | clkrej
deriving DecidableEq, Repr

/-- A flag's value. -/
def Status.flag (st : Status) : Flag → Bool
  | .illcmd => st.illcmd
  | .buserr => st.buserr
  | .range => st.range
  | .nonfin => st.nonfin
  | .argerr => st.argerr
  | .clkrej => st.clkrej

/-- `STATUS.X <- 1` when the condition holds; a flag that is set stays set (R25). -/
def Status.raise (st : Status) (f : Flag) (cond : Bool) : Status :=
  match f with
  | .illcmd => { st with illcmd := st.illcmd || cond }
  | .buserr => { st with buserr := st.buserr || cond }
  | .range => { st with range := st.range || cond }
  | .nonfin => { st with nonfin := st.nonfin || cond }
  | .argerr => { st with argerr := st.argerr || cond }
  | .clkrej => { st with clkrej := st.clkrej || cond }

/-- The machine with a flag raised when the condition holds. -/
def State.raise (s : State) (f : Flag) (cond : Bool) : State := { s with status := s.status.raise f cond }

/-- A bit of a word as a number. -/
def bitOf (b : Bool) : Nat := if b then 1 else 0

/-- `STATUS` as the host reads it; bits [31:6] read 0 (R25). -/
def Status.toWord (st : Status) : Word :=
  BitVec.ofNat 32 (bitOf st.illcmd + 2 * bitOf st.buserr + 4 * bitOf st.range + 8 * bitOf st.nonfin
    + 16 * bitOf st.argerr + 32 * bitOf st.clkrej)

/-- Write-one-to-clear (R25). -/
def Status.writeOneToClear (st : Status) (v : Word) : Status :=
  { illcmd := st.illcmd && !v.getLsbD 0
    buserr := st.buserr && !v.getLsbD 1
    range := st.range && !v.getLsbD 2
    nonfin := st.nonfin && !v.getLsbD 3
    argerr := st.argerr && !v.getLsbD 4
    clkrej := st.clkrej && !v.getLsbD 5 }

/-- The value of `FinGuard(x)` (R366): +0.0 for a NaN or an infinity. -/
def finValue (x : F32) : F32 := if isFinite x then x else fzero

/-- The condition under which `FinGuard(x)` sets `NONFIN` (R366). -/
def notFinite (x : F32) : Bool := !isFinite x

/-- The condition under which a sample rate argument is replaced (R151, R211). -/
def badRate (sr : F32) : Bool := notFinite sr || flt sr fone

/-- A sample rate argument or its default (R151, R211). -/
def rateOr (sr : F32) : F32 := if badRate sr then Config.srNomF else sr

/-- The condition under which a tempo setter rejects its argument (R189, R190). -/
def badTempo (x : F32) : Bool := notFinite x || !fgt x fzero

end Sys2Proof.Machine
end

