-- ==== Sys2Proof/Machine/Operands.lean ====
section
/-! DEFINITION. The operand forms: `ARG` registers read as the types of R8, `RES` registers written from them (R21, R107), `FX_CTL`
bits (R33). -/

namespace Sys2Proof.Machine

/-- `ARG[i]` as an `F32`. -/
def argF (s : State) (i : Fin 8) : F32 := F32.ofBits (s.arg.get i)

/-- `ARG[i]` as a `U32`. -/
def argU (s : State) (i : Fin 8) : Nat := (s.arg.get i).toNat

/-- `ARG[i]` as an `I32`. -/
def argI (s : State) (i : Fin 8) : Int := (s.arg.get i).toInt

/-- `ARG[i]` as a `BOOL`: bit 0, the others ignored (R8). -/
def argB (s : State) (i : Fin 8) : Bool := (s.arg.get i).getLsbD 0

/-- A `BOOL` as a register word. -/
def boolWord (b : Bool) : Word := if b then 1#32 else 0#32

/-- A `U32` as a register word. -/
def natWord (n : Nat) : Word := BitVec.ofNat 32 n

/-- An `I32` as a register word. -/
def intWord (n : Int) : Word := BitVec.ofInt 32 n

/-- `RES[i] <- x` for an `F32`. -/
def State.setResF (s : State) (i : Fin 8) (x : F32) : State := s.setRes i x.toBits

/-- `RES[i] <- b` for a `BOOL`. -/
def State.setResB (s : State) (i : Fin 8) (b : Bool) : State := s.setRes i (boolWord b)

/-- `FX_CTL.FREEZE` (R33). -/
def frozen (s : State) : Bool := s.fxIn.ctl.getLsbD 0

/-- `FX_CTL.APEN` (R33). -/
def allpassOn (s : State) : Bool := s.fxIn.ctl.getLsbD 1

end Sys2Proof.Machine
end

