-- ==== Sys2Proof/Machine/Clock.lean ====
section
/-! DEFINITION. The clock recovery engine (R170 to R198). Quantities are computed as unbounded integers and narrowed to their
registers at the end (R172). -/

namespace Sys2Proof.Machine

/-! ### Derived quantities (R172) -/

/-- `gate_len()`. -/
def gateLen (k : Clock) : Nat := max 1 (k.sr.toNat * Config.gateMs / Config.msPerSec)

/-- Samples per quarter note at `BPM_DEFAULT` and a sample rate: half the rate. -/
def quarterAtDefault (rate : Nat) : Nat := max 1 (rate * Config.secPerMin / Config.bpmDefault)

/-- `default_spqn()`. -/
def defaultSpqn (k : Clock) : Nat := quarterAtDefault k.sr.toNat

/-- `det_ppqn()`. -/
def detPpqn (k : Clock) : Nat :=
  match k.mode with
  | .midiClock => Config.midiPpqn
  | .externalCV => k.ppqnExt.toNat
  | .internal => 1

/-- `cur_ppqn()`. -/
def curPpqn (k : Clock) : Nat :=
  match k.mode with
  | .midiClock => Config.midiPpqn
  | .externalCV => k.ppqnExt.toNat
  | .internal => k.ppqnInt.toNat

/-- `div_thr()`, used only when SPQN is positive. -/
def divThr (k : Clock) : Nat := max 1 (k.spqn.toInt.toNat / k.ppqnInt.toNat)

/-- `inc_sat(x)`: U32 counters stop at their maximum. -/
def incSat (x : Word) : Word := if x.toNat < 2 ^ 32 - 1 then natWord (x.toNat + 1) else x

/-- The value of `IsExternalClockPresent()` (R197, R31). -/
def clockPresent (k : Clock) : Bool := decide (k.timeoutCnt.toNat < k.clockTimeout.toNat)

/-! ### Re-arm, mode (R175, R176) -/

/-- `Rearm()` (R176): the gate and its timer are not touched. -/
def rearm (k : Clock) : Clock :=
  { k with
    outAcc := 0#32, detAcc := 0#32, pulseCnt := 0#32, timeoutCnt := 0#32
    avg := ⟨0#32, 0#32, 0#32⟩, avgIdx := 0, avgFill := 0, prevTrig := false, firstSeen := false }

/-- The SPQN Internal mode is entered with when SPQN is not positive (R175). -/
def restoredSpqn (k : Clock) : Word := if 0 < k.lastValid.toInt then k.lastValid else natWord (defaultSpqn k)

/-- The SPQN a mode set leaves (R175). -/
def modeSpqn (m : ClockMode) (k : Clock) : Word :=
  match m with
  | .internal => if k.spqn.toInt ≤ 0 then restoredSpqn k else k.spqn
  | .externalCV => 0#32
  | .midiClock => 0#32

/-- `SetMode` (R175). -/
def setMode (m : ClockMode) (k : Clock) : Clock := { rearm k with mode := m, spqn := modeSpqn m k }

/-! ### `Init` (R171) -/

/-- The sample rate argument or its default. -/
def initRate (n : Nat) : Nat := if n < 1 then Config.srNom else n

/-- The PPQN argument or its default. -/
def initPpqn (n : Nat) : Nat := if n < 1 then 1 else n

/-- The mode argument or its default. -/
def initMode (n : Nat) : ClockMode :=
  match n with
  | 1 => .externalCV
  | 2 => .midiClock
  | _ => .internal

/-- Any of the four guarded arguments was replaced. -/
def initArgErr (s : State) : Bool :=
  decide (argU s 0 < 1) || decide (argU s 2 < 1) || decide (2 < argU s 4) || decide (argI s 3 ≤ 0)

/-- The initial SPQN: the argument, or `BPM_DEFAULT` at the new sample rate. -/
def initSpqn (spqn : Int) (rate : Nat) : Word := if spqn ≤ 0 then natWord (quarterAtDefault rate) else intWord spqn

/-- The default timeout in frames at a sample rate, `TIMEOUT_MS`: half the rate (R171). -/
def initTimeout (rate : Nat) : Nat := rate * Config.timeoutMs / Config.msPerSec

/-- The clock `CK.INIT` leaves; `ppqn_ext` is kept (R171). -/
def initClock (rate block ppqn : Nat) (spqn : Int) (m : ClockMode) (k : Clock) : Clock :=
  { rearm k with
    sr := natWord rate, block := natWord block, ppqnInt := natWord ppqn, mode := m
    spqn := if m = .internal then initSpqn spqn rate else 0#32
    lastValid := initSpqn spqn rate
    clockTimeout := natWord (initTimeout rate)
    gate := false, gateTimer := 0#32 }

/-! ### `Tick` (R177 to R183) -/

/-- `GateCountdown()` (R178). -/
def gateCountdown (k : Clock) : Clock :=
  if 0 < k.gateTimer.toNat then { k with gate := true, gateTimer := natWord (k.gateTimer.toNat - 1) }
  else { k with gate := false }

/-- A scaled interval outside the sanity window (R182). -/
def implausible (scaled : Nat) : Bool := decide (scaled < Config.sanityLo) || decide (Config.sanityHi < scaled)

/-- The sum of the first `n` slots of the averaging buffer (R183). -/
def sumFilled (a : Per3 Word) (n : Nat) : Nat :=
  match n with
  | 0 => 0
  | 1 => a.e0.toNat
  | 2 => a.e0.toNat + a.e1.toNat
  | _ => a.e0.toNat + a.e1.toNat + a.e2.toNat

/-- `(avg_idx + 1) mod 3`. -/
def nextSlot (i : Fin 3) : Fin 3 := ⟨(i.val + 1) % Config.avgN, Nat.mod_lt _ (by decide)⟩

/-- `min(3, avg_fill + 1)`. -/
def nextFill (n : Fin 4) : Fin 4 := ⟨min Config.avgN (n.val + 1), by simp only [Config.avgN]; omega⟩

/-- The mean of the filled slots, rounded down (R183). -/
def meanFilled (a : Per3 Word) (n : Nat) : Nat := sumFilled a n / n

/-- The tempo filter (R183). -/
def filterTempo (k : Clock) (scaled : Nat) : Clock :=
  let avg := k.avg.set k.avgIdx (natWord scaled)
  let fill := nextFill k.avgFill
  { k with
    avg := avg, avgIdx := nextSlot k.avgIdx, avgFill := fill
    spqn := natWord (meanFilled avg fill.val)
    lastValid := natWord (meanFilled avg fill.val) }

/-- `ProcessTrigger(count)` rejects the interval: not the first pulse, and implausible (R181, R182). -/
def triggerRejected (k : Clock) (count : Nat) : Bool := k.firstSeen && implausible (count * detPpqn k)

/-- The clock after `ProcessTrigger(count)` (R181 to R183). -/
def processTrigger (k : Clock) (count : Nat) : Clock :=
  if k.firstSeen = false then { k with firstSeen := true }
  else if implausible (count * detPpqn k) then k
  else filterTempo k (count * detPpqn k)

/-- A rising edge of the trigger (R179). -/
def risingEdge (k : Clock) (trig : Bool) : Bool := trig && !k.prevTrig

/-- The detection half of an external-mode tick, after the detection accumulator has advanced (R177). -/
def detectEdge (k : Clock) (trig : Bool) : Clock :=
  if risingEdge k trig then { processTrigger { k with timeoutCnt := 0#32 } k.detAcc.toNat with detAcc := 0#32 }
  else { k with timeoutCnt := incSat k.timeoutCnt }

/-- The detection half of a tick: nothing in Internal mode (R177). -/
def detectStep (k : Clock) (trig : Bool) : Clock :=
  match k.mode with
  | .internal => k
  | .externalCV => detectEdge { k with detAcc := incSat k.detAcc } trig
  | .midiClock => detectEdge { k with detAcc := incSat k.detAcc } trig

/-- The interval of this tick is rejected (`CLKREJ`, R182). -/
def tickRejects (k : Clock) (trig : Bool) : Bool :=
  match k.mode with
  | .internal => false
  | .externalCV => risingEdge k trig && triggerRejected k (incSat k.detAcc).toNat
  | .midiClock => risingEdge k trig && triggerRejected k (incSat k.detAcc).toNat

/-- The divider emits a pulse in this frame (R180). In the frame of the first tempo it does so only if `out_acc` has reached the threshold,
whatever R180's last sentence says; the pseudocode is followed (log 18). -/
def dividerPulses (k : Clock) : Bool := decide (0 < k.spqn.toInt) && decide (divThr k ≤ k.outAcc.toNat)

/-- A pulse completes the quarter note (R180). -/
def quarterDone (k : Clock) : Bool := decide (k.ppqnInt.toNat ≤ k.pulseCnt.toNat + 1)

/-- The edge `OutputDivider()` returns (R180). -/
def dividerEdge (k : Clock) : Bool := dividerPulses k && quarterDone k

/-- The clock after `OutputDivider()` (R180). -/
def outputDivider (k : Clock) : Clock :=
  if dividerPulses k then
    if quarterDone k then
      { k with outAcc := 0#32, pulseCnt := 0#32, gate := true, gateTimer := natWord (gateLen k - 1) }
    else { k with outAcc := 0#32, pulseCnt := natWord (k.pulseCnt.toNat + 1) }
  else k

/-- The clock before the divider runs: gate countdown, output accumulator, detection, trigger memory (R177). -/
def tickInput (k : Clock) (trig : Bool) : Clock :=
  let g := gateCountdown k
  { detectStep { g with outAcc := incSat g.outAcc } trig with prevTrig := trig }

/-- The clock after `Tick` (R177). -/
def tickClock (k : Clock) (trig : Bool) : Clock := outputDivider (tickInput k trig)

/-- The edge `Tick` returns (R177). -/
def tickEdge (k : Clock) (trig : Bool) : Bool := dividerEdge (tickInput k trig)

/-! ### Setters and queries (R189 to R198) -/

/-- A tempo stored: `spqn` and `last_valid`, at least 1 (R189). -/
def storeTempo (k : Clock) (n : Int) : Clock := { k with spqn := intWord (max n 1), lastValid := intWord (max n 1) }

/-- A setter's effect: the tempo stored, or `ARGERR` and nothing else (R189). In every mode, so in an external mode SPQN can be positive
before the first accepted interval, where R30 and 90_conflicts.md C1 say 0; R189 is followed (log 20). -/
def setTempo (s : State) (bad : Bool) (n : Int) : State :=
  if bad then s.raise .argerr true else s.setCk (storeTempo s.ck n)

/-- SPQN of a tempo in beats per minute (R190); an integer, so it undoes `GetBPM()` only near audible tempos (log 18). -/
def spqnOfBpm (k : Clock) (b : F32) : Int := f2i (fadd (fdiv (fmul (i2f (k.sr.toNat : Int)) fsixty) b) fhalf)

/-- SPQN of a frequency in quarter notes per second (R191). -/
def spqnOfFreq (k : Clock) (h : F32) : Int := f2i (fadd (fdiv (i2f (k.sr.toNat : Int)) h) fhalf)

/-- SPQN of a sample count (R192). -/
def spqnOfSamples (x : F32) : Int := f2i (fadd x fhalf)

/-- `GetBPM()` (R194): rounded to nearest, halves up; 120 when SPQN is not positive. -/
def bpmOf (k : Clock) : Nat :=
  if k.spqn.toInt ≤ 0 then Config.bpmDefault
  else min (2 ^ 32 - 1) ((2 * k.sr.toNat * Config.secPerMin + k.spqn.toInt.toNat) / (2 * k.spqn.toInt.toNat))

/-- `GetFreq` (R195). -/
def freqOf (k : Clock) : F32 :=
  if k.spqn.toInt ≤ 0 then Config.freqDefault else fdiv (i2f (k.sr.toNat : Int)) (i2f k.spqn.toInt)

/-! ### The operations -/

/-- `CK.INIT` (R171). -/
def execCkInit (s : State) : Host.Outcome State Fault Refusal :=
  .next ((s.raise .argerr (initArgErr s)).setCk
    (initClock (initRate (argU s 0)) (argU s 1) (initPpqn (argU s 2)) (argI s 3) (initMode (argU s 4)) s.ck))

/-- `CK.TICK` (R177). -/
def execCkTick (s : State) : Host.Outcome State Fault Refusal :=
  .next ((((s.raise .clkrej (tickRejects s.ck (argB s 0))).setCk (tickClock s.ck (argB s 0))).setResB 0
    (tickEdge s.ck (argB s 0))).setResB 1 (tickClock s.ck (argB s 0)).gate)

/-- `CK.SETMODE INT` (R175). -/
def execCkSetmodeInt (s : State) : Host.Outcome State Fault Refusal := .next (s.setCk (setMode .internal s.ck))

/-- `CK.SETMODE CV` (R175). -/
def execCkSetmodeCv (s : State) : Host.Outcome State Fault Refusal := .next (s.setCk (setMode .externalCV s.ck))

/-- `CK.SETMODE MIDI` (R175). -/
def execCkSetmodeMidi (s : State) : Host.Outcome State Fault Refusal := .next (s.setCk (setMode .midiClock s.ck))

/-- `CK.SETBPM` (R190). -/
def execCkSetbpm (s : State) : Host.Outcome State Fault Refusal :=
  .next (setTempo s (badTempo (argF s 0)) (spqnOfBpm s.ck (argF s 0)))

/-- `CK.SETFREQ` (R191). -/
def execCkSetfreq (s : State) : Host.Outcome State Fault Refusal :=
  .next (setTempo s (badTempo (argF s 0)) (spqnOfFreq s.ck (argF s 0)))

/-- `CK.SETSMP` (R192). -/
def execCkSetsmp (s : State) : Host.Outcome State Fault Refusal :=
  .next (setTempo s (badTempo (argF s 0)) (spqnOfSamples (argF s 0)))

/-- `CK.SETSPQN` (R193). -/
def execCkSetspqn (s : State) : Host.Outcome State Fault Refusal :=
  .next (setTempo s (decide (argI s 0 ≤ 0)) (argI s 0))

/-- `CK.GETBPM` (R194). -/
def execCkGetbpm (s : State) : Host.Outcome State Fault Refusal := .next (s.setRes 0 (natWord (bpmOf s.ck)))

/-- `CK.GETFREQ` (R195). -/
def execCkGetfreq (s : State) : Host.Outcome State Fault Refusal := .next (s.setResF 0 (freqOf s.ck))

/-- `CK.GETSPB` (R196): SPQN as it is. -/
def execCkGetspb (s : State) : Host.Outcome State Fault Refusal := .next (s.setRes 0 s.ck.spqn)

/-- `CK.PRESENT` (R197). -/
def execCkPresent (s : State) : Host.Outcome State Fault Refusal := .next (s.setResB 0 (clockPresent s.ck))

/-- `CK.GETPPQN` (R198). -/
def execCkGetppqn (s : State) : Host.Outcome State Fault Refusal := .next (s.setRes 0 (natWord (curPpqn s.ck)))

end Sys2Proof.Machine
end

