-- ==== Sys2Proof/Machine/Bus.lean ====
section
/-! DEFINITION. Bus transactions (R74, R75): reading and writing registers, ignored accesses, illegal command words, and which of
these the next transaction of the list is. -/

namespace Sys2Proof.Machine

/-! ### Reading a register (R27, R74) -/

/-- The code of a clock mode (R104, R30). -/
def clockModeCode : ClockMode → Nat
  | .internal => 0
  | .externalCV => 1
  | .midiClock => 2

/-- `CK_FLAGS` (R31): gate, present, previous trigger, first pulse seen. -/
def clockFlags (k : Clock) : Word :=
  natWord (bitOf k.gate + 2 * bitOf (clockPresent k) + 4 * bitOf k.prevTrig + 8 * bitOf k.firstSeen)

/-- `CK_AVGPTR` (R27): the index in [1:0], the fill count in [5:4]. -/
def clockAvgPtr (k : Clock) : Word := natWord (k.avgIdx.val + 16 * k.avgFill.val)

/-- The value of a register as the host reads it (R27); `CMD` reads 0 (R75). -/
def regRead (s : State) : Reg → Word
  | .id => Config.idWord
  | .status => s.status.toWord
  | .cmd => 0#32
  | .capr => natWord s.cap
  | .arg i => s.arg.get i
  | .res i => s.res.get i
  | .ckMode => natWord (clockModeCode s.ck.mode)
  | .ckSpqn => s.ck.spqn
  | .ckPpqnInt => s.ck.ppqnInt
  | .ckPpqnExt => s.ck.ppqnExt
  | .ckTimeout => s.ck.clockTimeout
  | .ckLastvalid => s.ck.lastValid
  | .ckFlags => clockFlags s.ck
  | .ckSr => s.ck.sr
  | .ckBlock => s.ck.block
  | .ckOutacc => s.ck.outAcc
  | .ckDetacc => s.ck.detAcc
  | .ckPulsecnt => s.ck.pulseCnt
  | .ckTimeoutcnt => s.ck.timeoutCnt
  | .ckGatetimer => s.ck.gateTimer
  | .ckAvg j => s.ck.avg.get j
  | .ckAvgptr => clockAvgPtr s.ck
  | .dlWp c => (s.dl.get c).wp
  | .dlDlyi c => (s.dl.get c).dlyI
  | .dlDlyf c => (s.dl.get c).dlyF.toBits
  | .phMain c => (s.ph.get c).main.toBits
  | .phMod c => (s.ph.get c).mod.toBits
  | .phSr c => (s.ph.get c).sr.toBits
  | .phDsamp c => (s.ph.get c).dsamp.toBits
  | .phFreq c => (s.ph.get c).freq.toBits
  | .phRatio c => (s.ph.get c).ratio.toBits
  | .phDepth c => (s.ph.get c).depth.toBits
  | .fxDry c => (s.fxIn.dry.get c).toBits
  | .fxDly c => (s.fxIn.dly.get c).toBits
  | .fxMeta1 => s.fxIn.meta1.toBits
  | .fxMeta2 => s.fxIn.meta2.toBits
  | .fxCtl => s.fxIn.ctl
  | .fxFb => s.fxIn.fb.toBits
  | .fxP k => (s.fxIn.p.get k).toBits
  | .fxWet c => (s.fx.chan.get c).wet.toBits
  | .fxWhich c => (s.fx.chan.get c).which.toBits
  | .fxMode => natWord s.fx.curMode.code
  | .fxRng => s.fx.rng
  | .fxSr => s.fx.sr.toBits
  | .smY k => (s.sm.get k).y.toBits
  | .smA k => (s.sm.get k).a.toBits

/-! ### Writing a register (R27, R74) -/

/-- A PPQN as it is stored: a written 0 becomes 1 (R27). -/
def ppqnStored (v : Word) : Word := if v = 0#32 then 1#32 else v

/-- An access that is ignored sets `BUSERR` (R75). -/
def busError (s : State) : State := s.raise .buserr true

/-- A 32-bit write to a register: storage, write-one-to-clear, or ignored when read-only (R27, R74, R75). A write to `CMD` is
not stored; the operation it starts is `fetch`'s and `exec`'s business (R100). -/
def regWrite (s : State) (r : Reg) (v : Word) : State :=
  match r with
  | .status => { s with status := s.status.writeOneToClear v }
  | .cmd => s
  | .arg i => s.setArg i v
  | .ckPpqnInt => s.setCk { s.ck with ppqnInt := ppqnStored v }
  | .ckPpqnExt => s.setCk { s.ck with ppqnExt := ppqnStored v }
  | .ckTimeout => s.setCk { s.ck with clockTimeout := v }
  | .fxDry c => s.setFxIn { s.fxIn with dry := s.fxIn.dry.set c (F32.ofBits v) }
  | .fxDly c => s.setFxIn { s.fxIn with dly := s.fxIn.dly.set c (F32.ofBits v) }
  | .fxMeta1 => s.setFxIn { s.fxIn with meta1 := F32.ofBits v }
  | .fxMeta2 => s.setFxIn { s.fxIn with meta2 := F32.ofBits v }
  | .fxCtl => s.setFxIn { s.fxIn with ctl := v }
  | .fxFb => s.setFxIn { s.fxIn with fb := F32.ofBits v }
  | .fxP k => s.setFxIn { s.fxIn with p := s.fxIn.p.set k (F32.ofBits v) }
  | .fxRng => s.setFx { s.fx with rng := v }
  | .id | .capr | .res _ => busError s
  | .ckMode | .ckSpqn | .ckLastvalid | .ckFlags | .ckSr | .ckBlock => busError s
  | .ckOutacc | .ckDetacc | .ckPulsecnt | .ckTimeoutcnt | .ckGatetimer | .ckAvg _ | .ckAvgptr => busError s
  | .dlWp _ | .dlDlyi _ | .dlDlyf _ => busError s
  | .phMain _ | .phMod _ | .phSr _ | .phDsamp _ | .phFreq _ | .phRatio _ | .phDepth _ => busError s
  | .fxWet _ | .fxWhich _ | .fxMode | .fxSr | .smY _ | .smA _ => busError s

/-! ### Transactions -/

/-- A read transaction: the register's value, or 0 and `BUSERR` when the access is ignored (R75). -/
def busRead (s : State) (addr : BitVec 12) (bits : Nat) : State :=
  match accessTarget addr bits with
  | some r => s.logRead (regRead s r)
  | none => (busError s).logRead 0#32

/-- A write transaction that starts no operation (R74, R75). -/
def busWrite (s : State) (addr : BitVec 12) (bits : Nat) (v : Word) : State :=
  match accessTarget addr bits with
  | some r => regWrite s r v
  | none => busError s

/-- A transaction that starts no operation. -/
def transfer (t : Txn) (s : State) : State :=
  match t with
  | .write addr bits v => busWrite s addr bits v
  | .read addr bits => busRead s addr bits

/-- An illegal command word: a no-op that sets `ILLCMD` (R112; log 9). -/
def illegalCommand (s : State) : State := s.raise .illcmd true

/-- What the next transaction is. -/
inductive Fetched where
  /-- no transaction is left: nothing changes (R410; log 7) -/
  | idle
  /-- a command word written to `CMD` (R100) -/
  | command (w : Word)
  /-- any other transaction -/
  | transfer (t : Txn)
deriving DecidableEq, Repr

/-- What a transaction is: a command word when it writes 32 bits to `CMD` (R100). -/
def classify (t : Txn) : Fetched :=
  match t with
  | .write addr bits v => if accessTarget addr bits = some .cmd then .command v else .transfer t
  | .read _ _ => .transfer t

/-- The next transaction of the list (R23, R81). -/
def fetch (s : State) : Fetched :=
  match s.bus with
  | [] => .idle
  | t :: _ => classify t

/-- The transaction that carries a command word: `WR CMD, w` (R110). -/
def commandTxn (w : Word) : Txn := .write 0x008#12 32 w

end Sys2Proof.Machine
end

