-- ==== Sys2Proof/Machine/DelayLine.lean ====
section
/-! DEFINITION. The delay-line operations (R131 to R138). -/

namespace Sys2Proof.Machine

/-- `DL.INIT c` (R131). -/
def execDlInit (c : Fin 4) (s : State) : Host.Outcome State Fault Refusal :=
  .next ((s.setMem (s.mem.clearLine c)).setDl c { wp := 0#32, dlyI := 0#32, dlyF := fzero })

/-- `DL.WRITE c` (R132): the sample is stored bit for bit, frozen or not. -/
def execDlWrite (c : Fin 4) (s : State) : Host.Outcome State Fault Refusal :=
  .next (lineWrite s c (s.arg.get 0))

/-- `DL.WRITEG c` (R133): nothing under freeze; else the finite guard, the denormal killer, the write. -/
def execDlWriteg (c : Fin 4) (s : State) : Host.Outcome State Fault Refusal :=
  .next (if frozen s then s
    else lineWrite (s.raise .nonfin (notFinite (argF s 0))) c (dnk (finValue (argF s 0))).toBits)

/-- `DL.SETDLY c` (R134): the split delay is stored, in range or not. -/
def execDlSetdly (c : Fin 4) (s : State) : Host.Outcome State Fault Refusal :=
  .next ((s.raise .range (outOfRange s (argF s 0))).setDl c
    { s.dl.get c with dlyI := intWord (splitInt (argF s 0)), dlyF := splitFrac (argF s 0) })

/-- `DL.READ0 c` (R138): the linear read at the stored delay; no flag. -/
def execDlRead0 (c : Fin 4) (s : State) : Host.Outcome State Fault Refusal :=
  .next (s.setResF 0 (readLinAt s c (s.dl.get c).dlyI.toInt (s.dl.get c).dlyF))

/-- `DL.READ c` (R136). -/
def execDlRead (c : Fin 4) (s : State) : Host.Outcome State Fault Refusal :=
  .next ((s.raise .range (outOfRange s (argF s 0))).setResF 0 (readLin s c (argF s 0)))

/-- `DL.READH c` (R137). -/
def execDlReadh (c : Fin 4) (s : State) : Host.Outcome State Fault Refusal :=
  .next ((s.raise .range (outOfRange s (argF s 0))).setResF 0 (readHerm s c (argF s 0)))

end Sys2Proof.Machine
end

