-- ==== Sys2Proof/Machine/ParamSpec.lean ====
section
/-! DEFINITION. The parameter spec table's functions and commands (R381 to R387). -/

namespace Sys2Proof.Machine

/-- `SPEC[mode][slot]` (R380). -/
def specEntry (m : FxMode) (slot : Fin 4) : Config.SpecEntry := (Config.spec m).get slot

/-- `ClampSpec` (R384): a NaN reads as the default. -/
def clampSpec (m : FxMode) (slot : Fin 4) (v : F32) : F32 :=
  if isNan v then (specEntry m slot).dflt else clamp v (specEntry m slot).min (specEntry m slot).max

/-- The curve of an entry at `n` in [0,1], before the final clamp (R387; the open functions need not keep the operand of `cfg.exp2`
in the range R387 names, log 17). -/
def specCurve (e : Config.SpecEntry) (n : F32) : F32 :=
  match e.curve with
  | .lin => fadd e.min (fmul n (fsub e.max e.min))
  | .exp => fmul e.min (cfgExp2 (fmul n (cfgLog2 (fdiv e.max e.min))))

/-- The inverse curve of an entry at `v` in [min,max], before the final clamp (R387). -/
def specUncurve (e : Config.SpecEntry) (v : F32) : F32 :=
  match e.curve with
  | .lin => fdiv (fsub v e.min) (fsub e.max e.min)
  | .exp => fdiv (cfgLog2 (fdiv v e.min)) (cfgLog2 (fdiv e.max e.min))

/-- `SpecMap` (R387). -/
def specMap (e : Config.SpecEntry) (n : F32) : F32 := clamp (specCurve e (clamp01 n)) e.min e.max

/-- `SpecUnmap` (R387). -/
def specUnmap (e : Config.SpecEntry) (v : F32) : F32 := clamp01 (specUncurve e (clamp v e.min e.max))

/-- `PS.GET mode slot` (R381). -/
def execPsGet (m : FxMode) (slot : Fin 4) (s : State) : Host.Outcome State Fault Refusal :=
  .next (((((s.setResF 0 (specEntry m slot).min).setResF 1 (specEntry m slot).max).setRes 2
    (Config.curveCode (specEntry m slot).curve)).setRes 3 (Config.unitCode (specEntry m slot).tag)).setResF 4
    (specEntry m slot).dflt)

/-- `PS.MAP mode slot` (R382). -/
def execPsMap (m : FxMode) (slot : Fin 4) (s : State) : Host.Outcome State Fault Refusal :=
  .next (s.setResF 0 (specMap (specEntry m slot) (argF s 0)))

/-- `PS.UNMAP mode slot` (R383). -/
def execPsUnmap (m : FxMode) (slot : Fin 4) (s : State) : Host.Outcome State Fault Refusal :=
  .next (s.setResF 0 (specUnmap (specEntry m slot) (argF s 0)))

end Sys2Proof.Machine
end

