-- ==== Sys2Proof/Machine/Phasor.lean ====
section
/-! DEFINITION. The modulation phasor (R150 to R157): the functions the effect kernels share with the commands, and the commands. -/

namespace Sys2Proof.Machine

/-- The phasor `PH.INIT` leaves for a sample rate that passed the guard (R151). -/
def phInitWith (sr : F32) : Phasor :=
  { main := fzero, mod := fzero, sr := sr, dsamp := sr, freq := fdiv sr sr, ratio := fone, depth := fzero }

/-- `PhSetDly` (R152): the delay clamped, the frequency recomputed. -/
def phSetDly (p : Phasor) (d : F32) : Phasor :=
  { p with
    dsamp := clamp d Config.dsampMin Config.dsampMax
    freq := fdiv p.sr (clamp d Config.dsampMin Config.dsampMax) }

/-- `PhSetRatio` (R153). -/
def phSetRatio (p : Phasor) (r : F32) : Phasor := { p with ratio := clamp r fzero Config.ratioMax }

/-- `PhSetDepth` (R154). -/
def phSetDepth (p : Phasor) (x : F32) : Phasor := { p with depth := clamp x fzero Config.depthMax }

/-- `PhProc` (R155): both accumulators advance and wrap. The sums are rounded, so with a delay of 1.0 `main` can move, and
a cycle need not last `dsamp` frames (R256's text); the pseudocode is followed (log 16, log 18). -/
def phProc (p : Phasor) : Phasor :=
  { p with
    main := wrap01 (fadd p.main (fdiv p.freq p.sr))
    mod := wrap01 (fadd p.mod (fdiv (fmul p.freq p.ratio) p.sr)) }

/-- The main phase plus the scaled envelope, wrapped: `GetModulatedPosition` before the fold (R156). -/
def phSweep (p : Phasor) : F32 := wrap01 (fadd p.main (fmul p.depth (tri01 p.mod)))

/-- The triangle fold `((1.0 - p) * 0.5) + 0.25` (R156). -/
def phFold (x : F32) : F32 := fadd (fmul (fsub fone x) fhalf) fquarter

/-- `PhGetPos` (R156). -/
def phGetPos (p : Phasor) (tri : Bool) : F32 := if tri then phFold (phSweep p) else phSweep p

/-- `PhGetSmp` (R157). The product is rounded, so with the fold it can pass R157's 0.75 dsamp; the pseudocode is followed (log 18). -/
def phGetSmp (p : Phasor) (tri : Bool) : F32 := fmul (phGetPos p tri) p.dsamp

/-- `PH.INIT c` (R151). -/
def execPhInit (c : Fin 4) (s : State) : Host.Outcome State Fault Refusal :=
  .next ((s.raise .argerr (badRate (argF s 0))).setPh c (phInitWith (rateOr (argF s 0))))

/-- `PH.SETDLY c` (R152). -/
def execPhSetdly (c : Fin 4) (s : State) : Host.Outcome State Fault Refusal :=
  .next (s.setPh c (phSetDly (s.ph.get c) (argF s 0)))

/-- `PH.SETRATIO c` (R153). -/
def execPhSetratio (c : Fin 4) (s : State) : Host.Outcome State Fault Refusal :=
  .next (s.setPh c (phSetRatio (s.ph.get c) (argF s 0)))

/-- `PH.SETDEPTH c` (R154). -/
def execPhSetdepth (c : Fin 4) (s : State) : Host.Outcome State Fault Refusal :=
  .next (s.setPh c (phSetDepth (s.ph.get c) (argF s 0)))

/-- `PH.PROC c` (R155). -/
def execPhProc (c : Fin 4) (s : State) : Host.Outcome State Fault Refusal :=
  .next ((s.setPh c (phProc (s.ph.get c))).setResF 0 (phProc (s.ph.get c)).main)

/-- `PH.GETPOS c, t` (R156). -/
def execPhGetpos (c : Fin 4) (tri : Bool) (s : State) : Host.Outcome State Fault Refusal :=
  .next (s.setResF 0 (phGetPos (s.ph.get c) tri))

/-- `PH.GETSMP c, t` (R157). -/
def execPhGetsmp (c : Fin 4) (tri : Bool) (s : State) : Host.Outcome State Fault Refusal :=
  .next (s.setResF 0 (phGetSmp (s.ph.get c) tri))

end Sys2Proof.Machine
end

