-- ==== Sys2Proof/Machine/Effect.lean ====
section
/-! DEFINITION. The stages every effect mode shares (R214 to R222): mode change, base delay, seam detection, crossfade, output guard,
allpass, generator; and what a kernel is given and gives back (R250). -/

namespace Sys2Proof.Machine

/-- What the kernels of one frame share: the input registers read once before the channel loop (R212) and the per-frame state
of the chorus and fluid modes after its per-frame step. -/
structure Frame where
  cap : Nat
  sr : F32
  freeze : Bool
  apen : Bool
  m1 : F32
  m2 : F32
  g : F32
  p : Per4 F32
  base : Per4 F32
  lfoPh : Per2 F32
  cx : Per2 F32
  cy : Per2 F32
deriving DecidableEq, Repr

/-- What a kernel may change: its channel's effect state, its channel's phasor and the generator (R250). -/
structure Voice where
  ch : FxChannel
  ph : Phasor
  rng : Word
deriving DecidableEq, Repr

/-- What a kernel gives back: the changed state and the sample `raw` (R250). -/
structure KernelOut where
  voice : Voice
  raw : F32
deriving DecidableEq, Repr

/-- What the shared stages leave of a channel, and whether they set `NONFIN`. -/
structure ChannelOut where
  ch : FxChannel
  nonfin : Bool
deriving DecidableEq, Repr

/-! ### Base delay, seam, mode change (R214 to R216) -/

/-- `ClampD(d)` (R214): into [2, CAP - 3], a NaN to 2. -/
def clampD (cap : Nat) (d : F32) : F32 := clamp d Config.dMin (i2f ((cap : Int) - 3))

/-- `ForceSeam(c)` (R215). -/
def forceSeam (ch : FxChannel) : FxChannel := { ch with xfRem := Config.xfLen, xfFrom := ch.lastOut }

/-- What a mode change does to one channel (R215). -/
def seamForMode (ch : FxChannel) : FxChannel := { forceSeam ch with posValid := false, dvalid := false }

/-- The mode change of a frame, nothing when the mode is the current one (R212, R215). -/
def enterMode (m : FxMode) (f : Fx) : Fx :=
  if m = f.curMode then f else { f with chan := f.chan.map seamForMode, curMode := m }

/-- The seam threshold: 64 samples or 45 % of the base delay, the larger (R216). -/
def seamThreshold (base : F32) : F32 := fmax2 Config.seamMin (fmul Config.seamFrac base)

/-- The read position jumped by more than the threshold since the last frame (R216). In the Knuth mode at depth 0 it jumps back by
0.5 base - 0.5 between two frames, so the seam needs base > 129, not the 128 of R256's text; the pseudocode is followed (log 16). -/
def seamJump (base pos : F32) (ch : FxChannel) : Bool :=
  ch.posValid && fgt (fabs (fsub pos ch.lastPos)) (seamThreshold base)

/-- `SeamDetect(c, base, pos)` (R216). -/
def seamDetect (base pos : F32) (ch : FxChannel) : FxChannel :=
  { (if seamJump base pos ch then forceSeam ch else ch) with lastPos := pos, posValid := true }

/-! ### Crossfade, guard, allpass (R217 to R220) -/

/-- The crossfade's weight of the new signal: 1/24 in its first frame, 24/24 in its last (R217). -/
def xfadeWeight (ch : FxChannel) : F32 := fdiv (i2f ((Config.xfLen : Int) + 1 - (ch.xfRem : Int))) (i2f (Config.xfLen : Int))

/-- The sample `XfadeApply(c, raw)` returns (R217). The sums are rounded, so the 24th frame's need not be `raw`, as R217's text has it; the
pseudocode is followed (log 18). -/
def xfadeOut (ch : FxChannel) (raw : F32) : F32 :=
  if ch.xfRem = 0 then raw else fadd ch.xfFrom (fmul (fsub raw ch.xfFrom) (xfadeWeight ch))

/-- The allpass coefficient (R219). -/
def allpassGain (fb : F32) : F32 := fmul Config.apGmax (clamp01 fb)

/-- One allpass section on an input and its two memories, denormal killer included (R219): with g = 0 the memory `x1` comes out through
`Dnk`, no pure delay (log 18). -/
def allpassSection (g x x1 y1 : F32) : F32 := dnk (fadd (fadd (fmul (fsub fzero g) x) x1) (fmul g y1))

/-- The first section's output (R219). -/
def allpassFirst (g x : F32) (ch : FxChannel) : F32 := allpassSection g x ch.apX1.e0 ch.apY1.e0

/-- The second section's output (R219). -/
def allpassSecond (g x : F32) (ch : FxChannel) : F32 := allpassSection g (allpassFirst g x ch) ch.apX1.e1 ch.apY1.e1

/-- The allpass memories after the stage: both sections' inputs and outputs, all 0.0 after a blow-up (R219, R220). -/
def allpassStore (g x : F32) (ch : FxChannel) : FxChannel :=
  if isFinite (allpassSecond g x ch) then
    { ch with apX1 := ⟨x, allpassFirst g x ch⟩, apY1 := ⟨allpassFirst g x ch, allpassSecond g x ch⟩ }
  else { ch with apX1 := ⟨fzero, fzero⟩, apY1 := ⟨fzero, fzero⟩ }

/-- The outputs of a channel (R221): wet, which-out and the sample kept for the next seam are one value. -/
def putOutput (y : F32) (ch : FxChannel) : FxChannel := { ch with wet := y, which := y, lastOut := y }

/-- The crossfaded and guarded sample: a NaN or an infinity becomes +0.0 (R217, R218). -/
def guardedSample (ch : FxChannel) (raw : F32) : F32 := finValue (xfadeOut ch raw)

/-- The crossfade's countdown (R217). -/
def xfadeCount (ch : FxChannel) : FxChannel := { ch with xfRem := ch.xfRem - 1 }

/-- The stages behind the kernel, in the order of R212: crossfade, finite guard, allpass when `APEN` is set, outputs. -/
def finishChannel (apen : Bool) (g : F32) (ch : FxChannel) (raw : F32) : ChannelOut :=
  let y := guardedSample ch raw
  let ch' := xfadeCount ch
  if apen then
    { ch := putOutput (finValue (allpassSecond g y ch')) (allpassStore g y ch')
      nonfin := notFinite (xfadeOut ch raw) || notFinite (allpassSecond g y ch') }
  else { ch := putOutput y ch', nonfin := notFinite (xfadeOut ch raw) }

/-! ### The generator (R222) -/

/-- The generator's next state: the LCG modulo 2^32. -/
def rngNext (r : Word) : Word := BitVec.ofNat 32 (Config.rngMul * r.toNat + Config.rngAdd)

/-- The value of a draw, from the state it leaves: the upper 24 bits scaled into [0,1). -/
def rngValue (r : Word) : F32 := fmul (i2f ((r.toNat / 2 ^ 8 : Nat) : Int)) Config.rngScale

end Sys2Proof.Machine
end

