-- ==== Sys2Proof/Machine/EffectFluid.lean ====
section
/-! DEFINITION. The kernel of the fluid mode (R321, R322). `rd` is the channel's `ReadHerm` (R137). -/

namespace Sys2Proof.Machine

/-- `FluidFrame(P)` (R322): the two centres move on their circle, opposite each other. -/
def fluidFrame (p : Per4 F32) (f : Fx) : Fx :=
  let o := wrap01 (fadd f.orbit (fdiv p.e3 f.sr))
  let co := fmul Config.flRadius (cfgCos2pi o)
  let si := fmul Config.flRadius (cfgSin2pi o)
  { f with orbit := o, cx := ⟨fadd fhalf co, fsub fhalf co⟩, cy := ⟨fadd fhalf si, fsub fhalf si⟩ }

/-- The squared distance of the particle to a centre, kept away from 0 (R321 step 1). The binary32 1.0e-4 is below 1e-4, so a particle just
closer than R321's 0.01 can stand outside the cap; the pseudocode is followed (log 18). -/
def fluidR2 (dx dy : F32) : F32 := fmax2 (fadd (fmul dx dx) (fmul dy dy)) Config.flR2min

/-- The field at the particle, x component: the sum over both centres (R321 step 1). -/
def fieldX (gam px py : F32) (cx cy : Per2 F32) : F32 :=
  let d (k : Fin 2) := fdiv (fmul gam (fsub fzero (fsub py (cy.get k)))) (fluidR2 (fsub px (cx.get k)) (fsub py (cy.get k)))
  fadd (fadd fzero (d 0)) (d 1)

/-- The field at the particle, y component (R321 step 1). -/
def fieldY (gam px py : F32) (cx cy : Per2 F32) : F32 :=
  let d (k : Fin 2) := fdiv (fmul gam (fsub px (cx.get k))) (fluidR2 (fsub px (cx.get k)) (fsub py (cy.get k)))
  fadd (fadd fzero (d 0)) (d 1)

/-- One turbulence component smoothed toward a draw in [-1, 1) (R321 step 2). -/
def turbStep (t r : F32) : F32 := fadd t (fmul Config.flTurb (fsub (fsub (fmul ftwo r) fone) t))

/-- One velocity component relaxed toward its target and damped (R321 step 3). -/
def velStep (v u kr damp : F32) : F32 := fmul (fadd v (fmul kr (fsub u v))) damp

/-- The damping factor of a viscosity in percent (R321 step 3). -/
def fluidDamp (p0 : F32) : F32 := fsub fone (fmul (fdiv p0 fhundred) Config.flDamp)

/-- The relaxation coefficient, at most 1 (R321 step 3). -/
def fluidRelax (sr : F32) : F32 := fmin2 fone (fdiv Config.flRelax sr)

/-- The delay offset of a particle at `px` (R321 step 4). The binary32 20/100 is above 0.2, so it can pass half of P3 percent, and the 10 %,
of R321's text by a rounding; the pseudocode is followed (log 18). -/
def fluidOffset (p2 base px : F32) : F32 :=
  fmul (fmul (fdiv p2 fhundred) base) (fsub (fsub fone (fabs (fsub (fmul ftwo px) fone))) fhalf)

/-- The channel after its particle's frame, from the states the two draws leave (R321 steps 1 to 3). -/
def fluidMove (fr : Frame) (w1 w2 : Word) (ch : FxChannel) : FxChannel :=
  let gam := fmul Config.flGain fr.m1
  let tx := turbStep ch.tx (rngValue w1)
  let ty := turbStep ch.ty (rngValue w2)
  let turb := fdiv fr.p.e1 fhundred
  let vx := velStep ch.vx (fadd (fieldX gam ch.px ch.py fr.cx fr.cy) (fmul turb tx)) (fluidRelax fr.sr) (fluidDamp fr.p.e0)
  let vy := velStep ch.vy (fadd (fieldY gam ch.px ch.py fr.cx fr.cy) (fmul turb ty)) (fluidRelax fr.sr) (fluidDamp fr.p.e0)
  let dt := fdiv fone fr.sr
  { ch with
    tx := tx, ty := ty, vx := vx, vy := vy
    px := wrap01 (fadd ch.px (fmul dt vx))
    py := wrap01 (fadd ch.py (fmul dt vy)) }

/-- `Fluid(c, base, P, m1)` (R321): two draws, the particle's move, the read at the offset delay. -/
def kernelFluid (fr : Frame) (rd : F32 → F32) (base : F32) (v : Voice) : KernelOut :=
  let w1 := rngNext v.rng
  let w2 := rngNext w1
  let ch := fluidMove fr w1 w2 v.ch
  { voice := { v with ch := ch, rng := w2 }, raw := rd (clampD fr.cap (fadd base (fluidOffset fr.p.e2 base ch.px))) }

end Sys2Proof.Machine
end

