-- ==== Sys2Proof/Machine/EffectDelay.lean ====
section
/-! DEFINITION. The kernels of the delay-type modes (R251 to R256). `rd` is the channel's `ReadHerm` (R137). -/

namespace Sys2Proof.Machine

/-! ### Basic, ping-pong, unlinked (R251 to R253) -/

/-- The target jumps by more than the given fraction of the current delay (R251). -/
def bigJump (jf base : F32) (ch : FxChannel) : Bool := fgt (fabs (fsub base ch.curD)) (fmul jf ch.curD)

/-- The target's adoption (R251): loaded afresh, crossfaded to, followed at once, or not adopted under freeze. -/
def divTarget (freeze : Bool) (jf base : F32) (ch : FxChannel) : FxChannel :=
  if ch.dvalid = false then { ch with curD := base, prevD := base, dxfPos := fone, dvalid := true }
  else if fge ch.dxfPos fone then
    if bigJump jf base ch then
      if freeze then ch else { ch with prevD := ch.curD, curD := base, dxfPos := fzero }
    else { ch with curD := base }
  else ch

/-- The sample read: a crossfade of the two delays while one runs (R251). -/
def divRead (rd : F32 → F32) (ch : FxChannel) : F32 :=
  if flt ch.dxfPos fone then
    fadd (rd ch.prevD) (fmul (fsub (rd ch.curD) (rd ch.prevD)) ch.dxfPos)
  else rd ch.curD

/-- The crossfade's advance: 1000 / (P1 * sr) per frame, up to 1 (R251). The sums are rounded, so at the defaults it takes 961 frames,
not the 960 of R251's text, and at a rate so high that P1 * sr overflows it never ends; the pseudocode is followed (log 16, log 18). -/
def divAdvance (p0 sr : F32) (ch : FxChannel) : FxChannel :=
  if flt ch.dxfPos fone then
    { ch with dxfPos := fmin2 fone (fadd ch.dxfPos (fdiv Config.msPerSecond (fmul p0 sr))) }
  else ch

/-- `DivXfade(c, base, P)` (R251). -/
def kernelDivXfade (fr : Frame) (rd : F32 → F32) (base : F32) (v : Voice) : KernelOut :=
  let ch := divTarget fr.freeze (fdiv fr.p.e1 fhundred) base v.ch
  { voice := { v with ch := divAdvance fr.p.e0 fr.sr ch }, raw := divRead rd ch }

/-! ### Resonator (R254) -/

/-- The nearest whole note, halves up. -/
def resonNote (p : Per4 F32) (m1 : F32) : F32 := i2f (f2i (fadd (fadd p.e0 (fmul m1 p.e1)) fhalf))

/-- The note's frequency, at least 1 Hz. -/
def resonFreq (nq : F32) : F32 :=
  fmax2 (fmul Config.tuneHz (cfgExp2 (fdiv (fsub nq Config.tuneNote) Config.notesPerOctave))) fone

/-- `Reson(c, P, m1)` (R254). -/
def kernelReson (fr : Frame) (rd : F32 → F32) (v : Voice) : KernelOut :=
  { voice := v, raw := rd (clampD fr.cap (fdiv fr.sr (resonFreq (resonNote fr.p fr.m1)))) }

/-! ### Chorus (R255) -/

/-- `ChorusFrame(P)`: both oscillators advance (R255). -/
def chorusFrame (p : Per4 F32) (f : Fx) : Fx :=
  { f with lfoPh := ⟨wrap01 (fadd f.lfoPh.e0 (fdiv p.e0 f.sr)), wrap01 (fadd f.lfoPh.e1 (fdiv p.e2 f.sr))⟩ }

/-- The oscillator of a channel: 0 for channels 0 and 2, 1 for channels 1 and 3 (R255). -/
def chorusLfo (c : Fin 4) : Fin 2 := ⟨c.val % 2, Nat.mod_lt _ (by decide)⟩

/-- The depth of an oscillator: P2 or P4 (R255). -/
def chorusDepth (p : Per4 F32) (l : Fin 2) : F32 :=
  match l with
  | 0 => fdiv p.e1 fhundred
  | 1 => fdiv p.e3 fhundred

/-- The modulated delay: up to 20 % shorter than the base delay, and by a rounding more (R255; log 18). -/
def chorusDelay (fr : Frame) (c : Fin 4) (base : F32) : F32 :=
  clampD fr.cap (fmul base (fsub fone
    (fmul (fmul Config.chMaxFrac (chorusDepth fr.p (chorusLfo c))) (tri01 (fr.lfoPh.get (chorusLfo c))))))

/-- `Chorus(c, base, P)` (R255). The sum of the two reads can overflow, so depth 0 is not always R255's plain delay; the pseudocode is
followed (log 18). -/
def kernelChorus (fr : Frame) (rd : F32 → F32) (c : Fin 4) (base : F32) (v : Voice) : KernelOut :=
  { voice := v, raw := fmul fhalf (fadd (rd base) (rd (chorusDelay fr c base))) }

/-! ### Knuth (R256) -/

/-- The phasor driven by a kernel: delay, ratio and depth set, then one step (R256, R282). -/
def drivePhasor (base ratio depth : F32) (ph : Phasor) : Phasor :=
  phProc (phSetDepth (phSetRatio (phSetDly ph base) ratio) depth)

/-- The read position of the Knuth mode (R256). -/
def knuthPos (cap : Nat) (ph : Phasor) : F32 := clampD cap (phGetSmp ph true)

/-- `Knuth(c, base, P)` (R256). -/
def kernelKnuth (fr : Frame) (rd : F32 → F32) (base : F32) (v : Voice) : KernelOut :=
  let ph := drivePhasor base fr.p.e0 fr.p.e1 v.ph
  let pos := knuthPos fr.cap ph
  { voice := { v with ph := ph, ch := seamDetect base pos v.ch }, raw := rd pos }

end Sys2Proof.Machine
end

