-- ==== Sys2Proof/Machine/EffectGranular.lean ====
section
/-! DEFINITION. The kernel of the granular family (R280 to R294). `rd` is the channel's `ReadHerm` (R137). -/

namespace Sys2Proof.Machine

/-! ### Rate, wobble, slice (R281 to R284) -/

/-- The rate before the shimmer bias: 1.0 in the dead-band, linear to either end outside it (R281). -/
def knobRate (mode : FxMode) (m1 : F32) : F32 :=
  let db := Config.grDb
  let span := fsub fhalf db
  let dk := fsub m1 fhalf
  let range := Config.rateRange mode
  if fle (fabs dk) db then fone
  else if fgt dk fzero then fadd fone (fmul (fdiv (fsub dk db) span) (fsub range.2 fone))
  else fsub fone (fmul (fdiv (fsub (fsub fzero dk) db) span) (fsub fone range.1))

/-- `GranRate(mode, P, m1)` (R281): the shimmer mode multiplies by 2^(P4/12), which R13 does not keep in [1, 2^(7/12)] (log 17). -/
def granRate (mode : FxMode) (p : Per4 F32) (m1 : F32) : F32 :=
  if mode = .shimmer then fmul (knobRate mode m1) (cfgExp2 (fdiv p.e3 Config.notesPerOctave)) else knobRate mode m1

/-- `Wobble(c, base, P)`, from the phasor already driven (R283). The binary32 0.1 is above one tenth, so it can pass the 2.5 % of R283's
text by a rounding (log 18). -/
def wobble (p : Per4 F32) (base : F32) (ph : Phasor) : F32 :=
  if fgt p.e0 fzero then
    fmul (fmul (fmul (fdiv p.e0 fhundred) Config.wobbleFrac) base) (fsub (phGetPos ph true) fhalf)
  else fzero

/-- The slice of meta2: eight equal slices (R284). -/
def sliceOf (m2 : F32) : Fin 8 := ⟨min 7 (f2i (fmul m2 feight)).toNat, by omega⟩

/-- The rest of `Slice(c, m2)`: a change of slice is kept and starts the crossfade (R284). -/
def sliceSeam (idx : Fin 8) (ch : FxChannel) : FxChannel :=
  if idx = ch.lastSlice then ch else forceSeam { ch with lastSlice := idx }

/-! ### Accumulator and grid (R285, R286) -/

/-- The lower end of the accumulator's window (R285). -/
def accLow (base : F32) : F32 := fmul (fsub fzero Config.accLo) base

/-- The upper end of the accumulator's window (R285). -/
def accHigh (base : F32) : F32 := fmul Config.accHi base

/-- The accumulator advanced and wrapped at the window's ends, each wrap a seam (R285). -/
def accWrap (base rate : F32) (ch : FxChannel) : FxChannel :=
  let a := fadd ch.acc (fsub rate fone)
  let w := fsub (accHigh base) (accLow base)
  if fge a (accHigh base) then forceSeam { ch with acc := fsub a w }
  else if flt a (accLow base) then forceSeam { ch with acc := fadd a w }
  else { ch with acc := a }

/-- The offset is inside the window (R285), whose ends are the rounded products with the binary32 0.1 and 0.3, not exactly the -0.1 and 0.3
base of R285's and R295's text (log 18). -/
def accInside (base a : F32) : Bool := fge a (accLow base) && flt a (accHigh base)

/-- `AccStep(c, base, rate)` (R285): an offset still outside the window is dropped to 0. -/
def accStep (base rate : F32) (ch : FxChannel) : FxChannel :=
  let w := accWrap base rate ch
  if accInside base w.acc then w else { w with acc := fzero }

/-- `GridQuant(pos, base, idx)` (R286). -/
def gridQuant (pos base : F32) (idx : Fin 8) : F32 :=
  if idx = 0 then pos
  else
    let st := fdiv base (Config.gridDiv.get idx)
    fmul (i2f (f2i (fadd (fdiv pos st) fhalf))) st

/-! ### Blocks of the crystals mode (R287) -/

/-- The block length in frames (R287). -/
def blockLength (base : F32) (idx : Fin 8) : F32 := fmax2 Config.grSizeMin (fdiv base (Config.gridDiv.get idx))

/-- The sub-step after `i`, cycling through four (R287). -/
def nextSubStep (i : Fin 4) : Fin 4 := ⟨(i.val + 1) % Config.crySteps, Nat.mod_lt _ (by decide)⟩

/-- The block counter's advance; at the block's end the sub-step, the smoothed rate and a seam (R287; the rounded rate can
leave the hull R287 speaks of by one unit in the last place, log 16). -/
def crystalAdvance (base rate p3 : F32) (idx : Fin 8) (ch : FxChannel) : FxChannel :=
  let n := ch.blkCnt + 1#32
  if fge (i2f (n.toNat : Int)) (blockLength base idx) then
    forceSeam
      { ch with
        blkCnt := 0#32
        subStep := nextSubStep ch.subStep
        rateSm := fadd ch.rateSm (fmul (fdiv p3 fhundred) (fsub rate ch.rateSm)) }
  else { ch with blkCnt := n }

/-- The position the block state gives (R287). -/
def crystalPos (base wob : F32) (idx : Fin 8) (ch : FxChannel) : F32 :=
  fadd
    (fsub (fsub base (fmul (i2f (ch.subStep.val : Int)) (fmul (blockLength base idx) Config.cryStepFrac)))
      (fmul (fsub ch.rateSm fone) (i2f (ch.blkCnt.toNat : Int))))
    wob

/-! ### Grains (R288) -/

/-- The nominal grain size (R288). -/
def grainSize (base : F32) : F32 := fmax2 Config.grSizeMin (fmul Config.grSizeFrac base)

/-- The lowest inactive grain of the pool (R288). -/
def freeGrain (gs : Per4 Grain) : Option (Fin 4) :=
  if gs.e0.active = false then some 0
  else if gs.e1.active = false then some 1
  else if gs.e2.active = false then some 2
  else if gs.e3.active = false then some 3
  else none

/-- A value jittered about its centre: `x * (1.0 + (jit * (r - 0.5)))` (R288). -/
def jittered (x jit r : F32) : F32 := fmul x (fadd fone (fmul jit (fsub r fhalf)))

/-- A grain as it is triggered, from the two draws (R288). -/
def newGrain (cap : Nat) (base rate jit r1 r2 : F32) : Grain :=
  { active := true, pos := clampD cap (jittered base jit r1), inc := rate, amp := Config.grAmp
    size := jittered (grainSize base) jit r2, phase := fzero }

/-- The trigger phase after its advance (R288). -/
def triggerPhase (base : F32) (ch : FxChannel) : F32 := fadd ch.gphase (fdiv ftwo (grainSize base))

/-- A trigger: the lowest free grain starts with two draws; without one there is neither grain nor draw (R288). -/
def startGrain (cap : Nat) (base rate jit : F32) (v : Voice) : Voice :=
  match freeGrain v.ch.grain with
  | none => v
  | some g =>
    let w1 := rngNext v.rng
    let w2 := rngNext w1
    { v with
      ch := { v.ch with grain := v.ch.grain.set g (newGrain cap base rate jit (rngValue w1) (rngValue w2)) }
      rng := w2 }

/-- The trigger half of `GrainCloud` (R288). -/
def grainTrigger (cap : Nat) (base rate jit : F32) (v : Voice) : Voice :=
  if fge (triggerPhase base v.ch) fone then
    startGrain cap base rate jit { v with ch := { v.ch with gphase := wrap01 (triggerPhase base v.ch) } }
  else { v with ch := { v.ch with gphase := triggerPhase base v.ch } }

/-- The raised cosine envelope of a grain (R288). -/
def grainEnv (g : Grain) : F32 := fmul fhalf (fsub fone (cfgCos2pi g.phase))

/-- The sum with an active grain's windowed read added (R288). -/
def addGrain (cap : Nat) (rd : F32 → F32) (tot : F32) (g : Grain) : F32 :=
  if g.active then fadd tot (fmul (fmul g.amp (grainEnv g)) (rd (clampD cap g.pos))) else tot

/-- The cloud's sum, grains in the order 0 to 3 (R288). -/
def grainSum (cap : Nat) (rd : F32 → F32) (gs : Per4 Grain) : F32 :=
  addGrain cap rd (addGrain cap rd (addGrain cap rd (addGrain cap rd fzero gs.e0) gs.e1) gs.e2) gs.e3

/-- An active grain after its frame: position, phase, and the end of its life at phase 1 (R288). A grain that ends keeps the phase that
ended it, which can be above the 1.0 of R37's [0,1]; R288's pseudocode is followed (log 18). -/
def grainAdvance (g : Grain) : Grain :=
  if g.active then
    { g with
      pos := fsub g.pos (fsub g.inc fone)
      phase := fadd g.phase (fdiv fone g.size)
      active := !fge (fadd g.phase (fdiv fone g.size)) fone }
  else g

/-- The grains and their sum: `GrainCloud(c, base, rate, jit)` (R288). -/
def grainCloud (cap : Nat) (rd : F32 → F32) (base rate jit : F32) (v : Voice) : KernelOut :=
  let t := grainTrigger cap base rate jit v
  { voice := { t with ch := { t.ch with grain := t.ch.grain.map grainAdvance } }, raw := grainSum cap rd t.ch.grain }

/-- The pool idle, the trigger phase at 0.0: what a grain mix of 0 leaves (R289). -/
def grainIdle (ch : FxChannel) : FxChannel :=
  { ch with grain := ch.grain.map (fun g => { g with active := false }), gphase := fzero }

/-! ### The kernel (R289) -/

/-- The grain jitter of a mode (R280, R289). -/
def grainJitter (mode : FxMode) (p : Per4 F32) : F32 :=
  match mode with
  | .gran | .octave | .texture => fdiv p.e3 fhundred
  | .basic | .pingpong | .unlinked | .resonator | .chorus | .knuth | .shimmer | .crystals | .fluid => Config.grJitterFixed

/-- The channel after the position law of its mode: accumulator or blocks (R289). -/
def granLaw (mode : FxMode) (p : Per4 F32) (base rate : F32) (idx : Fin 8) (ch : FxChannel) : FxChannel :=
  if mode = .crystals then crystalAdvance base rate p.e3 idx ch else accStep base rate ch

/-- The read position before the last clamp, from the channel `granLaw` leaves (R289). -/
def granPos (mode : FxMode) (base wob : F32) (idx : Fin 8) (ch : FxChannel) : F32 :=
  if mode = .crystals then crystalPos base wob idx ch else gridQuant (fadd (fsub base ch.acc) wob) base idx

/-- The head's sample mixed with the grain cloud, or the head alone with the pool idle (R289). -/
def granMix (mode : FxMode) (fr : Frame) (rd : F32 → F32) (base rate head : F32) (v : Voice) : KernelOut :=
  let mix := fdiv fr.p.e2 fhundred
  if fgt mix fzero then
    let k := grainCloud fr.cap rd base rate (grainJitter mode fr.p) v
    { k with raw := fadd (fmul head (fsub fone mix)) (fmul k.raw mix) }
  else { voice := { v with ch := grainIdle v.ch }, raw := head }

/-- `Gran(mode, c, base, P, m1, m2)` (R289). -/
def kernelGran (mode : FxMode) (fr : Frame) (rd : F32 → F32) (base : F32) (v : Voice) : KernelOut :=
  let rate := granRate mode fr.p fr.m1
  let ph := drivePhasor base fr.p.e1 fone v.ph
  let wob := wobble fr.p base ph
  let idx := sliceOf fr.m2
  let ch := granLaw mode fr.p base rate idx (sliceSeam idx v.ch)
  let pos := clampD fr.cap (granPos mode base wob idx ch)
  granMix mode fr rd base rate (rd pos) { v with ph := ph, ch := seamDetect base pos ch }

end Sys2Proof.Machine
end

