-- ==== Sys2Proof/Machine/EffectProc.lean ====
section
/-! DEFINITION. The effect engine's operations: `FX.INIT` (R211) and `FX.PROC` in its twelve modes (R212). -/

namespace Sys2Proof.Machine

/-- `Kernel(mode, c, base, P, m1, m2)`: the selection of R212. -/
def kernel (mode : FxMode) (fr : Frame) (rd : F32 → F32) (c : Fin 4) (v : Voice) : KernelOut :=
  match mode with
  | .basic => kernelDivXfade fr rd (fr.base.get c) v
  | .pingpong => kernelDivXfade fr rd (fr.base.get c) v
  | .unlinked => kernelDivXfade fr rd (fr.base.get c) v
  | .resonator => kernelReson fr rd v
  | .chorus => kernelChorus fr rd c (fr.base.get c) v
  | .knuth => kernelKnuth fr rd (fr.base.get c) v
  | .gran => kernelGran .gran fr rd (fr.base.get c) v
  | .octave => kernelGran .octave fr rd (fr.base.get c) v
  | .texture => kernelGran .texture fr rd (fr.base.get c) v
  | .shimmer => kernelGran .shimmer fr rd (fr.base.get c) v
  | .crystals => kernelGran .crystals fr rd (fr.base.get c) v
  | .fluid => kernelFluid fr rd (fr.base.get c) v

/-- The parameters of a frame, each clamped by the spec table (R212, R384). -/
def frameParams (mode : FxMode) (s : State) : Per4 F32 := Per4.ofFn (fun k => clampSpec mode k (s.fxIn.p.get k))

/-- The per-frame step of the chorus and the fluid mode (R255, R322). -/
def frameStep (mode : FxMode) (p : Per4 F32) (f : Fx) : Fx :=
  match mode with
  | .chorus => chorusFrame p f
  | .fluid => fluidFrame p f
  | .basic | .pingpong | .unlinked | .resonator | .knuth | .gran | .octave | .texture | .shimmer | .crystals => f

/-- The engine's state before the channel loop (R212, R215). -/
def frameFx (mode : FxMode) (s : State) : Fx := frameStep mode (frameParams mode s) (enterMode mode s.fx)

/-- What the kernels of a frame share (R212). -/
def frameOf (mode : FxMode) (s : State) : Frame :=
  { cap := s.cap
    sr := (frameFx mode s).sr
    freeze := frozen s
    apen := allpassOn s
    m1 := clamp01 s.fxIn.meta1
    m2 := clamp01 s.fxIn.meta2
    g := allpassGain s.fxIn.fb
    p := frameParams mode s
    base := s.fxIn.dly.map (clampD s.cap)
    lfoPh := (frameFx mode s).lfoPh
    cx := (frameFx mode s).cx
    cy := (frameFx mode s).cy }

/-- What the kernel of channel `c` is given of a state. -/
def voiceOf (s : State) (c : Fin 4) : Voice := { ch := s.fx.chan.get c, ph := s.ph.get c, rng := s.fx.rng }

/-- A channel's effect state, its phasor and the generator put back. -/
def State.putVoice (s : State) (c : Fin 4) (v : Voice) : State :=
  (s.setFx { s.fx with chan := s.fx.chan.set c v.ch, rng := v.rng }).setPh c v.ph

/-- The kernel of channel `c` on the state the earlier channels left. -/
def channelKernel (mode : FxMode) (fr : Frame) (rd : Fin 4 → F32 → F32) (c : Fin 4) (s : State) : KernelOut :=
  kernel mode fr (rd c) c (voiceOf s c)

/-- The stages behind the kernel of channel `c`. -/
def channelFinish (mode : FxMode) (fr : Frame) (rd : Fin 4 → F32 → F32) (c : Fin 4) (s : State) : ChannelOut :=
  finishChannel fr.apen fr.g (channelKernel mode fr rd c s).voice.ch (channelKernel mode fr rd c s).raw

/-- One turn of the channel loop (R212). -/
def fxChannelStep (mode : FxMode) (fr : Frame) (rd : Fin 4 → F32 → F32) (c : Fin 4) (s : State) : State :=
  (s.putVoice c { (channelKernel mode fr rd c s).voice with ch := (channelFinish mode fr rd c s).ch }).raise .nonfin
    (channelFinish mode fr rd c s).nonfin

/-- The channel loop, channels in the order 0, 1, 2, 3 (R212). -/
def fxLoop (mode : FxMode) (fr : Frame) (rd : Fin 4 → F32 → F32) (s : State) : State :=
  fxChannelStep mode fr rd 3 (fxChannelStep mode fr rd 2 (fxChannelStep mode fr rd 1 (fxChannelStep mode fr rd 0 s)))

/-- `FX.PROC mode` (R212): one audio frame. The kernels read the delay lines as they stand before the frame, which no kernel
writes. -/
def fxProc (mode : FxMode) (s : State) : State :=
  fxLoop mode (frameOf mode s) (readHerm s) (s.setFx (frameFx mode s))

/-! ### The operations -/

/-- `FX.INIT` (R211). -/
def execFxInit (s : State) : Host.Outcome State Fault Refusal :=
  .next ((s.raise .argerr (badRate (argF s 0))).setFx (Fx.resetWith (rateOr (argF s 0))))

/-- `FX.PROC BASIC` (R251). -/
def execFxProcBasic (s : State) : Host.Outcome State Fault Refusal := .next (fxProc .basic s)

/-- `FX.PROC PINGPONG` (R252). -/
def execFxProcPingpong (s : State) : Host.Outcome State Fault Refusal := .next (fxProc .pingpong s)

/-- `FX.PROC UNLINKED` (R253). -/
def execFxProcUnlinked (s : State) : Host.Outcome State Fault Refusal := .next (fxProc .unlinked s)

/-- `FX.PROC RESONATOR` (R254). -/
def execFxProcResonator (s : State) : Host.Outcome State Fault Refusal := .next (fxProc .resonator s)

/-- `FX.PROC CHORUS` (R255). -/
def execFxProcChorus (s : State) : Host.Outcome State Fault Refusal := .next (fxProc .chorus s)

/-- `FX.PROC KNUTH` (R256). -/
def execFxProcKnuth (s : State) : Host.Outcome State Fault Refusal := .next (fxProc .knuth s)

/-- `FX.PROC GRAN` (R290). -/
def execFxProcGran (s : State) : Host.Outcome State Fault Refusal := .next (fxProc .gran s)

/-- `FX.PROC OCTAVE` (R291). -/
def execFxProcOctave (s : State) : Host.Outcome State Fault Refusal := .next (fxProc .octave s)

/-- `FX.PROC TEXTURE` (R292). -/
def execFxProcTexture (s : State) : Host.Outcome State Fault Refusal := .next (fxProc .texture s)

/-- `FX.PROC SHIMMER` (R293). -/
def execFxProcShimmer (s : State) : Host.Outcome State Fault Refusal := .next (fxProc .shimmer s)

/-- `FX.PROC CRYSTALS` (R294). -/
def execFxProcCrystals (s : State) : Host.Outcome State Fault Refusal := .next (fxProc .crystals s)

/-- `FX.PROC FLUID` (R321). -/
def execFxProcFluid (s : State) : Host.Outcome State Fault Refusal := .next (fxProc .fluid s)

end Sys2Proof.Machine
end

