-- ==== Sys2Proof/Machine/SmootherOps.lean ====
section
/-! DEFINITION. The one-pole smoother and the guard commands (R360 to R366). -/

namespace Sys2Proof.Machine

/-- The recurrence and the denormal killer of `SM.STEP`, on a guarded input (R363). With a = 1.0 the result is
not always the input, and with a = 0.0 not always the old output, because `Dnk` runs last; the pseudocode is followed (log 16). -/
def smRecurrence (m : Smoother) (x : F32) : F32 := dnk (fadd m.y (fmul m.a (fsub x m.y)))

/-- The output `SM.STEP` stores: the input where the recurrence overflowed (R363). -/
def smNext (m : Smoother) (x : F32) : F32 := if isFinite (smRecurrence m x) then smRecurrence m x else x

/-- `SM.SET k` (R361). -/
def execSmSet (k : Fin 8) (s : State) : Host.Outcome State Fault Refusal :=
  .next (((s.raise .nonfin (notFinite (argF s 0))).setSm k { s.sm.get k with y := finValue (argF s 0) }).setResF 0
    (finValue (argF s 0)))

/-- `SM.COEF k` (R362). -/
def execSmCoef (k : Fin 8) (s : State) : Host.Outcome State Fault Refusal :=
  .next ((s.setSm k { s.sm.get k with a := clamp01 (argF s 0) }).setResF 0 (clamp01 (argF s 0)))

/-- `SM.STEP k` (R363). -/
def execSmStep (k : Fin 8) (s : State) : Host.Outcome State Fault Refusal :=
  .next (((s.raise .nonfin (notFinite (argF s 0))).setSm k
    { s.sm.get k with y := smNext (s.sm.get k) (finValue (argF s 0)) }).setResF 0 (smNext (s.sm.get k) (finValue (argF s 0))))

/-- `GD.FIN` (R364). -/
def execGdFin (s : State) : Host.Outcome State Fault Refusal :=
  .next ((s.raise .nonfin (notFinite (argF s 0))).setRes 0 (if isFinite (argF s 0) then s.arg.get 0 else 0#32))

/-- `GD.DNK` (R365): no flag, whatever the operand. -/
def execGdDnk (s : State) : Host.Outcome State Fault Refusal := .next (s.setResF 0 (dnk (argF s 0)))

end Sys2Proof.Machine
end

