-- ==== Sys2Proof/Machine/System.lean ====
section
/-! DEFINITION. `NOP` (R111). -/

namespace Sys2Proof.Machine

/-- `NOP` changes no state (R111). -/
def execNop (s : State) : Host.Outcome State Fault Refusal := .next s

end Sys2Proof.Machine
end

