-- ==== Sys2Proof/Machine/Waveshaper.lean ====
section
/-! DEFINITION. The six waveshapers (R340 to R347): stateless transfer functions behind the input guard `WsIn`. -/

namespace Sys2Proof.Machine

/-- The transfer function of `WS.FOLD` on a guarded sample and its raw parameter (R341). -/
def wsFold (x p : F32) : F32 :=
  let t := clamp p Config.wsMin Config.wsMax
  if fle (fabs x) t then x
  else fmul t (fsub (fmul ftwo (tri01 (fadd (fdiv x (fmul ffour t)) fhalf))) fone)

/-- The transfer function of `WS.DIODE` (R342). -/
def wsDiode (x p : F32) : F32 := if fge x fzero then x else fmul x (fsub fone (clamp p fzero fone))

/-- The nearest integer, halves away from zero (R343). `v + 0.5` is rounded, so it is not always the nearest; the pseudocode is followed
(log 18). -/
def roundAway (v : F32) : Int := if fge v fzero then f2i (fadd v fhalf) else 0 - f2i (fsub fhalf v)

/-- The transfer function of `WS.QUANT` (R343). -/
def wsQuant (x p : F32) : F32 :=
  let l := clamp p fone Config.wsStepsMax
  fdiv (i2f (roundAway (fmul x l))) l

/-- The transfer function of `WS.MOD` (R344). -/
def wsMod (x p : F32) : F32 :=
  let m := clamp p Config.wsMin Config.wsMax
  if flt (fabs x) m then x
  else fmul (fsub (wrap01 (fadd (fdiv x (fmul ftwo m)) fhalf)) fhalf) (fmul ftwo m)

/-- The drive of the tanh family (R345, R346). -/
def wsDrive (p : F32) : F32 := clamp p fzero Config.wsMax

/-- The transfer function of `WS.TANH` (R345). -/
def wsTanh (x p : F32) : F32 := cfgTanh (clamp (fmul x (wsDrive p)) Config.wsTanhMin Config.wsTanhMax)

/-- The rational approximation of tanh on [-3, 3] (R346). Rounded, it is not increasing up to the end of the range and passes 1.0 there by
one unit in the last place, where R346's text and R348 (c) say otherwise; R346's pseudocode is followed (log 19). -/
def padeTanh (v : F32) : F32 :=
  let q := fmul v v
  fdiv (fmul v (fadd Config.wsPade27 q)) (fadd Config.wsPade27 (fmul Config.wsPade9 q))

/-- The transfer function of `WS.TANHF` (R346). -/
def wsTanhf (x p : F32) : F32 := padeTanh (clamp (fmul x (wsDrive p)) Config.wsTanhfMin Config.wsTanhfMax)

/-- The common part of the family (R347): `WsIn`, the transfer function, `RES[0]`. -/
def waveshape (f : F32 → F32 → F32) (s : State) : State :=
  (s.raise .nonfin (notFinite (argF s 0))).setResF 0 (f (finValue (argF s 0)) (argF s 1))

/-- `WS.FOLD` (R341). -/
def execWsFold (s : State) : Host.Outcome State Fault Refusal := .next (waveshape wsFold s)

/-- `WS.DIODE` (R342). -/
def execWsDiode (s : State) : Host.Outcome State Fault Refusal := .next (waveshape wsDiode s)

/-- `WS.QUANT` (R343). -/
def execWsQuant (s : State) : Host.Outcome State Fault Refusal := .next (waveshape wsQuant s)

/-- `WS.MOD` (R344). -/
def execWsMod (s : State) : Host.Outcome State Fault Refusal := .next (waveshape wsMod s)

/-- `WS.TANH` (R345). -/
def execWsTanh (s : State) : Host.Outcome State Fault Refusal := .next (waveshape wsTanh s)

/-- `WS.TANHF` (R346). -/
def execWsTanhf (s : State) : Host.Outcome State Fault Refusal := .next (waveshape wsTanhf s)

end Sys2Proof.Machine
end

