-- ==== Sys2Proof/Machine/Dispatch.lean ====
section
/-! DEFINITION. The dispatch of an instruction to its meaning, one arm per row of spec/opcode_table.json. -/

namespace Sys2Proof.Machine

def exec (i : Instr) (s : State) : Host.Outcome State Fault Refusal :=
  match i with
  | .nop => Sys2Proof.Machine.execNop s
  | .dlInit c => Sys2Proof.Machine.execDlInit c s
  | .dlWrite c => Sys2Proof.Machine.execDlWrite c s
  | .dlWriteg c => Sys2Proof.Machine.execDlWriteg c s
  | .dlSetdly c => Sys2Proof.Machine.execDlSetdly c s
  | .dlRead0 c => Sys2Proof.Machine.execDlRead0 c s
  | .dlRead c => Sys2Proof.Machine.execDlRead c s
  | .dlReadh c => Sys2Proof.Machine.execDlReadh c s
  | .phInit c => Sys2Proof.Machine.execPhInit c s
  | .phSetdly c => Sys2Proof.Machine.execPhSetdly c s
  | .phSetratio c => Sys2Proof.Machine.execPhSetratio c s
  | .phSetdepth c => Sys2Proof.Machine.execPhSetdepth c s
  | .phProc c => Sys2Proof.Machine.execPhProc c s
  | .phGetpos c tri => Sys2Proof.Machine.execPhGetpos c tri s
  | .phGetsmp c tri => Sys2Proof.Machine.execPhGetsmp c tri s
  | .ckInit => Sys2Proof.Machine.execCkInit s
  | .ckTick => Sys2Proof.Machine.execCkTick s
  | .ckSetmodeInt => Sys2Proof.Machine.execCkSetmodeInt s
  | .ckSetmodeCv => Sys2Proof.Machine.execCkSetmodeCv s
  | .ckSetmodeMidi => Sys2Proof.Machine.execCkSetmodeMidi s
  | .ckSetbpm => Sys2Proof.Machine.execCkSetbpm s
  | .ckSetfreq => Sys2Proof.Machine.execCkSetfreq s
  | .ckSetsmp => Sys2Proof.Machine.execCkSetsmp s
  | .ckSetspqn => Sys2Proof.Machine.execCkSetspqn s
  | .ckGetbpm => Sys2Proof.Machine.execCkGetbpm s
  | .ckGetfreq => Sys2Proof.Machine.execCkGetfreq s
  | .ckGetspb => Sys2Proof.Machine.execCkGetspb s
  | .ckPresent => Sys2Proof.Machine.execCkPresent s
  | .ckGetppqn => Sys2Proof.Machine.execCkGetppqn s
  | .fxInit => Sys2Proof.Machine.execFxInit s
  | .fxProcBasic => Sys2Proof.Machine.execFxProcBasic s
  | .fxProcPingpong => Sys2Proof.Machine.execFxProcPingpong s
  | .fxProcUnlinked => Sys2Proof.Machine.execFxProcUnlinked s
  | .fxProcResonator => Sys2Proof.Machine.execFxProcResonator s
  | .fxProcChorus => Sys2Proof.Machine.execFxProcChorus s
  | .fxProcKnuth => Sys2Proof.Machine.execFxProcKnuth s
  | .fxProcGran => Sys2Proof.Machine.execFxProcGran s
  | .fxProcOctave => Sys2Proof.Machine.execFxProcOctave s
  | .fxProcTexture => Sys2Proof.Machine.execFxProcTexture s
  | .fxProcShimmer => Sys2Proof.Machine.execFxProcShimmer s
  | .fxProcCrystals => Sys2Proof.Machine.execFxProcCrystals s
  | .fxProcFluid => Sys2Proof.Machine.execFxProcFluid s
  | .wsFold => Sys2Proof.Machine.execWsFold s
  | .wsDiode => Sys2Proof.Machine.execWsDiode s
  | .wsQuant => Sys2Proof.Machine.execWsQuant s
  | .wsMod => Sys2Proof.Machine.execWsMod s
  | .wsTanh => Sys2Proof.Machine.execWsTanh s
  | .wsTanhf => Sys2Proof.Machine.execWsTanhf s
  | .smSet k => Sys2Proof.Machine.execSmSet k s
  | .smCoef k => Sys2Proof.Machine.execSmCoef k s
  | .smStep k => Sys2Proof.Machine.execSmStep k s
  | .gdFin => Sys2Proof.Machine.execGdFin s
  | .gdDnk => Sys2Proof.Machine.execGdDnk s
  | .psGet m slot => Sys2Proof.Machine.execPsGet m slot s
  | .psMap m slot => Sys2Proof.Machine.execPsMap m slot s
  | .psUnmap m slot => Sys2Proof.Machine.execPsUnmap m slot s

end Sys2Proof.Machine
end

