-- ==== Sys2Proof/Machine/Step.lean ====
section
/-! DEFINITION. The step: one bus transaction (R81), and the placement of a command word where the step fetches. -/

namespace Sys2Proof.Machine

/-- The effect of a command word: the operation it encodes, or the no-op that sets `ILLCMD` (R100, R112). -/
def runCommand (w : Word) (s : State) : Host.Outcome State Fault Refusal :=
  match decode w with
  | .ok i => exec i s
  | .error _ => .next (illegalCommand s)

/-- One bus transaction: it leaves the list, the pc advances by 1 (R23), then it has its effect. With no transaction left nothing
changes (R410; log 7). -/
def step (s : State) : Host.Outcome State Fault Refusal :=
  match fetch s with
  | .idle => .next s
  | .command w => runCommand w s.advance
  | .transfer t => .next (transfer t s.advance)

/-- `s` with the command word whose table bits are `w` as its next transaction, in place of the one there was (log 6). -/
def State.withFetchWord (s : State) (nbits w : Nat) : State :=
  { s with bus := commandTxn (BitVec.ofNat 32 (w % 2 ^ nbits)) :: s.bus.tail }

end Sys2Proof.Machine
end

