-- ==== Sys2Proof/Safety.lean ====
section
/-! DEFINITION. What a safe run is: no step stops (R400), and the invariants the spec states of every reachable state (R28, R158, R199,
R224, R40) hold; and the terms statements use: the parts of the state a frame names, and runs of several instructions. -/

namespace Sys2Proof.Machine

/-- The outcome is a next state (R400: every operation runs to completion). -/
def completes (o : Host.Outcome State Fault Refusal) : Bool :=
  match o with
  | .next _ => true
  | .fault _ => false
  | .refused _ => false

/-! ### Frames -/

/-- The parts of the spec's state. A delay line's registers are one part; its samples are parts byte by byte. -/
inductive Part where
  | arg (i : Fin 8)
  | res (i : Fin 8)
  | flag (f : Flag)
  | line (c : Fin 4)
  | byte (c : Fin 4) (k : Nat)
  | phasor (c : Fin 4)
  | clock
  | fxInputs
  | fxEngine
  | smoother (k : Fin 8)
  | pc
  | capacity
deriving DecidableEq, Repr

/-- A part reads the same in both states. -/
def kept (s t : State) : Part → Prop
  | .arg i => t.arg.get i = s.arg.get i
  | .res i => t.res.get i = s.res.get i
  | .flag f => t.status.flag f = s.status.flag f
  | .line c => t.dl.get c = s.dl.get c
  | .byte c k => t.mem.readByte c k = s.mem.readByte c k
  | .phasor c => t.ph.get c = s.ph.get c
  | .clock => t.ck = s.ck
  | .fxInputs => t.fxIn = s.fxIn
  | .fxEngine => t.fx = s.fx
  | .smoother k => t.sm.get k = s.sm.get k
  | .pc => t.pc = s.pc
  | .capacity => t.cap = s.cap

/-- Every part reads the same in both states but those that `changed` names. -/
def keptExcept (changed : Part → Prop) (s t : State) : Prop := ∀ p, ¬ changed p → kept s t p

/-- The parts that are the four bytes of slot `a` of line `c`. -/
def slotPart (c : Fin 4) (a : Nat) (p : Part) : Prop :=
  p = .byte c (slotKey a 0) ∨ p = .byte c (slotKey a 1) ∨ p = .byte c (slotKey a 2) ∨ p = .byte c (slotKey a 3)

/-- The part holds a register the host may write (R27): the general registers, the clock's and the generator's, the
engine's inputs. -/
def Part.holdsRegister (p : Part) (r : Reg) : Prop :=
  match r with
  | .arg i => p = .arg i
  | .ckPpqnInt | .ckPpqnExt | .ckTimeout => p = .clock
  | .fxDry _ | .fxDly _ | .fxMeta1 | .fxMeta2 | .fxCtl | .fxFb | .fxP _ => p = .fxInputs
  | .fxRng => p = .fxEngine
  | .id | .status | .cmd | .capr | .res _ => False
  | .ckMode | .ckSpqn | .ckLastvalid | .ckFlags | .ckSr | .ckBlock => False
  | .ckOutacc | .ckDetacc | .ckPulsecnt | .ckTimeoutcnt | .ckGatetimer | .ckAvg _ | .ckAvgptr => False
  | .dlWp _ | .dlDlyi _ | .dlDlyf _ => False
  | .phMain _ | .phMod _ | .phSr _ | .phDsamp _ | .phFreq _ | .phRatio _ | .phDepth _ => False
  | .fxWet _ | .fxWhich _ | .fxMode | .fxSr | .smY _ | .smA _ => False

/-- The parts an instruction may change in state `s`: for each operation, the state its rule in 40_delay_line.md to 49_paramspec.md writes;
of the sample memory, the one slot at the cursor (R72). -/
def mayChange (i : Instr) (s : State) (p : Part) : Prop :=
  match i with
  | .nop => False
  | .dlInit c => p = .line c ∨ ∃ k, p = .byte c k
  | .dlWrite c => p = .line c ∨ slotPart c (writeSlotOf s c) p
  | .dlWriteg c => p = .line c ∨ p = .flag .nonfin ∨ slotPart c (writeSlotOf s c) p
  | .dlSetdly c => p = .line c ∨ p = .flag .range
  | .dlRead0 _ => p = .res 0
  | .dlRead _ => p = .res 0 ∨ p = .flag .range
  | .dlReadh _ => p = .res 0 ∨ p = .flag .range
  | .phInit c => p = .phasor c ∨ p = .flag .argerr
  | .phSetdly c => p = .phasor c
  | .phSetratio c => p = .phasor c
  | .phSetdepth c => p = .phasor c
  | .phProc c => p = .phasor c ∨ p = .res 0
  | .phGetpos _ _ => p = .res 0
  | .phGetsmp _ _ => p = .res 0
  | .ckInit => p = .clock ∨ p = .flag .argerr
  | .ckTick => p = .clock ∨ p = .res 0 ∨ p = .res 1 ∨ p = .flag .clkrej
  | .ckSetmodeInt => p = .clock
  | .ckSetmodeCv => p = .clock
  | .ckSetmodeMidi => p = .clock
  | .ckSetbpm => p = .clock ∨ p = .flag .argerr
  | .ckSetfreq => p = .clock ∨ p = .flag .argerr
  | .ckSetsmp => p = .clock ∨ p = .flag .argerr
  | .ckSetspqn => p = .clock ∨ p = .flag .argerr
  | .ckGetbpm => p = .res 0
  | .ckGetfreq => p = .res 0
  | .ckGetspb => p = .res 0
  | .ckPresent => p = .res 0
  | .ckGetppqn => p = .res 0
  | .fxInit => p = .fxEngine ∨ p = .flag .argerr
  | .fxProcBasic => p = .fxEngine ∨ p = .flag .nonfin
  | .fxProcPingpong => p = .fxEngine ∨ p = .flag .nonfin
  | .fxProcUnlinked => p = .fxEngine ∨ p = .flag .nonfin
  | .fxProcResonator => p = .fxEngine ∨ p = .flag .nonfin
  | .fxProcChorus => p = .fxEngine ∨ p = .flag .nonfin
  | .fxProcKnuth => p = .fxEngine ∨ p = .flag .nonfin ∨ ∃ c, p = .phasor c
  | .fxProcGran => p = .fxEngine ∨ p = .flag .nonfin ∨ ∃ c, p = .phasor c
  | .fxProcOctave => p = .fxEngine ∨ p = .flag .nonfin ∨ ∃ c, p = .phasor c
  | .fxProcTexture => p = .fxEngine ∨ p = .flag .nonfin ∨ ∃ c, p = .phasor c
  | .fxProcShimmer => p = .fxEngine ∨ p = .flag .nonfin ∨ ∃ c, p = .phasor c
  | .fxProcCrystals => p = .fxEngine ∨ p = .flag .nonfin ∨ ∃ c, p = .phasor c
  | .fxProcFluid => p = .fxEngine ∨ p = .flag .nonfin
  | .wsFold => p = .res 0 ∨ p = .flag .nonfin
  | .wsDiode => p = .res 0 ∨ p = .flag .nonfin
  | .wsQuant => p = .res 0 ∨ p = .flag .nonfin
  | .wsMod => p = .res 0 ∨ p = .flag .nonfin
  | .wsTanh => p = .res 0 ∨ p = .flag .nonfin
  | .wsTanhf => p = .res 0 ∨ p = .flag .nonfin
  | .smSet k => p = .smoother k ∨ p = .res 0 ∨ p = .flag .nonfin
  | .smCoef k => p = .smoother k ∨ p = .res 0
  | .smStep k => p = .smoother k ∨ p = .res 0 ∨ p = .flag .nonfin
  | .gdFin => p = .res 0 ∨ p = .flag .nonfin
  | .gdDnk => p = .res 0
  | .psGet _ _ => p = .res 0 ∨ p = .res 1 ∨ p = .res 2 ∨ p = .res 3 ∨ p = .res 4
  | .psMap _ _ => p = .res 0
  | .psUnmap _ _ => p = .res 0

/-! ### Ranges -/

/-- The two values compare equal (R9): the same value, or zeros of either sign; false for a NaN. -/
def sameValue (x y : F32) : Bool := fle x y && fle y x


/-- `x` is in [lo, hi]; false for a NaN. -/
def within (lo hi x : F32) : Bool := fle lo x && fle x hi

/-- `x` is in [0, 1); false for a NaN. -/
def inUnit (x : F32) : Bool := fle fzero x && flt x fone

/-! ### Invariants -/

/-- The sample memory is in canonical form and every cursor is inside its line (R28, R71). -/
def memoryInv (s : State) : Prop := s.mem.wf = true ∧ ∀ c, (s.dl.get c).wp.toNat < s.cap

/-- R158: phases in [0,1), the sample rate at least 1, the delay at least 1 and at most 2^24, the frequency their quotient and positive,
the ratio in [0, 1024], the depth in [0, 20]. The delay's upper bound has the exception R151 makes: `PH.INIT` stores the sample rate
itself as the delay, above 2^24 or not (log 15). -/
def phasorInv (p : Phasor) : Prop :=
  inUnit p.main = true ∧ inUnit p.mod = true ∧ isFinite p.sr = true ∧ fle fone p.sr = true ∧
  fle fone p.dsamp = true ∧ (fle p.dsamp (F32.ofBits 0x4B800000#32) = true ∨ p.dsamp = p.sr) ∧ p.freq = fdiv p.sr p.dsamp ∧ flt fzero p.freq = true ∧
  within fzero (F32.ofBits 0x44800000#32) p.ratio = true ∧ within fzero (F32.ofBits 0x41A00000#32) p.depth = true

/-- Every filled slot of the averaging buffer is in the sanity window, and the slots fill in the order 0, 1, 2 (R183, R199). -/
def averagesInv (k : Clock) : Prop :=
  (∀ j : Fin 3, j.val < k.avgFill.val → 10 ≤ (k.avg.get j).toNat ∧ (k.avg.get j).toNat ≤ 10000000) ∧
  (k.avgFill.val < 3 → k.avgIdx.val = k.avgFill.val)

/-- R199: SPQN never negative, positive in Internal mode; the last valid SPQN, both PPQNs and the sample rate positive; the filled
averages plausible. The mode and the two small counters are in range by their types. -/
def clockInv (k : Clock) : Prop :=
  0 ≤ k.spqn.toInt ∧ (k.mode = .internal → 1 ≤ k.spqn.toInt) ∧ 1 ≤ k.lastValid.toInt ∧
  1 ≤ k.ppqnInt.toNat ∧ 1 ≤ k.ppqnExt.toNat ∧ 1 ≤ k.sr.toNat ∧ averagesInv k

/-- A grain in play: size at least 32, amplitude 0.5, window phase in [0,1) (R295). -/
def grainInv (g : Grain) : Prop :=
  g.active = true → fle (F32.ofBits 0x42000000#32) g.size = true ∧ g.amp = fhalf ∧ inUnit g.phase = true

/-- R224, R34, R35, R295 for one channel: outputs and held samples finite, the fade at most 24 frames, the allpass memories finite,
the crossfade position in [0,1], the trigger phase and the particle in [0,1). -/
def fxChannelInv (ch : FxChannel) : Prop :=
  isFinite ch.wet = true ∧ isFinite ch.which = true ∧ isFinite ch.lastOut = true ∧ isFinite ch.xfFrom = true ∧
  ch.xfRem ≤ 24 ∧
  (∀ k, isFinite (ch.apX1.get k) = true) ∧ (∀ k, isFinite (ch.apY1.get k) = true) ∧
  within fzero fone ch.dxfPos = true ∧
  inUnit ch.gphase = true ∧ inUnit ch.px = true ∧ inUnit ch.py = true ∧
  ∀ g, grainInv (ch.grain.get g)

/-- R224, R34, R36, R39 for the engine. -/
def fxInv (f : Fx) : Prop :=
  isFinite f.sr = true ∧ fle fone f.sr = true ∧ inUnit f.orbit = true ∧ (∀ l, inUnit (f.lfoPh.get l) = true) ∧
  ∀ c, fxChannelInv (f.chan.get c)

/-- R40, R363: a smoother's output is finite and its coefficient in [0,1]. -/
def smootherInv (m : Smoother) : Prop := isFinite m.y = true ∧ within fzero fone m.a = true

/-! ### A frame of the effect engine, in the terms of R212 to R289 -/

/-- A delay clamped into the readable range [2, CAP - 3] (R214). -/
def readable (s : State) (d : F32) : F32 := clamp d (F32.ofBits 0x40000000#32) (i2f ((s.cap : Int) - 3))

/-- The base delay of channel `c` (R214). -/
def baseDelay (s : State) (c : Fin 4) : F32 := readable s (s.fxIn.dly.get c)

/-- Parameter `k` of a frame in a mode: clamped into its entry, a NaN the default (R212, R384). -/
def param (m : FxMode) (s : State) (k : Fin 4) : F32 :=
  let e := (Config.spec m).get k
  if isNan (s.fxIn.p.get k) then e.dflt else clamp (s.fxIn.p.get k) e.min e.max

/-- A channel whose 24-sample fade is armed from its last output when `b` holds (R215). -/
def armedIf (b : Bool) (ch : FxChannel) : FxChannel := if b then { ch with xfRem := 24, xfFrom := ch.lastOut } else ch

/-- Channel `c` as the kernel of a frame in mode `m` finds it: a change of mode arms the fade and makes the remembered position and delay
void (R212, R215). -/
def entered (m : FxMode) (s : State) (c : Fin 4) : FxChannel :=
  let ch := s.fx.chan.get c
  if m = s.fx.curMode then ch else { armedIf true ch with posValid := false, dvalid := false }

/-- The read position is farther from the last one than 64 samples and 45 percent of the base delay (R216). -/
def jumps (base pos : F32) (ch : FxChannel) : Bool :=
  ch.posValid && fgt (fabs (fsub pos ch.lastPos)) (fmax2 (F32.ofBits 0x42800000#32) (fmul (F32.ofBits 0x3EE66666#32) base))

/-- A channel after seam detection at a read position (R216). -/
def seamed (base pos : F32) (ch : FxChannel) : FxChannel :=
  { armedIf (jumps base pos ch) ch with lastPos := pos, posValid := true }

/-- The kernel's sample with the fade applied: i/24 of the way from the held sample in its i-th frame (R217). -/
def faded (ch : FxChannel) (raw : F32) : F32 :=
  if ch.xfRem = 0 then raw
  else fadd ch.xfFrom (fmul (fsub raw ch.xfFrom) (fdiv (i2f (25 - (ch.xfRem : Int))) (F32.ofBits 0x41C00000#32)))

/-- A sample, +0.0 in place of a NaN or an infinity (R218). -/
def silenced (y : F32) : F32 := if isFinite y then y else fzero

/-- Channel `c` of `t` is what a frame leaves whose kernel left it at `ch` and returned `raw`, the allpass stage off: the fade counted down,
the faded and guarded sample in the three outputs, `NONFIN` where the guard replaced it (R217, R218, R221). -/
def channelOut (t : State) (c : Fin 4) (ch : FxChannel) (raw : F32) : Prop :=
  let w := silenced (faded ch raw)
  t.fx.chan.get c = { ch with xfRem := ch.xfRem - 1, wet := w, which := w, lastOut := w } ∧
  (isFinite (faded ch raw) = false → t.status.flag .nonfin = true)

/-- The same of all four channels, with `NONFIN` set exactly when the guard replaced a sample (R212, R218). -/
def frameOut (s t : State) (ch : Fin 4 → FxChannel) (raw : Fin 4 → F32) : Prop :=
  (∀ c, channelOut t c (ch c) (raw c)) ∧
  t.status.flag .nonfin = (s.status.flag .nonfin || !(isFinite (faded (ch 0) (raw 0)) && isFinite (faded (ch 1) (raw 1)) &&
    isFinite (faded (ch 2) (raw 2)) && isFinite (faded (ch 3) (raw 3))))

/-- The frequency of the resonator's note, at least 1 Hz (R254). -/
def noteFreq (s : State) : F32 :=
  let note := fadd (param .resonator s 0) (fmul (clamp01 s.fxIn.meta1) (param .resonator s 1))
  let nq := i2f (f2i (fadd note fhalf))
  fmax2 (fmul (F32.ofBits 0x43DC0000#32) (cfgExp2 (fdiv (fsub nq (F32.ofBits 0x428A0000#32)) (F32.ofBits 0x41400000#32)))) fone

/-- The phasor a kernel drives: delay, ratio and depth set, then one step (R152 to R155, R256, R282). -/
def driven (p : Phasor) (base ratio depth : F32) : Phasor :=
  let d := clamp base fone (F32.ofBits 0x4B800000#32)
  let r := clamp ratio fzero (F32.ofBits 0x44800000#32)
  let fq := fdiv p.sr d
  { main := wrap01 (fadd p.main (fdiv fq p.sr)), mod := wrap01 (fadd p.mod (fdiv (fmul fq r) p.sr)), sr := p.sr, dsamp := d, freq := fq
    ratio := r, depth := clamp depth fzero (F32.ofBits 0x41A00000#32) }

/-- The folded modulated position of a phasor (R156). -/
def foldedPosition (p : Phasor) : F32 :=
  fadd (fmul (fsub fone (wrap01 (fadd p.main (fmul p.depth (tri01 p.mod))))) fhalf) fquarter

/-- The playback rate: 1.0 in the middle tenth of meta1, linear to the mode's ends outside it, times 2^(P4/12) in the shimmer mode
(R280, R281). -/
def playRate (m : FxMode) (s : State) : F32 :=
  let lo := if m = .octave then fquarter else if m = .texture then F32.ofBits 0x3F400000#32 else fhalf
  let hi := if m = .octave then ffour else if m = .texture then F32.ofBits 0x3FC00000#32 else ftwo
  let db := F32.ofBits 0x3D4CCCCD#32
  let span := fsub fhalf db
  let dk := fsub (clamp01 s.fxIn.meta1) fhalf
  let rate :=
    if fle (fabs dk) db then fone
    else if fgt dk fzero then fadd fone (fmul (fdiv (fsub dk db) span) (fsub hi fone))
    else fsub fone (fmul (fdiv (fsub (fsub fzero dk) db) span) (fsub fone lo))
  if m = .shimmer then fmul rate (cfgExp2 (fdiv (param .shimmer s 3) (F32.ofBits 0x41400000#32))) else rate

/-- The slice of meta2, min(7, f2i(m2 * 8.0)) (R284). -/
def sliceIndex (s : State) : Fin 8 := Fin.ofNat 8 (min 7 (f2i (fmul (clamp01 s.fxIn.meta2) feight)).toNat)

/-- The base delay over the slice's grid divisor 1, 2, 3, 4, 6, 8, 12 or 16 (R284). -/
def gridStep (s : State) (c : Fin 4) : F32 :=
  fdiv (baseDelay s c) (i2f (([1, 2, 3, 4, 6, 8, 12, 16] : List Int).getD (sliceIndex s).val 1))

/-- The wobble of channel `c` in a granular mode (R283). -/
def wobbleOf (m : FxMode) (s : State) (c : Fin 4) : F32 :=
  if flt fzero (param m s 0) then
    fmul (fmul (fmul (fdiv (param m s 0) fhundred) (F32.ofBits 0x3DCCCCCD#32)) (baseDelay s c))
      (fsub (foldedPosition (driven (s.ph.get c) (baseDelay s c) (param m s 1) fone)) fhalf)
  else fzero

/-- Channel `c` after the position law and the seam detection of modes 6 to 9: the offset moves by the rate less 1 and wraps in its window,
the head is that far from the base delay, on the grid of the slice; a wrap, a change of slice and a jump of the head each arm the fade
(R284 to R286, R289). The read position is its `lastPos`. -/
def headChannel (m : FxMode) (s : State) (c : Fin 4) : FxChannel :=
  let k := entered m s c
  let base := baseDelay s c
  let idx := sliceIndex s
  let lo := fmul (fsub fzero (F32.ofBits 0x3DCCCCCD#32)) base
  let hi := fmul (F32.ofBits 0x3E99999A#32) base
  let a := fadd k.acc (fsub (playRate m s) fone)
  let b := if fle hi a then fsub a (fsub hi lo) else if flt a lo then fadd a (fsub hi lo) else a
  let acc := if fle lo b && flt b hi then b else fzero
  let free := fadd (fsub base acc) (wobbleOf m s c)
  let pos := readable s (if idx = 0 then free else fmul (i2f (f2i (fadd (fdiv free (gridStep s c)) fhalf))) (gridStep s c))
  seamed base pos (armedIf (fle hi a || flt a lo || decide (idx ≠ k.lastSlice)) { k with acc := acc, lastSlice := idx })

/-- Channel `c` after the block law and the seam detection of the crystals mode: the counter advances; at the block's end it restarts, the
sub-step cycles, the rate is smoothed and the fade is armed (R284, R287, R289). The read position is its `lastPos`. -/
def blockChannel (s : State) (c : Fin 4) : FxChannel :=
  let k := entered .crystals s c
  let base := baseDelay s c
  let idx := sliceIndex s
  let len := fmax2 (F32.ofBits 0x42800000#32) (gridStep s c)
  let n := k.blkCnt + 1#32
  let ends := fle len (i2f (n.toNat : Int))
  let sm := fadd k.rateSm (fmul (fdiv (param .crystals s 3) fhundred) (fsub (playRate .crystals s) k.rateSm))
  let j := { k with
    lastSlice := idx
    blkCnt := if ends then 0#32 else n
    subStep := if ends then k.subStep + 1 else k.subStep
    rateSm := if ends then sm else k.rateSm }
  let pos := fadd (fsub (fsub base (fmul (i2f (j.subStep.val : Int)) (fmul len fquarter)))
    (fmul (fsub j.rateSm fone) (i2f (j.blkCnt.toNat : Int)))) (wobbleOf .crystals s c)
  seamed base (readable s pos) (armedIf (ends || decide (idx ≠ k.lastSlice)) j)

/-! ### The grain cloud, in the terms of R288 and R289 -/

/-- The clamped grain mix, P3 as a fraction, is above 0: the frame plays grains (R289). -/
def grainsOn (m : FxMode) (s : State) : Bool := flt fzero (fdiv (param m s 2) fhundred)

/-- `n` states of the generator further on (R222). -/
def rngAfter (n : Nat) (r : Word) : Word :=
  match n with
  | 0 => r
  | k + 1 => rngNext (rngAfter k r)

/-- The value of a draw that leaves the generator at `r`: its upper 24 bits times 2^-24 (R222). -/
def drawn (r : Word) : F32 := fmul (i2f ((r.toNat / 256 : Nat) : Int)) (F32.ofBits 0x33800000#32)

/-- The nominal grain size of channel `c` (R288). -/
def cloudSize (s : State) (c : Fin 4) : F32 := fmax2 (F32.ofBits 0x42800000#32) (fmul fquarter (baseDelay s c))

/-- The trigger phase of channel `c` after its advance (R288). -/
def cloudPhase (s : State) (c : Fin 4) : F32 := fadd (s.fx.chan.get c).gphase (fdiv ftwo (cloudSize s c))

/-- Channel `c` starts a grain in this frame: the trigger phase reaches 1 and a grain is free (R288). -/
def cloudStarts (s : State) (c : Fin 4) : Bool :=
  fle fone (cloudPhase s c) && decide (∃ g, ((s.fx.chan.get c).grain.get g).active = false)

/-- The draws of a frame of the channels below `n`: two for each that starts a grain (R288). -/
def cloudDraws (s : State) (n : Nat) : Nat := 2 * (List.finRange 4).countP (fun c => decide (c.val < n) && cloudStarts s c)

/-- Grain `g` of channel `c` as it plays in this frame: the lowest free one, when the channel starts a grain, at its jittered place and
size (R288). -/
def playing (m : FxMode) (s : State) (c g : Fin 4) : Grain :=
  let gs := (s.fx.chan.get c).grain
  let jit := if m = .shimmer ∨ m = .crystals then fquarter else fdiv (param m s 3) fhundred
  let r1 := drawn (rngAfter (cloudDraws s c.val + 1) s.fx.rng)
  let r2 := drawn (rngAfter (cloudDraws s c.val + 2) s.fx.rng)
  if cloudStarts s c = true ∧ (gs.get g).active = false ∧ ∀ h, h < g → (gs.get h).active = true then
    { active := true, pos := readable s (fmul (baseDelay s c) (fadd fone (fmul jit (fsub r1 fhalf)))), inc := playRate m s, amp := fhalf
      size := fmul (cloudSize s c) (fadd fone (fmul jit (fsub r2 fhalf))), phase := fzero }
  else gs.get g

/-- A grain after its frame: moved, aged, and over at phase 1 (R288). -/
def aged (g : Grain) : Grain :=
  if g.active then
    { g with
      pos := fsub g.pos (fsub g.inc fone)
      phase := fadd g.phase (fdiv fone g.size)
      active := !fle fone (fadd g.phase (fdiv fone g.size)) }
  else g

/-- The cloud of channel `c`: the enveloped reads of its playing grains, added in the order 0 to 3 (R288). -/
def cloudSum (m : FxMode) (s : State) (c : Fin 4) : F32 :=
  (List.finRange 4).foldl (fun tot i =>
    let g := playing m s c i
    if g.active then
      fadd tot (fmul (fmul g.amp (fmul fhalf (fsub fone (cfgCos2pi g.phase)))) (readHerm s c (readable s g.pos)))
    else tot) fzero

/-! ### The parameter maps' round trips (R388) -/

/-- Two finite values at most 2^-22 apart (exact difference). -/
def nearTo (x y : F32) : Prop :=
  isFinite x = true ∧ isFinite y = true ∧ |unitsOf x - unitsOf y| * 2 ^ 22 ≤ 2 ^ 149

/-- `x` is within 2^-22 of `y` relatively, or within 64 units of 2^-149, which a normalised value that underflows costs (log 16). -/
def relNearTo (x y : F32) : Prop :=
  isFinite x = true ∧ isFinite y = true ∧ |unitsOf x - unitsOf y| * 2 ^ 22 ≤ |unitsOf y| + 64 * 2 ^ 22

/-- Both round trips of a map of [0, 1] to an entry's range and its inverse (R388). -/
def roundTrips (e : Config.SpecEntry) (up down : F32 → F32) : Prop :=
  (∀ n, within fzero fone n = true → nearTo (down (up n)) n) ∧ ∀ v, within e.min e.max v = true → relNearTo (up (down v)) v

/-- R388 states the exponential half as a property of the configuration: on this entry's range `cfg.exp2` and `cfg.log2` undo each
other (log 17). -/
def cfgRoundTrips (e : Config.SpecEntry) : Prop :=
  roundTrips e (fun n => clamp (fmul e.min (cfgExp2 (fmul n (cfgLog2 (fdiv e.max e.min))))) e.min e.max)
    (fun v => clamp01 (fdiv (cfgLog2 (fdiv v e.min)) (cfgLog2 (fdiv e.max e.min))))

/-! ### Runs -/

/-- The state of an outcome, `s` where it stopped. -/
def Outcome.stateOr (s : State) (o : Host.Outcome State Fault Refusal) : State :=
  match o with
  | .next t => t
  | .fault _ => s
  | .refused _ => s

/-- The machine after `ARG[0]` was written and an instruction executed. -/
def runWith (i : Instr) (s : State) (v : Word) : State := Outcome.stateOr s (exec i (s.setArg 0 v))

/-- The machine after an instruction was executed once for each value, `ARG[0]` written with it before. -/
def runEach (i : Instr) (s : State) (vs : List Word) : State := vs.foldl (runWith i) s

/-- No value of a sequence of trigger inputs makes a rising edge, the input before it being `prev` (R179). -/
def noEdge (prev : Bool) (vs : List Word) : Bool :=
  match vs with
  | [] => true
  | v :: rest => !(v.getLsbD 0 && !prev) && noEdge (v.getLsbD 0) rest

end Sys2Proof.Machine
end

