-- ==== Sys2Proof/Certificates/Slice0/Obligations.lean ====
section
/-! DEFINITION. The statements for the provers. Where a statement says what a register holds after an instruction, the expression is
the one of the rule's pseudocode; `keptExcept` (Sys2Proof/Safety.lean) is the frame: every part of the state it does not name,
every byte of the sample memory among them, reads as before. -/

open Sys2Proof Sys2Proof.Machine

/-! ### Encoding and stepping -/

/-- O1. Decoding the word of an instruction gives the instruction back (R100 to R108). -/
def Obligations.DecodeOfEncode : Prop := ∀ i : Instr, decode (encode i) = .ok i

/-- O2. A word that decodes is the word of the instruction it decodes to: every legal word has one meaning and no bit of it is
ignored (R101, R102, R109). -/
def Obligations.EncodeOfDecode : Prop := ∀ (w : Word) (i : Instr), decode w = .ok i → encode i = w

/-- O3. A word decodes exactly when it selects a row of the opcode table with legal fields (R109), and a word that does not is a
no-op that sets `ILLCMD` and answers a next state (R112; the no-op rather than the refusal is log 9, the list of transactions
log 6). -/
def Obligations.IllegalWordOnlyFlags : Prop :=
  ∀ w : Word, (legalWord w = true ↔ ∃ i, decode w = .ok i) ∧
    ∀ (s : State) (rest : List Txn), s.bus = commandTxn w :: rest → legalWord w = false →
      ∃ t, step s = .next t ∧ t.status.flag .illcmd = true ∧ t.readLog = s.readLog ∧ t.bus = rest ∧
        keptExcept (fun p => p = .flag .illcmd ∨ p = .pc) s t

/-- O4. A step whose next transaction writes a legal command word runs the decoded instruction on the state in which that transaction
has left the list and the pc has advanced by 1 (R23, R100, R110; log 6). -/
def Obligations.StepRunsDecoded : Prop :=
  ∀ (s : State) (w : Word) (i : Instr) (rest : List Txn), s.bus = commandTxn w :: rest → decode w = .ok i →
    step s = exec i { s with bus := rest, pc := s.pc + 1 }

/-- O5. Words of 30_encoding.md and of vector V20 decode to the instructions they stand for. -/
def Obligations.DecodesSpecWords : Prop :=
  decode 0x00000000#32 = .ok .nop ∧ decode 0x16200000#32 = .ok (.dlReadh 2) ∧ decode 0x12300000#32 = .ok (.dlWriteg 3) ∧
  decode 0x25100001#32 = .ok (.phGetpos 1 true) ∧ decode 0x26300000#32 = .ok (.phGetsmp 3 false) ∧
  decode 0x32000002#32 = .ok .ckSetmodeMidi ∧ decode 0x41000004#32 = .ok .fxProcChorus ∧
  decode 0x4100000B#32 = .ok .fxProcFluid ∧ decode 0x55000000#32 = .ok .wsTanhf ∧
  decode 0x62500000#32 = .ok (.smStep 5) ∧ decode 0x60700000#32 = .ok (.smSet 7) ∧
  decode 0x71000042#32 = .ok (.psMap .chorus 2) ∧ decode 0x720000B3#32 = .ok (.psUnmap .fluid 3)

/-- O6. Every instruction answers a next state from every state, and every step does (R400); no instruction writes an `ARG` register
(R21), the pc (R23) or `CAP` (R42), nor the model's own list of transactions and read log (log 6, log 8). `NOP` changes no state
(R111). -/
def Obligations.EveryInstructionCompletes : Prop :=
  (∀ (i : Instr) (s : State), ∃ t, exec i s = .next t ∧ t.arg = s.arg ∧ t.pc = s.pc ∧ t.cap = s.cap ∧
    t.bus = s.bus ∧ t.readLog = s.readLog) ∧
  (∀ s : State, ∃ t, step s = .next t) ∧
  encode .nop = 0x00000000#32 ∧ ∀ s : State, exec .nop s = .next s

/-- O7. Each instruction changes only the state its rule writes: the frame of all 56 rows (R21, R72, R73, R224, R368). Of the sample
memory, a write changes the four bytes of the slot at the cursor, `DL.INIT` those of its line, every other instruction none. -/
def Obligations.Ownership : Prop :=
  ∀ (i : Instr) (s t : State), exec i s = .next t → keptExcept (mayChange i s) s t

/-! ### Delay lines -/

/-- O8. `DL.INIT c` writes +0.0 to every slot of line c, zeroes its registers and touches nothing else (R131). -/
def Obligations.DlInitClears : Prop :=
  ∀ (c : Fin 4) (s : State), encode (.dlInit c) = BitVec.ofNat 32 (0x10000000 + c.val * 2 ^ 20) ∧
    ∃ t, exec (.dlInit c) s = .next t ∧ (∀ a, a < s.cap → t.mem.readSlot c a = 0x00000000#32) ∧
      t.dl.get c = { wp := 0#32, dlyI := 0#32, dlyF := F32.ofBits 0x00000000#32 } ∧
      keptExcept (fun p => p = .line c ∨ ∃ k, p = .byte c k) s t

/-- O9. `DL.WRITE c` stores `ARG[0]` bit for bit in the slot at the cursor and advances the cursor by one modulo `CAP`, whatever
`FX_CTL` says; the slot's four bytes and the line's registers are all that changes (R132). The premise is the invariant of O59: the canonical
form of the model's memory and the cursor below `CAP` (R28). -/
def Obligations.DlWriteStores : Prop :=
  ∀ (c : Fin 4) (s : State), memoryInv s → encode (.dlWrite c) = BitVec.ofNat 32 (0x11000000 + c.val * 2 ^ 20) ∧
    ∃ t, exec (.dlWrite c) s = .next t ∧
      t.mem.readSlot c (s.dl.get c).wp.toNat = s.arg.get 0 ∧
      (t.dl.get c).wp.toNat = ((s.dl.get c).wp.toNat + 1) % s.cap ∧
      (t.dl.get c).dlyI = (s.dl.get c).dlyI ∧ (t.dl.get c).dlyF = (s.dl.get c).dlyF ∧
      keptExcept (fun p => p = .line c ∨ slotPart c (s.dl.get c).wp.toNat p) s t

/-- O10. `DL.WRITEG c`: nothing under freeze; otherwise a non-finite sample becomes +0.0 with `NONFIN`, the denormal killer runs, the
result is stored and the cursor advances (R133). The premise is the invariant of O59. -/
def Obligations.DlWritegGuards : Prop :=
  ∀ (c : Fin 4) (s : State), memoryInv s → encode (.dlWriteg c) = BitVec.ofNat 32 (0x12000000 + c.val * 2 ^ 20) ∧
    (s.fxIn.ctl.getLsbD 0 = true → exec (.dlWriteg c) s = .next s) ∧
    (s.fxIn.ctl.getLsbD 0 = false →
      let x := F32.ofBits (s.arg.get 0)
      let v := if isFinite x then x else F32.ofBits 0x00000000#32
      let k := F32.ofBits 0x219392EF#32
      ∃ t, exec (.dlWriteg c) s = .next t ∧
        t.mem.readSlot c (s.dl.get c).wp.toNat = (fsub (fadd v k) k).toBits ∧
        (t.dl.get c).wp.toNat = ((s.dl.get c).wp.toNat + 1) % s.cap ∧
        (t.dl.get c).dlyI = (s.dl.get c).dlyI ∧ (t.dl.get c).dlyF = (s.dl.get c).dlyF ∧
        t.status.flag .nonfin = (s.status.flag .nonfin || !isFinite x) ∧
        keptExcept (fun p => p = .line c ∨ p = .flag .nonfin ∨ slotPart c (s.dl.get c).wp.toNat p) s t)

/-- O11. The delay operations' results: `DL.SETDLY` stores the split delay, `DL.READ0`, `DL.READ` and `DL.READH` interpolate between the
taps behind the cursor, and `RANGE` is set exactly when the delay is not in [0, CAP) (R134 to R139). -/
def Obligations.DlDelayOperations : Prop :=
  ∀ (c : Fin 4) (s : State),
    let d := F32.ofBits (s.arg.get 0)
    let bad := !(fle (F32.ofBits 0x00000000#32) d && flt d (i2f (s.cap : Int)))
    let x := fun (i k : Int) => F32.ofBits (s.mem.readSlot c ((((s.dl.get c).wp.toNat : Int) - i - k) % (s.cap : Int)).toNat)
    let lin := fun (i : Int) (f : F32) => fadd (x i 0) (fmul (fsub (x i 1) (x i 0)) f)
    let half := F32.ofBits 0x3F000000#32
    let f := fsub d (i2f (f2i d))
    let cc := fmul (fsub (x (f2i d) 1) (x (f2i d) (-1))) half
    let v := fsub (x (f2i d) 0) (x (f2i d) 1)
    let a := fadd (fadd (fadd cc v) v) (fmul (fsub (x (f2i d) 2) (x (f2i d) 0)) half)
    let bn := fadd (fadd cc v) a
    (∃ t, exec (.dlSetdly c) s = .next t ∧ (t.dl.get c).wp = (s.dl.get c).wp ∧
      (t.dl.get c).dlyI = BitVec.ofInt 32 (f2i d) ∧ (t.dl.get c).dlyF = f ∧
      t.status.flag .range = (s.status.flag .range || bad) ∧ keptExcept (fun p => p = .line c ∨ p = .flag .range) s t) ∧
    (∃ t, exec (.dlRead0 c) s = .next t ∧
      t.res.get 0 = (lin (s.dl.get c).dlyI.toInt (s.dl.get c).dlyF).toBits ∧ keptExcept (fun p => p = .res 0) s t) ∧
    (∃ t, exec (.dlRead c) s = .next t ∧ t.res.get 0 = (lin (f2i d) f).toBits ∧
      t.status.flag .range = (s.status.flag .range || bad) ∧ keptExcept (fun p => p = .res 0 ∨ p = .flag .range) s t) ∧
    (∃ t, exec (.dlReadh c) s = .next t ∧
      t.res.get 0 = (fadd (fmul (fadd (fmul (fsub (fmul a f) bn) f) cc) f) (x (f2i d) 0)).toBits ∧
      t.status.flag .range = (s.status.flag .range || bad) ∧ keptExcept (fun p => p = .res 0 ∨ p = .flag .range) s t)

/-- O12. Aliasing (R140): a tap repeats every `CAP` slots, so delays whose integer parts differ by a multiple of `CAP` and whose
fractions agree read the same (R140 asks for the fractions only, which is not enough where `f2i` saturates, log 18); and a read sees
nothing but its own line's slots 0..CAP-1. -/
def Obligations.ReadsAlias : Prop :=
  (∀ (s : State) (c : Fin 4) (i k n : Int), tap s c (i + n * (s.cap : Int)) k = tap s c i k) ∧
  (∀ (s : State) (c : Fin 4) (d e : F32) (n : Int), splitInt e = splitInt d + n * (s.cap : Int) → splitFrac e = splitFrac d →
    readLin s c e = readLin s c d ∧ readHerm s c e = readHerm s c d) ∧
  ∀ (s t : State) (c : Fin 4) (d : F32), t.cap = s.cap → (t.dl.get c).wp = (s.dl.get c).wp →
    (∀ a, a < s.cap → t.mem.readSlot c a = s.mem.readSlot c a) →
    readLin t c d = readLin s c d ∧ readHerm t c d = readHerm s c d

/-- O13. Round trip (R141): a finite sample written to a line is what both reads return `n + 1` writes later, up to the sign of a zero,
for every integer delay up to `CAP - 1`, no flag set. The premises on the other taps are the ones binary32 needs: the differences
the interpolation forms must not overflow (log 15). -/
def Obligations.WriteReadRoundTrip : Prop :=
  ∀ (s : State) (c : Fin 4) (v : Word) (vs : List Word),
    memoryInv s → isFinite (F32.ofBits v) = true → vs.length + 2 ≤ s.cap →
    let t := runEach (.dlWrite c) s (v :: vs)
    let d : Int := vs.length + 1
    let u := t.setArg 0 (i2f d).toBits
    let half := F32.ofBits 0x3F000000#32
    let cc := fmul (fsub (tap u c d 1) (tap u c d (-1))) half
    let w := fsub (tap u c d 0) (tap u c d 1)
    let a := fadd (fadd (fadd cc w) w) (fmul (fsub (tap u c d 2) (tap u c d 0)) half)
    (isFinite (fsub (tap u c d 1) (tap u c d 0)) = true →
      ∃ r, exec (.dlRead c) u = .next r ∧ sameValue (F32.ofBits (r.res.get 0)) (F32.ofBits v) = true ∧ r.status = u.status) ∧
    (isFinite cc = true → isFinite a = true → isFinite (fadd (fadd cc w) a) = true →
      ∃ r, exec (.dlReadh c) u = .next r ∧ sameValue (F32.ofBits (r.res.get 0)) (F32.ofBits v) = true ∧ r.status = u.status)

/-! ### Phasors -/

/-- O14. Setting up a phasor. `PH.INIT` (R151): a sample rate that is not finite or below 1 becomes 48000 with `ARGERR`; phases and depth
0, ratio 1, the delay the sample rate. The setters clamp their operand, a NaN to the lower bound; setting the delay recomputes the
frequency and leaves the phases (R152, R153, R154). -/
def Obligations.PhasorSetup : Prop :=
  ∀ (c : Fin 4) (s : State),
    let x := F32.ofBits (s.arg.get 0)
    let zero := F32.ofBits 0x00000000#32
    let one := F32.ofBits 0x3F800000#32
    let bad := !isFinite x || flt x one
    let sr := if bad then F32.ofBits 0x473B8000#32 else x
    let d := clamp x one (F32.ofBits 0x4B800000#32)
    encode (.phInit c) = BitVec.ofNat 32 (0x20000000 + c.val * 2 ^ 20) ∧
    encode (.phSetdly c) = BitVec.ofNat 32 (0x21000000 + c.val * 2 ^ 20) ∧
    encode (.phSetratio c) = BitVec.ofNat 32 (0x22000000 + c.val * 2 ^ 20) ∧
    encode (.phSetdepth c) = BitVec.ofNat 32 (0x23000000 + c.val * 2 ^ 20) ∧
    (∃ t, exec (.phInit c) s = .next t ∧
      t.ph.get c = { main := zero, mod := zero, sr := sr, dsamp := sr, freq := fdiv sr sr, ratio := one, depth := zero } ∧
      t.status.flag .argerr = (s.status.flag .argerr || bad) ∧ keptExcept (fun p => p = .phasor c ∨ p = .flag .argerr) s t) ∧
    (∃ t, exec (.phSetdly c) s = .next t ∧ t.ph.get c = { s.ph.get c with dsamp := d, freq := fdiv (s.ph.get c).sr d } ∧
      keptExcept (fun p => p = .phasor c) s t) ∧
    (∃ t, exec (.phSetratio c) s = .next t ∧
      t.ph.get c = { s.ph.get c with ratio := clamp x zero (F32.ofBits 0x44800000#32) } ∧
      keptExcept (fun p => p = .phasor c) s t) ∧
    (∃ t, exec (.phSetdepth c) s = .next t ∧
      t.ph.get c = { s.ph.get c with depth := clamp x zero (F32.ofBits 0x41A00000#32) } ∧
      keptExcept (fun p => p = .phasor c) s t)

/-- O15. `PH.PROC` advances and wraps both accumulators and returns the main phase; `PH.GETPOS` and `PH.GETSMP` return the modulated
position and its product with the delay, and change nothing else (R155, R156, R157). -/
def Obligations.PhasorOperations : Prop :=
  ∀ (c : Fin 4) (tri : Bool) (s : State),
    let p := s.ph.get c
    let one := F32.ofBits 0x3F800000#32
    let half := F32.ofBits 0x3F000000#32
    let quarter := F32.ofBits 0x3E800000#32
    let e := fmul (F32.ofBits 0x40000000#32) (fabs (fsub (wrap01 (fadd p.mod quarter)) half))
    let sweep := wrap01 (fadd p.main (fmul p.depth e))
    let pos := if tri then fadd (fmul (fsub one sweep) half) quarter else sweep
    (∃ t, exec (.phProc c) s = .next t ∧
      t.ph.get c = { p with main := wrap01 (fadd p.main (fdiv p.freq p.sr)), mod := wrap01 (fadd p.mod (fdiv (fmul p.freq p.ratio) p.sr)) } ∧
      t.res.get 0 = (wrap01 (fadd p.main (fdiv p.freq p.sr))).toBits ∧ keptExcept (fun q => q = .phasor c ∨ q = .res 0) s t) ∧
    (∃ t, exec (.phGetpos c tri) s = .next t ∧ t.res.get 0 = pos.toBits ∧ keptExcept (fun q => q = .res 0) s t) ∧
    (∃ t, exec (.phGetsmp c tri) s = .next t ∧ t.res.get 0 = (fmul pos p.dsamp).toBits ∧ keptExcept (fun q => q = .res 0) s t)

/-- O16. The range of `PH.GETPOS`, from every state: [0,1) without the fold, (0.25, 0.75] with it (R156). -/
def Obligations.PhPositionRange : Prop :=
  ∀ (c : Fin 4) (s : State),
    (∃ t, exec (.phGetpos c false) s = .next t ∧ inUnit (F32.ofBits (t.res.get 0)) = true) ∧
    ∃ t, exec (.phGetpos c true) s = .next t ∧ flt (F32.ofBits 0x3E800000#32) (F32.ofBits (t.res.get 0)) = true ∧
      fle (F32.ofBits (t.res.get 0)) (F32.ofBits 0x3F400000#32) = true

/-- O17. Every step keeps the phasor invariant of all four phasors (R158; the exception for the delay's upper bound is log 15). -/
def Obligations.PhasorInvKept : Prop :=
  ∀ s t : State, (∀ c, phasorInv (s.ph.get c)) → step s = .next t → ∀ c, phasorInv (t.ph.get c)

/-! ### Clock -/

/-- O18. `CK.INIT` (R171, R176): every field from the arguments, each guarded argument replaced by its default, `ARGERR` when one was,
`ppqn_ext` kept; the arguments (48000, 0, 4, 24000, 0) give the clock's reset state. -/
def Obligations.CkInitSets : Prop :=
  ∀ s : State,
    let sr := if (s.arg.get 0).toNat < 1 then 48000 else (s.arg.get 0).toNat
    let pp := if (s.arg.get 2).toNat < 1 then 1 else (s.arg.get 2).toNat
    let m := if (s.arg.get 4).toNat = 1 then ClockMode.externalCV else if (s.arg.get 4).toNat = 2 then .midiClock else .internal
    let q := if (s.arg.get 3).toInt ≤ 0 then BitVec.ofNat 32 (max 1 (sr / 2)) else s.arg.get 3
    encode .ckInit = 0x30000000#32 ∧ ∃ t, exec .ckInit s = .next t ∧
      t.ck = { mode := m, spqn := if m = .internal then q else 0#32, ppqnInt := BitVec.ofNat 32 pp, ppqnExt := s.ck.ppqnExt
               outAcc := 0#32, detAcc := 0#32, pulseCnt := 0#32, avg := ⟨0#32, 0#32, 0#32⟩, avgIdx := 0, avgFill := 0
               gate := false, gateTimer := 0#32, timeoutCnt := 0#32, clockTimeout := BitVec.ofNat 32 (sr / 2), lastValid := q
               prevTrig := false, firstSeen := false, sr := BitVec.ofNat 32 sr, block := s.arg.get 1 } ∧
      t.status.flag .argerr = (s.status.flag .argerr || decide ((s.arg.get 0).toNat < 1 ∨ (s.arg.get 2).toNat < 1 ∨
        2 < (s.arg.get 4).toNat ∨ (s.arg.get 3).toInt ≤ 0)) ∧
      keptExcept (fun p => p = .clock ∨ p = .flag .argerr) s t ∧
      (s.arg.get 0 = 48000#32 → s.arg.get 1 = 0#32 → s.arg.get 2 = 4#32 → s.arg.get 3 = 24000#32 → s.arg.get 4 = 0#32 →
        s.ck.ppqnExt = 1#32 → t.ck = State.reset.ck)

/-- O19. `CK.SETMODE` in its three rows re-arms and sets the mode; SPQN becomes 0 in the external modes, kept or restored in Internal
mode; gate, timer, PPQNs, timeout and the last valid SPQN stay (R175, R176). -/
def Obligations.CkSetmodeRearms : Prop :=
  ∀ (m : ClockMode) (s : State),
    let q := if 0 < s.ck.spqn.toInt then s.ck.spqn else if 0 < s.ck.lastValid.toInt then s.ck.lastValid
      else BitVec.ofNat 32 (max 1 (s.ck.sr.toNat / 2))
    encode (setmodeInstr m) = BitVec.ofNat 32 (0x32000000 + clockModeCode m) ∧ decode 0x32000003#32 = .error .clockMode ∧
    ∃ t, exec (setmodeInstr m) s = .next t ∧
      t.ck = { s.ck with
        mode := m, spqn := if m = .internal then q else 0#32
        outAcc := 0#32, detAcc := 0#32, pulseCnt := 0#32, timeoutCnt := 0#32, avg := ⟨0#32, 0#32, 0#32⟩, avgIdx := 0, avgFill := 0
        prevTrig := false, firstSeen := false } ∧
      keptExcept (fun p => p = .clock) s t

/-- O20. The detection half of `CK.TICK` (R177, R179, R181 to R183): counters, first pulse, rejected interval, accepted interval. -/
def Obligations.CkTickDetects : Prop :=
  ∀ s : State,
    let k := s.ck
    let trig := (s.arg.get 0).getLsbD 0
    let up := fun (x : Word) => if x.toNat < 2 ^ 32 - 1 then x + 1#32 else x
    let n := (up k.detAcc).toNat * (if k.mode = .midiClock then 24 else k.ppqnExt.toNat)
    let fill := min 3 (k.avgFill.val + 1)
    let avg := k.avg.set k.avgIdx (BitVec.ofNat 32 n)
    let total := avg.e0.toNat + (if 2 ≤ fill then avg.e1.toNat else 0) + (if 3 ≤ fill then avg.e2.toNat else 0)
    ∃ t, exec .ckTick s = .next t ∧ t.ck.prevTrig = trig ∧
      t.ck.mode = k.mode ∧ t.ck.ppqnInt = k.ppqnInt ∧ t.ck.ppqnExt = k.ppqnExt ∧ t.ck.clockTimeout = k.clockTimeout ∧
      t.ck.sr = k.sr ∧ t.ck.block = k.block ∧
      keptExcept (fun p => p = .clock ∨ p = .res 0 ∨ p = .res 1 ∨ p = .flag .clkrej) s t ∧
      (if k.mode = .internal then
        t.ck.detAcc = k.detAcc ∧ t.ck.timeoutCnt = k.timeoutCnt ∧ t.ck.firstSeen = k.firstSeen ∧ t.ck.avg = k.avg ∧
        t.ck.avgIdx = k.avgIdx ∧ t.ck.avgFill = k.avgFill ∧ t.ck.spqn = k.spqn ∧ t.ck.lastValid = k.lastValid ∧ t.status = s.status
      else if trig = false ∨ k.prevTrig = true then
        t.ck.detAcc = up k.detAcc ∧ t.ck.timeoutCnt = up k.timeoutCnt ∧ t.ck.firstSeen = k.firstSeen ∧ t.ck.avg = k.avg ∧
        t.ck.avgIdx = k.avgIdx ∧ t.ck.avgFill = k.avgFill ∧ t.ck.spqn = k.spqn ∧ t.ck.lastValid = k.lastValid ∧ t.status = s.status
      else t.ck.detAcc = 0#32 ∧ t.ck.timeoutCnt = 0#32 ∧ t.ck.firstSeen = true ∧
        (if k.firstSeen = false ∨ n < 10 ∨ 10000000 < n then
          t.ck.avg = k.avg ∧ t.ck.avgIdx = k.avgIdx ∧ t.ck.avgFill = k.avgFill ∧ t.ck.spqn = k.spqn ∧
          t.ck.lastValid = k.lastValid ∧ t.status.flag .clkrej = (s.status.flag .clkrej || k.firstSeen)
        else
          t.ck.avg = avg ∧ t.ck.avgIdx.val = (k.avgIdx.val + 1) % 3 ∧ t.ck.avgFill.val = fill ∧
          t.ck.spqn = BitVec.ofNat 32 (total / fill) ∧ t.ck.lastValid = t.ck.spqn ∧ t.status = s.status))

/-- O21. The output half of `CK.TICK` (R172, R178, R180): the divider on the SPQN the detection left, the returned edge, and the gate,
which an edge opens for `max(1, sr * 5 div 1000)` frames and the timer closes. -/
def Obligations.CkTickDivides : Prop :=
  ∀ s : State,
    let k := s.ck
    let acc := if k.outAcc.toNat < 2 ^ 32 - 1 then k.outAcc.toNat + 1 else k.outAcc.toNat
    ∃ t, exec .ckTick s = .next t ∧
      t.res.get 1 = (if t.ck.gate then 1#32 else 0#32) ∧
      (let pulse := 0 < t.ck.spqn.toInt ∧ max 1 (t.ck.spqn.toNat / k.ppqnInt.toNat) ≤ acc
       (¬ pulse → t.ck.outAcc.toNat = acc ∧ t.ck.pulseCnt = k.pulseCnt) ∧
       (pulse → k.pulseCnt.toNat + 1 < k.ppqnInt.toNat → t.ck.outAcc = 0#32 ∧ t.ck.pulseCnt.toNat = k.pulseCnt.toNat + 1) ∧
       (pulse → k.ppqnInt.toNat ≤ k.pulseCnt.toNat + 1 →
         t.ck.outAcc = 0#32 ∧ t.ck.pulseCnt = 0#32 ∧ t.res.get 0 = 1#32 ∧ t.ck.gate = true ∧
         t.ck.gateTimer.toNat = max 1 (k.sr.toNat * 5 / 1000) - 1) ∧
       (¬ (pulse ∧ k.ppqnInt.toNat ≤ k.pulseCnt.toNat + 1) →
         t.res.get 0 = 0#32 ∧ t.ck.gate = decide (0 < k.gateTimer.toNat) ∧ t.ck.gateTimer.toNat = k.gateTimer.toNat - 1))

/-- O22. Internal periodicity (R186): after a re-arm in Internal mode, with the PPQN dividing SPQN, the n-th `CK.TICK` returns 1 exactly
when SPQN divides n, whatever the trigger inputs are. -/
def Obligations.InternalPeriodicity : Prop :=
  ∀ (s : State) (vs : List Word) (v : Word), s.ck.mode = .internal → s.ck.outAcc = 0#32 → s.ck.pulseCnt = 0#32 →
    1 ≤ s.ck.ppqnInt.toNat → 0 < s.ck.spqn.toInt → s.ck.ppqnInt.toNat ∣ s.ck.spqn.toNat →
    ∃ t, exec .ckTick ((runEach .ckTick s vs).setArg 0 v) = .next t ∧
      t.res.get 0 = if s.ck.spqn.toNat ∣ vs.length + 1 then 1#32 else 0#32

/-- O23. Clock loss (R184, R188): in an external mode, n ticks without a rising edge of the trigger (low, or held high) after the last edge
leave SPQN, the last valid SPQN and `CK.GETBPM` as they were, and `CK.PRESENT` gives 1 exactly while n is below the timeout. -/
def Obligations.ClockLoss : Prop :=
  ∀ (s : State) (vs : List Word), s.ck.mode ≠ .internal → noEdge s.ck.prevTrig vs = true → s.ck.timeoutCnt = 0#32 →
    vs.length < 2 ^ 32 →
    let t := runEach .ckTick s vs
    t.ck.spqn = s.ck.spqn ∧ t.ck.lastValid = s.ck.lastValid ∧ t.ck.timeoutCnt.toNat = vs.length ∧
    (∃ u, exec .ckPresent t = .next u ∧ u.res.get 0 = if vs.length < s.ck.clockTimeout.toNat then 1#32 else 0#32) ∧
    ∃ u v, exec .ckGetbpm t = .next u ∧ exec .ckGetbpm s = .next v ∧ u.res.get 0 = v.res.get 0

/-- O24. The four tempo setters (R189 to R193): a non-positive or non-finite operand sets `ARGERR` and changes nothing else; any other
stores the rounded tempo, at least 1, as SPQN and as the last valid SPQN, in every mode: in an external mode before the first accepted
interval too, where R30 and C1 say SPQN is 0 (log 20). -/
def Obligations.CkSettersStore : Prop :=
  ∀ s : State,
    let x := F32.ofBits (s.arg.get 0)
    let half := F32.ofBits 0x3F000000#32
    let rate := i2f (s.ck.sr.toNat : Int)
    let good := isFinite x = true ∧ flt (F32.ofBits 0x00000000#32) x = true
    let stores := fun (i : Instr) (n : Int) => ∃ t, exec i s = .next t ∧
      t.ck = { s.ck with spqn := BitVec.ofInt 32 (max n 1), lastValid := BitVec.ofInt 32 (max n 1) } ∧
      keptExcept (fun p => p = .clock) s t
    let rejects := fun (i : Instr) => ∃ t, exec i s = .next t ∧ t.status.flag .argerr = true ∧
      keptExcept (fun p => p = .flag .argerr) s t
    encode .ckSetbpm = 0x33000000#32 ∧ encode .ckSetfreq = 0x34000000#32 ∧ encode .ckSetsmp = 0x35000000#32 ∧
    encode .ckSetspqn = 0x36000000#32 ∧
    (good → stores .ckSetbpm (f2i (fadd (fdiv (fmul rate (F32.ofBits 0x42700000#32)) x) half)) ∧
      stores .ckSetfreq (f2i (fadd (fdiv rate x) half)) ∧ stores .ckSetsmp (f2i (fadd x half))) ∧
    (¬ good → rejects .ckSetbpm ∧ rejects .ckSetfreq ∧ rejects .ckSetsmp) ∧
    (0 < (s.arg.get 0).toInt → stores .ckSetspqn (s.arg.get 0).toInt) ∧
    ((s.arg.get 0).toInt ≤ 0 → rejects .ckSetspqn)

/-- O25. The five queries (R194 to R198) write `RES[0]` and change nothing else; `CK.PRESENT` is bit 1 of
`CK_FLAGS`. -/
def Obligations.CkQueriesAnswer : Prop :=
  ∀ s : State,
    let k := s.ck
    let answers := fun (i : Instr) (v : Word) => ∃ t, exec i s = .next t ∧ t.res.get 0 = v ∧ keptExcept (fun p => p = .res 0) s t
    encode .ckGetbpm = 0x37000000#32 ∧ encode .ckGetfreq = 0x38000000#32 ∧ encode .ckGetspb = 0x39000000#32 ∧
    encode .ckPresent = 0x3A000000#32 ∧ encode .ckGetppqn = 0x3B000000#32 ∧
    (regRead s .ckFlags).getLsbD 1 = decide (k.timeoutCnt.toNat < k.clockTimeout.toNat) ∧
    answers .ckGetbpm (if k.spqn.toInt ≤ 0 then 120#32
      else BitVec.ofNat 32 (min (2 ^ 32 - 1) ((2 * k.sr.toNat * 60 + k.spqn.toNat) / (2 * k.spqn.toNat)))) ∧
    answers .ckGetfreq (if k.spqn.toInt ≤ 0 then 0x40000000#32 else (fdiv (i2f (k.sr.toNat : Int)) (i2f k.spqn.toInt)).toBits) ∧
    answers .ckGetspb k.spqn ∧
    answers .ckPresent (if k.timeoutCnt.toNat < k.clockTimeout.toNat then 1#32 else 0#32) ∧
    answers .ckGetppqn (match k.mode with | .internal => k.ppqnInt | .externalCV => k.ppqnExt | .midiClock => 24#32)

/-- O26. Every step keeps the clock invariant of R199, and a `CK.TICK` in which the divider pulsed leaves the pulse count below the
PPQN. -/
def Obligations.ClockInvKept : Prop :=
  (∀ s t : State, clockInv s.ck → step s = .next t → clockInv t.ck) ∧
  ∀ s t : State, clockInv s.ck → exec .ckTick s = .next t → t.ck.outAcc = 0#32 → t.ck.pulseCnt.toNat < t.ck.ppqnInt.toNat

/-! ### Effect engine -/

/-- O27. `FX.INIT` (R211): every field of the engine at its reset value, the sample rate from `ARG[0]` or 48000 with `ARGERR`; the input
registers, the lines and the phasors are untouched. -/
def Obligations.FxInitResets : Prop :=
  ∀ s : State,
    let x := F32.ofBits (s.arg.get 0)
    let zero := F32.ofBits 0x00000000#32
    let one := F32.ofBits 0x3F800000#32
    let q1 := F32.ofBits 0x3E800000#32
    let q3 := F32.ofBits 0x3F400000#32
    let half := F32.ofBits 0x3F000000#32
    let bad := !isFinite x || flt x one
    let grain : Grain := { active := false, pos := zero, inc := one, amp := zero, size := one, phase := zero }
    let chan := fun (px py : F32) => ({ lastOut := zero, lastPos := zero, posValid := false, xfRem := 0, xfFrom := zero
                                        apX1 := ⟨zero, zero⟩, apY1 := ⟨zero, zero⟩, wet := zero, which := zero
                                        curD := zero, prevD := zero, dxfPos := one, dvalid := false, acc := zero, lastSlice := 0
                                        gphase := zero, grain := ⟨grain, grain, grain, grain⟩, blkCnt := 0#32, subStep := 0
                                        rateSm := one, px := px, py := py, vx := zero, vy := zero, tx := zero, ty := zero } : FxChannel)
    encode .fxInit = 0x40000000#32 ∧ ∃ t, exec .fxInit s = .next t ∧
      t.fx = { sr := if bad then F32.ofBits 0x473B8000#32 else x, curMode := .basic, rng := 1#32
               chan := ⟨chan q1 q1, chan q3 q1, chan q1 q3, chan q3 q3⟩, lfoPh := ⟨zero, zero⟩, orbit := zero
               cx := ⟨q3, q1⟩, cy := ⟨half, half⟩ } ∧
      t.status.flag .argerr = (s.status.flag .argerr || bad) ∧ keptExcept (fun p => p = .fxEngine ∨ p = .flag .argerr) s t

/-- O28. `FX.PROC` in all twelve modes (R212, R221, R224): the frame completes, the mode is remembered, the sample rate is kept, the
three outputs of every channel are one finite value; of everything outside the engine only `NONFIN` and, in modes 5 to 10, the
phasors may change. With the allpass stage off, a frame sets `NONFIN` only where a channel's output is the guard's +0.0 (R218). -/
def Obligations.FxProcCompletes : Prop :=
  ∀ (m : FxMode) (s : State), encode (fxProcInstr m) = BitVec.ofNat 32 (0x41000000 + m.code) ∧
    ∃ t, exec (fxProcInstr m) s = .next t ∧ t.fx.curMode = m ∧ t.fx.sr = s.fx.sr ∧
      (∀ c, (t.fx.chan.get c).wet = (t.fx.chan.get c).lastOut ∧ (t.fx.chan.get c).which = (t.fx.chan.get c).lastOut ∧
        isFinite (t.fx.chan.get c).lastOut = true) ∧
      (allpassOn s = false → t.status.flag .nonfin = true →
        s.status.flag .nonfin = true ∨ ∃ c, (t.fx.chan.get c).wet = F32.ofBits 0x00000000#32) ∧
      keptExcept (fun p => p = .fxEngine ∨ p = .flag .nonfin ∨ (5 ≤ m.code ∧ m.code ≤ 10 ∧ ∃ c, p = .phasor c)) s t

/-- O29. Every step keeps the engine's invariant: outputs, held samples and allpass memories finite, fades at most 24 frames, phases and
particles in [0,1), grains in range (R224, R295, R323). -/
def Obligations.FxInvKept : Prop := ∀ s t : State, fxInv s.fx → step s = .next t → fxInv t.fx

/-- O30. Modes 0 to 2, a target that is loaded or followed (R251, R252, R253): the first frame after `FX.INIT` or a mode change takes the
base delay over; a later target that is no big jump is followed at once while no divisor crossfade runs. The sample is the Hermite read
there, with the fade and the guard (R217, R218); nothing else of the engine changes in the channel. -/
def Obligations.DivisorFollows : Prop :=
  ∀ (m : FxMode) (c : Fin 4) (s : State), m = .basic ∨ m = .pingpong ∨ m = .unlinked → allpassOn s = false →
    let k := entered m s c
    let base := baseDelay s c
    let one := F32.ofBits 0x3F800000#32
    let jump := fgt (fabs (fsub base k.curD)) (fmul (fdiv (param m s 1) (F32.ofBits 0x42C80000#32)) k.curD)
    ∃ t, exec (fxProcInstr m) s = .next t ∧
      (k.dvalid = false →
        channelOut t c { k with curD := base, prevD := base, dxfPos := one, dvalid := true } (readHerm s c base)) ∧
      (k.dvalid = true → fle one k.dxfPos = true → jump = false → channelOut t c { k with curD := base } (readHerm s c base)) ∧
      t.fx = { s.fx with chan := t.fx.chan, curMode := m } ∧ keptExcept (fun p => p = .fxEngine ∨ p = .flag .nonfin) s t

/-- O31. Modes 0 to 2, a target that is crossfaded to (R251, R223): at a big jump the divisor crossfade starts at the old delay; under
freeze the target is not adopted; while a crossfade runs no target is adopted and the sample is the mix of the two reads at its position,
which then advances by 1000 / (P1 sr), at most to 1, each operation rounded (log 16, log 18). -/
def Obligations.DivisorJumps : Prop :=
  ∀ (m : FxMode) (c : Fin 4) (s : State), m = .basic ∨ m = .pingpong ∨ m = .unlinked → allpassOn s = false →
    let k := entered m s c
    let base := baseDelay s c
    let zero := F32.ofBits 0x00000000#32
    let one := F32.ofBits 0x3F800000#32
    let old := readHerm s c k.curD
    let from0 := readHerm s c k.prevD
    let rate := fdiv (F32.ofBits 0x447A0000#32) (fmul (param m s 0) s.fx.sr)
    let jump := fgt (fabs (fsub base k.curD)) (fmul (fdiv (param m s 1) (F32.ofBits 0x42C80000#32)) k.curD)
    ∃ t, exec (fxProcInstr m) s = .next t ∧
      (k.dvalid = true → fle one k.dxfPos = true → jump = true → frozen s = false →
        channelOut t c { k with prevD := k.curD, curD := base, dxfPos := fmin2 one (fadd zero rate) }
          (fadd old (fmul (fsub (readHerm s c base) old) zero))) ∧
      (k.dvalid = true → fle one k.dxfPos = true → jump = true → frozen s = true → channelOut t c k old) ∧
      (k.dvalid = true → flt k.dxfPos one = true →
        channelOut t c { k with dxfPos := fmin2 one (fadd k.dxfPos rate) } (fadd from0 (fmul (fsub old from0) k.dxfPos)))

/-- O32. A mode change (R215, R217), into any of the twelve modes: in every channel the 24-frame fade starts from the old mode's last
sample, 23 frames of it are left, and what the old mode remembered of position and delay is not used. With the allpass stage off the
sample is 1/24 of the way, in rounded operations (log 18), from the old one to the new read: at the base delay in modes 0 to 2, at the
head's position in mode 5, and, with a grain mix not above 0, in modes 6 to 10 (the statements of the modes say what the kernels of the
others return). -/
def Obligations.ModeChangeFades : Prop :=
  ∀ (m : FxMode) (s : State), s.fx.curMode ≠ m → ∃ t, exec (fxProcInstr m) s = .next t ∧ t.fx.curMode = m ∧
    ∀ c : Fin 4,
      let held := (s.fx.chan.get c).lastOut
      let ch := t.fx.chan.get c
      let near := fun (raw : F32) => fadd held (fmul (fsub raw held) (fdiv (F32.ofBits 0x3F800000#32) (F32.ofBits 0x41C00000#32)))
      ch.xfRem = 23 ∧ ch.xfFrom = held ∧ ch.posValid = decide (5 ≤ m.code ∧ m.code ≤ 10) ∧ ch.dvalid = decide (m.code ≤ 2) ∧
      (allpassOn s = false → m.code ≤ 2 → ch.curD = baseDelay s c ∧ ch.wet = silenced (near (readHerm s c (baseDelay s c)))) ∧
      (allpassOn s = false → m = .knuth ∨ 6 ≤ m.code ∧ m.code ≤ 10 ∧ grainsOn m s = false →
        ch.wet = silenced (near (readHerm s c ch.lastPos)))

/-- O33. The allpass stage (R219, R220), in every mode: a frame of `s`, the stage on, against the frame of `u`, the same state with the
stage's bit of `FX_CTL` clear. Each channel's sample of the second frame, with the fade and the guard, goes through two sections with the
coefficient 0.7 times the clamped feedback knob, each with its denormal killer; a result that is not finite clears the four memories,
gives +0.0 and sets `NONFIN`. Everything else the two frames leave alike. (The statements of the modes say what the frame of `u` is.) -/
def Obligations.AllpassStage : Prop :=
  ∀ (m : FxMode) (s : State), allpassOn s = true →
    let u := s.setFxIn { s.fxIn with ctl := s.fxIn.ctl &&& 0xFFFFFFFD#32 }
    let zero := F32.ofBits 0x00000000#32
    let k := F32.ofBits 0x219392EF#32
    let g := fmul (F32.ofBits 0x3F333333#32) (clamp01 s.fxIn.fb)
    let ap := fun (x x1 y1 : F32) => fsub (fadd (fadd (fadd (fmul (fsub zero g) x) x1) (fmul g y1)) k) k
    let first := fun (t0 : State) (c : Fin 4) =>
      ap (t0.fx.chan.get c).wet (s.fx.chan.get c).apX1.e0 (s.fx.chan.get c).apY1.e0
    let second := fun (t0 : State) (c : Fin 4) => ap (first t0 c) (s.fx.chan.get c).apX1.e1 (s.fx.chan.get c).apY1.e1
    ∃ t t0, exec (fxProcInstr m) s = .next t ∧ exec (fxProcInstr m) u = .next t0 ∧
      (∀ c : Fin 4,
        let ok := isFinite (second t0 c)
        let out := silenced (second t0 c)
        t.fx.chan.get c = { t0.fx.chan.get c with
          wet := out, which := out, lastOut := out
          apX1 := if ok then ⟨(t0.fx.chan.get c).wet, first t0 c⟩ else ⟨zero, zero⟩
          apY1 := if ok then ⟨first t0 c, second t0 c⟩ else ⟨zero, zero⟩ }) ∧
      t.fx = { t0.fx with chan := t.fx.chan } ∧ t.fxIn = s.fxIn ∧
      t.status.flag .nonfin = (t0.status.flag .nonfin || !(isFinite (second t0 0) && isFinite (second t0 1) &&
        isFinite (second t0 2) && isFinite (second t0 3))) ∧
      keptExcept (fun p => p = .fxInputs ∨ p = .fxEngine ∨ p = .flag .nonfin) t0 t

/-- O34. The resonator (R254): every channel reads at sr over the frequency of the nearest note, at least 1 Hz, whatever its base delay.
`noteFreq` contains the open `cfgExp2` of R13 (log 5): the statement holds for every one. -/
def Obligations.ResonatorReads : Prop :=
  ∀ s : State, allpassOn s = false →
    ∃ t, exec .fxProcResonator s = .next t ∧
      frameOut s t (entered .resonator s) (fun c => readHerm s c (readable s (fdiv s.fx.sr (noteFreq s)))) ∧
      t.fx = { s.fx with chan := t.fx.chan, curMode := .resonator } ∧ keptExcept (fun p => p = .fxEngine ∨ p = .flag .nonfin) s t

/-- O35. The chorus (R255): both oscillators advance once a frame; each channel blends the read at its base delay with the read at a
delay that the oscillator of its parity and its depth shorten, by the rounded product of R255 (whose 20 % a rounding can pass, log 18). -/
def Obligations.ChorusBlends : Prop :=
  ∀ s : State, allpassOn s = false →
    let one := F32.ofBits 0x3F800000#32
    let ph := fun (l : Fin 2) => wrap01 (fadd (s.fx.lfoPh.get l) (fdiv (param .chorus s (if l = 0 then 0 else 2)) s.fx.sr))
    let raw := fun (c : Fin 4) =>
      let l : Fin 2 := if c.val % 2 = 0 then 0 else 1
      let dep := fdiv (param .chorus s (if l = 0 then 1 else 3)) (F32.ofBits 0x42C80000#32)
      let base := baseDelay s c
      let dm := readable s (fmul base (fsub one (fmul (fmul (F32.ofBits 0x3E4CCCCD#32) dep) (tri01 (ph l)))))
      fmul (F32.ofBits 0x3F000000#32) (fadd (readHerm s c base) (readHerm s c dm))
    ∃ t, exec .fxProcChorus s = .next t ∧ frameOut s t (entered .chorus s) raw ∧
      t.fx = { s.fx with chan := t.fx.chan, curMode := .chorus, lfoPh := ⟨ph 0, ph 1⟩ } ∧
      keptExcept (fun p => p = .fxEngine ∨ p = .flag .nonfin) s t

/-- O36. The Knuth mode (R256): the channel's phasor takes the base delay, P1 and P2 and advances; the read is at the folded modulated
position times the delay, clamped; a jump of that position arms the fade from the last output, whose first frame is this one
(R215, R216, R217). -/
def Obligations.KnuthReads : Prop :=
  ∀ s : State, allpassOn s = false →
    let q := fun (c : Fin 4) => driven (s.ph.get c) (baseDelay s c) (param .knuth s 0) (param .knuth s 1)
    let pos := fun (c : Fin 4) => readable s (fmul (foldedPosition (q c)) (q c).dsamp)
    ∃ t, exec .fxProcKnuth s = .next t ∧ (∀ c, t.ph.get c = q c) ∧
      frameOut s t (fun c => seamed (baseDelay s c) (pos c) (entered .knuth s c)) (fun c => readHerm s c (pos c)) ∧
      t.fx = { s.fx with chan := t.fx.chan, curMode := .knuth } ∧
      keptExcept (fun p => p = .fxEngine ∨ p = .flag .nonfin ∨ ∃ c, p = .phasor c) s t

/-- O37. The granular modes at neutral settings (R290 to R292, R281 to R289): meta1 0.5, meta2 0, no wobble, no grains; the mode is then a
plain delay: where the head stands at the base delay or not too far from it, the read is at the base delay, the offset stays 0, the
pool is idle and the phasor is driven with the base delay. -/
def Obligations.GranularNeutral : Prop :=
  ∀ (m : FxMode) (c : Fin 4) (s : State), m = .gran ∨ m = .octave ∨ m = .texture →
    let ch := s.fx.chan.get c
    let base := baseDelay s c
    s.fx.curMode = m → allpassOn s = false → s.fxIn.meta1 = F32.ofBits 0x3F000000#32 → s.fxIn.meta2 = F32.ofBits 0x00000000#32 →
    flt (F32.ofBits 0x00000000#32) (param m s 0) = false → grainsOn m s = false →
    ch.acc = F32.ofBits 0x00000000#32 → ch.lastSlice = 0 → jumps base base ch = false →
    ∃ t, exec (fxProcInstr m) s = .next t ∧ (t.fx.chan.get c).lastPos = base ∧
      (t.fx.chan.get c).acc = F32.ofBits 0x00000000#32 ∧ (∀ g, ((t.fx.chan.get c).grain.get g).active = false) ∧
      (t.ph.get c).dsamp = clamp base (F32.ofBits 0x3F800000#32) (F32.ofBits 0x4B800000#32) ∧
      (t.fx.chan.get c).xfRem = ch.xfRem - 1 ∧ (t.fx.chan.get c).wet = silenced (faded ch (readHerm s c base))

/-- O38. Modes 6 to 9 with a grain mix not above 0 (R281 to R286, R289): the offset moves by the rate less 1 and wraps in its window, the phasor
is driven, the read is at the base delay less the offset plus the wobble, on the grid of meta2; a change of slice, a wrap and a jump
of the head each arm the fade from the last output, whose first frame is this one (R215, R216); the pool is idle. -/
def Obligations.GranularHead : Prop :=
  ∀ (m : FxMode) (s : State), m = .gran ∨ m = .octave ∨ m = .texture ∨ m = .shimmer →
    allpassOn s = false → grainsOn m s = false →
    let idle := fun (ch : FxChannel) =>
      { ch with gphase := F32.ofBits 0x00000000#32, grain := ch.grain.map (fun g => { g with active := false }) }
    ∃ t, exec (fxProcInstr m) s = .next t ∧
      frameOut s t (fun c => idle (headChannel m s c)) (fun c => readHerm s c (headChannel m s c).lastPos) ∧
      (∀ c, t.ph.get c = driven (s.ph.get c) (baseDelay s c) (param m s 1) (F32.ofBits 0x3F800000#32)) ∧
      t.fx = { s.fx with chan := t.fx.chan, curMode := m } ∧
      keptExcept (fun p => p = .fxEngine ∨ p = .flag .nonfin ∨ ∃ c, p = .phasor c) s t

/-- O39. The accumulator's window (R285, R295): after a frame of modes 6 to 9 every channel's offset is in the window, from whatever
value it had. The window's ends are the rounded products of the base delay with the binary32 0.1 and 0.3 (R285), not exactly the -0.1
base and 0.3 base of R295 (log 18). -/
def Obligations.AccumulatorWindow : Prop :=
  ∀ (m : FxMode) (c : Fin 4) (s : State), m = .gran ∨ m = .octave ∨ m = .texture ∨ m = .shimmer →
    let base := baseDelay s c
    ∃ t, exec (fxProcInstr m) s = .next t ∧
      fle (fmul (fsub (F32.ofBits 0x00000000#32) (F32.ofBits 0x3DCCCCCD#32)) base) (t.fx.chan.get c).acc = true ∧
      flt (t.fx.chan.get c).acc (fmul (F32.ofBits 0x3E99999A#32) base) = true

/-- O40. The crystals mode (R287, R294). Whatever the grain mix: the counter advances by one a frame; at the block's end it restarts, the
sub-step cycles and the rate moves by P4 percent (rounded, log 16); the accumulator is not touched. With a grain mix not above 0 the
sample is the read at the position the block gives, and a block's end, a change of slice and a jump of the head each arm the fade. -/
def Obligations.CrystalBlocks : Prop :=
  ∀ s : State, ∃ t, exec .fxProcCrystals s = .next t ∧
    (∀ c : Fin 4,
      let ch := s.fx.chan.get c
      let n := ch.blkCnt + 1#32
      let len := fmax2 (F32.ofBits 0x42800000#32) (gridStep s c)
      let sm := fadd ch.rateSm (fmul (fdiv (param .crystals s 3) (F32.ofBits 0x42C80000#32)) (fsub (playRate .crystals s) ch.rateSm))
      (t.fx.chan.get c).acc = ch.acc ∧ (t.fx.chan.get c).lastSlice = sliceIndex s ∧
      (fle len (i2f (n.toNat : Int)) = true → (t.fx.chan.get c).blkCnt = 0#32 ∧
        (t.fx.chan.get c).subStep.val = (ch.subStep.val + 1) % 4 ∧ (t.fx.chan.get c).rateSm = sm ∧ (t.fx.chan.get c).xfRem = 23 ∧
        (t.fx.chan.get c).xfFrom = ch.lastOut) ∧
      (fle len (i2f (n.toNat : Int)) = false → (t.fx.chan.get c).blkCnt = n ∧
        (t.fx.chan.get c).subStep = ch.subStep ∧ (t.fx.chan.get c).rateSm = ch.rateSm)) ∧
    (allpassOn s = false → grainsOn .crystals s = false →
      frameOut s t
        (fun c => { blockChannel s c with
          gphase := F32.ofBits 0x00000000#32, grain := (s.fx.chan.get c).grain.map (fun g => { g with active := false }) })
        (fun c => readHerm s c (blockChannel s c).lastPos) ∧
      t.fx = { s.fx with chan := t.fx.chan, curMode := .crystals }) ∧
    (∀ c, t.ph.get c = driven (s.ph.get c) (baseDelay s c) (param .crystals s 1) (F32.ofBits 0x3F800000#32)) ∧
    keptExcept (fun p => p = .fxEngine ∨ p = .flag .nonfin ∨ ∃ c, p = .phasor c) s t

/-- O41. The grain cloud of modes 6 to 10 with the grain mix above 0 (R288, R289): the trigger phase advances; when it reaches 1 the lowest
free grain starts with two draws, channels in the order 0 to 3; the playing grains' enveloped reads are summed in the order 0 to 3 and
mixed with the head's sample; then every playing grain moves, ages and ends at phase 1. `cfgCos2pi` is open (log 5). -/
def Obligations.GrainCloud : Prop :=
  ∀ (m : FxMode) (s : State), 6 ≤ m.code → m.code ≤ 10 → allpassOn s = false →
    let one := F32.ofBits 0x3F800000#32
    let mix := fdiv (param m s 2) (F32.ofBits 0x42C80000#32)
    let head := fun (c : Fin 4) => if m = .crystals then blockChannel s c else headChannel m s c
    let phase := fun (c : Fin 4) => if fle one (cloudPhase s c) then wrap01 (cloudPhase s c) else cloudPhase s c
    grainsOn m s = true →
    ∃ t, exec (fxProcInstr m) s = .next t ∧
      frameOut s t (fun c => { head c with gphase := phase c, grain := Per4.ofFn (fun g => aged (playing m s c g)) })
        (fun c => fadd (fmul (readHerm s c (head c).lastPos) (fsub one mix)) (fmul (cloudSum m s c) mix)) ∧
      t.fx = { s.fx with chan := t.fx.chan, curMode := m, rng := rngAfter (cloudDraws s 4) s.fx.rng } ∧
      (∀ c, t.ph.get c = driven (s.ph.get c) (baseDelay s c) (param m s 1) one) ∧
      keptExcept (fun p => p = .fxEngine ∨ p = .flag .nonfin ∨ ∃ c, p = .phasor c) s t

/-- O42. The draws of a frame (R222, R257, R295, R321): none in modes 0 to 5, none or two per channel in modes 6 to 10, eight in mode 11,
each one step of the generator; a draw's value is its state's upper 24 bits times 2^-24, in [0,1). -/
def Obligations.RandomDraws : Prop :=
  (∀ r : Word, (rngNext r).toNat = (1664525 * r.toNat + 1013904223) % 2 ^ 32 ∧ unitsOf (rngValue r) * 2 ^ 24 = (r.toNat / 2 ^ 8 : Nat) * 2 ^ 149 ∧
    rngValue r = drawn r ∧ inUnit (rngValue r) = true) ∧
  ∀ (m : FxMode) (s : State), ∃ t n, exec (fxProcInstr m) s = .next t ∧ t.fx.rng = rngAfter n s.fx.rng ∧
    (m.code ≤ 5 → n = 0) ∧ (6 ≤ m.code → m.code ≤ 10 → n % 2 = 0 ∧ n ≤ 8) ∧ (m = .fluid → n = 8)

/-- O43. The fluid mode (R321, R322): the centres move on their circle; in every channel the field of both centres and the turbulence, with
two draws, turn the velocity, the velocity moves the particle, and the sample is the read at the base delay plus the offset the
particle's x gives. `cfgCos2pi` and `cfgSin2pi` are open (log 5). -/
def Obligations.FluidMoves : Prop :=
  ∀ s : State, allpassOn s = false →
    let zero := F32.ofBits 0x00000000#32
    let quarter := F32.ofBits 0x3E800000#32
    let half := F32.ofBits 0x3F000000#32
    let one := F32.ofBits 0x3F800000#32
    let two := F32.ofBits 0x40000000#32
    let hundred := F32.ofBits 0x42C80000#32
    let milli := F32.ofBits 0x3A83126F#32
    let p := param .fluid s
    let orbit := wrap01 (fadd s.fx.orbit (fdiv (p 3) s.fx.sr))
    let co := fmul quarter (cfgCos2pi orbit)
    let si := fmul quarter (cfgSin2pi orbit)
    let gam := fmul (F32.ofBits 0x3D4CCCCD#32) (clamp01 s.fxIn.meta1)
    let damp := fsub one (fmul (fdiv (p 0) hundred) milli)
    let kr := fmin2 one (fdiv (F32.ofBits 0x42480000#32) s.fx.sr)
    let moved := fun (c : Fin 4) =>
      let k := entered .fluid s c
      let dx := fun (x : F32) => fsub k.px x
      let dy := fun (y : F32) => fsub k.py y
      let r2 := fun (x y : F32) => fmax2 (fadd (fmul (dx x) (dx x)) (fmul (dy y) (dy y))) (F32.ofBits 0x38D1B717#32)
      let pull := fun (x y : F32) => (fdiv (fmul gam (fsub zero (dy y))) (r2 x y), fdiv (fmul gam (dx x)) (r2 x y))
      let f0 := pull (fadd half co) (fadd half si)
      let f1 := pull (fsub half co) (fsub half si)
      let noise := fun (v : F32) (j : Nat) =>
        fadd v (fmul milli (fsub (fsub (fmul two (drawn (rngAfter (2 * c.val + j) s.fx.rng))) one) v))
      let tx := noise k.tx 1
      let ty := noise k.ty 2
      let speed := fun (v f t : F32) => fmul (fadd v (fmul kr (fsub (fadd f (fmul (fdiv (p 1) hundred) t)) v))) damp
      let vx := speed k.vx (fadd (fadd zero f0.1) f1.1) tx
      let vy := speed k.vy (fadd (fadd zero f0.2) f1.2) ty
      let place := fun (x v : F32) => wrap01 (fadd x (fmul (fdiv one s.fx.sr) v))
      { k with tx := tx, ty := ty, vx := vx, vy := vy, px := place k.px vx, py := place k.py vy }
    let off := fun (c : Fin 4) =>
      fmul (fmul (fdiv (p 2) hundred) (baseDelay s c)) (fsub (fsub one (fabs (fsub (fmul two (moved c).px) one))) half)
    ∃ t, exec .fxProcFluid s = .next t ∧
      frameOut s t moved (fun c => readHerm s c (readable s (fadd (baseDelay s c) (off c)))) ∧
      t.fx = { s.fx with
        chan := t.fx.chan, curMode := .fluid, rng := rngAfter 8 s.fx.rng, orbit := orbit
        cx := ⟨fadd half co, fsub half co⟩, cy := ⟨fadd half si, fsub half si⟩ } ∧
      keptExcept (fun p => p = .fxEngine ∨ p = .flag .nonfin) s t

/-- O44. The fluid mode's first frame after `FX.INIT` with field and turbulence off (R321, R322, the rule's example): every velocity is 0
and every particle stays where it is, the read is at the base delay, the generator has advanced eight steps, the orbit advances. -/
def Obligations.FluidAtRest : Prop :=
  ∀ (r : F32) (c : Fin 4) (s : State), isFinite r = true → fle (F32.ofBits 0x3F800000#32) r = true →
    s.fx = Fx.resetWith r → s.fxIn.meta1 = F32.ofBits 0x00000000#32 → s.fxIn.p.e1 = F32.ofBits 0x00000000#32 →
    ∃ t, exec .fxProcFluid s = .next t ∧ (t.fx.chan.get c).px = (s.fx.chan.get c).px ∧ (t.fx.chan.get c).py = (s.fx.chan.get c).py ∧
      isZero (t.fx.chan.get c).vx = true ∧ isZero (t.fx.chan.get c).vy = true ∧
      t.fx.rng = rngAfter 8 s.fx.rng ∧
      t.fx.orbit = wrap01 (fadd (F32.ofBits 0x00000000#32) (fdiv (param .fluid s 3) r)) ∧
      (allpassOn s = false →
        (t.fx.chan.get c).wet = silenced (faded (entered .fluid s c) (readHerm s c (baseDelay s c)))) ∧
      keptExcept (fun p => p = .fxEngine ∨ p = .flag .nonfin) s t

/-! ### Waveshapers -/

/-- O45. The six transfer functions behind the input guard (R341 to R347). -/
def Obligations.WsTransfers : Prop :=
  ∀ s : State,
    let a0 := F32.ofBits (s.arg.get 0)
    let p := F32.ofBits (s.arg.get 1)
    let zero := F32.ofBits 0x00000000#32
    let one := F32.ofBits 0x3F800000#32
    let two := F32.ofBits 0x40000000#32
    let half := F32.ofBits 0x3F000000#32
    let lo := F32.ofBits 0x3A83126F#32
    let hi := F32.ofBits 0x447A0000#32
    let x := if isFinite a0 then a0 else zero
    let t := clamp p lo hi
    let l := clamp p one (F32.ofBits 0x47800000#32)
    let n := if fle zero (fmul x l) then f2i (fadd (fmul x l) half) else 0 - f2i (fsub half (fmul x l))
    let v := clamp (fmul x (clamp p zero hi)) (F32.ofBits 0xC0400000#32) (F32.ofBits 0x40400000#32)
    let q := fmul v v
    let w27 := F32.ofBits 0x41D80000#32
    let shapes := fun (i : Instr) (y : F32) => ∃ u, exec i s = .next u ∧ u.res.get 0 = y.toBits ∧
      u.status.flag .nonfin = (s.status.flag .nonfin || !isFinite a0) ∧ keptExcept (fun p => p = .res 0 ∨ p = .flag .nonfin) s u
    shapes .wsFold (if fle (fabs x) t then x
      else fmul t (fsub (fmul two (tri01 (fadd (fdiv x (fmul (F32.ofBits 0x40800000#32) t)) half))) one)) ∧
    shapes .wsDiode (if fle zero x then x else fmul x (fsub one (clamp p zero one))) ∧
    shapes .wsQuant (fdiv (i2f n) l) ∧
    shapes .wsMod (if flt (fabs x) t then x else fmul (fsub (wrap01 (fadd (fdiv x (fmul two t)) half)) half) (fmul two t)) ∧
    shapes .wsTanh (cfgTanh (clamp (fmul x (clamp p zero hi)) (F32.ofBits 0xC1A00000#32) (F32.ofBits 0x41A00000#32))) ∧
    shapes .wsTanhf (fdiv (fmul v (fadd w27 q)) (fadd w27 (fmul (F32.ofBits 0x41100000#32) q)))

/-- O46. The bounds and pass regions of the family (R348 (c), (e)). A finite sample within the fold's threshold, strictly within the
modulo's, or not negative at the diode comes out bit for bit. The results of fold and modulo are within the threshold, that of the diode
within its input, that of tanh within 1. R348 (c) claims the last of `WS.TANHF` too; by the arithmetic of R346 it is not so: one operand
pair gives 1.0000001 (log 19); every result is at most 1 + 2^-20. -/
def Obligations.WsRanges : Prop :=
  ∀ s : State,
    let x := F32.ofBits (s.arg.get 0)
    let one := F32.ofBits 0x3F800000#32
    let t := clamp (F32.ofBits (s.arg.get 1)) (F32.ofBits 0x3A83126F#32) (F32.ofBits 0x447A0000#32)
    let bounded := fun (i : Instr) (b : F32) => ∃ u, exec i s = .next u ∧ fle (fabs (F32.ofBits (u.res.get 0))) b = true
    (fle (fabs x) t = true → ∃ u, exec .wsFold s = .next u ∧ u.res.get 0 = s.arg.get 0) ∧
    (flt (fabs x) t = true → ∃ u, exec .wsMod s = .next u ∧ u.res.get 0 = s.arg.get 0) ∧
    (isFinite x = true → fle (F32.ofBits 0x00000000#32) x = true → ∃ u, exec .wsDiode s = .next u ∧ u.res.get 0 = s.arg.get 0) ∧
    bounded .wsFold t ∧ bounded .wsMod t ∧ (isFinite x = true → bounded .wsDiode (fabs x)) ∧ bounded .wsTanh one ∧
    bounded .wsTanhf (F32.ofBits 0x3F800008#32) ∧
    (s.arg.get 0 = 0x403FFFF8#32 → s.arg.get 1 = 0x3F800000#32 → ∃ u, exec .wsTanhf s = .next u ∧ u.res.get 0 = 0x3F800001#32)

/-- O47. Every waveshaper returns a finite value for every pair of operand bit patterns (R347, R348 (b)), in every configuration of the
open tanh (log 5). -/
def Obligations.WsFinite : Prop :=
  ∀ (i : Instr) (s : State), i ∈ [Instr.wsFold, .wsDiode, .wsQuant, .wsMod, .wsTanh, .wsTanhf] →
    ∃ u, exec i s = .next u ∧ isFinite (F32.ofBits (u.res.get 0)) = true

/-! ### Smoothers and guards -/

/-- O48. `SM.SET`, `SM.COEF` and `SM.STEP` (R361, R362, R363). -/
def Obligations.SmoothersUpdate : Prop :=
  ∀ (k : Fin 8) (s : State),
    let a0 := F32.ofBits (s.arg.get 0)
    let m := s.sm.get k
    let zero := F32.ofBits 0x00000000#32
    let x := if isFinite a0 then a0 else zero
    let dn := F32.ofBits 0x219392EF#32
    let r := fsub (fadd (fadd m.y (fmul m.a (fsub x m.y))) dn) dn
    let y := if isFinite r then r else x
    let a := clamp a0 zero (F32.ofBits 0x3F800000#32)
    encode (.smSet k) = BitVec.ofNat 32 (0x60000000 + k.val * 0x00100000) ∧
    encode (.smCoef k) = BitVec.ofNat 32 (0x61000000 + k.val * 0x00100000) ∧
    encode (.smStep k) = BitVec.ofNat 32 (0x62000000 + k.val * 0x00100000) ∧
    (∃ t, exec (.smSet k) s = .next t ∧ t.sm.get k = { m with y := x } ∧ t.res.get 0 = x.toBits ∧
      t.status.flag .nonfin = (s.status.flag .nonfin || !isFinite a0) ∧
      keptExcept (fun p => p = .smoother k ∨ p = .res 0 ∨ p = .flag .nonfin) s t) ∧
    (∃ t, exec (.smCoef k) s = .next t ∧ t.sm.get k = { m with a := a } ∧ t.res.get 0 = a.toBits ∧
      keptExcept (fun p => p = .smoother k ∨ p = .res 0) s t) ∧
    (∃ t, exec (.smStep k) s = .next t ∧ t.sm.get k = { m with y := y } ∧ t.res.get 0 = y.toBits ∧
      t.status.flag .nonfin = (s.status.flag .nonfin || !isFinite a0) ∧
      keptExcept (fun p => p = .smoother k ∨ p = .res 0 ∨ p = .flag .nonfin) s t)

/-- O49. Every step keeps every smoother's output finite and its coefficient in [0,1] (R40, R361 to R363, R368). -/
def Obligations.SmootherInvKept : Prop :=
  ∀ s t : State, (∀ k, smootherInv (s.sm.get k)) → step s = .next t → ∀ k, smootherInv (t.sm.get k)

/-- O50. The guard commands. `GD.FIN` (R364): a finite operand bit for bit, anything else 0x00000000 and `NONFIN`. `GD.DNK` (R365 to R367):
the operand plus and minus the constant, each rounded; every magnitude below 2^-84, subnormals and -0.0 among them, gives +0.0; no
flag. -/
def Obligations.GuardCommands : Prop :=
  ∀ s : State,
    let x := F32.ofBits (s.arg.get 0)
    let k := F32.ofBits 0x219392EF#32
    encode .gdFin = 0x63000000#32 ∧ encode .gdDnk = 0x64000000#32 ∧
    (∃ t, exec .gdFin s = .next t ∧ t.res.get 0 = (if isFinite x then s.arg.get 0 else 0x00000000#32) ∧
      t.status.flag .nonfin = (s.status.flag .nonfin || !isFinite x) ∧
      keptExcept (fun p => p = .res 0 ∨ p = .flag .nonfin) s t) ∧
    ∃ t, exec .gdDnk s = .next t ∧ t.res.get 0 = (fsub (fadd x k) k).toBits ∧
      (flt (fabs x) (F32.ofBits 0x15800000#32) = true → t.res.get 0 = 0x00000000#32) ∧ keptExcept (fun p => p = .res 0) s t

/-! ### Parameter spec -/

/-- O51. `PS.GET` (R381, R386): the entry's five values in `RES[0..4]`, the others unchanged; in every entry the minimum is below the
maximum and the default between them, and the minimum of an exponential one is positive; a word with another mode or a dead bit set
is illegal. -/
def Obligations.PsGetAnswers : Prop :=
  ∀ (m : FxMode) (slot : Fin 4) (s : State),
    let e := (Config.spec m).get slot
    encode (.psGet m slot) = BitVec.ofNat 32 (0x70000000 + m.code * 16 + slot.val) ∧
    (∀ imm : BitVec 16, 12 ≤ imm.toNat / 16 % 16 ∨ imm &&& 0xFF0C#16 ≠ 0#16 →
      ∃ r, decode (BitVec.ofNat 32 (0x70000000 + imm.toNat)) = .error r) ∧
    flt e.min e.max = true ∧ within e.min e.max e.dflt = true ∧ (e.curve = .exp → flt (F32.ofBits 0x00000000#32) e.min = true) ∧
    ∃ t, exec (.psGet m slot) s = .next t ∧ t.res.get 0 = e.min.toBits ∧ t.res.get 1 = e.max.toBits ∧
      t.res.get 2 = (match e.curve with | .lin => 0#32 | .exp => 1#32) ∧
      t.res.get 3 = (match e.tag with | .none => 0#32 | .hz => 1#32 | .ms => 2#32 | .pct => 3#32 | .semi => 4#32) ∧
      t.res.get 4 = e.dflt.toBits ∧
      keptExcept (fun p => p = .res 0 ∨ p = .res 1 ∨ p = .res 2 ∨ p = .res 3 ∨ p = .res 4) s t

/-- O52. `PS.MAP` and `PS.UNMAP` (R382, R383, R387): the curve's value, clamped to [min, max] and to [0,1], for every operand and in every
configuration of the open functions (log 5). -/
def Obligations.PsMapsInRange : Prop :=
  ∀ (m : FxMode) (slot : Fin 4) (s : State),
    let e := (Config.spec m).get slot
    let one := F32.ofBits 0x3F800000#32
    let n := clamp (F32.ofBits (s.arg.get 0)) (F32.ofBits 0x00000000#32) one
    let v := clamp (F32.ofBits (s.arg.get 0)) e.min e.max
    let up := match e.curve with
      | .lin => fadd e.min (fmul n (fsub e.max e.min))
      | .exp => fmul e.min (cfgExp2 (fmul n (cfgLog2 (fdiv e.max e.min))))
    let down := match e.curve with
      | .lin => fdiv (fsub v e.min) (fsub e.max e.min)
      | .exp => fdiv (cfgLog2 (fdiv v e.min)) (cfgLog2 (fdiv e.max e.min))
    (∃ t, exec (.psMap m slot) s = .next t ∧ t.res.get 0 = (clamp up e.min e.max).toBits ∧
      within e.min e.max (F32.ofBits (t.res.get 0)) = true ∧ keptExcept (fun p => p = .res 0) s t) ∧
    (∃ t, exec (.psUnmap m slot) s = .next t ∧ t.res.get 0 = (clamp down (F32.ofBits 0x00000000#32) one).toBits ∧
      within (F32.ofBits 0x00000000#32) one (F32.ofBits (t.res.get 0)) = true ∧ keptExcept (fun p => p = .res 0) s t)

/-- O53. The exact points of the mapping (R387), for every entry and every configuration (log 5): 0.0 maps to the minimum and the
minimum unmaps to 0.0; on a linear entry 1.0 maps to the maximum; the maximum unmaps to 1.0, on an exponential entry unless the open
logarithm of the range is 0 (the result is then 0.0). -/
def Obligations.PsExactPoints : Prop :=
  ∀ (m : FxMode) (slot : Fin 4) (s : State),
    let e := (Config.spec m).get slot
    (s.arg.get 0 = 0x00000000#32 → ∃ t, exec (.psMap m slot) s = .next t ∧ t.res.get 0 = e.min.toBits) ∧
    (s.arg.get 0 = 0x3F800000#32 → e.curve = .lin → ∃ t, exec (.psMap m slot) s = .next t ∧ t.res.get 0 = e.max.toBits) ∧
    (s.arg.get 0 = e.min.toBits → ∃ t, exec (.psUnmap m slot) s = .next t ∧ t.res.get 0 = 0x00000000#32) ∧
    (s.arg.get 0 = e.max.toBits → ∃ t, exec (.psUnmap m slot) s = .next t ∧ t.res.get 0 =
      (if e.curve = .exp ∧ isZero (cfgLog2 (fdiv e.max e.min)) = true then 0x00000000#32 else 0x3F800000#32))

/-- O54. The round trips of the mapping (R388). On a linear entry `PS.UNMAP` of `PS.MAP` of n in [0,1] is within 2^-22 of n, and `PS.MAP` of
`PS.UNMAP` of a value in [min,max] is relatively as near to it; values outside come back as the nearer bound (log 16: up to 64 units of
2^-149 where the normalised value underflows). On an exponential entry the same holds exactly when the configuration's `cfg.exp2` and
`cfg.log2` undo each other there (log 17). An unused entry maps n to itself. -/
def Obligations.PsRoundTrip : Prop :=
  ∀ (m : FxMode) (slot : Fin 4) (s : State),
    let e := (Config.spec m).get slot
    let up := fun (n : F32) => F32.ofBits ((runWith (.psMap m slot) s n.toBits).res.get 0)
    let down := fun (v : F32) => F32.ofBits ((runWith (.psUnmap m slot) s v.toBits).res.get 0)
    (e.curve = .lin → roundTrips e up down ∧ ∀ v, (flt v e.min = true → up (down v) = e.min) ∧ (flt e.max v = true → up (down v) = e.max)) ∧
    (e.curve = .exp → (roundTrips e up down ↔ cfgRoundTrips e) ∧
      ∀ v, (flt v e.min = true → up (down v) = e.min) ∧ (flt e.max v = true → up (down v) = up (down e.max))) ∧
    (e = Config.unused → ∀ n, within (F32.ofBits 0x00000000#32) (F32.ofBits 0x3F800000#32) n = true → sameValue (up n) n = true)

/-- O55. The properties of the elementary functions that R13 lets a model rely on, in every configuration (log 5): (a) finite on the stated
domains, (b) the exact points (the operand 0.0 is +0.0; log 5 has -0.0), (c) magnitude at most 1, (d) the exponential and, for
positive operands, the logarithm never fall. -/
def Obligations.ElementaryProperties : Prop :=
  let zero := F32.ofBits 0x00000000#32
  let one := F32.ofBits 0x3F800000#32
  (∀ x, within (F32.ofBits 0xC1A00000#32) (F32.ofBits 0x41A00000#32) x = true → isFinite (cfgExp2 x) = true) ∧
  (∀ x, isFinite x = true → flt zero x = true → isFinite (cfgLog2 x) = true) ∧
  (∀ x, isFinite (cfgSin2pi x) = true ∧ isFinite (cfgCos2pi x) = true ∧ isFinite (cfgTanh x) = true) ∧
  (cfgExp2 zero = one ∧ cfgLog2 one = zero ∧ cfgCos2pi zero = one ∧ cfgSin2pi zero = zero ∧ cfgTanh zero = zero) ∧
  (∀ x, fle (fabs (cfgSin2pi x)) one = true ∧ fle (fabs (cfgCos2pi x)) one = true ∧ fle (fabs (cfgTanh x)) one = true) ∧
  (∀ x y, fle x y = true → fle (cfgExp2 x) (cfgExp2 y) = true) ∧
  ∀ x y, flt zero x = true → fle x y = true → fle (cfgLog2 x) (cfgLog2 y) = true

/-! ### Registers, bus, flags, memory, reset -/

/-- O56. A 32-bit access to a mapped register (R27, R74, R78, R173): a read returns the register and changes nothing but the model's read
log (log 8), transactions (log 6) and pc; a write to a read-write register is what the register reads afterwards, but for a PPQN written
0, and nothing else changes: no part of the state but the one that holds the register (and the pc), of the clock no field but the three
the host may write, of the engine none but the generator, and no other register but `CK_FLAGS` (a view of the timeout) reads
differently. -/
def Obligations.RegisterAccess : Prop :=
  ∀ (s : State) (r : Reg) (v : Word) (rest : List Txn),
    (s.bus = .read (BitVec.ofNat 12 r.addr) 32 :: rest →
      step s = .next { s with bus := rest, pc := s.pc + 1, readLog := s.readLog ++ [regRead s r] }) ∧
    (s.bus = .write (BitVec.ofNat 12 r.addr) 32 v :: rest → r.access = .rw →
      ∃ t, step s = .next t ∧ t.readLog = s.readLog ∧ t.mem = s.mem ∧ t.bus = rest ∧ t.pc = s.pc + 1 ∧
        regRead t r = (if (r = .ckPpqnInt ∨ r = .ckPpqnExt) ∧ v = 0#32 then 1#32 else v) ∧
        (∀ q : Reg, q ≠ r → q ≠ .ckFlags → regRead t q = regRead s q) ∧
        keptExcept (fun p => p.holdsRegister r ∨ p = .pc) s t ∧
        t.ck = { s.ck with ppqnInt := t.ck.ppqnInt, ppqnExt := t.ck.ppqnExt, clockTimeout := t.ck.clockTimeout } ∧
        t.fx = { s.fx with rng := t.fx.rng })

/-- O57. An access of another width, misaligned, unmapped, or a write to a read-only register is ignored (R75): only `BUSERR` (and the
model's pc) changes, and a read returns 0; a read of `CMD` returns 0 and sets nothing. The list of
transactions and the read log are the model's (log 6, log 8). -/
def Obligations.IgnoredAccess : Prop :=
  (∀ (s : State) (x : Txn) (rest : List Txn), s.bus = x :: rest →
    x.wide = false ∨ x.aligned = false ∨ x.mapped = false ∨ x.permitted = false →
    ∃ t, step s = .next t ∧ t.status.flag .buserr = true ∧ keptExcept (fun p => p = .flag .buserr ∨ p = .pc) s t ∧
      t.readLog = (match x with | .read _ _ => s.readLog ++ [0x00000000#32] | .write _ _ _ => s.readLog)) ∧
  ∀ (s : State) (rest : List Txn), s.bus = .read 0x008#12 32 :: rest →
    step s = .next { s with bus := rest, pc := s.pc + 1, readLog := s.readLog ++ [0x00000000#32] }

/-- O58. The flags are sticky (R25): no transaction but a write to `STATUS` clears one, and that clears exactly those whose bit is 1 in
the value written. A step is one transaction of the model's list (log 6). -/
def Obligations.StatusSticky : Prop :=
  ∀ s t : State, step s = .next t →
    (∀ f, (∀ v rest, s.bus ≠ .write 0x004#12 32 v :: rest) → s.status.flag f = true → t.status.flag f = true) ∧
    ∀ v rest, s.bus = .write 0x004#12 32 v :: rest →
      t.status = ⟨s.status.illcmd && !v.getLsbD 0, s.status.buserr && !v.getLsbD 1, s.status.range && !v.getLsbD 2,
        s.status.nonfin && !v.getLsbD 3, s.status.argerr && !v.getLsbD 4, s.status.clkrej && !v.getLsbD 5⟩ ∧
      keptExcept (fun p => (∃ f, p = .flag f) ∨ p = .pc) s t

/-- O59. Every step keeps the sample memory's canonical form (log 2, log 3) and every write cursor below `CAP` (R28, R71). -/
def Obligations.MemoryInvKept : Prop := ∀ s t : State, memoryInv s → step s = .next t → memoryInv t

/-- O60. Hardware reset (R21, R25, R27, R430, R431): what every register of the map reads; the engine's own state is what `FX.INIT` leaves
at 48000 Hz; and the state after reset has every invariant.
`CAP` is open between 8 and 2^24 (log 1), the sample memory is open (log 2). -/
def Obligations.ResetState : Prop :=
  let s := State.reset
  (∀ i, s.arg.get i = 0#32 ∧ s.res.get i = 0#32) ∧ s.status.toWord = 0#32 ∧ regRead s .id = 0x4B4C0701#32 ∧
  regRead s .ckFlags = 0x00000002#32 ∧ regRead s .ckSpqn = 24000#32 ∧ regRead s .ckLastvalid = 24000#32 ∧
  regRead s .ckPpqnInt = 4#32 ∧ regRead s .ckPpqnExt = 1#32 ∧ regRead s .ckTimeout = 24000#32 ∧ regRead s .ckSr = 48000#32 ∧
  8 ≤ s.cap ∧ s.cap ≤ 2 ^ 24 ∧ regRead s .capr = BitVec.ofNat 32 s.cap ∧
  regRead s .ckBlock = 0#32 ∧ regRead s .ckOutacc = 0#32 ∧ regRead s .ckDetacc = 0#32 ∧ regRead s .ckPulsecnt = 0#32 ∧
  regRead s .ckTimeoutcnt = 0#32 ∧ regRead s .ckGatetimer = 0#32 ∧ (∀ j, regRead s (.ckAvg j) = 0#32) ∧ regRead s .ckAvgptr = 0#32 ∧
  (∀ c, regRead s (.fxDry c) = 0#32 ∧ regRead s (.fxDly c) = 0#32) ∧ regRead s .fxMeta1 = 0#32 ∧ regRead s .fxMeta2 = 0#32 ∧
  regRead s .fxCtl = 0#32 ∧ regRead s .fxFb = 0#32 ∧
  (∀ i, regRead s (.arg i) = 0#32 ∧ regRead s (.res i) = 0#32) ∧ regRead s .status = 0#32 ∧ regRead s .cmd = 0#32 ∧
  regRead s .ckMode = 0#32 ∧ regRead s .fxMode = 0#32 ∧ regRead s .fxRng = 1#32 ∧ regRead s .fxSr = 0x473B8000#32 ∧
  regRead s (.fxP 0) = 0x41A00000#32 ∧ regRead s (.fxP 1) = 0x41200000#32 ∧ regRead s (.fxP 2) = 0#32 ∧ regRead s (.fxP 3) = 0#32 ∧
  (∀ c, regRead s (.dlWp c) = 0#32 ∧ regRead s (.dlDlyi c) = 0#32 ∧ regRead s (.dlDlyf c) = 0#32 ∧
    regRead s (.phMain c) = 0#32 ∧ regRead s (.phMod c) = 0#32 ∧ regRead s (.phSr c) = 0x473B8000#32 ∧
    regRead s (.phDsamp c) = 0x473B8000#32 ∧ regRead s (.phFreq c) = 0x3F800000#32 ∧ regRead s (.phRatio c) = 0x3F800000#32 ∧
    regRead s (.phDepth c) = 0#32 ∧ regRead s (.fxWet c) = 0#32 ∧ regRead s (.fxWhich c) = 0#32) ∧
  (∀ k, regRead s (.smY k) = 0#32 ∧ regRead s (.smA k) = 0x3F800000#32) ∧
  (∃ t, exec .ckGetbpm s = .next t ∧ t.res.get 0 = 120#32) ∧
  (∃ t, exec .fxInit (s.setArg 0 0x473B8000#32) = .next t ∧ t.fx = s.fx) ∧
  memoryInv s ∧ (∀ c, phasorInv (s.ph.get c)) ∧ clockInv s.ck ∧ fxInv s.fx ∧ ∀ k, smootherInv (s.sm.get k)
end

