-- ==== Sys2Proof/Laws/Float.lean ====
section
/-! SUPPORT. What rounding guarantees (R9): it is exact on binary32 values and monotone, so a result lies between any two binary32
values that the exact result lies between. Later proofs bound the primitives with `le_fadd`, `fadd_le` and their like and never
unfold the rounding. -/

namespace Sys2Proof

/-! ### Magnitudes -/

theorem magUnits_small {m : Nat} (h : m < 2 ^ 23) : magUnits m = m := if_pos h

theorem magUnits_large {m : Nat} (h : ¬ m < 2 ^ 23) : magUnits m = (2 ^ 23 + m % 2 ^ 23) * 2 ^ (m / 2 ^ 23 - 1) :=
  if_neg h

/-- The magnitude of the bits `k * 2^23 + q` for a 24-bit `q` that is normal unless `k` is 0. -/
theorem magUnits_join {k q : Nat} (hq : q < 2 ^ 24) (hk : k = 0 ∨ 2 ^ 23 ≤ q) : magUnits (k * 2 ^ 23 + q) = q * 2 ^ k := by
  by_cases h : q < 2 ^ 23
  · obtain rfl : k = 0 := by omega
    simp [magUnits_small h]
  · rw [magUnits_large (by omega)]
    have h1 : (k * 2 ^ 23 + q) % 2 ^ 23 = q - 2 ^ 23 := by omega
    have h2 : (k * 2 ^ 23 + q) / 2 ^ 23 - 1 = k := by omega
    have h3 : 2 ^ 23 + (q - 2 ^ 23) = q := by omega
    rw [h1, h2, h3]

theorem magUnits_succ (m : Nat) : magUnits m < magUnits (m + 1) := by
  have key : ∃ k q, m = k * 2 ^ 23 + q ∧ q < 2 ^ 24 ∧ (k = 0 ∨ 2 ^ 23 ≤ q) := by
    by_cases h : m < 2 ^ 24
    · exact ⟨0, m, by omega, h, .inl rfl⟩
    · exact ⟨m / 2 ^ 23 - 1, m % 2 ^ 23 + 2 ^ 23, by omega, by omega, .inr (by omega)⟩
  obtain ⟨k, q, rfl, hq, hk⟩ := key
  rw [magUnits_join hq hk]
  by_cases h : q + 1 < 2 ^ 24
  · rw [Nat.add_assoc, magUnits_join h (by omega)]
    exact Nat.mul_lt_mul_of_pos_right (by omega) (by positivity)
  · obtain rfl : q = 2 ^ 24 - 1 := by omega
    rw [show k * 2 ^ 23 + (2 ^ 24 - 1) + 1 = (k + 1) * 2 ^ 23 + 2 ^ 23 by omega, magUnits_join (by omega) (.inr (by omega)), pow_succ]
    have : 0 < 2 ^ k := by positivity
    omega

theorem magUnits_strictMono : StrictMono magUnits := strictMono_nat_of_lt_succ magUnits_succ

theorem magUnits_le_iff {m n : Nat} : magUnits m ≤ magUnits n ↔ m ≤ n := magUnits_strictMono.le_iff_le

@[simp] theorem magUnits_eq_zero {m : Nat} : magUnits m = 0 ↔ m = 0 :=
  ⟨fun h => magUnits_strictMono.injective (h.trans (by decide : 0 = magUnits 0)), fun h => by subst h; decide⟩

/-! ### Rounding -/

/-- The quotient of `roundBits` has at most 24 bits, and 24 unless the quantum is one unit. -/
theorem roundBits_quotient (num den : Nat) :
    let k := Nat.log2 (num / den) - 23
    num / (den * 2 ^ k) < 2 ^ 24 ∧ (k = 0 ∨ 2 ^ 23 ≤ num / (den * 2 ^ k)) := by
  intro k
  rw [← Nat.div_div_eq_div_mul]
  rcases Nat.eq_zero_or_pos (num / den) with h0 | h0
  · simp [h0, k]
  · have hlt : num / den < 2 ^ (Nat.log2 (num / den) + 1) := Nat.lt_log2_self
    have hle : 2 ^ Nat.log2 (num / den) ≤ num / den := Nat.log2_self_le (by omega)
    constructor
    · rw [Nat.div_lt_iff_lt_mul (by positivity), ← pow_add]
      exact hlt.trans_le (Nat.pow_le_pow_right (by norm_num) (by omega))
    · by_cases hk : k = 0
      · exact .inl hk
      · right
        rw [Nat.le_div_iff_mul_le (by positivity), ← pow_add]
        exact (Nat.pow_le_pow_right (by norm_num) (by omega)).trans hle

/-- Rounding is exact on the magnitudes of binary32. -/
theorem roundBits_exact (m : Nat) {den : Nat} (hd : 0 < den) : roundBits (magUnits m * den) den = m := by
  have key : ∃ k q, m = k * 2 ^ 23 + q ∧ q < 2 ^ 24 ∧ (k = 0 ∨ 2 ^ 23 ≤ q) := by
    by_cases h : m < 2 ^ 24
    · exact ⟨0, m, by omega, h, .inl rfl⟩
    · exact ⟨m / 2 ^ 23 - 1, m % 2 ^ 23 + 2 ^ 23, by omega, by omega, .inr (by omega)⟩
  obtain ⟨k, q, rfl, hq, hk⟩ := key
  rw [magUnits_join hq hk]
  have hlog : Nat.log2 (q * 2 ^ k) - 23 = k := by
    rcases hk with rfl | hk
    · rcases Nat.eq_zero_or_pos q with rfl | h0
      · decide
      · have : Nat.log2 q < 24 := (Nat.log2_lt (by omega)).2 hq
        simp; omega
    · have h1 : 2 ^ (k + 23) ≤ q * 2 ^ k := by rw [Nat.add_comm, pow_add]; gcongr
      have h2 : q * 2 ^ k < 2 ^ (k + 24) := by
        rw [Nat.add_comm, pow_add]; gcongr
      have h0 : 0 < 2 ^ k := by positivity
      have hne : q * 2 ^ k ≠ 0 := Nat.mul_ne_zero (by omega) (by omega)
      have h3 := (Nat.le_log2 hne).2 h1
      have h4 := (Nat.log2_lt hne).2 h2
      omega
  have e1 : q * 2 ^ k * den / den = q * 2 ^ k := Nat.mul_div_cancel _ hd
  have e2 : q * 2 ^ k * den = den * 2 ^ k * q := by ring
  have hpos : 0 < den * 2 ^ k := by positivity
  simp only [roundBits, e1, hlog]
  rw [e2, Nat.mul_div_cancel_left _ hpos, Nat.mul_mod_right]
  split <;> omega

/-- Rounding is monotone in the numerator. -/
theorem roundBits_mono {m n den : Nat} (hd : 0 < den) (h : m ≤ n) : roundBits m den ≤ roundBits n den := by
  obtain ⟨hq1, _⟩ := roundBits_quotient m den
  obtain ⟨_, hk2⟩ := roundBits_quotient n den
  have hlog : Nat.log2 (m / den) ≤ Nat.log2 (n / den) := by
    rcases Nat.eq_zero_or_pos (m / den) with h0 | h0
    · simp [h0]
    · have hn : n / den ≠ 0 := by have := Nat.div_le_div_right (c := den) h; omega
      exact (Nat.le_log2 hn).2 ((Nat.log2_self_le (by omega)).trans (Nat.div_le_div_right h))
  simp only [roundBits]
  generalize hk : Nat.log2 (m / den) - 23 = k at *
  generalize hl : Nat.log2 (n / den) - 23 = l at *
  rcases Nat.lt_or_ge k l with hlt | hge
  · have := hk2.resolve_left (by omega)
    split <;> split <;> omega
  · obtain rfl : k = l := by omega
    have hpos : 0 < den * 2 ^ k := by positivity
    have hqq : m / (den * 2 ^ k) ≤ n / (den * 2 ^ k) := Nat.div_le_div_right h
    have em := Nat.div_add_mod m (den * 2 ^ k)
    have en := Nat.div_add_mod n (den * 2 ^ k)
    rcases Nat.lt_or_ge (m / (den * 2 ^ k)) (n / (den * 2 ^ k)) with h1 | h1
    · split <;> split <;> omega
    · have he : m / (den * 2 ^ k) = n / (den * 2 ^ k) := by omega
      rw [he] at em ⊢
      split <;> split <;> omega

/-! ### Exact values -/

@[simp] theorem unitsOf_fin (n : Bool) (m : Fin 0x7F800000) :
    unitsOf (.fin n m) = if n then -(magUnits m.val : Int) else (magUnits m.val : Int) := rfl

@[simp] theorem isFinite_fin (n : Bool) (m : Fin 0x7F800000) : isFinite (.fin n m) = true := rfl

/-- A finite value is a pattern of the first class. -/
theorem isFinite_cases {x : F32} (h : isFinite x = true) : ∃ n m, x = .fin n m := by
  cases x <;> simp_all [isFinite]

/-- The order of finite values is the order of their exact values. -/
theorem fle_iff {x y : F32} (hx : isFinite x = true) (hy : isFinite y = true) : fle x y = true ↔ unitsOf x ≤ unitsOf y := by
  obtain ⟨n, m, rfl⟩ := isFinite_cases hx
  obtain ⟨k, l, rfl⟩ := isFinite_cases hy
  have h1 := @magUnits_le_iff m.val l.val
  have h2 := @magUnits_le_iff l.val m.val
  have z1 := @magUnits_eq_zero m.val
  have z2 := @magUnits_eq_zero l.val
  cases n <;> cases k <;> simp [fle, rank] <;> omega

/-- The strict order of finite values is that of their exact values. -/
theorem flt_iff {x y : F32} (hx : isFinite x = true) (hy : isFinite y = true) : flt x y = true ↔ unitsOf x < unitsOf y := by
  have h := fle_iff hy hx
  obtain ⟨n, m, rfl⟩ := isFinite_cases hx
  obtain ⟨k, l, rfl⟩ := isFinite_cases hy
  simp only [fle, flt, rank, decide_eq_true_eq] at h ⊢
  omega

/-- What lies between two finite values is finite. -/
theorem isFinite_of_between {l x h : F32} (hl : isFinite l = true) (hh : isFinite h = true) (h1 : fle l x = true)
    (h2 : fle x h = true) : isFinite x = true := by
  obtain ⟨n, m, rfl⟩ := isFinite_cases hl
  obtain ⟨k, j, rfl⟩ := isFinite_cases hh
  have := m.isLt
  have := j.isLt
  rcases x with _ | b | _
  · rfl
  · cases b <;> cases n <;> cases k <;> simp [fle, rank] at h1 h2 <;> omega
  · simp [fle, rank] at h1

/-! ### Bounds on a rounded result -/

/-- The position of a sign and magnitude bits on the number line. -/
theorem rank_ofMagBits (neg : Bool) (b : Nat) :
    rank (ofMagBits neg b) = some (if neg then -(min b 0x7F800000 : Int) else (min b 0x7F800000 : Int)) := by
  unfold ofMagBits
  split <;> cases neg <;> simp [rank] <;> omega

@[simp] theorem magUnits_zero : magUnits 0 = 0 := by decide

@[simp] theorem roundBits_zero {den : Nat} (hd : 0 < den) : roundBits 0 den = 0 := by simpa using roundBits_exact 0 hd

theorem roundBits_of_zero {num den : Nat} (hd : 0 < den) (h : num = 0) : roundBits num den = 0 := by
  subst h
  exact roundBits_zero hd

theorem roundBits_le {num den m : Nat} (hd : 0 < den) (h : num ≤ magUnits m * den) : roundBits num den ≤ m :=
  (roundBits_mono hd h).trans_eq (roundBits_exact m hd)

theorem le_roundBits {num den m : Nat} (hd : 0 < den) (h : magUnits m * den ≤ num) : m ≤ roundBits num den :=
  (roundBits_exact m hd).symm.trans_le (roundBits_mono hd h)

/-- The product of a magnitude and a positive number is 0 only for the zero magnitude. -/
theorem mag_eq_zero {m den : Nat} (hd : 0 < den) (h : magUnits m * den = 0) : m = 0 :=
  magUnits_eq_zero.1 ((Nat.mul_eq_zero.1 h).resolve_right (by omega))

/-- A natural number with a sign. -/
def signed (neg : Bool) (n : Nat) : Int := if neg then -(n : Int) else (n : Int)

theorem signed_mul (neg : Bool) (n d : Nat) : signed neg n * (d : Int) = signed neg (n * d) := by
  cases neg <;> simp [signed]

theorem unitsOf_eq_signed (n : Bool) (m : Fin 0x7F800000) : unitsOf (.fin n m) = signed n (magUnits m.val) := rfl

/-- Signed comparison from the comparisons of the magnitudes, upper bound. -/
theorem signed_bound_le {neg k : Bool} {num u r m top : Nat} (hm : m < top) (h1 : num ≤ u → r ≤ m) (h2 : u ≤ num → m ≤ r)
    (h0 : num = 0 → r = 0) (hz : u = 0 → m = 0) (h : signed neg num ≤ signed k u) : signed neg (min r top) ≤ signed k m := by
  cases neg <;> cases k <;> simp only [signed, Bool.false_eq_true, if_true, if_false] at h ⊢ <;> omega

/-- Signed comparison from the comparisons of the magnitudes, lower bound. -/
theorem le_signed_bound {neg k : Bool} {num u r m top : Nat} (hm : m < top) (h1 : num ≤ u → r ≤ m) (h2 : u ≤ num → m ≤ r)
    (h0 : num = 0 → r = 0) (hz : u = 0 → m = 0) (h : signed k u ≤ signed neg num) : signed k m ≤ signed neg (min r top) := by
  cases neg <;> cases k <;> simp only [signed, Bool.false_eq_true, if_true, if_false] at h ⊢ <;> omega

/-- The position of a result on the number line. -/
theorem rank_roundUnits (neg : Bool) (num den : Nat) :
    rank (roundUnits neg num den) = some (signed neg (min (roundBits num den) 0x7F800000)) := by
  rw [roundUnits, rank_ofMagBits]
  cases neg <;> simp [signed]

theorem rank_fin (n : Bool) (m : Fin 0x7F800000) : rank (.fin n m) = some (signed n m.val) := rfl

/-- The order of two values whose positions are known. -/
theorem fle_of_rank {x y : F32} {a b : Int} (hx : rank x = some a) (hy : rank y = some b) (h : a ≤ b) : fle x y = true := by
  unfold fle
  rw [hx, hy]
  exact decide_eq_true h

/-- A result rounded from at most `h` is at most `h`. -/
theorem roundUnits_le {neg : Bool} {num den : Nat} {h : F32} (hd : 0 < den) (hh : isFinite h = true)
    (hle : signed neg num ≤ unitsOf h * den) : fle (roundUnits neg num den) h = true := by
  obtain ⟨k, m, rfl⟩ := isFinite_cases hh
  rw [unitsOf_eq_signed, signed_mul] at hle
  exact fle_of_rank (rank_roundUnits neg num den) (rank_fin k m)
    (signed_bound_le m.isLt (roundBits_le hd) (le_roundBits hd) (roundBits_of_zero hd) (mag_eq_zero hd) hle)

/-- A result rounded from at least `l` is at least `l`. -/
theorem le_roundUnits {neg : Bool} {num den : Nat} {l : F32} (hd : 0 < den) (hl : isFinite l = true)
    (hle : unitsOf l * den ≤ signed neg num) : fle l (roundUnits neg num den) = true := by
  obtain ⟨k, m, rfl⟩ := isFinite_cases hl
  rw [unitsOf_eq_signed, signed_mul] at hle
  exact fle_of_rank (rank_fin k m) (rank_roundUnits neg num den)
    (le_signed_bound m.isLt (roundBits_le hd) (le_roundBits hd) (roundBits_of_zero hd) (mag_eq_zero hd) hle)

/-- A result rounded from a nonzero binary32 value is that value. -/
theorem roundUnits_exact {neg : Bool} {m : Fin 0x7F800000} {den : Nat} (hd : 0 < den) :
    roundUnits neg (magUnits m.val * den) den = .fin neg m := by
  simp [roundUnits, roundBits_exact m.val hd, ofMagBits]

/-! ### Sums and differences -/

@[simp] theorem unitsOf_fneg (x : F32) : unitsOf (fneg x) = -unitsOf x := by
  cases x with
  | fin n m => cases n <;> simp [fneg]
  | inf n => rfl
  | nan n p => rfl

@[simp] theorem isFinite_fneg (x : F32) : isFinite (fneg x) = isFinite x := by cases x <;> rfl

@[simp] theorem isFinite_fabs (x : F32) : isFinite (fabs x) = isFinite x := by cases x <;> rfl

@[simp] theorem unitsOf_fabs (x : F32) : unitsOf (fabs x) = |unitsOf x| := by
  cases x with
  | fin n m => cases n <;> simp [fabs]
  | inf n => rfl
  | nan n p => rfl

/-- The sum of two finite values: a zero, or the rounding of the exact sum. -/
theorem sumOr_finite (q : F32) {a b : F32} (ha : isFinite a = true) (hb : isFinite b = true) :
    (unitsOf a + unitsOf b = 0 ∧ ∃ n, sumOr q a b = .fin n 0) ∨
    (unitsOf a + unitsOf b ≠ 0 ∧
      sumOr q a b = roundUnits (decide (unitsOf a + unitsOf b < 0)) (unitsOf a + unitsOf b).natAbs 1) := by
  obtain ⟨n, m, rfl⟩ := isFinite_cases ha
  obtain ⟨k, l, rfl⟩ := isFinite_cases hb
  by_cases h : exactUnits n m + exactUnits k l = 0
  · exact .inl ⟨h, n && k, by simp [sumOr, h]⟩
  · exact .inr ⟨h, by simp only [sumOr, if_neg h]; rfl⟩

theorem sumOr_le (q : F32) {a b h : F32} (ha : isFinite a = true) (hb : isFinite b = true) (hh : isFinite h = true)
    (hle : unitsOf a + unitsOf b ≤ unitsOf h) : fle (sumOr q a b) h = true := by
  rcases sumOr_finite q ha hb with ⟨h0, n, e⟩ | ⟨h0, e⟩ <;> rw [e]
  · rw [fle_iff rfl hh]; cases n <;> simp [magUnits] <;> omega
  · refine roundUnits_le one_pos hh ?_
    by_cases hs : unitsOf a + unitsOf b < 0 <;> simp only [hs, signed, decide_true, decide_false, if_true, Bool.false_eq_true, if_false] <;>
      omega

theorem le_sumOr (q : F32) {a b l : F32} (ha : isFinite a = true) (hb : isFinite b = true) (hl : isFinite l = true)
    (hle : unitsOf l ≤ unitsOf a + unitsOf b) : fle l (sumOr q a b) = true := by
  rcases sumOr_finite q ha hb with ⟨h0, n, e⟩ | ⟨h0, e⟩ <;> rw [e]
  · rw [fle_iff hl rfl]; cases n <;> simp [magUnits] <;> omega
  · refine le_roundUnits one_pos hl ?_
    by_cases hs : unitsOf a + unitsOf b < 0 <;> simp only [hs, signed, decide_true, decide_false, if_true, Bool.false_eq_true, if_false] <;>
      omega

theorem fadd_le {a b h : F32} (ha : isFinite a = true) (hb : isFinite b = true) (hh : isFinite h = true)
    (hle : unitsOf a + unitsOf b ≤ unitsOf h) : fle (fadd a b) h = true := sumOr_le _ ha hb hh hle

theorem le_fadd {a b l : F32} (ha : isFinite a = true) (hb : isFinite b = true) (hl : isFinite l = true)
    (hle : unitsOf l ≤ unitsOf a + unitsOf b) : fle l (fadd a b) = true := le_sumOr _ ha hb hl hle

theorem fsub_le {a b h : F32} (ha : isFinite a = true) (hb : isFinite b = true) (hh : isFinite h = true)
    (hle : unitsOf a - unitsOf b ≤ unitsOf h) : fle (fsub a b) h = true :=
  sumOr_le _ ha (by simpa using hb) hh (by simpa [sub_eq_add_neg] using hle)

theorem le_fsub {a b l : F32} (ha : isFinite a = true) (hb : isFinite b = true) (hl : isFinite l = true)
    (hle : unitsOf l ≤ unitsOf a - unitsOf b) : fle l (fsub a b) = true :=
  le_sumOr _ ha (by simpa using hb) hl (by simpa [sub_eq_add_neg] using hle)

/-- A sum that is a nonzero binary32 value is exact. -/
theorem sumOr_exact (q : F32) {a b x : F32} (ha : isFinite a = true) (hb : isFinite b = true) (hx : isFinite x = true)
    (h0 : unitsOf x ≠ 0) (h : unitsOf a + unitsOf b = unitsOf x) : sumOr q a b = x := by
  rcases sumOr_finite q ha hb with ⟨h1, _⟩ | ⟨_, e⟩
  · omega
  · obtain ⟨n, m, rfl⟩ := isFinite_cases hx
    rw [e, h]
    have hm : magUnits m.val ≠ 0 := fun hm => h0 (by cases n <;> simp [hm])
    have hs : decide (unitsOf (.fin n m) < 0) = n := by cases n <;> (simp; try omega)
    have hn : (unitsOf (.fin n m)).natAbs = magUnits m.val := by cases n <;> simp
    rw [hs, hn]
    simpa using roundUnits_exact (neg := n) (m := m) (den := 1) one_pos

theorem fadd_exact {a b x : F32} (ha : isFinite a = true) (hb : isFinite b = true) (hx : isFinite x = true)
    (h0 : unitsOf x ≠ 0) (h : unitsOf a + unitsOf b = unitsOf x) : fadd a b = x := sumOr_exact _ ha hb hx h0 h

theorem fsub_exact {a b x : F32} (ha : isFinite a = true) (hb : isFinite b = true) (hx : isFinite x = true)
    (h0 : unitsOf x ≠ 0) (h : unitsOf a - unitsOf b = unitsOf x) : fsub a b = x :=
  sumOr_exact _ ha (by simpa using hb) hx h0 (by simpa [sub_eq_add_neg] using h)

/-- A finite value less itself is +0.0. -/
theorem fsub_self {x : F32} (h : isFinite x = true) : fsub x x = fzero := by
  obtain ⟨n, m, rfl⟩ := isFinite_cases h
  cases n <;> (simp [fsub, sumOr, fneg, exactUnits]; decide)

/-- Adding a zero leaves a nonzero value as it is. -/
theorem fadd_zero_right {x z : F32} (hx : isFinite x = true) (hz : isFinite z = true) (h0 : unitsOf x ≠ 0)
    (h : unitsOf z = 0) : fadd x z = x := fadd_exact hx hz hx h0 (by omega)

/-! ### Products and quotients -/

theorem fmul_le {a b h : F32} (ha : isFinite a = true) (hb : isFinite b = true) (hh : isFinite h = true)
    (hle : unitsOf a * unitsOf b ≤ unitsOf h * 2 ^ 149) : fle (fmul a b) h = true := by
  obtain ⟨n, m, rfl⟩ := isFinite_cases ha
  obtain ⟨k, l, rfl⟩ := isFinite_cases hb
  refine roundUnits_le (by positivity) hh ?_
  rw [Nat.cast_pow, Nat.cast_ofNat]
  refine le_trans (le_of_eq ?_) hle
  cases n <;> cases k <;> simp [signed]

theorem le_fmul {a b l : F32} (ha : isFinite a = true) (hb : isFinite b = true) (hl : isFinite l = true)
    (hle : unitsOf l * 2 ^ 149 ≤ unitsOf a * unitsOf b) : fle l (fmul a b) = true := by
  obtain ⟨n, m, rfl⟩ := isFinite_cases ha
  obtain ⟨k, j, rfl⟩ := isFinite_cases hb
  refine le_roundUnits (by positivity) hl ?_
  rw [Nat.cast_pow, Nat.cast_ofNat]
  refine le_trans hle (le_of_eq ?_)
  cases n <;> cases k <;> simp [signed]

/-- A finite value times a zero is a zero. -/
theorem fmul_zero_right {x z : F32} (hx : isFinite x = true) (hz : isFinite z = true) (h : unitsOf z = 0) :
    ∃ n, fmul x z = .fin n 0 := by
  obtain ⟨n, m, rfl⟩ := isFinite_cases hx
  obtain ⟨k, l, rfl⟩ := isFinite_cases hz
  have hl : magUnits l.val = 0 := by cases k <;> (simp at h ⊢; omega)
  refine ⟨n != k, ?_⟩
  have e := roundUnits_exact (neg := n != k) (m := 0) (den := 2 ^ 149) (by positivity)
  simp only [fmul, hl, Nat.mul_zero]
  simpa [magUnits] using e

theorem fdiv_le {a b h : F32} (ha : isFinite a = true) (hb : isFinite b = true) (h0 : 0 < unitsOf b) (hh : isFinite h = true)
    (hle : unitsOf a * 2 ^ 149 ≤ unitsOf h * unitsOf b) : fle (fdiv a b) h = true := by
  obtain ⟨n, m, rfl⟩ := isFinite_cases ha
  obtain ⟨k, l, rfl⟩ := isFinite_cases hb
  obtain rfl : k = false := by cases k <;> simp at h0 ⊢; omega
  have hl : l.val ≠ 0 := fun hl => by simp [hl, magUnits] at h0
  simp only [fdiv, if_neg hl]
  refine roundUnits_le (by simpa using h0) hh (le_trans (le_of_eq ?_) (le_trans hle (le_of_eq (by simp))))
  cases n <;> simp [signed]

theorem le_fdiv {a b l : F32} (ha : isFinite a = true) (hb : isFinite b = true) (h0 : 0 < unitsOf b) (hl : isFinite l = true)
    (hle : unitsOf l * unitsOf b ≤ unitsOf a * 2 ^ 149) : fle l (fdiv a b) = true := by
  obtain ⟨n, m, rfl⟩ := isFinite_cases ha
  obtain ⟨k, j, rfl⟩ := isFinite_cases hb
  obtain rfl : k = false := by cases k <;> simp at h0 ⊢; omega
  have hj : j.val ≠ 0 := fun hj => by simp [hj, magUnits] at h0
  simp only [fdiv, if_neg hj]
  refine le_roundUnits (by simpa using h0) hl (le_trans (le_trans (le_of_eq (by simp)) hle) (le_of_eq ?_))
  cases n <;> simp [signed]

/-! ### Conversions (R10) -/

/-- Every integer up to 2^24 is a magnitude of binary32. -/
theorem magUnits_nat {n : Nat} (h : n ≤ 2 ^ 24) : ∃ m, m < 0x7F800000 ∧ magUnits m = n * 2 ^ 149 := by
  rcases Nat.eq_zero_or_pos n with rfl | h0
  · exact ⟨0, by norm_num, by simp⟩
  rcases Nat.lt_or_ge n (2 ^ 24) with hlt | hge
  · have hL : Nat.log2 n < 24 := (Nat.log2_lt (by omega)).2 hlt
    have h1 : 2 ^ Nat.log2 n ≤ n := Nat.log2_self_le (by omega)
    have h2 : n < 2 ^ (Nat.log2 n + 1) := Nat.lt_log2_self
    generalize Nat.log2 n = L at *
    have e1 : 2 ^ L * 2 ^ (23 - L) = 2 ^ 23 := by rw [← pow_add]; congr 1; omega
    have e2 : 2 ^ (L + 1) * 2 ^ (23 - L) = 2 ^ 24 := by rw [← pow_add]; congr 1; omega
    have h3 : 2 ^ 23 ≤ n * 2 ^ (23 - L) := by rw [← e1]; gcongr
    have h4 : n * 2 ^ (23 - L) < 2 ^ 24 := by rw [← e2]; gcongr
    refine ⟨(126 + L) * 2 ^ 23 + n * 2 ^ (23 - L), by omega, ?_⟩
    rw [magUnits_join h4 (.inr h3), Nat.mul_assoc, ← pow_add]
    congr 2
    omega
  · obtain rfl : n = 2 ^ 24 := by omega
    exact ⟨150 * 2 ^ 23 + 2 ^ 23, by norm_num, by rw [magUnits_join (by norm_num) (.inr (by norm_num))]; norm_num⟩

/-- Integers up to 2^24 in magnitude convert exactly, and back. -/
theorem i2f_exact {n : Int} (h : n.natAbs ≤ 2 ^ 24) :
    isFinite (i2f n) = true ∧ unitsOf (i2f n) = n * 2 ^ 149 ∧ f2i (i2f n) = n := by
  obtain ⟨m, hm, e⟩ := magUnits_nat h
  have hr : i2f n = .fin (decide (n < 0)) ⟨m, hm⟩ := by
    have := roundUnits_exact (neg := decide (n < 0)) (m := ⟨m, hm⟩) (den := 1) one_pos
    rw [i2f, ← this, e, Nat.mul_one]
  have hdiv : magUnits m / 2 ^ 149 = n.natAbs := by rw [e]; exact Nat.mul_div_cancel _ (by positivity)
  refine ⟨by rw [hr]; rfl, ?_, ?_⟩
  · rw [hr, unitsOf_fin, e]
    push_cast
    by_cases hn : n < 0 <;> simp only [hn, decide_true, decide_false, if_true, Bool.false_eq_true, if_false]
    · rw [abs_of_neg hn]; ring
    · rw [abs_of_nonneg (by omega)]
  · rw [hr]
    simp only [f2i, hdiv]
    by_cases hn : n < 0 <;> simp only [hn, decide_true, decide_false, if_true, Bool.false_eq_true, if_false] <;> omega

/-- The fraction that `split` leaves of an integer delay is +0.0 (R139). -/
theorem fsub_i2f_f2i {n : Int} (h : n.natAbs ≤ 2 ^ 24) : fsub (i2f n) (i2f (f2i (i2f n))) = fzero := by
  obtain ⟨h1, _, h3⟩ := i2f_exact h
  rw [h3]
  exact fsub_self h1

end Sys2Proof
end

