-- ==== Sys2Proof/Laws/FloatError.lean ====
section
/-! SUPPORT. How far a rounded result is from the exact one: at most half a unit in the last place, that is a part in 2^24 of the exact
result, or half of the least subnormal (R9). Values are in units of 2^-149 (`unitsOf`). -/

namespace Sys2Proof

/-- The rounded magnitude times the denominator is within half a quantum of the numerator. -/
theorem roundBits_error (num : Nat) {den : Nat} (hd : 0 < den) :
    |((magUnits (roundBits num den) * den : Nat) : Int) - num| * 2 ^ 24 ≤ max (num : Int) (2 ^ 23 * den) := by
  obtain ⟨hq, hk⟩ := roundBits_quotient num den
  have hlog : Nat.log2 (num / den) - 23 = 0 ∨ den * 2 ^ (Nat.log2 (num / den) - 23) * 2 ^ 23 ≤ num := by
    rcases Nat.eq_zero_or_pos (Nat.log2 (num / den) - 23) with h | h
    · exact .inl h
    · right
      have h0 : num / den ≠ 0 := fun h0 => by simp [h0] at h
      have h1 : 2 ^ Nat.log2 (num / den) ≤ num / den := Nat.log2_self_le h0
      have e : Nat.log2 (num / den) = (Nat.log2 (num / den) - 23) + 23 := by omega
      calc den * 2 ^ (Nat.log2 (num / den) - 23) * 2 ^ 23 = den * 2 ^ Nat.log2 (num / den) := by
            rw [Nat.mul_assoc, ← pow_add, ← e]
        _ ≤ den * (num / den) := Nat.mul_le_mul_left _ h1
        _ ≤ num := Nat.mul_div_le _ _
  revert hq hk hlog
  unfold roundBits
  generalize Nat.log2 (num / den) - 23 = k
  intro hq hk hlog
  dsimp only
  have hmod := Nat.div_add_mod num (den * 2 ^ k)
  have hlt : num % (den * 2 ^ k) < den * 2 ^ k := Nat.mod_lt _ (by positivity)
  have hquantum : ((den * 2 ^ k : Nat) : Int) * 2 ^ 23 ≤ max (num : Int) (2 ^ 23 * den) := by
    rcases hlog with rfl | h
    · simp; omega
    · have : ((den * 2 ^ k * 2 ^ 23 : Nat) : Int) ≤ num := by exact_mod_cast h
      push_cast at this ⊢; omega
  generalize num / (den * 2 ^ k) = q at *
  generalize num % (den * 2 ^ k) = r at *
  have join : ∀ p, p ≤ 2 ^ 24 → (k = 0 ∨ 2 ^ 23 ≤ p) → magUnits (k * 2 ^ 23 + p) * den = den * 2 ^ k * p := by
    intro p hp hkp
    rcases Nat.lt_or_ge p (2 ^ 24) with h | h
    · rw [magUnits_join h hkp]; ring
    · obtain rfl : p = 2 ^ 24 := by omega
      rw [show k * 2 ^ 23 + 2 ^ 24 = (k + 1) * 2 ^ 23 + 2 ^ 23 by ring, magUnits_join (by norm_num) (.inr le_rfl)]
      ring
  generalize hu : den * 2 ^ k = u at *
  split
  · rename_i h
    rw [join (q + 1) (by omega) (by omega)]
    have e : ((u * (q + 1) : Nat) : Int) - (num : Int) = (u : Int) - r := by rw [← hmod]; push_cast; ring
    rw [e]
    rcases abs_cases ((u : Int) - r) with ⟨h1, _⟩ | ⟨h1, _⟩ <;> rw [h1] <;> omega
  · rename_i h
    rw [join q (by omega) hk]
    have e : ((u * q : Nat) : Int) - (num : Int) = -(r : Int) := by rw [← hmod]; push_cast; ring
    rw [e, abs_neg]
    rcases abs_cases (r : Int) with ⟨h1, _⟩ | ⟨h1, _⟩ <;> rw [h1] <;> omega

/-- A finite rounded result against the exact signed quotient. -/
theorem roundUnits_error {neg : Bool} {num den : Nat} (hd : 0 < den) (hf : isFinite (roundUnits neg num den) = true) :
    |unitsOf (roundUnits neg num den) * den - signed neg num| * 2 ^ 24 ≤ max (num : Int) (2 ^ 23 * den) := by
  have h := roundBits_error num hd
  unfold roundUnits ofMagBits at hf ⊢
  split at hf
  · rename_i hb
    rw [dif_pos hb]
    cases neg
    · simpa [signed] using h
    · rw [← abs_neg] at h
      simpa [signed, add_comm, sub_eq_add_neg] using h
  · simp [isFinite] at hf

/-- An integer is its magnitude with its sign. -/
theorem signed_natAbs (t : Int) : signed (decide (t < 0)) t.natAbs = t := by
  by_cases h : t < 0 <;> simp only [h, signed, decide_true, decide_false, if_true, Bool.false_eq_true, if_false] <;> omega

/-- A finite sum: within a part in 2^24 of the exact one, exact below 2^23 units. -/
theorem fadd_error {a b : F32} (ha : isFinite a = true) (hb : isFinite b = true) (hf : isFinite (fadd a b) = true) :
    |unitsOf (fadd a b) - (unitsOf a + unitsOf b)| * 2 ^ 24 ≤ max |unitsOf a + unitsOf b| (2 ^ 23) := by
  rcases sumOr_finite (nanOf .add a b) ha hb with ⟨h0, n, e⟩ | ⟨h0, e⟩
  · rw [fadd, e, h0]; cases n <;> simp
  · rw [fadd, e] at hf ⊢
    have h := roundUnits_error one_pos hf
    rw [signed_natAbs] at h
    simpa using h

/-- A finite difference, likewise. -/
theorem fsub_error {a b : F32} (ha : isFinite a = true) (hb : isFinite b = true) (hf : isFinite (fsub a b) = true) :
    |unitsOf (fsub a b) - (unitsOf a - unitsOf b)| * 2 ^ 24 ≤ max |unitsOf a - unitsOf b| (2 ^ 23) := by
  have hb' : isFinite (fneg b) = true := by simpa using hb
  rcases sumOr_finite (nanOf .sub a b) ha hb' with ⟨h0, n, e⟩ | ⟨h0, e⟩
  · rw [unitsOf_fneg] at h0
    rw [fsub, e, sub_eq_add_neg (unitsOf a), h0]; cases n <;> simp
  · rw [unitsOf_fneg, ← sub_eq_add_neg] at h0 e
    rw [fsub, e] at hf ⊢
    have h := roundUnits_error one_pos hf
    rw [signed_natAbs] at h
    simpa using h

/-- A finite product: within a part in 2^24 of the exact one, or half a unit of 2^-149. -/
theorem fmul_error {a b : F32} (ha : isFinite a = true) (hb : isFinite b = true) (hf : isFinite (fmul a b) = true) :
    |unitsOf (fmul a b) * 2 ^ 149 - unitsOf a * unitsOf b| * 2 ^ 24 ≤ max |unitsOf a * unitsOf b| (2 ^ 23 * 2 ^ 149) := by
  obtain ⟨n, m, rfl⟩ := isFinite_cases ha
  obtain ⟨k, l, rfl⟩ := isFinite_cases hb
  have e : fmul (.fin n m) (.fin k l) = roundUnits (n != k) (magUnits m.val * magUnits l.val) (2 ^ 149) := rfl
  rw [e] at hf ⊢
  have h := roundUnits_error (by positivity) hf
  rw [show signed (n != k) (magUnits m.val * magUnits l.val) = unitsOf (.fin n m) * unitsOf (.fin k l) by
    cases n <;> cases k <;> simp [signed]] at h
  rw [show ((magUnits m.val * magUnits l.val : Nat) : Int) = |unitsOf (.fin n m) * unitsOf (.fin k l)| by
    cases n <;> cases k <;> simp [abs_mul]] at h
  simpa using h

/-- A finite quotient by a positive value, likewise. -/
theorem fdiv_error {a b : F32} (ha : isFinite a = true) (hb : isFinite b = true) (h0 : 0 < unitsOf b)
    (hf : isFinite (fdiv a b) = true) :
    |unitsOf (fdiv a b) * unitsOf b - unitsOf a * 2 ^ 149| * 2 ^ 24 ≤ max (|unitsOf a| * 2 ^ 149) (2 ^ 23 * unitsOf b) := by
  obtain ⟨n, m, rfl⟩ := isFinite_cases ha
  obtain ⟨k, l, rfl⟩ := isFinite_cases hb
  obtain rfl : k = false := by cases k <;> simp at h0 ⊢; omega
  have hl : l.val ≠ 0 := fun hl => by simp [hl, magUnits] at h0
  have e : fdiv (.fin n m) (.fin false l) = roundUnits (n != false) (magUnits m.val * 2 ^ 149) (magUnits l.val) := by
    simp [fdiv, hl]
  rw [e] at hf ⊢
  have h := roundUnits_error (by simpa using h0) hf
  rw [show signed (n != false) (magUnits m.val * 2 ^ 149) = unitsOf (.fin n m) * 2 ^ 149 by cases n <;> simp [signed]] at h
  rw [show ((magUnits m.val * 2 ^ 149 : Nat) : Int) = |unitsOf (.fin n m)| * 2 ^ 149 by cases n <;> simp] at h
  simpa using h

/-! ### Positions on the number line (R13) -/

/-- The position of the value at a position: the position, held within the infinities. -/
theorem rank_ofRank (z : Bool) (r : Int) : rank (ofRank z r) = some (max (-0x7F800000) (min 0x7F800000 r)) := by
  unfold ofRank
  split
  · rename_i h
    subst h
    cases z <;> rfl
  · rw [rank_ofMagBits]
    by_cases h : r < 0 <;> simp only [h, decide_true, decide_false, if_true, Bool.false_eq_true, if_false, Option.some.injEq] <;> omega

/-- `cfg.exp2` on positions never falls (R13 (d)). -/
theorem exp2Rank_mono {a b : Int} (h : a ≤ b) : exp2Rank a ≤ exp2Rank b := by
  have hm : Config.rawExp2.toFun a ≤ Config.rawExp2.toFun b := Config.rawExp2.monotone' h
  unfold exp2Rank finiteRank onePos exp2DomainPos finitePos
  dsimp only
  split <;> split <;> split <;> split <;> (try split) <;> (try split) <;> omega

/-- `cfg.log2` on positions never falls (R13 (d)). -/
theorem log2Rank_mono {a b : Int} (h : a ≤ b) : log2Rank a ≤ log2Rank b := by
  have hm : Config.rawLog2.toFun a ≤ Config.rawLog2.toFun b := Config.rawLog2.monotone' h
  unfold log2Rank finiteRank onePos finitePos
  dsimp only
  split <;> split <;> split <;> split <;> omega

end Sys2Proof
end

