-- ==== Sys2Proof/Laws/Words.lean ====
section
/-! SUPPORT. Register files, bit patterns, comparisons and helper functions: the laws later proofs cite. -/

namespace Sys2Proof

/-! ### Register files: a read after a write -/

@[simp] theorem Per2.get_set {α : Type} (v : Per2 α) (i j : Fin 2) (x : α) :
    (v.set i x).get j = if j = i then x else v.get j := by
  fin_cases i <;> fin_cases j <;> rfl

@[simp] theorem Per3.get_set {α : Type} (v : Per3 α) (i j : Fin 3) (x : α) :
    (v.set i x).get j = if j = i then x else v.get j := by
  fin_cases i <;> fin_cases j <;> rfl

@[simp] theorem Per4.get_set {α : Type} (v : Per4 α) (i j : Fin 4) (x : α) :
    (v.set i x).get j = if j = i then x else v.get j := by
  fin_cases i <;> fin_cases j <;> rfl

@[simp] theorem Per8.get_set {α : Type} (v : Per8 α) (i j : Fin 8) (x : α) :
    (v.set i x).get j = if j = i then x else v.get j := by
  fin_cases i <;> fin_cases j <;> rfl

@[simp] theorem Per4.get_map {α β : Type} (f : α → β) (v : Per4 α) (i : Fin 4) : (v.map f).get i = f (v.get i) := by
  fin_cases i <;> rfl

@[simp] theorem Per4.get_ofFn {α : Type} (f : Fin 4 → α) (i : Fin 4) : (Per4.ofFn f).get i = f i := by
  fin_cases i <;> rfl

@[simp] theorem Per4.get_fill {α : Type} (x : α) (i : Fin 4) : (Per4.fill x).get i = x := by
  fin_cases i <;> rfl

@[simp] theorem Per8.get_fill {α : Type} (x : α) (i : Fin 8) : (Per8.fill x).get i = x := by
  fin_cases i <;> rfl

/-- Writing back what is there changes nothing. -/
@[simp] theorem Per4.set_get_self {α : Type} (v : Per4 α) (i : Fin 4) : v.set i (v.get i) = v := by
  fin_cases i <;> rfl

/-- Writing back what is there changes nothing. -/
@[simp] theorem Per8.set_get_self {α : Type} (v : Per8 α) (i : Fin 8) : v.set i (v.get i) = v := by
  fin_cases i <;> rfl

/-! ### Bit patterns (R8) -/

/-- A value read from a pattern has that pattern. -/
@[simp] theorem F32.toBits_ofBits (w : Word) : (F32.ofBits w).toBits = w := by
  apply BitVec.eq_of_toNat_eq
  have hw : w.toNat < 2 ^ 32 := w.isLt
  unfold F32.ofBits
  split
  · simp only [F32.toBits, signBit, BitVec.toNat_ofNat]
    by_cases h : 2 ^ 31 ≤ w.toNat <;> simp only [h, decide_true, decide_false, if_true] <;> first | omega | (simp; omega)
  · split
    · simp only [F32.toBits, signBit, BitVec.toNat_ofNat]
      by_cases h : 2 ^ 31 ≤ w.toNat <;> simp only [h, decide_true, decide_false, if_true] <;> first | omega | (simp; omega)
    · simp only [F32.toBits, signBit, BitVec.toNat_ofNat]
      by_cases h : 2 ^ 31 ≤ w.toNat <;> simp only [h, decide_true, decide_false, if_true] <;> first | omega | (simp; omega)

/-- The pattern of a value stands for that value. -/
@[simp] theorem F32.ofBits_toBits (x : F32) : F32.ofBits x.toBits = x := by
  rcases x with ⟨n, m, hm⟩ | n | ⟨n, p, hp⟩
  · have h : (F32.toBits (.fin n ⟨m, hm⟩)).toNat = signBit n + m := by
      simp only [F32.toBits, BitVec.toNat_ofNat]
      cases n <;> simp [signBit] <;> omega
    unfold F32.ofBits
    rw [dif_pos (by rw [h]; cases n <;> simp [signBit] <;> omega)]
    cases n <;> simp [h, signBit] <;> omega
  · cases n <;> decide
  · have h : (F32.toBits (.nan n ⟨p, hp⟩)).toNat = signBit n + 0x7F800001 + p := by
      simp only [F32.toBits, BitVec.toNat_ofNat]
      cases n <;> simp [signBit] <;> omega
    unfold F32.ofBits
    rw [dif_neg (by rw [h]; cases n <;> simp [signBit] <;> omega), dif_neg (by rw [h]; cases n <;> simp [signBit] <;> omega)]
    cases n <;> simp [h, signBit] <;> omega

/-- Two patterns that stand for one value are one pattern. -/
theorem F32.toBits_injective {x y : F32} (h : x.toBits = y.toBits) : x = y := by
  rw [← F32.ofBits_toBits x, ← F32.ofBits_toBits y, h]

/-! ### Guards and helper functions (R11, R366) -/

/-- `clamp` stays between its bounds, whatever the operand. -/
theorem clamp_within (x lo hi : F32) (h : fle lo hi = true) : fle lo (clamp x lo hi) = true ∧ fle (clamp x lo hi) hi = true := by
  unfold clamp
  unfold fle at h
  rcases hl : rank lo with _ | l <;> rcases hh : rank hi with _ | u <;> simp only [hl, hh] at h <;> try cases h
  have hlu : l ≤ u := by simpa using h
  split
  · simp [fle, hl, hh, hlu]
  · rename_i hx
    rcases hr : rank x with _ | v
    · cases x <;> simp [isNan, rank] at hx hr
    · split
      · simp [fle, hl, hh, hlu]
      · rename_i h1
        split
        · simp [fle, hl, hh, hlu]
        · rename_i h2
          simp only [flt, fgt, hl, hh, hr, decide_eq_true_eq] at h1 h2
          simp only [fle, hl, hh, hr, decide_eq_true_eq]
          omega

/-- `wrap01` is in [0, 1) for every operand whatever (R11). -/
theorem wrap01_inUnit (x : F32) : fle fzero (wrap01 x) = true ∧ flt (wrap01 x) fone = true := by
  have key : ∀ r, fle fzero (keepUnit r) = true ∧ flt (keepUnit r) fone = true := by
    intro r
    unfold keepUnit
    split
    · rename_i h
      simpa [fge] using h
    · decide
  exact key _

end Sys2Proof
end

