-- ==== Sys2Proof/Laws/Memory.lean ====
section
/-! SUPPORT. The sample memory: every operation keeps the canonical form, a read after a write gives the value written, and a write
leaves every other place alone. -/

namespace Sys2Proof.Machine

/-! ### Cells -/

theorem risingFrom_mono {a b : Nat} (h : a ≤ b) {l : List Host.Cell} (hl : risingFrom b l = true) : risingFrom a l = true := by
  cases l with
  | nil => rfl
  | cons x r =>
    simp only [risingFrom, Bool.and_eq_true, decide_eq_true_eq] at hl ⊢
    exact ⟨Nat.le_trans h hl.1, hl.2⟩

theorem lookupCell_below {k lo : Nat} {l : List Host.Cell} (hl : risingFrom lo l = true) (h : k < lo) :
    lookupCell k l = none := by
  induction l generalizing lo with
  | nil => rfl
  | cons x r ih =>
    simp only [risingFrom, Bool.and_eq_true, decide_eq_true_eq] at hl
    simp only [lookupCell]
    rw [if_neg (by omega), ih hl.2 (by omega)]

theorem lookupCell_insertCell (k j : Nat) (v : Byte) {lo : Nat} {l : List Host.Cell} (hl : risingFrom lo l = true) :
    lookupCell j (insertCell k v l) = if j = k then some v else lookupCell j l := by
  induction l generalizing lo with
  | nil => simp only [insertCell, lookupCell, eq_comm]
  | cons x r ih =>
    simp only [risingFrom, Bool.and_eq_true, decide_eq_true_eq] at hl
    simp only [insertCell]
    split
    · simp only [lookupCell, eq_comm]
    · split
      · rename_i h
        by_cases hj : j = k
        · simp [lookupCell, hj]
        · rw [lookupCell, if_neg (by simpa [eq_comm] using hj), if_neg hj, lookupCell, if_neg (by omega)]
      · rw [lookupCell, lookupCell, ih hl.2]
        by_cases hx : x.1 = j
        · rw [if_pos hx, if_pos hx, if_neg (by omega)]
        · rw [if_neg hx, if_neg hx]

theorem risingFrom_insertCell (k : Nat) (v : Byte) {lo : Nat} {l : List Host.Cell} (hl : risingFrom lo l = true) (h : lo ≤ k) :
    risingFrom lo (insertCell k v l) = true := by
  induction l generalizing lo with
  | nil => simpa [insertCell, risingFrom] using h
  | cons x r ih =>
    simp only [risingFrom, Bool.and_eq_true, decide_eq_true_eq] at hl
    simp only [insertCell]
    split
    · simp only [risingFrom, Bool.and_eq_true, decide_eq_true_eq]
      exact ⟨h, by omega, hl.2⟩
    · split
      · rename_i hk
        simp only [risingFrom, Bool.and_eq_true, decide_eq_true_eq]
        exact ⟨h, hk ▸ hl.2⟩
      · simp only [risingFrom, Bool.and_eq_true, decide_eq_true_eq]
        exact ⟨hl.1, ih hl.2 (by omega)⟩

theorem lookupCell_eraseCell (k j : Nat) {lo : Nat} {l : List Host.Cell} (hl : risingFrom lo l = true) :
    lookupCell j (eraseCell k l) = if j = k then none else lookupCell j l := by
  induction l generalizing lo with
  | nil => simp [eraseCell, lookupCell]
  | cons x r ih =>
    simp only [risingFrom, Bool.and_eq_true, decide_eq_true_eq] at hl
    simp only [eraseCell]
    split
    · rename_i hx
      by_cases hj : j = k
      · rw [if_pos hj, lookupCell_below hl.2 (by omega)]
      · rw [if_neg hj, lookupCell, if_neg (by omega)]
    · rename_i hx
      rw [lookupCell, lookupCell, ih hl.2]
      by_cases hj : x.1 = j
      · rw [if_pos hj, if_pos hj, if_neg (by omega)]
      · rw [if_neg hj, if_neg hj]

theorem risingFrom_eraseCell (k : Nat) {lo : Nat} {l : List Host.Cell} (hl : risingFrom lo l = true) :
    risingFrom lo (eraseCell k l) = true := by
  induction l generalizing lo with
  | nil => rfl
  | cons x r ih =>
    simp only [risingFrom, Bool.and_eq_true, decide_eq_true_eq] at hl
    simp only [eraseCell]
    split
    · exact risingFrom_mono (by omega) hl.2
    · simp only [risingFrom, Bool.and_eq_true, decide_eq_true_eq]
      exact ⟨hl.1, ih hl.2⟩

theorem mem_insertCell {k : Nat} {v : Byte} {l : List Host.Cell} {x : Host.Cell} (h : x ∈ insertCell k v l) :
    x = (k, v) ∨ x ∈ l := by
  induction l with
  | nil => simpa [insertCell] using h
  | cons y r ih =>
    simp only [insertCell] at h
    split at h
    · simpa using h
    · split at h
      · rcases List.mem_cons.1 h with h | h
        · exact .inl h
        · exact .inr (List.mem_cons_of_mem _ h)
      · rcases List.mem_cons.1 h with h | h
        · exact .inr (h ▸ List.mem_cons_self ..)
        · rcases ih h with h | h
          · exact .inl h
          · exact .inr (List.mem_cons_of_mem _ h)

theorem mem_eraseCell {k : Nat} {l : List Host.Cell} {x : Host.Cell} (h : x ∈ eraseCell k l) : x ∈ l := by
  induction l with
  | nil => simp [eraseCell] at h
  | cons y r ih =>
    simp only [eraseCell] at h
    split at h
    · exact List.mem_cons_of_mem _ h
    · rcases List.mem_cons.1 h with h | h
      · exact h ▸ List.mem_cons_self ..
      · exact List.mem_cons_of_mem _ (ih h)

/-! ### The canonical form -/

theorem LineMemory.wf_iff (m : LineMemory) :
    m.wf = true ↔ risingFrom 0 m.cells = true ∧ ∀ x ∈ m.cells, m.unlisted ≠ some x.2 := by
  simp [LineMemory.wf]

theorem Memory.wf_iff (m : Memory) : m.wf = true ↔ ∀ c, (m.line.get c).wf = true := by
  constructor
  · intro h c
    simp only [Memory.wf, Bool.and_eq_true] at h
    fin_cases c
    · exact h.1.1.1
    · exact h.1.1.2
    · exact h.1.2
    · exact h.2
  · intro h
    simp only [Memory.wf, Bool.and_eq_true]
    exact ⟨⟨⟨h 0, h 1⟩, h 2⟩, h 3⟩

/-- Writing a byte keeps the canonical form of its line. -/
theorem LineMemory.wf_writeByte (m : LineMemory) (k : Nat) (v : Byte) (h : m.wf = true) : (m.writeByte k v).wf = true := by
  rw [LineMemory.wf_iff] at h ⊢
  obtain ⟨hr, ha⟩ := h
  unfold LineMemory.writeByte
  split
  · exact ⟨risingFrom_eraseCell k hr, fun x hx => ha x (mem_eraseCell hx)⟩
  · rename_i hv
    refine ⟨risingFrom_insertCell k v hr (Nat.zero_le _), fun x hx => ?_⟩
    rcases mem_insertCell hx with rfl | hx
    · exact hv
    · exact ha x hx

/-- Writing a slot keeps the canonical form of its line. -/
theorem LineMemory.wf_writeSlot (m : LineMemory) (a : Nat) (v : Word) (h : m.wf = true) : (m.writeSlot a v).wf = true :=
  LineMemory.wf_writeByte _ _ _ (LineMemory.wf_writeByte _ _ _
    (LineMemory.wf_writeByte _ _ _ (LineMemory.wf_writeByte _ _ _ h)))

/-- Writing a slot keeps the canonical form. -/
theorem Memory.wf_writeSlot (m : Memory) (c : Fin 4) (a : Nat) (v : Word) (h : m.wf = true) : (m.writeSlot c a v).wf = true := by
  rw [Memory.wf_iff] at h ⊢
  intro d
  unfold Memory.writeSlot
  rw [Per4.get_set]
  split
  · exact LineMemory.wf_writeSlot _ _ _ (h c)
  · exact h d

/-- Clearing a line keeps the canonical form. -/
theorem Memory.wf_clearLine (m : Memory) (c : Fin 4) (h : m.wf = true) : (m.clearLine c).wf = true := by
  rw [Memory.wf_iff] at h ⊢
  intro d
  unfold Memory.clearLine
  rw [Per4.get_set]
  split
  · rfl
  · exact h d

/-- The memory after reset is in canonical form. -/
theorem State.reset_mem_wf : State.reset.mem.wf = true := by decide

/-! ### Reads after writes -/

/-- What a line is known to hold after a byte write. -/
theorem LineMemory.known_writeByte (m : LineMemory) (k j : Nat) (v : Byte) (h : m.wf = true) :
    (m.writeByte k v).known j = if j = k then some v else m.known j := by
  rw [LineMemory.wf_iff] at h
  have hun : (m.writeByte k v).unlisted = m.unlisted := rfl
  unfold LineMemory.known
  rw [hun]
  unfold LineMemory.writeByte
  split
  · rename_i hv
    simp only [lookupCell_eraseCell k j h.1]
    by_cases hj : j = k
    · subst hj; simp [hv]
    · simp [hj]
  · simp only [lookupCell_insertCell k j v h.1]
    by_cases hj : j = k
    · simp [hj]
    · simp [hj]

/-- A byte write leaves every other key as it was, whatever the order of the cells. -/
theorem LineMemory.known_writeByte_of_ne (m : LineMemory) {k j : Nat} (v : Byte) (h : j ≠ k) : (m.writeByte k v).known j = m.known j := by
  have he : ∀ l, lookupCell j (eraseCell k l) = lookupCell j l := by
    intro l
    induction l with
    | nil => rfl
    | cons x rest ih =>
      simp only [eraseCell, lookupCell]
      split
      · rename_i hx; rw [if_neg (fun e => h (e.symm.trans hx))]
      · simp only [lookupCell, ih]
  have hi : ∀ l, lookupCell j (insertCell k v l) = lookupCell j l := by
    intro l
    induction l with
    | nil => simp [insertCell, lookupCell, h.symm]
    | cons x rest ih =>
      simp only [insertCell]
      split
      · simp [lookupCell, h.symm]
      · split
        · rename_i hx; simp [lookupCell, h.symm, hx]
        · simp only [lookupCell, ih]
  unfold LineMemory.known LineMemory.writeByte
  split
  · rw [he]; rfl
  · rw [hi]; rfl

/-- The keys of two bytes of two slots agree only for one byte of one slot. -/
theorem slotKey_inj {a b i j : Nat} (hi : i < 4) (hj : j < 4) : slotKey a i = slotKey b j ↔ a = b ∧ i = j := by
  unfold slotKey
  omega

/-- What a line is known to hold after a slot write: the slot's own bytes are the value's. -/
theorem LineMemory.known_writeSlot (m : LineMemory) (a : Nat) (v : Word) (j : Nat) (h : m.wf = true) :
    (m.writeSlot a v).known j =
      if j = slotKey a 3 then some (v.extractLsb' 24 8)
      else if j = slotKey a 2 then some (v.extractLsb' 16 8)
      else if j = slotKey a 1 then some (v.extractLsb' 8 8)
      else if j = slotKey a 0 then some (v.extractLsb' 0 8)
      else m.known j := by
  unfold LineMemory.writeSlot
  have h0 := LineMemory.wf_writeByte m (slotKey a 0) (v.extractLsb' 0 8) h
  have h1 := LineMemory.wf_writeByte _ (slotKey a 1) (v.extractLsb' 8 8) h0
  have h2 := LineMemory.wf_writeByte _ (slotKey a 2) (v.extractLsb' 16 8) h1
  rw [LineMemory.known_writeByte _ _ _ _ h2, LineMemory.known_writeByte _ _ _ _ h1, LineMemory.known_writeByte _ _ _ _ h0,
    LineMemory.known_writeByte _ _ _ _ h]

/-- A byte read after a slot write: the slot's own bytes are the value's, every other byte of every line is as before. -/
theorem Memory.readByte_writeSlot (m : Memory) (c d : Fin 4) (a : Nat) (v : Word) (j : Nat) (h : m.wf = true) :
    (m.writeSlot c a v).readByte d j =
      if d = c ∧ j = slotKey a 3 then v.extractLsb' 24 8
      else if d = c ∧ j = slotKey a 2 then v.extractLsb' 16 8
      else if d = c ∧ j = slotKey a 1 then v.extractLsb' 8 8
      else if d = c ∧ j = slotKey a 0 then v.extractLsb' 0 8
      else m.readByte d j := by
  unfold Memory.readByte Memory.writeSlot
  rw [Per4.get_set]
  by_cases hd : d = c
  · subst hd
    simp only [true_and, if_true, LineMemory.known_writeSlot _ _ _ _ ((Memory.wf_iff m).1 h d)]
    by_cases h3 : j = slotKey a 3
    · simp [h3]
    · by_cases h2 : j = slotKey a 2
      · simp [h2, slotKey]
      · by_cases h1 : j = slotKey a 1
        · simp [h1, slotKey]
        · by_cases h0 : j = slotKey a 0
          · simp [h0, slotKey]
          · simp [h0, h1, h2, h3]
  · simp [hd]

/-- A slot write leaves every byte but the slot's four as it was, whatever the order of the cells. -/
theorem Memory.readByte_writeSlot_of_ne (m : Memory) (c d : Fin 4) (a : Nat) (v : Word) (j : Nat)
    (h : d = c → j ≠ slotKey a 0 ∧ j ≠ slotKey a 1 ∧ j ≠ slotKey a 2 ∧ j ≠ slotKey a 3) :
    (m.writeSlot c a v).readByte d j = m.readByte d j := by
  unfold Memory.readByte Memory.writeSlot
  rw [Per4.get_set]
  split
  · rename_i hd
    subst hd
    obtain ⟨h0, h1, h2, h3⟩ := h rfl
    simp only [LineMemory.writeSlot, LineMemory.known_writeByte_of_ne _ _ h0, LineMemory.known_writeByte_of_ne _ _ h1,
      LineMemory.known_writeByte_of_ne _ _ h2, LineMemory.known_writeByte_of_ne _ _ h3]
  · rfl

/-- The four bytes of a word in their order are the word. -/
theorem bytes_append (v : Word) :
    v.extractLsb' 24 8 ++ v.extractLsb' 16 8 ++ v.extractLsb' 8 8 ++ v.extractLsb' 0 8 = v := by
  apply BitVec.eq_of_getLsbD_eq
  intro i hi
  simp only [BitVec.getLsbD_append, BitVec.getLsbD_extractLsb']
  by_cases h0 : i < 8
  · simp [h0]
  · by_cases h1 : i - 8 < 8
    · simp [h0, h1]; congr 1; omega
    · by_cases h2 : i - 8 - 8 < 8
      · simp [h0, h1, h2]; congr 1; omega
      · simp [h0, h1, h2]
        have : i - 8 - 8 - 8 < 8 := by omega
        simp [this]; congr 1; omega

/-- A slot read after a slot write (R71). -/
theorem Memory.readSlot_writeSlot (m : Memory) (c d : Fin 4) (a b : Nat) (v : Word) (h : m.wf = true) :
    (m.writeSlot c a v).readSlot d b = if d = c ∧ b = a then v else m.readSlot d b := by
  unfold Memory.readSlot
  simp only [Memory.readByte_writeSlot _ _ _ _ _ _ h]
  by_cases hd : d = c ∧ b = a
  · obtain ⟨rfl, rfl⟩ := hd
    simpa [slotKey] using bytes_append v
  · have hk : ∀ i j : Nat, i < 4 → j < 4 → (d = c ∧ slotKey b i = slotKey a j) = False := by
      intro i j hi hj
      rw [slotKey_inj hi hj]
      exact eq_false (fun q => hd ⟨q.1, q.2.1⟩)
    simp [hk, hd]

/-- A byte read after a line is cleared: zero in the line, as before elsewhere (R131). -/
theorem Memory.readByte_clearLine (m : Memory) (c d : Fin 4) (k : Nat) :
    (m.clearLine c).readByte d k = if d = c then 0#8 else m.readByte d k := by
  unfold Memory.readByte Memory.clearLine
  rw [Per4.get_set]
  by_cases h : d = c
  · simp [h, LineMemory.known, LineMemory.unlisted, lookupCell]
  · simp [h]

/-- A slot read after a line is cleared: +0.0 in the line, as before elsewhere (R131). -/
theorem Memory.readSlot_clearLine (m : Memory) (c d : Fin 4) (a : Nat) :
    (m.clearLine c).readSlot d a = if d = c then 0#32 else m.readSlot d a := by
  unfold Memory.readSlot
  simp only [Memory.readByte_clearLine]
  by_cases h : d = c
  · simp only [h, if_true]; decide
  · simp only [h, if_false]

end Sys2Proof.Machine
end

