-- ==== Sys2Proof/Laws/State.lean ====
section
/-! SUPPORT. One lemma per field per update of the state, each true by `rfl`. Rewrite with these where an update carries a computed
value: a bare `rfl` makes the kernel compare the two states first, computed values and all, which does not end. The proofs stand in
parentheses so that `simp` cites them as rewriting rules and leaves no such comparison behind. -/

namespace Sys2Proof.Machine

variable (s : State)

/-! ### `setArg` -/

@[simp] theorem State.setArg_arg (i : Fin 8) (v : Word) : (s.setArg i v).arg = s.arg.set i v := (rfl)
@[simp] theorem State.setArg_res (i : Fin 8) (v : Word) : (s.setArg i v).res = s.res := (rfl)
@[simp] theorem State.setArg_status (i : Fin 8) (v : Word) : (s.setArg i v).status = s.status := (rfl)
@[simp] theorem State.setArg_mem (i : Fin 8) (v : Word) : (s.setArg i v).mem = s.mem := (rfl)
@[simp] theorem State.setArg_dl (i : Fin 8) (v : Word) : (s.setArg i v).dl = s.dl := (rfl)
@[simp] theorem State.setArg_ph (i : Fin 8) (v : Word) : (s.setArg i v).ph = s.ph := (rfl)
@[simp] theorem State.setArg_ck (i : Fin 8) (v : Word) : (s.setArg i v).ck = s.ck := (rfl)
@[simp] theorem State.setArg_fxIn (i : Fin 8) (v : Word) : (s.setArg i v).fxIn = s.fxIn := (rfl)
@[simp] theorem State.setArg_fx (i : Fin 8) (v : Word) : (s.setArg i v).fx = s.fx := (rfl)
@[simp] theorem State.setArg_sm (i : Fin 8) (v : Word) : (s.setArg i v).sm = s.sm := (rfl)
@[simp] theorem State.setArg_pc (i : Fin 8) (v : Word) : (s.setArg i v).pc = s.pc := (rfl)
@[simp] theorem State.setArg_bus (i : Fin 8) (v : Word) : (s.setArg i v).bus = s.bus := (rfl)
@[simp] theorem State.setArg_readLog (i : Fin 8) (v : Word) : (s.setArg i v).readLog = s.readLog := (rfl)
@[simp] theorem State.setArg_capOffset (i : Fin 8) (v : Word) : (s.setArg i v).capOffset = s.capOffset := (rfl)
@[simp] theorem State.setArg_cap (i : Fin 8) (v : Word) : (s.setArg i v).cap = s.cap := (rfl)

/-! ### `setRes` -/

@[simp] theorem State.setRes_arg (i : Fin 8) (v : Word) : (s.setRes i v).arg = s.arg := (rfl)
@[simp] theorem State.setRes_res (i : Fin 8) (v : Word) : (s.setRes i v).res = s.res.set i v := (rfl)
@[simp] theorem State.setRes_status (i : Fin 8) (v : Word) : (s.setRes i v).status = s.status := (rfl)
@[simp] theorem State.setRes_mem (i : Fin 8) (v : Word) : (s.setRes i v).mem = s.mem := (rfl)
@[simp] theorem State.setRes_dl (i : Fin 8) (v : Word) : (s.setRes i v).dl = s.dl := (rfl)
@[simp] theorem State.setRes_ph (i : Fin 8) (v : Word) : (s.setRes i v).ph = s.ph := (rfl)
@[simp] theorem State.setRes_ck (i : Fin 8) (v : Word) : (s.setRes i v).ck = s.ck := (rfl)
@[simp] theorem State.setRes_fxIn (i : Fin 8) (v : Word) : (s.setRes i v).fxIn = s.fxIn := (rfl)
@[simp] theorem State.setRes_fx (i : Fin 8) (v : Word) : (s.setRes i v).fx = s.fx := (rfl)
@[simp] theorem State.setRes_sm (i : Fin 8) (v : Word) : (s.setRes i v).sm = s.sm := (rfl)
@[simp] theorem State.setRes_pc (i : Fin 8) (v : Word) : (s.setRes i v).pc = s.pc := (rfl)
@[simp] theorem State.setRes_bus (i : Fin 8) (v : Word) : (s.setRes i v).bus = s.bus := (rfl)
@[simp] theorem State.setRes_readLog (i : Fin 8) (v : Word) : (s.setRes i v).readLog = s.readLog := (rfl)
@[simp] theorem State.setRes_capOffset (i : Fin 8) (v : Word) : (s.setRes i v).capOffset = s.capOffset := (rfl)
@[simp] theorem State.setRes_cap (i : Fin 8) (v : Word) : (s.setRes i v).cap = s.cap := (rfl)

/-! ### `setDl` -/

@[simp] theorem State.setDl_arg (c : Fin 4) (d : DelayLine) : (s.setDl c d).arg = s.arg := (rfl)
@[simp] theorem State.setDl_res (c : Fin 4) (d : DelayLine) : (s.setDl c d).res = s.res := (rfl)
@[simp] theorem State.setDl_status (c : Fin 4) (d : DelayLine) : (s.setDl c d).status = s.status := (rfl)
@[simp] theorem State.setDl_mem (c : Fin 4) (d : DelayLine) : (s.setDl c d).mem = s.mem := (rfl)
@[simp] theorem State.setDl_dl (c : Fin 4) (d : DelayLine) : (s.setDl c d).dl = s.dl.set c d := (rfl)
@[simp] theorem State.setDl_ph (c : Fin 4) (d : DelayLine) : (s.setDl c d).ph = s.ph := (rfl)
@[simp] theorem State.setDl_ck (c : Fin 4) (d : DelayLine) : (s.setDl c d).ck = s.ck := (rfl)
@[simp] theorem State.setDl_fxIn (c : Fin 4) (d : DelayLine) : (s.setDl c d).fxIn = s.fxIn := (rfl)
@[simp] theorem State.setDl_fx (c : Fin 4) (d : DelayLine) : (s.setDl c d).fx = s.fx := (rfl)
@[simp] theorem State.setDl_sm (c : Fin 4) (d : DelayLine) : (s.setDl c d).sm = s.sm := (rfl)
@[simp] theorem State.setDl_pc (c : Fin 4) (d : DelayLine) : (s.setDl c d).pc = s.pc := (rfl)
@[simp] theorem State.setDl_bus (c : Fin 4) (d : DelayLine) : (s.setDl c d).bus = s.bus := (rfl)
@[simp] theorem State.setDl_readLog (c : Fin 4) (d : DelayLine) : (s.setDl c d).readLog = s.readLog := (rfl)
@[simp] theorem State.setDl_capOffset (c : Fin 4) (d : DelayLine) : (s.setDl c d).capOffset = s.capOffset := (rfl)
@[simp] theorem State.setDl_cap (c : Fin 4) (d : DelayLine) : (s.setDl c d).cap = s.cap := (rfl)

/-! ### `setPh` -/

@[simp] theorem State.setPh_arg (c : Fin 4) (p : Phasor) : (s.setPh c p).arg = s.arg := (rfl)
@[simp] theorem State.setPh_res (c : Fin 4) (p : Phasor) : (s.setPh c p).res = s.res := (rfl)
@[simp] theorem State.setPh_status (c : Fin 4) (p : Phasor) : (s.setPh c p).status = s.status := (rfl)
@[simp] theorem State.setPh_mem (c : Fin 4) (p : Phasor) : (s.setPh c p).mem = s.mem := (rfl)
@[simp] theorem State.setPh_dl (c : Fin 4) (p : Phasor) : (s.setPh c p).dl = s.dl := (rfl)
@[simp] theorem State.setPh_ph (c : Fin 4) (p : Phasor) : (s.setPh c p).ph = s.ph.set c p := (rfl)
@[simp] theorem State.setPh_ck (c : Fin 4) (p : Phasor) : (s.setPh c p).ck = s.ck := (rfl)
@[simp] theorem State.setPh_fxIn (c : Fin 4) (p : Phasor) : (s.setPh c p).fxIn = s.fxIn := (rfl)
@[simp] theorem State.setPh_fx (c : Fin 4) (p : Phasor) : (s.setPh c p).fx = s.fx := (rfl)
@[simp] theorem State.setPh_sm (c : Fin 4) (p : Phasor) : (s.setPh c p).sm = s.sm := (rfl)
@[simp] theorem State.setPh_pc (c : Fin 4) (p : Phasor) : (s.setPh c p).pc = s.pc := (rfl)
@[simp] theorem State.setPh_bus (c : Fin 4) (p : Phasor) : (s.setPh c p).bus = s.bus := (rfl)
@[simp] theorem State.setPh_readLog (c : Fin 4) (p : Phasor) : (s.setPh c p).readLog = s.readLog := (rfl)
@[simp] theorem State.setPh_capOffset (c : Fin 4) (p : Phasor) : (s.setPh c p).capOffset = s.capOffset := (rfl)
@[simp] theorem State.setPh_cap (c : Fin 4) (p : Phasor) : (s.setPh c p).cap = s.cap := (rfl)

/-! ### `setCk` -/

@[simp] theorem State.setCk_arg (k : Clock) : (s.setCk k).arg = s.arg := (rfl)
@[simp] theorem State.setCk_res (k : Clock) : (s.setCk k).res = s.res := (rfl)
@[simp] theorem State.setCk_status (k : Clock) : (s.setCk k).status = s.status := (rfl)
@[simp] theorem State.setCk_mem (k : Clock) : (s.setCk k).mem = s.mem := (rfl)
@[simp] theorem State.setCk_dl (k : Clock) : (s.setCk k).dl = s.dl := (rfl)
@[simp] theorem State.setCk_ph (k : Clock) : (s.setCk k).ph = s.ph := (rfl)
@[simp] theorem State.setCk_ck (k : Clock) : (s.setCk k).ck = k := (rfl)
@[simp] theorem State.setCk_fxIn (k : Clock) : (s.setCk k).fxIn = s.fxIn := (rfl)
@[simp] theorem State.setCk_fx (k : Clock) : (s.setCk k).fx = s.fx := (rfl)
@[simp] theorem State.setCk_sm (k : Clock) : (s.setCk k).sm = s.sm := (rfl)
@[simp] theorem State.setCk_pc (k : Clock) : (s.setCk k).pc = s.pc := (rfl)
@[simp] theorem State.setCk_bus (k : Clock) : (s.setCk k).bus = s.bus := (rfl)
@[simp] theorem State.setCk_readLog (k : Clock) : (s.setCk k).readLog = s.readLog := (rfl)
@[simp] theorem State.setCk_capOffset (k : Clock) : (s.setCk k).capOffset = s.capOffset := (rfl)
@[simp] theorem State.setCk_cap (k : Clock) : (s.setCk k).cap = s.cap := (rfl)

/-! ### `setFx` -/

@[simp] theorem State.setFx_arg (f : Fx) : (s.setFx f).arg = s.arg := (rfl)
@[simp] theorem State.setFx_res (f : Fx) : (s.setFx f).res = s.res := (rfl)
@[simp] theorem State.setFx_status (f : Fx) : (s.setFx f).status = s.status := (rfl)
@[simp] theorem State.setFx_mem (f : Fx) : (s.setFx f).mem = s.mem := (rfl)
@[simp] theorem State.setFx_dl (f : Fx) : (s.setFx f).dl = s.dl := (rfl)
@[simp] theorem State.setFx_ph (f : Fx) : (s.setFx f).ph = s.ph := (rfl)
@[simp] theorem State.setFx_ck (f : Fx) : (s.setFx f).ck = s.ck := (rfl)
@[simp] theorem State.setFx_fxIn (f : Fx) : (s.setFx f).fxIn = s.fxIn := (rfl)
@[simp] theorem State.setFx_fx (f : Fx) : (s.setFx f).fx = f := (rfl)
@[simp] theorem State.setFx_sm (f : Fx) : (s.setFx f).sm = s.sm := (rfl)
@[simp] theorem State.setFx_pc (f : Fx) : (s.setFx f).pc = s.pc := (rfl)
@[simp] theorem State.setFx_bus (f : Fx) : (s.setFx f).bus = s.bus := (rfl)
@[simp] theorem State.setFx_readLog (f : Fx) : (s.setFx f).readLog = s.readLog := (rfl)
@[simp] theorem State.setFx_capOffset (f : Fx) : (s.setFx f).capOffset = s.capOffset := (rfl)
@[simp] theorem State.setFx_cap (f : Fx) : (s.setFx f).cap = s.cap := (rfl)

/-! ### `setFxIn` -/

@[simp] theorem State.setFxIn_arg (f : FxInput) : (s.setFxIn f).arg = s.arg := (rfl)
@[simp] theorem State.setFxIn_res (f : FxInput) : (s.setFxIn f).res = s.res := (rfl)
@[simp] theorem State.setFxIn_status (f : FxInput) : (s.setFxIn f).status = s.status := (rfl)
@[simp] theorem State.setFxIn_mem (f : FxInput) : (s.setFxIn f).mem = s.mem := (rfl)
@[simp] theorem State.setFxIn_dl (f : FxInput) : (s.setFxIn f).dl = s.dl := (rfl)
@[simp] theorem State.setFxIn_ph (f : FxInput) : (s.setFxIn f).ph = s.ph := (rfl)
@[simp] theorem State.setFxIn_ck (f : FxInput) : (s.setFxIn f).ck = s.ck := (rfl)
@[simp] theorem State.setFxIn_fxIn (f : FxInput) : (s.setFxIn f).fxIn = f := (rfl)
@[simp] theorem State.setFxIn_fx (f : FxInput) : (s.setFxIn f).fx = s.fx := (rfl)
@[simp] theorem State.setFxIn_sm (f : FxInput) : (s.setFxIn f).sm = s.sm := (rfl)
@[simp] theorem State.setFxIn_pc (f : FxInput) : (s.setFxIn f).pc = s.pc := (rfl)
@[simp] theorem State.setFxIn_bus (f : FxInput) : (s.setFxIn f).bus = s.bus := (rfl)
@[simp] theorem State.setFxIn_readLog (f : FxInput) : (s.setFxIn f).readLog = s.readLog := (rfl)
@[simp] theorem State.setFxIn_capOffset (f : FxInput) : (s.setFxIn f).capOffset = s.capOffset := (rfl)
@[simp] theorem State.setFxIn_cap (f : FxInput) : (s.setFxIn f).cap = s.cap := (rfl)

/-! ### `setSm` -/

@[simp] theorem State.setSm_arg (k : Fin 8) (x : Smoother) : (s.setSm k x).arg = s.arg := (rfl)
@[simp] theorem State.setSm_res (k : Fin 8) (x : Smoother) : (s.setSm k x).res = s.res := (rfl)
@[simp] theorem State.setSm_status (k : Fin 8) (x : Smoother) : (s.setSm k x).status = s.status := (rfl)
@[simp] theorem State.setSm_mem (k : Fin 8) (x : Smoother) : (s.setSm k x).mem = s.mem := (rfl)
@[simp] theorem State.setSm_dl (k : Fin 8) (x : Smoother) : (s.setSm k x).dl = s.dl := (rfl)
@[simp] theorem State.setSm_ph (k : Fin 8) (x : Smoother) : (s.setSm k x).ph = s.ph := (rfl)
@[simp] theorem State.setSm_ck (k : Fin 8) (x : Smoother) : (s.setSm k x).ck = s.ck := (rfl)
@[simp] theorem State.setSm_fxIn (k : Fin 8) (x : Smoother) : (s.setSm k x).fxIn = s.fxIn := (rfl)
@[simp] theorem State.setSm_fx (k : Fin 8) (x : Smoother) : (s.setSm k x).fx = s.fx := (rfl)
@[simp] theorem State.setSm_sm (k : Fin 8) (x : Smoother) : (s.setSm k x).sm = s.sm.set k x := (rfl)
@[simp] theorem State.setSm_pc (k : Fin 8) (x : Smoother) : (s.setSm k x).pc = s.pc := (rfl)
@[simp] theorem State.setSm_bus (k : Fin 8) (x : Smoother) : (s.setSm k x).bus = s.bus := (rfl)
@[simp] theorem State.setSm_readLog (k : Fin 8) (x : Smoother) : (s.setSm k x).readLog = s.readLog := (rfl)
@[simp] theorem State.setSm_capOffset (k : Fin 8) (x : Smoother) : (s.setSm k x).capOffset = s.capOffset := (rfl)
@[simp] theorem State.setSm_cap (k : Fin 8) (x : Smoother) : (s.setSm k x).cap = s.cap := (rfl)

/-! ### `setMem` -/

@[simp] theorem State.setMem_arg (m : Memory) : (s.setMem m).arg = s.arg := (rfl)
@[simp] theorem State.setMem_res (m : Memory) : (s.setMem m).res = s.res := (rfl)
@[simp] theorem State.setMem_status (m : Memory) : (s.setMem m).status = s.status := (rfl)
@[simp] theorem State.setMem_mem (m : Memory) : (s.setMem m).mem = m := (rfl)
@[simp] theorem State.setMem_dl (m : Memory) : (s.setMem m).dl = s.dl := (rfl)
@[simp] theorem State.setMem_ph (m : Memory) : (s.setMem m).ph = s.ph := (rfl)
@[simp] theorem State.setMem_ck (m : Memory) : (s.setMem m).ck = s.ck := (rfl)
@[simp] theorem State.setMem_fxIn (m : Memory) : (s.setMem m).fxIn = s.fxIn := (rfl)
@[simp] theorem State.setMem_fx (m : Memory) : (s.setMem m).fx = s.fx := (rfl)
@[simp] theorem State.setMem_sm (m : Memory) : (s.setMem m).sm = s.sm := (rfl)
@[simp] theorem State.setMem_pc (m : Memory) : (s.setMem m).pc = s.pc := (rfl)
@[simp] theorem State.setMem_bus (m : Memory) : (s.setMem m).bus = s.bus := (rfl)
@[simp] theorem State.setMem_readLog (m : Memory) : (s.setMem m).readLog = s.readLog := (rfl)
@[simp] theorem State.setMem_capOffset (m : Memory) : (s.setMem m).capOffset = s.capOffset := (rfl)
@[simp] theorem State.setMem_cap (m : Memory) : (s.setMem m).cap = s.cap := (rfl)

/-! ### `advance` -/

@[simp] theorem State.advance_arg : (s.advance).arg = s.arg := (rfl)
@[simp] theorem State.advance_res : (s.advance).res = s.res := (rfl)
@[simp] theorem State.advance_status : (s.advance).status = s.status := (rfl)
@[simp] theorem State.advance_mem : (s.advance).mem = s.mem := (rfl)
@[simp] theorem State.advance_dl : (s.advance).dl = s.dl := (rfl)
@[simp] theorem State.advance_ph : (s.advance).ph = s.ph := (rfl)
@[simp] theorem State.advance_ck : (s.advance).ck = s.ck := (rfl)
@[simp] theorem State.advance_fxIn : (s.advance).fxIn = s.fxIn := (rfl)
@[simp] theorem State.advance_fx : (s.advance).fx = s.fx := (rfl)
@[simp] theorem State.advance_sm : (s.advance).sm = s.sm := (rfl)
@[simp] theorem State.advance_pc : (s.advance).pc = s.pc + 1 := (rfl)
@[simp] theorem State.advance_bus : (s.advance).bus = s.bus.tail := (rfl)
@[simp] theorem State.advance_readLog : (s.advance).readLog = s.readLog := (rfl)
@[simp] theorem State.advance_capOffset : (s.advance).capOffset = s.capOffset := (rfl)
@[simp] theorem State.advance_cap : (s.advance).cap = s.cap := (rfl)

/-! ### `logRead` -/

@[simp] theorem State.logRead_arg (v : Word) : (s.logRead v).arg = s.arg := (rfl)
@[simp] theorem State.logRead_res (v : Word) : (s.logRead v).res = s.res := (rfl)
@[simp] theorem State.logRead_status (v : Word) : (s.logRead v).status = s.status := (rfl)
@[simp] theorem State.logRead_mem (v : Word) : (s.logRead v).mem = s.mem := (rfl)
@[simp] theorem State.logRead_dl (v : Word) : (s.logRead v).dl = s.dl := (rfl)
@[simp] theorem State.logRead_ph (v : Word) : (s.logRead v).ph = s.ph := (rfl)
@[simp] theorem State.logRead_ck (v : Word) : (s.logRead v).ck = s.ck := (rfl)
@[simp] theorem State.logRead_fxIn (v : Word) : (s.logRead v).fxIn = s.fxIn := (rfl)
@[simp] theorem State.logRead_fx (v : Word) : (s.logRead v).fx = s.fx := (rfl)
@[simp] theorem State.logRead_sm (v : Word) : (s.logRead v).sm = s.sm := (rfl)
@[simp] theorem State.logRead_pc (v : Word) : (s.logRead v).pc = s.pc := (rfl)
@[simp] theorem State.logRead_bus (v : Word) : (s.logRead v).bus = s.bus := (rfl)
@[simp] theorem State.logRead_readLog (v : Word) : (s.logRead v).readLog = s.readLog ++ [v] := (rfl)
@[simp] theorem State.logRead_capOffset (v : Word) : (s.logRead v).capOffset = s.capOffset := (rfl)
@[simp] theorem State.logRead_cap (v : Word) : (s.logRead v).cap = s.cap := (rfl)

/-! ### `raise` -/

@[simp] theorem State.raise_arg (f : Flag) (b : Bool) : (s.raise f b).arg = s.arg := (rfl)
@[simp] theorem State.raise_res (f : Flag) (b : Bool) : (s.raise f b).res = s.res := (rfl)
@[simp] theorem State.raise_status (f : Flag) (b : Bool) : (s.raise f b).status = s.status.raise f b := (rfl)
@[simp] theorem State.raise_mem (f : Flag) (b : Bool) : (s.raise f b).mem = s.mem := (rfl)
@[simp] theorem State.raise_dl (f : Flag) (b : Bool) : (s.raise f b).dl = s.dl := (rfl)
@[simp] theorem State.raise_ph (f : Flag) (b : Bool) : (s.raise f b).ph = s.ph := (rfl)
@[simp] theorem State.raise_ck (f : Flag) (b : Bool) : (s.raise f b).ck = s.ck := (rfl)
@[simp] theorem State.raise_fxIn (f : Flag) (b : Bool) : (s.raise f b).fxIn = s.fxIn := (rfl)
@[simp] theorem State.raise_fx (f : Flag) (b : Bool) : (s.raise f b).fx = s.fx := (rfl)
@[simp] theorem State.raise_sm (f : Flag) (b : Bool) : (s.raise f b).sm = s.sm := (rfl)
@[simp] theorem State.raise_pc (f : Flag) (b : Bool) : (s.raise f b).pc = s.pc := (rfl)
@[simp] theorem State.raise_bus (f : Flag) (b : Bool) : (s.raise f b).bus = s.bus := (rfl)
@[simp] theorem State.raise_readLog (f : Flag) (b : Bool) : (s.raise f b).readLog = s.readLog := (rfl)
@[simp] theorem State.raise_capOffset (f : Flag) (b : Bool) : (s.raise f b).capOffset = s.capOffset := (rfl)
@[simp] theorem State.raise_cap (f : Flag) (b : Bool) : (s.raise f b).cap = s.cap := (rfl)

/-! ### `setResF` -/

@[simp] theorem State.setResF_arg (i : Fin 8) (x : F32) : (s.setResF i x).arg = s.arg := (rfl)
@[simp] theorem State.setResF_res (i : Fin 8) (x : F32) : (s.setResF i x).res = s.res.set i x.toBits := (rfl)
@[simp] theorem State.setResF_status (i : Fin 8) (x : F32) : (s.setResF i x).status = s.status := (rfl)
@[simp] theorem State.setResF_mem (i : Fin 8) (x : F32) : (s.setResF i x).mem = s.mem := (rfl)
@[simp] theorem State.setResF_dl (i : Fin 8) (x : F32) : (s.setResF i x).dl = s.dl := (rfl)
@[simp] theorem State.setResF_ph (i : Fin 8) (x : F32) : (s.setResF i x).ph = s.ph := (rfl)
@[simp] theorem State.setResF_ck (i : Fin 8) (x : F32) : (s.setResF i x).ck = s.ck := (rfl)
@[simp] theorem State.setResF_fxIn (i : Fin 8) (x : F32) : (s.setResF i x).fxIn = s.fxIn := (rfl)
@[simp] theorem State.setResF_fx (i : Fin 8) (x : F32) : (s.setResF i x).fx = s.fx := (rfl)
@[simp] theorem State.setResF_sm (i : Fin 8) (x : F32) : (s.setResF i x).sm = s.sm := (rfl)
@[simp] theorem State.setResF_pc (i : Fin 8) (x : F32) : (s.setResF i x).pc = s.pc := (rfl)
@[simp] theorem State.setResF_bus (i : Fin 8) (x : F32) : (s.setResF i x).bus = s.bus := (rfl)
@[simp] theorem State.setResF_readLog (i : Fin 8) (x : F32) : (s.setResF i x).readLog = s.readLog := (rfl)
@[simp] theorem State.setResF_capOffset (i : Fin 8) (x : F32) : (s.setResF i x).capOffset = s.capOffset := (rfl)
@[simp] theorem State.setResF_cap (i : Fin 8) (x : F32) : (s.setResF i x).cap = s.cap := (rfl)

/-! ### `setResB` -/

@[simp] theorem State.setResB_arg (i : Fin 8) (b : Bool) : (s.setResB i b).arg = s.arg := (rfl)
@[simp] theorem State.setResB_res (i : Fin 8) (b : Bool) : (s.setResB i b).res = s.res.set i (boolWord b) := (rfl)
@[simp] theorem State.setResB_status (i : Fin 8) (b : Bool) : (s.setResB i b).status = s.status := (rfl)
@[simp] theorem State.setResB_mem (i : Fin 8) (b : Bool) : (s.setResB i b).mem = s.mem := (rfl)
@[simp] theorem State.setResB_dl (i : Fin 8) (b : Bool) : (s.setResB i b).dl = s.dl := (rfl)
@[simp] theorem State.setResB_ph (i : Fin 8) (b : Bool) : (s.setResB i b).ph = s.ph := (rfl)
@[simp] theorem State.setResB_ck (i : Fin 8) (b : Bool) : (s.setResB i b).ck = s.ck := (rfl)
@[simp] theorem State.setResB_fxIn (i : Fin 8) (b : Bool) : (s.setResB i b).fxIn = s.fxIn := (rfl)
@[simp] theorem State.setResB_fx (i : Fin 8) (b : Bool) : (s.setResB i b).fx = s.fx := (rfl)
@[simp] theorem State.setResB_sm (i : Fin 8) (b : Bool) : (s.setResB i b).sm = s.sm := (rfl)
@[simp] theorem State.setResB_pc (i : Fin 8) (b : Bool) : (s.setResB i b).pc = s.pc := (rfl)
@[simp] theorem State.setResB_bus (i : Fin 8) (b : Bool) : (s.setResB i b).bus = s.bus := (rfl)
@[simp] theorem State.setResB_readLog (i : Fin 8) (b : Bool) : (s.setResB i b).readLog = s.readLog := (rfl)
@[simp] theorem State.setResB_capOffset (i : Fin 8) (b : Bool) : (s.setResB i b).capOffset = s.capOffset := (rfl)
@[simp] theorem State.setResB_cap (i : Fin 8) (b : Bool) : (s.setResB i b).cap = s.cap := (rfl)

/-! ### `putVoice` -/

@[simp] theorem State.putVoice_arg (c : Fin 4) (v : Voice) : (s.putVoice c v).arg = s.arg := (rfl)
@[simp] theorem State.putVoice_res (c : Fin 4) (v : Voice) : (s.putVoice c v).res = s.res := (rfl)
@[simp] theorem State.putVoice_status (c : Fin 4) (v : Voice) : (s.putVoice c v).status = s.status := (rfl)
@[simp] theorem State.putVoice_mem (c : Fin 4) (v : Voice) : (s.putVoice c v).mem = s.mem := (rfl)
@[simp] theorem State.putVoice_dl (c : Fin 4) (v : Voice) : (s.putVoice c v).dl = s.dl := (rfl)
@[simp] theorem State.putVoice_ph (c : Fin 4) (v : Voice) : (s.putVoice c v).ph = s.ph.set c v.ph := (rfl)
@[simp] theorem State.putVoice_ck (c : Fin 4) (v : Voice) : (s.putVoice c v).ck = s.ck := (rfl)
@[simp] theorem State.putVoice_fxIn (c : Fin 4) (v : Voice) : (s.putVoice c v).fxIn = s.fxIn := (rfl)
@[simp] theorem State.putVoice_fx (c : Fin 4) (v : Voice) : (s.putVoice c v).fx = { s.fx with chan := s.fx.chan.set c v.ch, rng := v.rng } := (rfl)
@[simp] theorem State.putVoice_sm (c : Fin 4) (v : Voice) : (s.putVoice c v).sm = s.sm := (rfl)
@[simp] theorem State.putVoice_pc (c : Fin 4) (v : Voice) : (s.putVoice c v).pc = s.pc := (rfl)
@[simp] theorem State.putVoice_bus (c : Fin 4) (v : Voice) : (s.putVoice c v).bus = s.bus := (rfl)
@[simp] theorem State.putVoice_readLog (c : Fin 4) (v : Voice) : (s.putVoice c v).readLog = s.readLog := (rfl)
@[simp] theorem State.putVoice_capOffset (c : Fin 4) (v : Voice) : (s.putVoice c v).capOffset = s.capOffset := (rfl)
@[simp] theorem State.putVoice_cap (c : Fin 4) (v : Voice) : (s.putVoice c v).cap = s.cap := (rfl)

end Sys2Proof.Machine
end

