-- ==== Sys2Proof/Laws/Ops.lean ====
section
/-! SUPPORT. For each shared operation, one lemma that says once everything it does. -/

namespace Sys2Proof.Machine

/-! ### Flags -/

/-- Raising a flag sets that flag when the condition holds and touches no other. -/
@[simp] theorem Status.flag_raise (st : Status) (f g : Flag) (b : Bool) :
    (st.raise f b).flag g = if g = f then st.flag f || b else st.flag g := by
  cases f <;> cases g <;> rfl

/-- Raising a flag on a false condition changes nothing. -/
@[simp] theorem Status.raise_false (st : Status) (f : Flag) : st.raise f false = st := by
  cases f <;> simp [Status.raise]

/-- Raising a flag on a false condition changes nothing. -/
@[simp] theorem State.raise_false (s : State) (f : Flag) : s.raise f false = s := by simp [State.raise]

/-- Two statuses whose flags agree are equal. -/
theorem Status.ext_flag {a b : Status} (h : ∀ f, a.flag f = b.flag f) : a = b := by
  rcases a with ⟨a0, a1, a2, a3, a4, a5⟩
  rcases b with ⟨b0, b1, b2, b3, b4, b5⟩
  have h0 := h .illcmd
  have h1 := h .buserr
  have h2 := h .range
  have h3 := h .nonfin
  have h4 := h .argerr
  have h5 := h .clkrej
  simp only [Status.flag] at h0 h1 h2 h3 h4 h5
  subst h0 h1 h2 h3 h4 h5
  rfl

/-- Write-one-to-clear, flag by flag (R25). -/
theorem Status.flag_writeOneToClear (st : Status) (v : Word) (f : Flag) :
    (st.writeOneToClear v).flag f = (st.flag f && !v.getLsbD (match f with
      | .illcmd => 0 | .buserr => 1 | .range => 2 | .nonfin => 3 | .argerr => 4 | .clkrej => 5)) := by
  cases f <;> rfl

/-! ### Delay lines -/

/-- The capacity is at least 8 and at most 2^24 (R6). -/
theorem State.cap_bounds (s : State) : 8 ≤ s.cap ∧ s.cap ≤ 2 ^ 24 := by
  have := s.capOffset.isLt
  unfold State.cap
  omega

/-- `mod_floor` is below its modulus (R11). -/
theorem modFloor_lt (a : Int) {n : Nat} (h : 0 < n) : modFloor a n < n := by
  have h1 := Int.emod_nonneg a (b := (n : Int)) (by omega)
  have h2 := Int.emod_lt_of_pos a (b := (n : Int)) (by omega)
  unfold modFloor
  omega

/-- A line write: the slot at the cursor gets the value, the cursor advances, nothing else changes (R132). -/
theorem lineWrite_eq (s : State) (c : Fin 4) (v : Word) :
    lineWrite s c v =
      { s with
        mem := s.mem.writeSlot c (s.dl.get c).wp.toNat v
        dl := s.dl.set c { s.dl.get c with wp := BitVec.ofNat 32 (modFloor (((s.dl.get c).wp.toNat : Int) + 1) s.cap) } } := rfl

/-- A line write changes its line's registers, its slot's four bytes, and nothing else. -/
theorem lineWrite_kept (s : State) (c : Fin 4) (v : Word) :
    keptExcept (fun p => p = .line c ∨ slotPart c (writeSlotOf s c) p) s (lineWrite s c v) := by
  intro p hp
  simp only [not_or, slotPart] at hp
  cases p with
  | line d =>
    have hd : d ≠ c := fun e => hp.1 (by rw [e])
    simp [kept, lineWrite, hd]
  | byte d k =>
    refine Memory.readByte_writeSlot_of_ne _ _ _ _ _ _ (fun e => ?_)
    subst e
    simpa using hp.2
  | _ => rfl

/-! ### The effect engine's channel loop -/

/-- One turn of the channel loop writes back the channel, its phasor and the generator, and may raise `NONFIN`. -/
theorem fxChannelStep_eq (mode : FxMode) (fr : Frame) (rd : Fin 4 → F32 → F32) (c : Fin 4) (s : State) :
    fxChannelStep mode fr rd c s =
      { s with
        fx := { s.fx with
          chan := s.fx.chan.set c (channelFinish mode fr rd c s).ch
          rng := (channelKernel mode fr rd c s).voice.rng }
        ph := s.ph.set c (channelKernel mode fr rd c s).voice.ph
        status := s.status.raise .nonfin (channelFinish mode fr rd c s).nonfin } := rfl

/-- One turn of the channel loop touches the engine, its phasor and `NONFIN` only. -/
theorem fxChannelStep_kept (mode : FxMode) (fr : Frame) (rd : Fin 4 → F32 → F32) (c : Fin 4) (s : State) :
    keptExcept (fun p => p = .fxEngine ∨ p = .phasor c ∨ p = .flag .nonfin) s (fxChannelStep mode fr rd c s) := by
  intro p hp
  simp only [not_or] at hp
  cases p with
  | phasor d =>
    have hd : d ≠ c := fun e => hp.2.1 (by rw [e])
    simp [kept, fxChannelStep, hd]
  | flag f =>
    have hf : f ≠ .nonfin := fun e => hp.2.2 (by rw [e])
    simp [kept, fxChannelStep, hf]
  | fxEngine => exact absurd rfl hp.1
  | _ => rfl

/-- The three outputs of a channel are one value, which is finite (R218, R220, R221). -/
theorem finishChannel_outputs (apen : Bool) (g : F32) (ch : FxChannel) (raw : F32) :
    (finishChannel apen g ch raw).ch.wet = (finishChannel apen g ch raw).ch.lastOut ∧
    (finishChannel apen g ch raw).ch.which = (finishChannel apen g ch raw).ch.lastOut ∧
    isFinite (finishChannel apen g ch raw).ch.lastOut = true := by
  have hfin : ∀ x, isFinite (finValue x) = true := by
    intro x
    unfold finValue
    split
    · assumption
    · decide
  unfold finishChannel
  split
  · exact ⟨rfl, rfl, hfin _⟩
  · exact ⟨rfl, rfl, hfin _⟩

/-! ### Fields no `FX.PROC` touches -/

@[simp] theorem fxChannelStep_arg (mode : FxMode) (fr : Frame) (rd : Fin 4 → F32 → F32) (c : Fin 4) (s : State) :
    (fxChannelStep mode fr rd c s).arg = s.arg := by
  simp [fxChannelStep]

@[simp] theorem fxChannelStep_res (mode : FxMode) (fr : Frame) (rd : Fin 4 → F32 → F32) (c : Fin 4) (s : State) :
    (fxChannelStep mode fr rd c s).res = s.res := by
  simp [fxChannelStep]

@[simp] theorem fxChannelStep_mem (mode : FxMode) (fr : Frame) (rd : Fin 4 → F32 → F32) (c : Fin 4) (s : State) :
    (fxChannelStep mode fr rd c s).mem = s.mem := by
  simp [fxChannelStep]

@[simp] theorem fxChannelStep_dl (mode : FxMode) (fr : Frame) (rd : Fin 4 → F32 → F32) (c : Fin 4) (s : State) :
    (fxChannelStep mode fr rd c s).dl = s.dl := by
  simp [fxChannelStep]

@[simp] theorem fxChannelStep_ck (mode : FxMode) (fr : Frame) (rd : Fin 4 → F32 → F32) (c : Fin 4) (s : State) :
    (fxChannelStep mode fr rd c s).ck = s.ck := by
  simp [fxChannelStep]

@[simp] theorem fxChannelStep_fxIn (mode : FxMode) (fr : Frame) (rd : Fin 4 → F32 → F32) (c : Fin 4) (s : State) :
    (fxChannelStep mode fr rd c s).fxIn = s.fxIn := by
  simp [fxChannelStep]

@[simp] theorem fxChannelStep_sm (mode : FxMode) (fr : Frame) (rd : Fin 4 → F32 → F32) (c : Fin 4) (s : State) :
    (fxChannelStep mode fr rd c s).sm = s.sm := by
  simp [fxChannelStep]

@[simp] theorem fxChannelStep_pc (mode : FxMode) (fr : Frame) (rd : Fin 4 → F32 → F32) (c : Fin 4) (s : State) :
    (fxChannelStep mode fr rd c s).pc = s.pc := by
  simp [fxChannelStep]

@[simp] theorem fxChannelStep_bus (mode : FxMode) (fr : Frame) (rd : Fin 4 → F32 → F32) (c : Fin 4) (s : State) :
    (fxChannelStep mode fr rd c s).bus = s.bus := by
  simp [fxChannelStep]

@[simp] theorem fxChannelStep_readLog (mode : FxMode) (fr : Frame) (rd : Fin 4 → F32 → F32) (c : Fin 4) (s : State) :
    (fxChannelStep mode fr rd c s).readLog = s.readLog := by
  simp [fxChannelStep]

@[simp] theorem fxChannelStep_capOffset (mode : FxMode) (fr : Frame) (rd : Fin 4 → F32 → F32) (c : Fin 4) (s : State) :
    (fxChannelStep mode fr rd c s).capOffset = s.capOffset := by
  simp [fxChannelStep]

@[simp] theorem fxProc_arg (mode : FxMode) (s : State) : (fxProc mode s).arg = s.arg := by
  simp [fxProc, fxLoop]

@[simp] theorem fxProc_res (mode : FxMode) (s : State) : (fxProc mode s).res = s.res := by
  simp [fxProc, fxLoop]

@[simp] theorem fxProc_mem (mode : FxMode) (s : State) : (fxProc mode s).mem = s.mem := by
  simp [fxProc, fxLoop]

@[simp] theorem fxProc_dl (mode : FxMode) (s : State) : (fxProc mode s).dl = s.dl := by
  simp [fxProc, fxLoop]

@[simp] theorem fxProc_ck (mode : FxMode) (s : State) : (fxProc mode s).ck = s.ck := by
  simp [fxProc, fxLoop]

@[simp] theorem fxProc_fxIn (mode : FxMode) (s : State) : (fxProc mode s).fxIn = s.fxIn := by
  simp [fxProc, fxLoop]

@[simp] theorem fxProc_sm (mode : FxMode) (s : State) : (fxProc mode s).sm = s.sm := by
  simp [fxProc, fxLoop]

@[simp] theorem fxProc_pc (mode : FxMode) (s : State) : (fxProc mode s).pc = s.pc := by
  simp [fxProc, fxLoop]

@[simp] theorem fxProc_bus (mode : FxMode) (s : State) : (fxProc mode s).bus = s.bus := by
  simp [fxProc, fxLoop]

@[simp] theorem fxProc_readLog (mode : FxMode) (s : State) : (fxProc mode s).readLog = s.readLog := by
  simp [fxProc, fxLoop]

@[simp] theorem fxProc_capOffset (mode : FxMode) (s : State) : (fxProc mode s).capOffset = s.capOffset := by
  simp [fxProc, fxLoop]

/-- `FX.PROC` can set no flag but `NONFIN` (R402). -/
theorem fxProc_flag (mode : FxMode) (s : State) (f : Flag) (h : f ≠ .nonfin) :
    (fxProc mode s).status.flag f = s.status.flag f := by
  have step : ∀ (fr : Frame) (rd : Fin 4 → F32 → F32) (c : Fin 4) (t : State),
      (fxChannelStep mode fr rd c t).status.flag f = t.status.flag f := by
    intro fr rd c t
    simp [fxChannelStep, h]
  unfold fxProc fxLoop
  rw [step, step, step, step, State.setFx_status]

/-! ### The register map -/

/-- The register at a register's address is that register: no two registers share one (R27). -/
theorem regAt_addr (r : Reg) : regAt r.addr = some r := by
  cases r with
  | arg i => fin_cases i <;> rfl
  | res i => fin_cases i <;> rfl
  | smY i => fin_cases i <;> rfl
  | smA i => fin_cases i <;> rfl
  | ckAvg i => fin_cases i <;> rfl
  | dlWp i => fin_cases i <;> rfl
  | dlDlyi i => fin_cases i <;> rfl
  | dlDlyf i => fin_cases i <;> rfl
  | phMain i => fin_cases i <;> rfl
  | phMod i => fin_cases i <;> rfl
  | phSr i => fin_cases i <;> rfl
  | phDsamp i => fin_cases i <;> rfl
  | phFreq i => fin_cases i <;> rfl
  | phRatio i => fin_cases i <;> rfl
  | phDepth i => fin_cases i <;> rfl
  | fxDry i => fin_cases i <;> rfl
  | fxDly i => fin_cases i <;> rfl
  | fxP i => fin_cases i <;> rfl
  | fxWet i => fin_cases i <;> rfl
  | fxWhich i => fin_cases i <;> rfl
  | _ => rfl

/-- A mapped address is its register's (R27). -/
theorem addr_of_regAt {a : Nat} {r : Reg} (h : regAt a = some r) : r.addr = a := by
  have := List.find?_some h
  simpa using this

/-- A 32-bit aligned access reaches the register mapped at its address. -/
theorem accessTarget_addr (r : Reg) : accessTarget (BitVec.ofNat 12 r.addr) 32 = some r := by
  have hlt : ∀ q : Reg, q.addr < 2 ^ 12 ∧ q.addr % 4 = 0 := by
    intro q
    cases q with
    | arg i => have := i.isLt; simp only [Reg.addr]; omega
    | res i => have := i.isLt; simp only [Reg.addr]; omega
    | smY i => have := i.isLt; simp only [Reg.addr]; omega
    | smA i => have := i.isLt; simp only [Reg.addr]; omega
    | ckAvg i => have := i.isLt; simp only [Reg.addr]; omega
    | dlWp i => have := i.isLt; simp only [Reg.addr]; omega
    | dlDlyi i => have := i.isLt; simp only [Reg.addr]; omega
    | dlDlyf i => have := i.isLt; simp only [Reg.addr]; omega
    | phMain i => have := i.isLt; simp only [Reg.addr]; omega
    | phMod i => have := i.isLt; simp only [Reg.addr]; omega
    | phSr i => have := i.isLt; simp only [Reg.addr]; omega
    | phDsamp i => have := i.isLt; simp only [Reg.addr]; omega
    | phFreq i => have := i.isLt; simp only [Reg.addr]; omega
    | phRatio i => have := i.isLt; simp only [Reg.addr]; omega
    | phDepth i => have := i.isLt; simp only [Reg.addr]; omega
    | fxDry i => have := i.isLt; simp only [Reg.addr]; omega
    | fxDly i => have := i.isLt; simp only [Reg.addr]; omega
    | fxP i => have := i.isLt; simp only [Reg.addr]; omega
    | fxWet i => have := i.isLt; simp only [Reg.addr]; omega
    | fxWhich i => have := i.isLt; simp only [Reg.addr]; omega
    | _ => decide
  have h := hlt r
  unfold accessTarget
  rw [BitVec.toNat_ofNat, Nat.mod_eq_of_lt h.1, if_pos ⟨rfl, h.2⟩, regAt_addr]

end Sys2Proof.Machine
end

