-- ==== Sys2Proof/Laws/Frame.lean ====
section
/-! SUPPORT. What one frame of the effect engine does, once for all modes, and the meaning's shared operations in the terms of
Sys2Proof/Safety.lean, in which the statements are written. -/

namespace Sys2Proof.Machine

/-! ### The channel loop -/

/-- One turn of the channel loop, from what the kernel answers. -/
theorem fxChannelStep_of_kernel {mode : FxMode} {fr : Frame} {rd : Fin 4 → F32 → F32} {c : Fin 4} {s : State} {ch : FxChannel}
    {ph : Phasor} {r : Word} {raw : F32} (h : kernel mode fr (rd c) c (voiceOf s c) = ⟨⟨ch, ph, r⟩, raw⟩) :
    fxChannelStep mode fr rd c s =
      { s with
        fx := { s.fx with chan := s.fx.chan.set c (finishChannel fr.apen fr.g ch raw).ch, rng := r }
        ph := s.ph.set c ph
        status := s.status.raise .nonfin (finishChannel fr.apen fr.g ch raw).nonfin } := by
  rw [fxChannelStep_eq]
  simp only [channelFinish, channelKernel, h]

/-- A frame, from what the four kernels answer: `r k` is the generator when `k` channels are done (R212). -/
theorem fxProc_of_kernels {m : FxMode} {s : State} {ch : Fin 4 → FxChannel} {ph : Fin 4 → Phasor} {raw : Fin 4 → F32} {r : Nat → Word}
    (h0 : r 0 = (frameFx m s).rng)
    (h : ∀ c : Fin 4, kernel m (frameOf m s) (readHerm s c) c ⟨(frameFx m s).chan.get c, s.ph.get c, r c.val⟩ =
      ⟨⟨ch c, ph c, r (c.val + 1)⟩, raw c⟩) :
    let out := fun c => finishChannel (allpassOn s) (allpassGain s.fxIn.fb) (ch c) (raw c)
    fxProc m s =
      { s with
        fx := { frameFx m s with chan := ⟨(out 0).ch, (out 1).ch, (out 2).ch, (out 3).ch⟩, rng := r 4 }
        ph := ⟨ph 0, ph 1, ph 2, ph 3⟩
        status := (((s.status.raise .nonfin (out 0).nonfin).raise .nonfin (out 1).nonfin).raise .nonfin (out 2).nonfin).raise .nonfin
          (out 3).nonfin } := by
  intro out
  unfold fxProc fxLoop
  have k0 := h 0
  have k1 := h 1
  have k2 := h 2
  have k3 := h 3
  rw [show ((0 : Fin 4).val) = 0 from rfl, h0] at k0
  rw [fxChannelStep_of_kernel (c := 0) (s := s.setFx (frameFx m s)) (rd := readHerm s) k0]
  rw [fxChannelStep_of_kernel (c := 1) (rd := readHerm s) k1]
  rw [fxChannelStep_of_kernel (c := 2) (rd := readHerm s) k2]
  rw [fxChannelStep_of_kernel (c := 3) (rd := readHerm s) k3]
  rfl

/-! ### The stages in the statements' terms -/

theorem readable_eq (s : State) (d : F32) : readable s d = clampD s.cap d := rfl

theorem silenced_eq (y : F32) : silenced y = finValue y := rfl

theorem param_eq (m : FxMode) (s : State) (k : Fin 4) : param m s k = clampSpec m k (s.fxIn.p.get k) := rfl

/-- The parameters of a frame. -/
@[simp] theorem frameParams_get (m : FxMode) (s : State) (k : Fin 4) : (frameParams m s).get k = param m s k := by
  match k with
  | 0 => rfl
  | 1 => rfl
  | 2 => rfl
  | 3 => rfl

/-- The base delays of a frame. -/
@[simp] theorem frameOf_base (m : FxMode) (s : State) (c : Fin 4) : (frameOf m s).base.get c = baseDelay s c := by
  match c with
  | 0 => rfl
  | 1 => rfl
  | 2 => rfl
  | 3 => rfl

/-- A channel as the mode change leaves it (R212, R215). -/
theorem enterMode_chan (m : FxMode) (s : State) (c : Fin 4) : (enterMode m s.fx).chan.get c = entered m s c := by
  unfold enterMode entered
  split
  · rfl
  · match c with
    | 0 => rfl
    | 1 => rfl
    | 2 => rfl
    | 3 => rfl

/-- The same after the per-frame step, which leaves the channels alone (R255, R322). -/
@[simp] theorem frameFx_chan (m : FxMode) (s : State) (c : Fin 4) : (frameFx m s).chan.get c = entered m s c := by
  rw [← enterMode_chan]
  cases m <;> rfl

/-- The per-frame step leaves the generator alone. -/
@[simp] theorem frameFx_rng (m : FxMode) (s : State) : (frameFx m s).rng = s.fx.rng := by
  have h : (enterMode m s.fx).rng = s.fx.rng := by unfold enterMode; split <;> rfl
  rw [← h]
  cases m <;> rfl

/-- The per-frame step leaves the sample rate alone. -/
@[simp] theorem frameFx_sr (m : FxMode) (s : State) : (frameFx m s).sr = s.fx.sr := by
  have h : (enterMode m s.fx).sr = s.fx.sr := by unfold enterMode; split <;> rfl
  rw [← h]
  cases m <;> rfl

theorem seamJump_eq (base pos : F32) (ch : FxChannel) : seamJump base pos ch = jumps base pos ch := rfl

theorem seamed_eq (base pos : F32) (ch : FxChannel) : seamed base pos ch = seamDetect base pos ch := rfl

/-- The literal fade length: 25 less the frames left, over 24 (R217). -/
theorem faded_eq (ch : FxChannel) (raw : F32) : faded ch raw = xfadeOut ch raw := by
  unfold faded xfadeOut xfadeWeight
  rw [show i2f (Config.xfLen : Int) = F32.ofBits 0x41C00000#32 by decide +kernel]
  rfl

/-- The output stages with the allpass stage off (R217, R218, R221). -/
theorem finishChannel_off (g : F32) (ch : FxChannel) (raw : F32) :
    finishChannel false g ch raw =
      { ch := { ch with
          xfRem := ch.xfRem - 1, wet := silenced (faded ch raw), which := silenced (faded ch raw), lastOut := silenced (faded ch raw) }
        nonfin := !isFinite (faded ch raw) } := by
  simp only [finishChannel, faded_eq, silenced_eq]
  rfl

/-- A frame with the allpass stage off, in the statements' terms. -/
theorem frameOut_of_kernels {m : FxMode} {s : State} {ch : Fin 4 → FxChannel} {ph : Fin 4 → Phasor} {raw : Fin 4 → F32} {r : Nat → Word}
    (off : allpassOn s = false) (h0 : r 0 = (frameFx m s).rng)
    (h : ∀ c : Fin 4, kernel m (frameOf m s) (readHerm s c) c ⟨(frameFx m s).chan.get c, s.ph.get c, r c.val⟩ =
      ⟨⟨ch c, ph c, r (c.val + 1)⟩, raw c⟩) :
    frameOut s (fxProc m s) ch raw := by
  have e := fxProc_of_kernels h0 h
  simp only [off, finishChannel_off] at e
  rw [e]
  refine ⟨fun c => ?_, ?_⟩
  · match c with
    | 0 => exact ⟨rfl, fun hf => by simp [Status.flag, Status.raise, hf]⟩
    | 1 => exact ⟨rfl, fun hf => by simp [Status.flag, Status.raise, hf]⟩
    | 2 => exact ⟨rfl, fun hf => by simp [Status.flag, Status.raise, hf]⟩
    | 3 => exact ⟨rfl, fun hf => by simp [Status.flag, Status.raise, hf]⟩
  · simp [Status.flag, Status.raise, Bool.not_and, Bool.or_assoc]

/-! ### The kernels' operations in the statements' terms -/

/-! ### The allpass stage (R219) -/

/-- No kernel reads whether the stage is on, nor its coefficient. -/
theorem kernel_allpass (m : FxMode) (fr : Frame) (b : Bool) (g : F32) (rd : F32 → F32) (c : Fin 4) (v : Voice) :
    kernel m { fr with apen := b, g := g } rd c v = kernel m fr rd c v := by
  cases m <;> rfl

/-- The stage's memories do not depend on the outputs. -/
theorem allpassStore_putOutput (g x y : F32) (ch : FxChannel) :
    allpassStore g x (putOutput y ch) = putOutput y (allpassStore g x ch) := by
  rw [allpassStore.eq_def g x ch, apply_ite (putOutput y)]
  rfl

/-- What follows the kernel with the stage on, from what follows it with the stage off. -/
theorem finishChannel_on (g g' : F32) (ch : FxChannel) (raw : F32) :
    let off := finishChannel false g' ch raw
    finishChannel true g ch raw =
      { ch := putOutput (finValue (allpassSecond g off.ch.wet ch)) (allpassStore g off.ch.wet off.ch)
        nonfin := off.nonfin || notFinite (allpassSecond g off.ch.wet ch) } := by
  simp only [finishChannel, allpassStore_putOutput, reduceIte, Bool.false_eq_true]
  rfl

/-- With the stage's bit of `FX_CTL` cleared the stage is off and `FREEZE` is as it was. -/
theorem allpassOn_cleared (s : State) :
    allpassOn (s.setFxIn { s.fxIn with ctl := s.fxIn.ctl &&& 0xFFFFFFFD#32 }) = false ∧
    frozen (s.setFxIn { s.fxIn with ctl := s.fxIn.ctl &&& 0xFFFFFFFD#32 }) = frozen s := by
  simp [allpassOn, frozen, State.setFxIn]

/-- The note's frequency (R254). -/
theorem noteFreq_eq (s : State) : noteFreq s = resonFreq (resonNote (frameParams .resonator s) (clamp01 s.fxIn.meta1)) := rfl

theorem driven_eq (p : Phasor) (base ratio depth : F32) : driven p base ratio depth = drivePhasor base ratio depth p := rfl

theorem foldedPosition_eq (p : Phasor) : foldedPosition p = phGetPos p true := rfl

theorem drawn_eq (r : Word) : drawn r = rngValue r := rfl

/-- The playback rate of the five granular modes (R280, R281). -/
theorem playRate_eq (m : FxMode) (s : State) (h : 6 ≤ m.code ∧ m.code ≤ 10) :
    playRate m s = granRate m (frameParams m s) (clamp01 s.fxIn.meta1) := by
  rcases m with _ | _ | _ | _ | _ | _ | _ | _ | _ | _ | _ | _
  all_goals first
    | (exfalso; simp [FxMode.code] at h; done)
    | (simp only [playRate, granRate, knobRate, fgt, Config.rateRange, reduceCtorEq, if_false, if_true]; rfl)

theorem sliceIndex_eq (s : State) : sliceIndex s = sliceOf (clamp01 s.fxIn.meta2) := by
  unfold sliceIndex sliceOf
  apply Fin.ext
  show min 7 (f2i (fmul (clamp01 s.fxIn.meta2) feight)).toNat % 8 = min 7 (f2i (fmul (clamp01 s.fxIn.meta2) feight)).toNat
  generalize (f2i (fmul (clamp01 s.fxIn.meta2) feight)).toNat = n
  omega

/-- The grid divisors of the table (R284). -/
theorem gridStep_eq (s : State) (c : Fin 4) : gridStep s c = fdiv (baseDelay s c) (Config.gridDiv.get (sliceIndex s)) := by
  have h : ∀ i : Fin 8, i2f (([1, 2, 3, 4, 6, 8, 12, 16] : List Int).getD i.val 1) = Config.gridDiv.get i := by decide +kernel
  rw [gridStep, h]

/-- The wobble (R283). -/
theorem wobbleOf_eq (m : FxMode) (s : State) (c : Fin 4) :
    wobbleOf m s c = wobble (frameParams m s) (baseDelay s c)
      (drivePhasor (baseDelay s c) (frameParams m s).e1 fone (s.ph.get c)) := by
  simp only [wobbleOf, wobble, fgt, driven_eq, foldedPosition_eq]
  rfl

/-! ### The clock's derived constants (R171, R172) -/

/-- 120 BPM is half the sample rate. -/
theorem quarterAtDefault_eq (rate : Nat) : quarterAtDefault rate = max 1 (rate / 2) := by
  unfold quarterAtDefault Config.secPerMin Config.bpmDefault
  omega

/-- 500 ms are half the sample rate. -/
theorem initTimeout_eq (rate : Nat) : initTimeout rate = rate / 2 := by
  unfold initTimeout Config.timeoutMs Config.msPerSec
  omega

end Sys2Proof.Machine
end

