-- ==== Sys2Proof/Laws/PerInstr.lean ====
section
/-! SUPPORT. Families of lemmas, one per instruction. -/

namespace Sys2Proof.Laws.MatchMask

/-- The instruction's command word selects exactly one row of the opcode table, and is a legal word (R109). -/
def Statement (i : Instr) : Prop :=
  (opcodeRows.filter (fun r => r.selects (encode i))).length = 1 ∧ legalWord (encode i) = true

theorem nop : Statement .nop := by unfold Statement; decide

theorem dlInit (c : Fin 4) : Statement (.dlInit c) := by
  unfold Statement; revert c; decide

theorem dlWrite (c : Fin 4) : Statement (.dlWrite c) := by
  unfold Statement; revert c; decide

theorem dlWriteg (c : Fin 4) : Statement (.dlWriteg c) := by
  unfold Statement; revert c; decide

theorem dlSetdly (c : Fin 4) : Statement (.dlSetdly c) := by
  unfold Statement; revert c; decide

theorem dlRead0 (c : Fin 4) : Statement (.dlRead0 c) := by
  unfold Statement; revert c; decide

theorem dlRead (c : Fin 4) : Statement (.dlRead c) := by
  unfold Statement; revert c; decide

theorem dlReadh (c : Fin 4) : Statement (.dlReadh c) := by
  unfold Statement; revert c; decide

theorem phInit (c : Fin 4) : Statement (.phInit c) := by
  unfold Statement; revert c; decide

theorem phSetdly (c : Fin 4) : Statement (.phSetdly c) := by
  unfold Statement; revert c; decide

theorem phSetratio (c : Fin 4) : Statement (.phSetratio c) := by
  unfold Statement; revert c; decide

theorem phSetdepth (c : Fin 4) : Statement (.phSetdepth c) := by
  unfold Statement; revert c; decide

theorem phProc (c : Fin 4) : Statement (.phProc c) := by
  unfold Statement; revert c; decide

theorem phGetpos (c : Fin 4) (tri : Bool) : Statement (.phGetpos c tri) := by
  unfold Statement; revert c tri; decide

theorem phGetsmp (c : Fin 4) (tri : Bool) : Statement (.phGetsmp c tri) := by
  unfold Statement; revert c tri; decide

theorem ckInit : Statement .ckInit := by unfold Statement; decide

theorem ckTick : Statement .ckTick := by unfold Statement; decide

theorem ckSetmodeInt : Statement .ckSetmodeInt := by unfold Statement; decide

theorem ckSetmodeCv : Statement .ckSetmodeCv := by unfold Statement; decide

theorem ckSetmodeMidi : Statement .ckSetmodeMidi := by unfold Statement; decide

theorem ckSetbpm : Statement .ckSetbpm := by unfold Statement; decide

theorem ckSetfreq : Statement .ckSetfreq := by unfold Statement; decide

theorem ckSetsmp : Statement .ckSetsmp := by unfold Statement; decide

theorem ckSetspqn : Statement .ckSetspqn := by unfold Statement; decide

theorem ckGetbpm : Statement .ckGetbpm := by unfold Statement; decide

theorem ckGetfreq : Statement .ckGetfreq := by unfold Statement; decide

theorem ckGetspb : Statement .ckGetspb := by unfold Statement; decide

theorem ckPresent : Statement .ckPresent := by unfold Statement; decide

theorem ckGetppqn : Statement .ckGetppqn := by unfold Statement; decide

theorem fxInit : Statement .fxInit := by unfold Statement; decide

theorem fxProcBasic : Statement .fxProcBasic := by unfold Statement; decide

theorem fxProcPingpong : Statement .fxProcPingpong := by unfold Statement; decide

theorem fxProcUnlinked : Statement .fxProcUnlinked := by unfold Statement; decide

theorem fxProcResonator : Statement .fxProcResonator := by unfold Statement; decide

theorem fxProcChorus : Statement .fxProcChorus := by unfold Statement; decide

theorem fxProcKnuth : Statement .fxProcKnuth := by unfold Statement; decide

theorem fxProcGran : Statement .fxProcGran := by unfold Statement; decide

theorem fxProcOctave : Statement .fxProcOctave := by unfold Statement; decide

theorem fxProcTexture : Statement .fxProcTexture := by unfold Statement; decide

theorem fxProcShimmer : Statement .fxProcShimmer := by unfold Statement; decide

theorem fxProcCrystals : Statement .fxProcCrystals := by unfold Statement; decide

theorem fxProcFluid : Statement .fxProcFluid := by unfold Statement; decide

theorem wsFold : Statement .wsFold := by unfold Statement; decide

theorem wsDiode : Statement .wsDiode := by unfold Statement; decide

theorem wsQuant : Statement .wsQuant := by unfold Statement; decide

theorem wsMod : Statement .wsMod := by unfold Statement; decide

theorem wsTanh : Statement .wsTanh := by unfold Statement; decide

theorem wsTanhf : Statement .wsTanhf := by unfold Statement; decide

theorem smSet (k : Fin 8) : Statement (.smSet k) := by
  unfold Statement; revert k; decide

theorem smCoef (k : Fin 8) : Statement (.smCoef k) := by
  unfold Statement; revert k; decide

theorem smStep (k : Fin 8) : Statement (.smStep k) := by
  unfold Statement; revert k; decide

theorem gdFin : Statement .gdFin := by unfold Statement; decide

theorem gdDnk : Statement .gdDnk := by unfold Statement; decide

theorem psGet (m : FxMode) (slot : Fin 4) : Statement (.psGet m slot) := by
  unfold Statement; cases m <;> revert slot <;> decide

theorem psMap (m : FxMode) (slot : Fin 4) : Statement (.psMap m slot) := by
  unfold Statement; cases m <;> revert slot <;> decide

theorem psUnmap (m : FxMode) (slot : Fin 4) : Statement (.psUnmap m slot) := by
  unfold Statement; cases m <;> revert slot <;> decide

end Sys2Proof.Laws.MatchMask
end

