-- ==== Sys2Proof/Tests/Slice0.lean ====
section
/-! SUPPORT. Tests of one step each, their expected values from the vectors V1 to V21 and programs of spec/95_test_vectors.md or worked
out by hand from the rule named, and one witness for every statement that has hypotheses. -/

namespace Sys2Proof.Machine.Tests

-- Each test is a kernel evaluation; elaborated side by side they hold one thread each.
set_option Elab.async false

/-! ### Helpers -/

/-- The reset state with `CAP` = 8 + `n`. -/
def at8 (n : Fin 16777209) : State := { State.reset with capOffset := n }

/-- A memory with every line cleared. -/
def clearMem : Memory := { line := Per4.fill { cells := [], cleared := true } }

/-- A line of a memory holding the samples 1.0, 2.0, ..., n in slots 0 to n - 1. -/
def rampMem (c : Fin 4) (n : Nat) (m : Memory) : Memory :=
  (List.range n).foldl (fun m a => m.writeSlot c a (i2f ((a : Int) + 1)).toBits) m

/-- `CAP` = 8 + `n`, all lines cleared, line 0 holding the ramp 1.0..k as k writes leave it. -/
def ramp (n : Fin 16777209) (k : Nat) : State :=
  ((at8 n).setMem (rampMem 0 k clearMem)).setDl 0 { wp := BitVec.ofNat 32 k, dlyI := 0#32, dlyF := fzero }

/-- The state an instruction leaves. -/
def run (i : Instr) (s : State) : State := Outcome.stateOr s (exec i s)

/-- The state a step leaves. -/
def after (s : State) : State := Outcome.stateOr s (step s)

/-- `RES[0]` after an instruction. -/
def res0 (i : Instr) (s : State) : Word := (run i s).res.get 0

/-- The reset state with `ARG[0]` and `ARG[1]` written. -/
def args (a b : Word) : State := ((at8 8).setArg 0 a).setArg 1 b

/-- `FRAMEIN d, d, d, d` (R110). -/
def frameIn (d : Word) (s : State) : State := s.setFxIn { s.fxIn with dly := Per4.fill (F32.ofBits d) }

/-- `FX_META1`, `FX_META2` and `FX_P1..4` written. -/
def knobs (m1 m2 p1 p2 p3 p4 : Word) (s : State) : State :=
  s.setFxIn { s.fxIn with
    meta1 := F32.ofBits m1, meta2 := F32.ofBits m2
    p := ⟨F32.ofBits p1, F32.ofBits p2, F32.ofBits p3, F32.ofBits p4⟩ }

/-- The engine already in a mode, so that no mode change happens. -/
def inMode (m : FxMode) (s : State) : State := s.setFx { s.fx with curMode := m }

/-- The wet output of a channel as bits. -/
def wet (c : Fin 4) (s : State) : Word := (s.fx.chan.get c).wet.toBits

/-- An outcome that completes is a next state. -/
theorem next_of_completes {o : Host.Outcome State Fault Refusal} (h : completes o = true) : ∃ t, o = .next t := by
  cases o <;> simp_all [completes]

/-! ### Decoding: a word written out from R101 to R108 for every row of the table -/

theorem test_decode_unit0_unit1 :
    decode 0x00000000#32 = .ok .nop ∧ decode 0x10000000#32 = .ok (.dlInit 0) ∧ decode 0x11100000#32 = .ok (.dlWrite 1) ∧
    decode 0x12300000#32 = .ok (.dlWriteg 3) ∧ decode 0x13200000#32 = .ok (.dlSetdly 2) ∧ decode 0x14100000#32 = .ok (.dlRead0 1) ∧
    decode 0x15300000#32 = .ok (.dlRead 3) ∧ decode 0x16200000#32 = .ok (.dlReadh 2) := by decide

theorem test_decode_unit2 :
    decode 0x20000000#32 = .ok (.phInit 0) ∧ decode 0x21100000#32 = .ok (.phSetdly 1) ∧ decode 0x22200000#32 = .ok (.phSetratio 2) ∧
    decode 0x23300000#32 = .ok (.phSetdepth 3) ∧ decode 0x24000000#32 = .ok (.phProc 0) ∧
    decode 0x25100001#32 = .ok (.phGetpos 1 true) ∧ decode 0x25300000#32 = .ok (.phGetpos 3 false) ∧
    decode 0x26300000#32 = .ok (.phGetsmp 3 false) ∧ decode 0x26000001#32 = .ok (.phGetsmp 0 true) := by decide

theorem test_decode_unit3 :
    decode 0x30000000#32 = .ok .ckInit ∧ decode 0x31000000#32 = .ok .ckTick ∧ decode 0x32000000#32 = .ok .ckSetmodeInt ∧
    decode 0x32000001#32 = .ok .ckSetmodeCv ∧ decode 0x32000002#32 = .ok .ckSetmodeMidi ∧ decode 0x33000000#32 = .ok .ckSetbpm ∧
    decode 0x34000000#32 = .ok .ckSetfreq ∧ decode 0x35000000#32 = .ok .ckSetsmp ∧ decode 0x36000000#32 = .ok .ckSetspqn ∧
    decode 0x37000000#32 = .ok .ckGetbpm ∧ decode 0x38000000#32 = .ok .ckGetfreq ∧ decode 0x39000000#32 = .ok .ckGetspb ∧
    decode 0x3A000000#32 = .ok .ckPresent ∧ decode 0x3B000000#32 = .ok .ckGetppqn := by decide

theorem test_decode_unit4 :
    decode 0x40000000#32 = .ok .fxInit ∧ decode 0x41000000#32 = .ok .fxProcBasic ∧ decode 0x41000001#32 = .ok .fxProcPingpong ∧
    decode 0x41000002#32 = .ok .fxProcUnlinked ∧ decode 0x41000003#32 = .ok .fxProcResonator ∧
    decode 0x41000004#32 = .ok .fxProcChorus ∧ decode 0x41000005#32 = .ok .fxProcKnuth ∧ decode 0x41000006#32 = .ok .fxProcGran ∧
    decode 0x41000007#32 = .ok .fxProcOctave ∧ decode 0x41000008#32 = .ok .fxProcTexture ∧
    decode 0x41000009#32 = .ok .fxProcShimmer ∧ decode 0x4100000A#32 = .ok .fxProcCrystals ∧
    decode 0x4100000B#32 = .ok .fxProcFluid := by decide

theorem test_decode_unit5_unit6 :
    decode 0x50000000#32 = .ok .wsFold ∧ decode 0x51000000#32 = .ok .wsDiode ∧ decode 0x52000000#32 = .ok .wsQuant ∧
    decode 0x53000000#32 = .ok .wsMod ∧ decode 0x54000000#32 = .ok .wsTanh ∧ decode 0x55000000#32 = .ok .wsTanhf ∧
    decode 0x60700000#32 = .ok (.smSet 7) ∧ decode 0x61400000#32 = .ok (.smCoef 4) ∧ decode 0x62500000#32 = .ok (.smStep 5) ∧
    decode 0x63000000#32 = .ok .gdFin ∧ decode 0x64000000#32 = .ok .gdDnk := by decide

theorem test_decode_unit7 :
    decode 0x70000093#32 = .ok (.psGet .shimmer 3) ∧ decode 0x71000042#32 = .ok (.psMap .chorus 2) ∧
    decode 0x720000B3#32 = .ok (.psUnmap .fluid 3) ∧ decode 0x70000000#32 = .ok (.psGet .basic 0) := by decide

/-- The illegal words of V20, each with its reason (R112). -/
theorem test_decode_illegal :
    decode 0x80000000#32 = .error .reservedUnit ∧ decode 0x01000000#32 = .error .unassignedFn ∧
    decode 0x17000000#32 = .error .unassignedFn ∧ decode 0x16400000#32 = .error .instRange ∧
    decode 0x62800000#32 = .error .instRange ∧ decode 0x16010000#32 = .error .zeroField ∧
    decode 0x16000001#32 = .error .deadImmediate ∧ decode 0x25000002#32 = .error .deadImmediate ∧
    decode 0x32000003#32 = .error .clockMode ∧ decode 0x4100000C#32 = .error .effectMode ∧
    decode 0x30100000#32 = .error .instRange ∧ decode 0x700000C0#32 = .error .effectMode := by decide

/-- The bits as the opcode table numbers them: bit 0 is the least significant of the one command word. -/
theorem test_decodeTableWord :
    decodeTableWord 32 0x16200000 = some (.dlReadh 2) ∧ decodeTableWord 32 0x80000000 = none ∧
    decodeTableWord 24 0x41000000 = some .nop := by decide

/-- The word placed by `withFetchWord` is the one the next step runs (log 6). -/
theorem test_withFetchWord :
    (after ((args 0x3F800000 0).withFetchWord 32 0x60200000)).sm.e2.y = fone ∧
    (after ((args 0x3F800000 0).withFetchWord 32 0x60200000)).pc = 1 := by decide +kernel

/-! ### WellFormed: an ill-formed term for each check -/

theorem smoke_wide : (Txn.write 0x010#12 16 0#32).wide = false ∧ (Txn.write 0x010#12 16 0#32).wellFormed = false := by decide

theorem smoke_aligned : (Txn.read 0x012#12 32).aligned = false ∧ (Txn.read 0x012#12 32).wellFormed = false := by decide

theorem smoke_mapped : (Txn.read 0x400#12 32).mapped = false ∧ (Txn.read 0x400#12 32).wellFormed = false := by decide

theorem smoke_permitted :
    (Txn.write 0x00C#12 32 5#32).permitted = false ∧ (Txn.write 0x00C#12 32 5#32).wellFormed = false := by decide

theorem smoke_commandLegal :
    (commandTxn 0x80000000#32).commandLegal = false ∧ (commandTxn 0x80000000#32).wellFormed = false := by decide

theorem smoke_legalWord :
    legalWord 0x16400000#32 = false ∧ legalWord 0x32000003#32 = false ∧ legalWord 0x700000C0#32 = false ∧
    legalWord 0x700000B3#32 = true := by decide

theorem smoke_program :
    programWellFormed [commandTxn 0x63000000#32, .read 0x000#12 8] = false ∧
    programWellFormed [.write 0x010#12 32 1#32, commandTxn 0x63000000#32, .read 0x030#12 32] = true := by decide

/-! ### Delay lines (V1, V4, R131) -/

/-- `NOP`: nothing changes (R111). -/
theorem test_nop : run .nop (args 5 6) = args 5 6 := by decide +kernel

/-- `DL.INIT` zeroes the samples and the cursor of its line only (R131). -/
theorem test_dlInit :
    ((run (.dlInit 0) (ramp 8 10)).dl.get 0).wp = 0#32 ∧ (run (.dlInit 0) (ramp 8 10)).mem.readSlot 0 3 = 0#32 ∧
    (run (.dlInit 1) (ramp 8 10)).mem.readSlot 0 3 = 0x40800000#32 := by decide +kernel

/-- The cursor wraps at `CAP` and the sample is stored bit for bit, a NaN too (R132, V4). -/
theorem test_dlWrite :
    ((run (.dlWrite 0) ((ramp 8 15).setArg 0 0x7FC00000#32)).dl.get 0).wp = 0#32 ∧
    (run (.dlWrite 0) ((ramp 8 15).setArg 0 0x7FC00000#32)).mem.readSlot 0 15 = 0x7FC00000#32 := by decide +kernel

/-- V4: a NaN is stored as +0.0 with `NONFIN`. -/
theorem test_dlWriteg_guard :
    (run (.dlWriteg 0) ((ramp 8 10).setArg 0 0x7FC00000#32)).mem.readSlot 0 10 = 0#32 ∧
    (run (.dlWriteg 0) ((ramp 8 10).setArg 0 0x7FC00000#32)).status.nonfin = true ∧
    (run (.dlWriteg 0) ((ramp 8 10).setArg 0 0x3F000000#32)).mem.readSlot 0 10 = 0x3F000000#32 := by decide +kernel

/-- V4: frozen, nothing changes. -/
theorem test_dlWriteg_freeze :
    ((run (.dlWriteg 0) (((ramp 8 10).setFxIn { FxInput.reset with ctl := 1#32 }).setArg 0 0x3F000000#32)).dl.get 0).wp = 10#32 := by
  decide +kernel

/-- V1: 4.25 splits into 4 and 0.25. -/
theorem test_dlSetdly :
    ((run (.dlSetdly 0) ((ramp 8 10).setArg 0 0x40880000#32)).dl.get 0).dlyI = 4#32 ∧
    ((run (.dlSetdly 0) ((ramp 8 10).setArg 0 0x40880000#32)).dl.get 0).dlyF = F32.ofBits 0x3E800000#32 := by decide +kernel

/-- V1: `DL.READ0` at the stored 4.25 gives 6.75. -/
theorem test_dlRead0 : res0 (.dlRead0 0) (run (.dlSetdly 0) ((ramp 8 10).setArg 0 0x40880000#32)) = 0x40D80000#32 := by
  decide +kernel

/-- V1: 3.5 gives 7.5, 0.5 gives 5.0 (across the cursor). -/
theorem test_dlRead :
    res0 (.dlRead 0) ((ramp 8 10).setArg 0 0x40600000#32) = 0x40F00000#32 ∧
    res0 (.dlRead 0) ((ramp 8 10).setArg 0 0x3F000000#32) = 0x40A00000#32 := by decide +kernel

/-- V1: 17.0 aliases 1.0 and sets `RANGE`; -1.0 reads slot 11 and sets `RANGE`. -/
theorem test_dlRead_range :
    res0 (.dlRead 0) ((ramp 8 10).setArg 0 0x41880000#32) = 0x41200000#32 ∧
    (run (.dlRead 0) ((ramp 8 10).setArg 0 0x41880000#32)).status.range = true ∧
    res0 (.dlRead 0) ((ramp 8 10).setArg 0 0xBF800000#32) = 0#32 ∧
    (run (.dlRead 0) ((ramp 8 10).setArg 0 0x41200000#32)).status.range = false := by decide +kernel

/-- V1: the cubic at 0.5 gives 5.0625, at 4.25 gives 6.75. -/
theorem test_dlReadh :
    res0 (.dlReadh 0) ((ramp 8 10).setArg 0 0x3F000000#32) = 0x40A20000#32 ∧
    res0 (.dlReadh 0) ((ramp 8 10).setArg 0 0x40880000#32) = 0x40D80000#32 := by decide +kernel

/-! ### Phasors (V5) -/

/-- A sample rate below 1 becomes 48000 with `ARGERR` (R151). -/
theorem test_phInit :
    (run (.phInit 2) (args 0x3F000000 0)).ph.e2.sr = F32.ofBits 0x473B8000#32 ∧
    (run (.phInit 2) (args 0x3F000000 0)).status.argerr = true ∧
    (run (.phInit 2) (args 0x41000000 0)).ph.e2.dsamp = F32.ofBits 0x41000000#32 := by decide +kernel

/-- V5: delay 1000 at 48000 Hz gives 48 Hz; 0.5 is clamped to 1.0. -/
theorem test_phSetdly :
    (run (.phSetdly 0) (args 0x447A0000 0)).ph.e0.freq = F32.ofBits 0x42400000#32 ∧
    (run (.phSetdly 0) (args 0x3F000000 0)).ph.e0.dsamp = fone := by decide +kernel

/-- 2000.0 is clamped to 1024.0, a NaN to 0.0 (R153). -/
theorem test_phSetratio :
    (run (.phSetratio 0) (args 0x44FA0000 0)).ph.e0.ratio = F32.ofBits 0x44800000#32 ∧
    (run (.phSetratio 0) (args 0x7FC00000 0)).ph.e0.ratio = fzero := by decide +kernel

/-- 21.0 is clamped to 20.0, -1.0 to 0.0 (R154). -/
theorem test_phSetdepth :
    (run (.phSetdepth 1) (args 0x41A80000 0)).ph.e1.depth = F32.ofBits 0x41A00000#32 ∧
    (run (.phSetdepth 1) (args 0xBF800000 0)).ph.e1.depth = fzero := by decide +kernel

/-- V5: 8 Hz sample rate, delay 4, ratio 0.5, depth 1: the first call gives main 0.25 and mod 0.125. -/
theorem test_phProc :
    let s := run (.phSetdepth 0) ((run (.phSetratio 0) ((run (.phSetdly 0) ((run (.phInit 0) (args 0x41000000 0)).setArg 0
      0x40800000#32)).setArg 0 0x3F000000#32)).setArg 0 0x3F800000#32)
    res0 (.phProc 0) s = 0x3E800000#32 ∧ (run (.phProc 0) s).ph.e0.mod = F32.ofBits 0x3E000000#32 := by decide +kernel

/-- V5, call 3: main 0.75, mod 0.375, envelope 0.25 give 0.0, folded 0.75. -/
theorem test_phGetpos :
    let s := (args 0 0).setPh 0 { Phasor.reset with main := F32.ofBits 0x3F400000#32, mod := F32.ofBits 0x3EC00000#32, depth := fone }
    res0 (.phGetpos 0 false) s = 0x00000000#32 ∧ res0 (.phGetpos 0 true) s = 0x3F400000#32 := by decide +kernel

/-- V5, second case: 0.001 rounded, depth 0, delay 1000: 749.50006. -/
theorem test_phGetsmp :
    let s := (args 0 0).setPh 0
      { Phasor.reset with main := F32.ofBits 0x3A83126F#32, mod := F32.ofBits 0x3A83126F#32, dsamp := F32.ofBits 0x447A0000#32 }
    res0 (.phGetsmp 0 true) s = 0x443B6001#32 := by decide +kernel

/-! ### Clock (V6, V7, V9) -/

/-- The arguments of `CK.INIT` (R171). -/
def ckArgs (rate block ppqn spqn mode : Word) : State :=
  ((((args rate block).setArg 2 ppqn).setArg 3 spqn).setArg 4 mode)

/-- The state after `CK.INIT` with these arguments. -/
def ckRun (rate block ppqn spqn mode : Word) : State := run .ckInit (ckArgs rate block ppqn spqn mode)

/-- V7: in an external mode SPQN is 0 and the argument is the last valid SPQN; V9 a: a zero PPQN becomes 1 with `ARGERR`. -/
theorem test_ckInit :
    (ckRun 48000 48 4 24000 1).ck.spqn = 0#32 ∧ (ckRun 48000 48 4 24000 1).ck.lastValid = 24000#32 ∧
    (ckRun 48000 48 0 24000 0).ck.ppqnInt = 1#32 ∧ (ckRun 48000 48 0 24000 0).status.argerr = true := by decide +kernel

/-- V6, call 12000: the edge, the gate and its timer. -/
theorem test_ckTick_edge :
    let s := (ckRun 48000 48 4 12000 0).setArg 0 0#32
    let t := run .ckTick (s.setCk { s.ck with outAcc := 2999#32, pulseCnt := 3#32 })
    t.res.get 0 = 1#32 ∧ t.res.get 1 = 1#32 ∧ t.ck.gateTimer = 239#32 ∧ t.ck.outAcc = 0#32 ∧ t.ck.pulseCnt = 0#32 := by decide +kernel

/-- V9 d: an interval of 5 is rejected. V7, call 150: an interval of 100 is accepted. -/
theorem test_ckTick_detect :
    let s := (ckRun 48000 48 4 24000 1).setArg 0 1#32
    let r := run .ckTick (s.setCk { s.ck with firstSeen := true, detAcc := 4#32 })
    let t := run .ckTick (s.setCk { s.ck with firstSeen := true, detAcc := 99#32 })
    r.status.clkrej = true ∧ r.ck.spqn = 0#32 ∧ r.ck.detAcc = 0#32 ∧ t.status.clkrej = false ∧ t.ck.spqn = 100#32 ∧
    t.ck.avg = ⟨100#32, 0#32, 0#32⟩ ∧ t.ck.avgFill = 1 := by decide +kernel

/-- V9 g: external modes hold SPQN at 0; Internal mode restores the last valid one. -/
theorem test_ckSetmode :
    (run .ckSetmodeCv (ckRun 48000 48 4 12000 0)).ck.spqn = 0#32 ∧
    (run .ckSetmodeInt (run .ckSetmodeCv (ckRun 48000 48 4 12000 0))).ck.spqn = 12000#32 ∧
    (run .ckSetmodeMidi (ckRun 48000 48 4 12000 0)).ck.mode = .midiClock := by decide +kernel

/-- V9 h: 120 BPM at 48000 Hz; 0.0 is rejected. -/
theorem test_ckSetbpm :
    (run .ckSetbpm (args 0x42F00000 0)).ck.spqn = 24000#32 ∧ (run .ckSetbpm (args 0 0)).status.argerr = true ∧
    (run .ckSetbpm (args 0 0)).ck = Clock.reset := by decide +kernel

/-- V9 h: 2.0 Hz. -/
theorem test_ckSetfreq : (run .ckSetfreq (args 0x40000000 0)).ck.lastValid = 24000#32 := by decide +kernel

/-- 99.5 samples round to 100 (R192). -/
theorem test_ckSetsmp : (run .ckSetsmp (args 0x42C70000 0)).ck.spqn = 100#32 := by decide +kernel

/-- V9 h: a negative count is rejected. -/
theorem test_ckSetspqn :
    (run .ckSetspqn (args 0xFFFFFFFF 0)).status.argerr = true ∧ (run .ckSetspqn (args 0xFFFFFFFF 0)).ck = Clock.reset ∧
    (run .ckSetspqn (args 7 0)).ck.spqn = 7#32 := by decide +kernel

/-- V9 a: 7 gives 411429, 44100 gives 65. -/
theorem test_ckGetbpm :
    res0 .ckGetbpm (run .ckSetspqn (args 7 0)) = 411429#32 ∧ res0 .ckGetbpm (run .ckSetspqn (args 44100 0)) = 65#32 := by
  decide +kernel

/-- 48000 / 24000 is 2.0 (R195). -/
theorem test_ckGetfreq : res0 .ckGetfreq (args 0 0) = 0x40000000#32 := by decide +kernel

theorem test_ckGetspb : res0 .ckGetspb (run .ckSetspqn (args 7 0)) = 7#32 := by decide +kernel

/-- V8: present while the counter is below the timeout. -/
theorem test_ckPresent :
    let s := ckRun 48000 48 4 24000 1
    res0 .ckPresent (s.setCk { s.ck with timeoutCnt := 23999#32 }) = 1#32 ∧
    res0 .ckPresent (s.setCk { s.ck with timeoutCnt := 24000#32 }) = 0#32 := by decide +kernel

/-- V9 c: 24 in MIDI mode; the PPQN registers otherwise. -/
theorem test_ckGetppqn :
    res0 .ckGetppqn (ckRun 48000 48 4 24000 2) = 24#32 ∧ res0 .ckGetppqn (ckRun 48000 48 4 24000 1) = 1#32 ∧
    res0 .ckGetppqn (ckRun 48000 48 4 24000 0) = 4#32 := by decide +kernel

/-! ### Effect engine (V10 to V16) -/

/-- A bad sample rate becomes 48000 with `ARGERR`; the mode returns to 0 (R211). -/
theorem test_fxInit :
    (run .fxInit (inMode .fluid (args 0x7F800000 0))).fx.sr = F32.ofBits 0x473B8000#32 ∧
    (run .fxInit (inMode .fluid (args 0x7F800000 0))).fx.curMode = .basic ∧
    (run .fxInit (args 0x447A0000 0)).fx.sr = F32.ofBits 0x447A0000#32 := by decide +kernel

/-- V10, frame A: the sample written 10 writes ago; channel 1 reads its own cleared line. -/
theorem test_fxProcBasic :
    wet 0 (run .fxProcBasic (frameIn 0x41200000 (ramp 56 50))) = 0x42240000#32 ∧
    wet 1 (run .fxProcBasic (frameIn 0x41200000 (ramp 56 50))) = 0#32 := by decide +kernel

/-- V10, the first frame of the mode change: 1/24 of the way from 42.0 to 13.0. -/
theorem test_fxProcPingpong :
    let s := frameIn 0x42200000 (ramp 56 52)
    let c := { s.fx.chan.e0 with lastOut := F32.ofBits 0x42280000#32 }
    wet 0 (run .fxProcPingpong (s.setFx { s.fx with chan := s.fx.chan.set 0 c })) = 0x42232AAB#32 := by decide +kernel

/-- V11, frame 3 on: a big jump of the target starts the crossfade at the old delay, 0.2 of it a frame (R251, R253). -/
theorem test_fxProcUnlinked :
    let s := inMode .unlinked (knobs 0 0 0x40A00000 0x41200000 0 0 (frameIn 0x42200000 (ramp 56 52)))
    let c := { s.fx.chan.e0 with curD := F32.ofBits 0x41280000#32, dvalid := true }
    let t := run .fxProcUnlinked (s.setFx { s.fx with sr := F32.ofBits 0x447A0000#32, chan := s.fx.chan.set 0 c })
    wet 0 t = 0x422A0000#32 ∧ t.fx.chan.e0.dxfPos = F32.ofBits 0x3E4CCCCD#32 := by decide +kernel

/-- V16 a: note 69 is 440 Hz in every configuration; with `CAP` = 16 the delay 109.09 is clamped to 13.0, where the ramp 1..14 has 2.0. -/
theorem test_fxProcResonator :
    wet 0 (run .fxProcResonator (inMode .resonator (knobs 0x3F200000 0 0x41C00000 0x42900000 0 0 (ramp 8 14)))) =
      0x40000000#32 := by decide +kernel

/-- V16 b: both channels of the first frame, the mode-change fade included. -/
theorem test_fxProcChorus :
    let r := ramp 56 50
    let s := knobs 0 0 0x3F800000 0x42480000 0x40000000 0x42C80000 (frameIn 0x41A00000 ((r.setMem (rampMem 1 50 r.mem)).setDl 1 r.dl.e0))
    let t := run .fxProcChorus (s.setFx { s.fx with sr := F32.ofBits 0x447A0000#32 })
    wet 0 t = 0x3FA7FD46#32 ∧ wet 1 t = 0x3FAA9FBF#32 ∧ t.fx.lfoPh.e1 = F32.ofBits 0x3B03126F#32 := by decide +kernel

/-- V16 c: the read position of frame 1. -/
theorem test_fxProcKnuth :
    let t := run .fxProcKnuth (knobs 0 0 0x3F800000 0 0 0 (frameIn 0x447A0000 (ramp 4088 0)))
    t.fx.chan.e0.lastPos = F32.ofBits 0x443B6001#32 := by decide +kernel

/-- V12, frame 1: offset 1.0, position 39.0, 1/24 of 22.0; the phasor is driven; no draw. -/
theorem test_fxProcGran :
    let t := run .fxProcGran (knobs 0x3F800000 0 0 0x3F800000 0 0x41C80000 (frameIn 0x42200000 (ramp 56 60)))
    wet 0 t = 0x3F6AAAAB#32 ∧ t.fx.chan.e0.acc = fone ∧ t.ph.e0.freq = F32.ofBits 0x44960000#32 ∧ t.fx.rng = 1#32 := by decide +kernel

/-- meta1 at 1.0 is rate 4.0 in the octave mode (R280, R281): the offset gains 3.0. -/
theorem test_fxProcOctave :
    (run .fxProcOctave (knobs 0x3F800000 0 0 0x3F800000 0 0 (frameIn 0x42200000 (ramp 56 60)))).fx.chan.e0.acc =
      F32.ofBits 0x40400000#32 := by decide +kernel

/-- meta1 at 1.0 is rate 1.5 in the texture mode (R280, R281): the offset gains 0.5. -/
theorem test_fxProcTexture :
    (run .fxProcTexture (knobs 0x3F800000 0 0 0x3F800000 0 0 (frameIn 0x42200000 (ramp 56 60)))).fx.chan.e0.acc = fhalf := by
  decide +kernel

/-- P4 = 0 multiplies the shimmer's rate by `cfg.exp2(0.0)` = 1.0 (R281): the offset gains 1.0. -/
theorem test_fxProcShimmer :
    (run .fxProcShimmer (knobs 0x3F800000 0 0 0x3F800000 0 0 (frameIn 0x42200000 (ramp 56 60)))).fx.chan.e0.acc = fone := by
  decide +kernel

/-- R287: sub-step 0 and smoothed rate 1.0 leave the position at the base delay 40.0, where the ramp 1..60 has 21.0. -/
theorem test_fxProcCrystals :
    let t := run .fxProcCrystals (inMode .crystals (knobs 0x3F800000 0 0 0x3F800000 0 0 (frameIn 0x42200000 (ramp 56 60))))
    wet 0 t = 0x41A80000#32 ∧ t.fx.chan.e0.blkCnt = 1#32 := by decide +kernel

/-- V15: eight draws, the turbulence of channel 0, the orbit. -/
theorem test_fxProcFluid :
    let t := run .fxProcFluid (knobs 0 0 0x41A00000 0x41200000 0x40A00000 0x3DCCCCCD (frameIn 0x41A00000 (ramp 56 0)))
    t.fx.rng = 0x8E625FC9#32 ∧ t.fx.chan.e0.tx = F32.ofBits 0xBA0A2C58#32 ∧ t.fx.chan.e0.ty = F32.ofBits 0xB9891467#32 ∧
    t.fx.orbit = F32.ofBits 0x360BCF65#32 := by decide +kernel

/-- V13, frame 4: a NaN among the taps gives +0.0 and `NONFIN`. -/
theorem test_fx_guard :
    let s := frameIn 0x40A00000 (ramp 56 8)
    let t := run .fxProcBasic (s.setMem (s.mem.writeSlot 0 3 0x7FC00000#32))
    wet 0 t = 0#32 ∧ t.status.nonfin = true := by decide +kernel

/-! ### Waveshapers (spec/95_test_vectors.md 2.5) -/

theorem test_wsFold :
    res0 .wsFold (args 0x40200000 0x3F800000) = 0xBF000000#32 ∧ res0 .wsFold (args 0x3F140000 0x3F000000) = 0x3ED80000#32 ∧
    (run .wsFold (args 0x7FC00000 0x3F800000)).status.nonfin = true := by decide +kernel

theorem test_wsDiode :
    res0 .wsDiode (args 0xBF000000 0x3F000000) = 0xBE800000#32 ∧ res0 .wsDiode (args 0xBF000000 0x40000000) = 0x80000000#32 := by
  decide +kernel

theorem test_wsQuant :
    res0 .wsQuant (args 0xBEC00000 0x40800000) = 0xBF000000#32 ∧ res0 .wsQuant (args 0x7149F2CA 0x40800000) = 0x4E000000#32 := by
  decide +kernel

theorem test_wsMod :
    res0 .wsMod (args 0x3F800000 0x3F800000) = 0xBF800000#32 ∧ res0 .wsMod (args 0x40500000 0x3F800000) = 0xBF400000#32 := by
  decide +kernel

theorem test_wsTanh :
    res0 .wsTanh (args 0 0x3F800000) = 0#32 ∧ res0 .wsTanh (args 0x3F000000 0) = 0#32 := by decide +kernel

theorem test_wsTanhf :
    res0 .wsTanhf (args 0xBF800000 0x40000000) = 0xBF7BEFBF#32 ∧ res0 .wsTanhf (args 0x7E967699 0x447A0000) = 0x3F800000#32 := by
  decide +kernel

/-! ### Smoothers, guards, parameter spec (V17 to V19) -/

theorem test_smSet :
    (run (.smSet 2) (args 0x7F800000 0)).sm.e2.y = fzero ∧ (run (.smSet 2) (args 0x7F800000 0)).status.nonfin = true := by
  decide +kernel

theorem test_smCoef :
    (run (.smCoef 3) (args 0x3FC00000 0)).sm.e3.a = fone ∧ (run (.smCoef 3) (args 0x7FC00000 0)).sm.e3.a = fzero := by
  decide +kernel

theorem test_smStep :
    let s := (args 0x3F800000 0).setSm 0 { y := F32.ofBits 0x3E800000#32, a := fquarter }
    res0 (.smStep 0) s = 0x3EE00000#32 ∧ (run (.smStep 0) s).sm.e0.y = F32.ofBits 0x3EE00000#32 := by decide +kernel

theorem test_gdFin :
    res0 .gdFin (args 0xFF800000 0) = 0#32 ∧ (run .gdFin (args 0xFF800000 0)).status.nonfin = true ∧
    res0 .gdFin (args 1 0) = 1#32 := by decide +kernel

theorem test_gdDnk :
    res0 .gdDnk (args 0x15948D85 0) = 0x16000000#32 ∧ res0 .gdDnk (args 0x80000000 0) = 0#32 := by decide +kernel

theorem test_psGet :
    let t := run (.psGet .shimmer 3) (args 0 0)
    t.res.get 0 = 0#32 ∧ t.res.get 1 = 0x40E00000#32 ∧ t.res.get 2 = 0#32 ∧ t.res.get 3 = 4#32 ∧ t.res.get 4 = 0x40E00000#32 := by
  decide +kernel

theorem test_psMap :
    res0 (.psMap .basic 1) (args 0x3F000000 0) = 0x41CC0000#32 ∧ res0 (.psMap .shimmer 3) (args 0x3F800000 0) = 0x40E00000#32 := by
  decide +kernel

theorem test_psUnmap :
    res0 (.psUnmap .basic 1) (args 0x41CC0000 0) = 0x3F000000#32 ∧ res0 (.psUnmap .resonator 0) (args 0x41C00000 0) = 0x3E800000#32 := by
  decide +kernel

/-! ### Bus (V20, V21) -/

/-- An illegal word sets `ILLCMD` and nothing else. -/
theorem test_illegal :
    (after { args 7 0 with bus := [commandTxn 0x62800000#32] }).status.toWord = 1#32 ∧
    (after { args 7 0 with bus := [commandTxn 0x62800000#32] }).res = Per8.fill 0#32 := by decide +kernel

/-- `RD ID`; a misaligned read gives 0 with `BUSERR`. -/
theorem test_busRead :
    (after { args 0 0 with bus := [.read 0x000#12 32] }).readLog = [0x4B4C0701#32] ∧
    (after { args 0 0 with bus := [.read 0x012#12 32] }).readLog = [0#32] ∧
    (after { args 0 0 with bus := [.read 0x012#12 32] }).status.buserr = true := by decide +kernel

/-- `WR CAPR, 5` is ignored with `BUSERR`; `WR CK_PPQN_INT, 0` stores 1; `WR STATUS` clears what it names. -/
theorem test_busWrite :
    (after { args 0 0 with bus := [.write 0x00C#12 32 5#32] }).status.buserr = true ∧
    (after { args 0 0 with bus := [.write 0x108#12 32 0#32] }).ck.ppqnInt = 1#32 ∧
    (after { (args 0 0) with bus := [.write 0x004#12 32 2#32], status := ⟨true, true, false, false, false, false⟩ }).status.toWord =
      1#32 := by decide +kernel

/-- The log of reads is what a program observes; the canonical form of memory drops a zero written to a cleared line. -/
theorem test_canonical :
    ((clearMem.writeSlot 0 3 0x3F800000#32).writeSlot 0 3 0#32) = clearMem ∧ (ramp 8 10).mem.wf = true := by decide +kernel

/-! ### Witnesses: concrete states and operands that meet the hypotheses of a statement -/

/-- A state whose next transaction carries a command word. -/
def command (w : Word) (s : State) : State := { s with bus := [commandTxn w] }

theorem witness_EncodeOfDecode : decode 0x16200000#32 = .ok (.dlReadh 2) := by decide

theorem witness_IllegalWordOnlyFlags :
    (command 0x80000000#32 (args 0 0)).bus = commandTxn 0x80000000#32 :: [] ∧ legalWord 0x80000000#32 = false := by decide +kernel

theorem witness_StepRunsDecoded :
    (command 0x24000000#32 (args 0 0)).bus = commandTxn 0x24000000#32 :: [] ∧ decode 0x24000000#32 = .ok (.phProc 0) := by
  decide +kernel

theorem witness_Ownership : ∃ t, exec .ckTick (args 1 0) = .next t := next_of_completes (by decide +kernel)

theorem witness_DlWriteStores : memoryInv (ramp 8 15) := by unfold memoryInv; decide +kernel

theorem witness_DlWritegGuards :
    memoryInv (ramp 8 15) ∧ (ramp 8 15).fxIn.ctl.getLsbD 0 = false ∧
    memoryInv ((ramp 8 15).setFxIn { FxInput.reset with ctl := 1#32 }) ∧
    ((ramp 8 15).setFxIn { FxInput.reset with ctl := 1#32 }).fxIn.ctl.getLsbD 0 = true := by unfold memoryInv; decide +kernel

/-- The delays 1.0 and 17.0 at `CAP` = 16, and two states that agree on line 0 and differ elsewhere. -/
theorem witness_ReadsAlias :
    splitInt (F32.ofBits 0x41880000#32) = splitInt fone + 1 * ((ramp 8 10).cap : Int) ∧
    splitFrac (F32.ofBits 0x41880000#32) = splitFrac fone ∧
    ((ramp 8 10).setArg 0 1#32).cap = (ramp 8 10).cap ∧ (((ramp 8 10).setArg 0 1#32).dl.get 0).wp = ((ramp 8 10).dl.get 0).wp ∧
    ∀ a, a < (ramp 8 10).cap → ((ramp 8 10).setArg 0 1#32).mem.readSlot 0 a = (ramp 8 10).mem.readSlot 0 a :=
  ⟨by decide +kernel, by decide +kernel, by decide +kernel, by decide +kernel, fun _ _ => by simp⟩

/-- The longest round trip at `CAP` = 16: fifteen samples, read at delay 15. -/
theorem witness_WriteReadRoundTrip :
    let s := ramp 8 10
    let vs : List Word := List.replicate 14 0x40000000#32
    let u := (runEach (.dlWrite 0) s (0x3F800000#32 :: vs)).setArg 0 (i2f 15).toBits
    let cc := fmul (fsub (tap u 0 15 1) (tap u 0 15 (-1))) fhalf
    let w := fsub (tap u 0 15 0) (tap u 0 15 1)
    let a := fadd (fadd (fadd cc w) w) (fmul (fsub (tap u 0 15 2) (tap u 0 15 0)) fhalf)
    memoryInv s ∧ isFinite (F32.ofBits 0x3F800000#32) = true ∧ vs.length + 2 ≤ s.cap ∧
    isFinite (fsub (tap u 0 15 1) (tap u 0 15 0)) = true ∧ isFinite cc = true ∧ isFinite a = true ∧
    isFinite (fadd (fadd cc w) a) = true := by unfold memoryInv; decide +kernel

/-- `PH.INIT` on the reset phasors. -/
theorem witness_PhasorInvKept :
    (∀ c, phasorInv ((command 0x20000000#32 (args 0x41000000 0)).ph.get c)) ∧
    ∃ t, step (command 0x20000000#32 (args 0x41000000 0)) = .next t :=
  ⟨by unfold phasorInv; decide +kernel, next_of_completes (by decide +kernel)⟩

/-- 24000 samples per quarter, 4 pulses; the 24000th tick. -/
theorem witness_InternalPeriodicity :
    (args 0 0).ck.mode = .internal ∧ (args 0 0).ck.outAcc = 0#32 ∧ (args 0 0).ck.pulseCnt = 0#32 ∧
    1 ≤ (args 0 0).ck.ppqnInt.toNat ∧ 0 < (args 0 0).ck.spqn.toInt ∧
    (args 0 0).ck.ppqnInt.toNat ∣ (args 0 0).ck.spqn.toNat := by decide +kernel

/-- An external mode right after an edge, the trigger held high and then low. -/
theorem witness_ClockLoss :
    let s := run .ckTick ((ckRun 48000 48 4 24000 1).setArg 0 1#32)
    s.ck.mode ≠ .internal ∧ noEdge s.ck.prevTrig [1#32, 1#32, 0#32] = true ∧ s.ck.timeoutCnt = 0#32 ∧
    [1#32, 1#32, 0#32].length < 2 ^ 32 := by decide +kernel

/-- A tempo, a rejected tempo, the least count and the greatest rejected one. -/
theorem witness_CkSettersStore :
    (isFinite (F32.ofBits ((args 1 0).arg.get 0)) = true ∧ flt (F32.ofBits 0#32) (F32.ofBits ((args 1 0).arg.get 0)) = true) ∧
    ¬ (isFinite (F32.ofBits ((args 0 0).arg.get 0)) = true ∧ flt (F32.ofBits 0#32) (F32.ofBits ((args 0 0).arg.get 0)) = true) ∧
    0 < ((args 1 0).arg.get 0).toInt ∧ ((args 0 0).arg.get 0).toInt ≤ 0 := by decide +kernel

/-- A tick whose divider pulses. -/
theorem witness_ClockInvKept :
    let s := command 0x31000000#32 ((args 0 0).setCk { Clock.reset with outAcc := 5999#32 })
    clockInv s.ck ∧ (∃ t, step s = .next t) ∧ ∃ t, exec .ckTick s = .next t ∧ t.ck.outAcc = 0#32 :=
  ⟨by unfold clockInv averagesInv; decide +kernel, next_of_completes (by decide +kernel), _, rfl, by decide +kernel⟩

/-- A granular frame with grains, on the reset engine. -/
theorem witness_FxInvKept :
    let s := command 0x41000006#32 (knobs 0 0 0 0x3F800000 0x42480000 0 (frameIn 0x42200000 (ramp 56 20)))
    fxInv s.fx ∧ ∃ t, step s = .next t :=
  ⟨by unfold fxInv fxChannelInv grainInv; decide +kernel, next_of_completes (by decide +kernel)⟩

/-- The arguments of the reset state. -/
theorem witness_CkInitSets :
    (ckArgs 48000 0 4 24000 0).arg.get 0 = 48000#32 ∧ (ckArgs 48000 0 4 24000 0).arg.get 1 = 0#32 ∧
    (ckArgs 48000 0 4 24000 0).arg.get 2 = 4#32 ∧ (ckArgs 48000 0 4 24000 0).arg.get 3 = 24000#32 ∧
    (ckArgs 48000 0 4 24000 0).arg.get 4 = 0#32 ∧ (ckArgs 48000 0 4 24000 0).ck.ppqnExt = 1#32 := by decide +kernel

/-- The first mode that does not exist, the lowest dead bit. -/
theorem witness_PsGetAnswers : 12 ≤ (0x00C0#16).toNat / 16 % 16 ∧ 0x0004#16 &&& 0xFF0C#16 ≠ 0#16 := by decide

/-- A channel that holds the delay `d` with no crossfade running. -/
def settled (d : Word) (s : State) : State :=
  s.setFx { s.fx with chan := s.fx.chan.set 0 { s.fx.chan.e0 with curD := F32.ofBits d, dvalid := true } }

/-- Freeze on. -/
def freeze (s : State) : State := s.setFxIn { s.fxIn with ctl := 1#32 }

/-- The first frame of the reset engine (no delay known); then from 10.0 to 10.5, within 10 percent, and to 11.0, exactly 10 percent, which
is no big jump. -/
theorem witness_DivisorFollows :
    allpassOn (frameIn 0x41200000 (ramp 56 50)) = false ∧ (entered .basic (frameIn 0x41200000 (ramp 56 50)) 0).dvalid = false ∧
    ∀ d : Word, d = 0x41280000#32 ∨ d = 0x41300000#32 →
      let s := settled 0x41200000#32 (frameIn d (ramp 56 50))
      let k := entered .basic s 0
      allpassOn s = false ∧ k.dvalid = true ∧ fle fone k.dxfPos = true ∧
      fgt (fabs (fsub (baseDelay s 0) k.curD)) (fmul (fdiv (param .basic s 1) (F32.ofBits 0x42C80000#32)) k.curD) = false := by
  refine ⟨by decide +kernel, by decide +kernel, fun d h => ?_⟩
  rcases h with rfl | rfl <;> decide +kernel

/-- From 10.0 to 40.0, not frozen and frozen. -/
theorem witness_DivisorJumps :
    ∀ s : State, s = settled 0x41200000#32 (frameIn 0x42200000 (ramp 56 50)) ∨
        s = freeze (settled 0x41200000#32 (frameIn 0x42200000 (ramp 56 50))) →
      let k := entered .basic s 0
      allpassOn s = false ∧ k.dvalid = true ∧ fle fone k.dxfPos = true ∧
      fgt (fabs (fsub (baseDelay s 0) k.curD)) (fmul (fdiv (param .basic s 1) (F32.ofBits 0x42C80000#32)) k.curD) = true := by
  intro s h
  rcases h with rfl | rfl <;> decide +kernel

theorem witness_DivisorJumps_frozen :
    frozen (settled 0x41200000#32 (frameIn 0x42200000 (ramp 56 50))) = false ∧
    frozen (freeze (settled 0x41200000#32 (frameIn 0x42200000 (ramp 56 50)))) = true := by decide +kernel

/-- The frame after that jump: the crossfade runs. -/
theorem witness_DivisorJumps_running :
    let s := run .fxProcBasic (settled 0x41200000#32 (frameIn 0x42200000 (ramp 56 50)))
    allpassOn s = false ∧ (entered .basic s 0).dvalid = true ∧ flt (entered .basic s 0).dxfPos fone = true := by decide +kernel

/-- Into a delay mode, the Knuth mode and a granular mode without grains. -/
theorem witness_ModeChangeFades :
    (args 0 0).fx.curMode ≠ .pingpong ∧ (args 0 0).fx.curMode ≠ .knuth ∧ (args 0 0).fx.curMode ≠ .crystals ∧
    allpassOn (args 0 0) = false ∧ FxMode.pingpong.code ≤ 2 ∧ 6 ≤ FxMode.crystals.code ∧ FxMode.crystals.code ≤ 10 ∧
    grainsOn .crystals (args 0 0) = false := by decide +kernel

/-- The second section's output of the statement, for channel 0. -/
def allpassOutput (m : FxMode) (s : State) : F32 :=
  let u := s.setFxIn { s.fxIn with ctl := s.fxIn.ctl &&& 0xFFFFFFFD#32 }
  let ch := s.fx.chan.get 0
  let g := fmul (F32.ofBits 0x3F333333#32) (clamp01 s.fxIn.fb)
  allpassSecond g ((run (fxProcInstr m) u).fx.chan.get 0).wet ch

/-- The allpass stage on, full feedback, in a mode that was on and in one entered: a finite result, and a blow-up (the greatest finite
memories). -/
theorem witness_AllpassStage :
    let s := frameIn 0x40A00000 (ramp 8 14)
    let s := s.setFxIn { s.fxIn with ctl := 2#32, fb := fone }
    let huge := F32.ofBits 0x7F7FFFFF#32
    let u := s.setFx { s.fx with chan := s.fx.chan.set 0 { s.fx.chan.e0 with apX1 := ⟨huge, huge⟩, apY1 := ⟨huge, huge⟩ } }
    allpassOn s = true ∧ isFinite (allpassOutput .basic s) = true ∧ isFinite (allpassOutput .knuth s) = true ∧
    allpassOn u = true ∧ isFinite (allpassOutput .basic u) = false ∧ isFinite (allpassOutput .knuth u) = false := by
  decide +kernel

theorem witness_ResonatorReads : allpassOn (ramp 8 14) = false := by decide +kernel

theorem witness_ChorusBlends : allpassOn (inMode .chorus (ramp 8 14)) = false := by decide +kernel

/-- Without a seam (the first frame of the mode) and with one (the head stood 80 samples away). -/
theorem witness_KnuthReads :
    let s := inMode .knuth (knobs 0 0 0x3F800000 0 0 0 (frameIn 0x42200000 (ramp 120 60)))
    let ch := { s.fx.chan.e0 with posValid := true, lastPos := F32.ofBits 0x42F00000#32 }
    allpassOn s = false ∧ jumps (baseDelay s 0) (baseDelay s 0) (entered .knuth s 0) = false ∧
    jumps (baseDelay s 0) (baseDelay s 0) ch = true := by decide +kernel

/-- meta1 in the middle, everything else off; the head stood at the base delay, as the frame before left it. -/
theorem witness_GranularNeutral :
    let s := run .fxProcGran (knobs 0x3F000000 0 0 0 0 0 (frameIn 0x42200000 (ramp 56 50)))
    let ch := s.fx.chan.get 0
    s.fx.curMode = .gran ∧ allpassOn s = false ∧ s.fxIn.meta1 = F32.ofBits 0x3F000000#32 ∧ s.fxIn.meta2 = F32.ofBits 0#32 ∧
    flt fzero (param .gran s 0) = false ∧ grainsOn .gran s = false ∧ ch.acc = F32.ofBits 0#32 ∧ ch.lastSlice = 0 ∧
    ch.posValid = true ∧ jumps (baseDelay s 0) (baseDelay s 0) ch = false := by decide +kernel

/-- `FX_P3` at 0, at -0.0, negative, and so small that its percentage underflows. -/
theorem witness_GranularHead :
    let s (p3 : Word) := inMode .octave (knobs 0x3F800000 0x3F800000 0x42C80000 0x3F800000 p3 0 (frameIn 0x42200000 (ramp 56 50)))
    allpassOn (s 0) = false ∧ grainsOn .octave (s 0) = false ∧ grainsOn .octave (s 0x80000000) = false ∧
    grainsOn .octave (s 0xC1200000) = false ∧ grainsOn .octave (s 0x00000010) = false := by decide +kernel

theorem witness_AccumulatorWindow : FxMode.shimmer = .gran ∨ FxMode.shimmer = .octave ∨ FxMode.shimmer = .texture ∨
    FxMode.shimmer = .shimmer := by decide

/-- A block that ends (64 of at least 64 frames) and one that does not; no grains. -/
theorem witness_CrystalBlocks :
    let s (n : Word) := (frameIn 0x42200000 (ramp 56 50)).setFx
      { (ramp 56 50).fx with chan := (ramp 56 50).fx.chan.set 0 { (ramp 56 50).fx.chan.e0 with blkCnt := n } }
    let ends (s : State) := fle (fmax2 (F32.ofBits 0x42800000#32) (gridStep s 0)) (i2f (((s.fx.chan.get 0).blkCnt + 1#32).toNat : Int))
    ends (s 63) = true ∧ ends (s 62) = false ∧ allpassOn (s 63) = false ∧ grainsOn .crystals (s 63) = false := by decide +kernel

/-- Half the sample from the grains; the trigger phase is at 0.99, so that a grain starts. -/
theorem witness_GrainCloud :
    let s := knobs 0 0 0 0x3F800000 0x42480000 0 (frameIn 0x42200000 (ramp 56 50))
    let t := s.setFx { s.fx with chan := s.fx.chan.set 0 { s.fx.chan.e0 with gphase := F32.ofBits 0x3F7D70A4#32 } }
    6 ≤ FxMode.crystals.code ∧ FxMode.crystals.code ≤ 10 ∧ allpassOn t = false ∧
    grainsOn .crystals t = true ∧ cloudStarts t 0 = true ∧ cloudStarts t 1 = false := by
  decide +kernel

theorem witness_FluidMoves : allpassOn (knobs 0x3F800000 0 0x41A00000 0x41200000 0x40A00000 0x3DCCCCCD (ramp 56 0)) = false := by
  decide +kernel

theorem witness_FluidAtRest :
    let s := (knobs 0 0 0x41A00000 0 0x40A00000 0x3DCCCCCD (ramp 56 0)).setFx (Fx.resetWith fone)
    isFinite fone = true ∧ fle (F32.ofBits 0x3F800000#32) fone = true ∧ s.fx = Fx.resetWith fone ∧
    s.fxIn.meta1 = F32.ofBits 0#32 ∧ s.fxIn.p.e1 = F32.ofBits 0#32 := by decide +kernel

/-- The boundary of each region: the fold's threshold itself, one unit below the modulo's, zero at the diode; the pair beyond 1. -/
theorem witness_WsRanges :
    let x (s : State) := F32.ofBits (s.arg.get 0)
    let t (s : State) := clamp (F32.ofBits (s.arg.get 1)) (F32.ofBits 0x3A83126F#32) (F32.ofBits 0x447A0000#32)
    fle (fabs (x (args 0xBF800000 0x3F800000))) (t (args 0xBF800000 0x3F800000)) = true ∧
    flt (fabs (x (args 0x3F7FFFFF 0x3F800000))) (t (args 0x3F7FFFFF 0x3F800000)) = true ∧
    isFinite (x (args 0x80000000 0)) = true ∧ fle (F32.ofBits 0#32) (x (args 0x80000000 0)) = true ∧
    (args 0x403FFFF8 0x3F800000).arg.get 0 = 0x403FFFF8#32 ∧ (args 0x403FFFF8 0x3F800000).arg.get 1 = 0x3F800000#32 := by
  decide +kernel

theorem witness_WsFinite : Instr.wsQuant ∈ [Instr.wsFold, .wsDiode, .wsQuant, .wsMod, .wsTanh, .wsTanhf] := by decide

theorem witness_SmootherInvKept :
    (∀ k, smootherInv ((command 0x62000000#32 (args 0x3F800000 0)).sm.get k)) ∧
    ∃ t, step (command 0x62000000#32 (args 0x3F800000 0)) = .next t :=
  ⟨by unfold smootherInv; decide +kernel, next_of_completes (by decide +kernel)⟩

/-- The greatest magnitude below 2^-84. -/
theorem witness_GuardCommands :
    flt (fabs (F32.ofBits ((args 0x957FFFFF 0).arg.get 0))) (F32.ofBits 0x15800000#32) = true := by decide +kernel

/-- The operands of each clause: 0.0 and 1.0 on a linear entry, the bounds of a linear and of an exponential entry. -/
theorem witness_PsExactPoints :
    (args 0 0).arg.get 0 = 0x00000000#32 ∧ (args 0x3F800000 0).arg.get 0 = 0x3F800000#32 ∧
    ((Config.spec .basic).get 1).curve = .lin ∧ (args 0x3F800000 0).arg.get 0 = ((Config.spec .basic).get 1).min.toBits ∧
    (args 0x42480000 0).arg.get 0 = ((Config.spec .basic).get 1).max.toBits ∧ ((Config.spec .basic).get 0).curve = .exp ∧
    (args 0x40A00000 0).arg.get 0 = ((Config.spec .basic).get 0).min.toBits ∧
    (args 0x42C80000 0).arg.get 0 = ((Config.spec .basic).get 0).max.toBits := by decide +kernel

/-- A linear, an exponential and an unused entry; the ends of [0,1] and of [min,max], and a value on either side of the range. -/
theorem witness_PsRoundTrip :
    let e := (Config.spec .basic).get 1
    e.curve = .lin ∧ ((Config.spec .basic).get 0).curve = .exp ∧ (Config.spec .basic).get 3 = Config.unused ∧
    within fzero fone fzero = true ∧ within fzero fone fone = true ∧ within e.min e.max e.min = true ∧ within e.min e.max e.max = true ∧
    flt fzero e.min = true ∧ flt e.max (F32.ofBits 0x7F800000#32) = true := by decide +kernel

/-- The ends of the exponential's domain, the least and the greatest operand of the logarithm, two ordered pairs. -/
theorem witness_ElementaryProperties :
    within (F32.ofBits 0xC1A00000#32) (F32.ofBits 0x41A00000#32) (F32.ofBits 0xC1A00000#32) = true ∧
    within (F32.ofBits 0xC1A00000#32) (F32.ofBits 0x41A00000#32) (F32.ofBits 0x41A00000#32) = true ∧
    isFinite (F32.ofBits 1#32) = true ∧ flt fzero (F32.ofBits 1#32) = true ∧ isFinite (F32.ofBits 0x7F7FFFFF#32) = true ∧
    flt fzero (F32.ofBits 0x7F7FFFFF#32) = true ∧ fle (F32.ofBits 0xFF800000#32) fzero = true ∧ fle fone ftwo = true := by
  decide +kernel

theorem witness_RegisterAccess :
    ({ args 0 0 with bus := [.read (BitVec.ofNat 12 (Reg.smA 7).addr) 32] } : State).bus = .read (BitVec.ofNat 12 (Reg.smA 7).addr) 32 :: [] ∧
    ({ args 0 0 with bus := [.write (BitVec.ofNat 12 Reg.ckPpqnExt.addr) 32 0#32] } : State).bus =
      .write (BitVec.ofNat 12 Reg.ckPpqnExt.addr) 32 0#32 :: [] ∧ Reg.ckPpqnExt.access = .rw := by decide +kernel

/-- One transaction for each ground, and the read of `CMD`. -/
theorem witness_IgnoredAccess :
    (Txn.write 0x010#12 8 0#32).wide = false ∧ (Txn.read 0x011#12 32).aligned = false ∧ (Txn.read 0xFFC#12 32).mapped = false ∧
    (Txn.write 0x030#12 32 0#32).permitted = false ∧
    ({ args 0 0 with bus := [.read 0x008#12 32] } : State).bus = .read 0x008#12 32 :: [] := by decide +kernel

theorem witness_StatusSticky :
    let s := { (command 0x63000000#32 (args 0x7FC00000 0)) with status := ⟨true, true, true, true, true, true⟩ }
    (∃ t, step s = .next t) ∧ s.status.flag .nonfin = true ∧
    (∃ t, step { s with bus := [.write 0x004#12 32 0x3F#32] } = .next t) :=
  ⟨next_of_completes (by decide +kernel), by decide +kernel, next_of_completes (by decide +kernel)⟩

/-- The write that wraps the cursor. -/
theorem witness_MemoryInvKept :
    memoryInv (command 0x11000000#32 (ramp 8 15)) ∧ ∃ t, step (command 0x11000000#32 (ramp 8 15)) = .next t :=
  ⟨by unfold memoryInv; decide +kernel, next_of_completes (by decide +kernel)⟩

end Sys2Proof.Machine.Tests
end

section
/-! The elementary functions (R13): where their results lie on the number line, and O55 from that. The exponential and the logarithm
are read through `rank`, which turns comparisons of values into comparisons of integers; the sine, the cosine and the hyperbolic
tangent through the one interval [-1, 1] that holds all their results. -/

namespace Sys2Proof

/-! ### Comparisons and finiteness on the number line -/

/-- A comparison that holds has two positions in order. -/
theorem fle_iff_rank {x y : F32} : fle x y = true ↔ ∃ a b, rank x = some a ∧ rank y = some b ∧ a ≤ b := by
  unfold fle
  cases rank x <;> cases rank y <;> simp

/-- A strict comparison that holds has two positions in strict order. -/
theorem flt_iff_rank {x y : F32} : flt x y = true ↔ ∃ a b, rank x = some a ∧ rank y = some b ∧ a < b := by
  unfold flt
  cases rank x <;> cases rank y <;> simp

/-- The finite values are those whose position is finite. -/
theorem isFinite_iff_rank {x : F32} : isFinite x = true ↔ ∃ r, rank x = some r ∧ -finitePos ≤ r ∧ r ≤ finitePos := by
  unfold finitePos
  cases x with
  | fin n m => cases n <;> simp [rank] <;> omega
  | inf n => cases n <;> simp [isFinite, rank]
  | nan n p => simp [isFinite, rank]

theorem fone_eq : fone = .fin false ⟨0x3F800000, by decide⟩ := rfl

theorem fnegOne_eq : fnegOne = .fin true ⟨0x3F800000, by decide⟩ := rfl

theorem rank_fzero : rank fzero = some 0 := rfl

theorem rank_fone : rank fone = some onePos := rfl

/-- 1.0 is the only value at its position. -/
theorem eq_fone_of_rank {x : F32} (h : rank x = some onePos) : x = fone := by
  unfold onePos at h
  cases x with
  | fin n m => cases n <;> simp [rank, fone_eq, Fin.ext_iff] at h ⊢ <;> omega
  | inf n => cases n <;> simp [rank] at h
  | nan n p => simp [rank] at h

/-- The value at a finite position is finite. -/
theorem isFinite_ofRank (z : Bool) {r : Int} (hlo : -finitePos ≤ r) (hhi : r ≤ finitePos) : isFinite (ofRank z r) = true := by
  unfold finitePos at hlo hhi
  exact isFinite_iff_rank.2 ⟨_, rank_ofRank z r, by unfold finitePos; omega, by unfold finitePos; omega⟩

/-- The values at two positions are in the order of the positions, whatever the signs of a zero. -/
theorem ofRank_mono (z w : Bool) {a b : Int} (h : a ≤ b) : fle (ofRank z a) (ofRank w b) = true :=
  fle_of_rank (rank_ofRank z a) (rank_ofRank w b) (by omega)

theorem neg_finitePos_le_finiteRank (r : Int) : -finitePos ≤ finiteRank r := le_max_left _ _

theorem finiteRank_le_finitePos (r : Int) : finiteRank r ≤ finitePos := max_le (by decide) (min_le_left _ _)

/-! ### The exponential -/

theorem cfgExp2_of_rank {x : F32} {r : Int} (h : rank x = some r) : cfgExp2 x = ofRank (Config.exp2ZeroSign x) (exp2Rank r) := by
  simp [cfgExp2, h]

theorem exp2Rank_zero : exp2Rank 0 = onePos := by decide

/-- On [-20, 20] the exponential is held within the finite values (R13 (a)). -/
theorem exp2Rank_finite {r : Int} (hlo : -exp2DomainPos ≤ r) (hhi : r ≤ exp2DomainPos) :
    -finitePos ≤ exp2Rank r ∧ exp2Rank r ≤ finitePos := by
  rw [exp2Rank, if_pos ⟨hlo, hhi⟩]
  exact ⟨neg_finitePos_le_finiteRank _, finiteRank_le_finitePos _⟩

/-- R13 (a) of the exponential. -/
theorem isFinite_cfgExp2 {x : F32} {r : Int} (h : rank x = some r) (hlo : -exp2DomainPos ≤ r) (hhi : r ≤ exp2DomainPos) :
    isFinite (cfgExp2 x) = true := by
  obtain ⟨h1, h2⟩ := exp2Rank_finite hlo hhi
  rw [cfgExp2_of_rank h]
  exact isFinite_ofRank _ h1 h2

/-- R13 (b) of the exponential. -/
theorem cfgExp2_fzero : cfgExp2 fzero = fone := by
  rw [cfgExp2_of_rank rank_fzero, exp2Rank_zero]
  rfl

/-- R13 (d) of the exponential. -/
theorem cfgExp2_mono {x y : F32} (h : fle x y = true) : fle (cfgExp2 x) (cfgExp2 y) = true := by
  obtain ⟨a, b, ha, hb, hab⟩ := fle_iff_rank.1 h
  rw [cfgExp2_of_rank ha, cfgExp2_of_rank hb]
  exact ofRank_mono _ _ (exp2Rank_mono hab)

/-! ### The logarithm -/

theorem cfgLog2_fone : cfgLog2 fone = fzero := if_pos rfl

/-- A positive operand other than 1.0, the one point that `cfgLog2` sets apart. -/
theorem cfgLog2_of_rank {x : F32} {r : Int} (h : rank x = some r) (hpos : 0 < r) (hne : x ≠ fone) :
    cfgLog2 x = ofRank (Config.log2ZeroSign x) (log2Rank r) := by
  have hgt : fgt x fzero = true := flt_iff_rank.2 ⟨0, r, rank_fzero, h, hpos⟩
  simp [cfgLog2, hne, hgt, h]

theorem log2Rank_nonpos {r : Int} (h : r < onePos) : log2Rank r ≤ 0 := by
  simp only [log2Rank, if_pos h, finiteRank, finitePos]
  split <;> omega

theorem log2Rank_nonneg {r : Int} (h : onePos ≤ r) : 0 ≤ log2Rank r := by
  simp only [log2Rank, if_neg (not_lt.2 h), finiteRank, finitePos]
  split <;> omega

/-- The logarithm of a finite operand is held within the finite values (R13 (a)). -/
theorem log2Rank_finite {r : Int} (h : r ≤ finitePos) : -finitePos ≤ log2Rank r ∧ log2Rank r ≤ finitePos := by
  rw [log2Rank, if_pos h]
  exact ⟨neg_finitePos_le_finiteRank _, finiteRank_le_finitePos _⟩

/-- R13 (a) of the logarithm. -/
theorem isFinite_cfgLog2 {x : F32} {r : Int} (h : rank x = some r) (hpos : 0 < r) (hhi : r ≤ finitePos) :
    isFinite (cfgLog2 x) = true := by
  by_cases hx : x = fone
  · rw [hx, cfgLog2_fone]
    rfl
  · obtain ⟨h1, h2⟩ := log2Rank_finite hhi
    rw [cfgLog2_of_rank h hpos hx]
    exact isFinite_ofRank _ h1 h2

/-- R13 (d) of the logarithm: at 1.0, where the result is set to 0.0, the operands below have results at most 0 and those above at
least 0. -/
theorem cfgLog2_mono {x y : F32} (hx : flt fzero x = true) (h : fle x y = true) : fle (cfgLog2 x) (cfgLog2 y) = true := by
  obtain ⟨z, a, hz, ha, hza⟩ := flt_iff_rank.1 hx
  obtain rfl : 0 = z := Option.some.inj (rank_fzero.symm.trans hz)
  obtain ⟨a', b, ha', hb, hab⟩ := fle_iff_rank.1 h
  obtain rfl : a = a' := Option.some.inj (ha.symm.trans ha')
  have hb0 : 0 < b := hza.trans_le hab
  have hzero : ofRank false 0 = fzero := rfl
  by_cases hx1 : x = fone <;> by_cases hy1 : y = fone
  · rw [hx1, hy1, cfgLog2_fone]
    rfl
  · obtain rfl : onePos = a := Option.some.inj (rank_fone.symm.trans (hx1 ▸ ha))
    rw [hx1, cfgLog2_fone, cfgLog2_of_rank hb hb0 hy1, ← hzero]
    exact ofRank_mono _ _ (log2Rank_nonneg hab)
  · obtain rfl : onePos = b := Option.some.inj (rank_fone.symm.trans (hy1 ▸ hb))
    have hlt : a < onePos := hab.lt_of_ne (fun e => hx1 (eq_fone_of_rank (e ▸ ha)))
    rw [hy1, cfgLog2_fone, cfgLog2_of_rank ha hza hx1, ← hzero]
    exact ofRank_mono _ _ (log2Rank_nonpos hlt)
  · rw [cfgLog2_of_rank ha hza hx1, cfgLog2_of_rank hb hb0 hy1]
    exact ofRank_mono _ _ (log2Rank_mono hab)

end Sys2Proof

namespace Sys2Proof.Machine

/-! ### Sine, cosine and hyperbolic tangent -/

/-- R13 (c) as an interval: whatever `unitOr` is given, its result is in [-1, 1]. -/
theorem unitOr_within (y : F32) : within fnegOne fone (unitOr y) = true := by
  unfold unitOr
  split
  · assumption
  · rfl

/-- The shape the three functions share: the value R13 (b) sets at +0.0, elsewhere a free one held in [-1, 1]. -/
theorem unitOr_except_zero_within {v : F32} (hv : within fnegOne fone v = true) (x y : F32) :
    within fnegOne fone (if x = fzero then v else unitOr y) = true := by
  split
  · exact hv
  · exact unitOr_within y

theorem cfgSin2pi_within (p : F32) : within fnegOne fone (cfgSin2pi p) = true := unitOr_except_zero_within rfl _ _

theorem cfgCos2pi_within (p : F32) : within fnegOne fone (cfgCos2pi p) = true := unitOr_except_zero_within rfl _ _

theorem cfgTanh_within (x : F32) : within fnegOne fone (cfgTanh x) = true := unitOr_except_zero_within rfl _ _

theorem isFinite_of_within {l h x : F32} (hl : isFinite l = true) (hh : isFinite h = true) (hx : within l h x = true) :
    isFinite x = true := by
  obtain ⟨h1, h2⟩ := Bool.and_eq_true_iff.1 hx
  exact isFinite_of_between hl hh h1 h2

/-- A value in [-1, 1] has magnitude at most 1. -/
theorem fabs_le_fone {x : F32} (hx : within fnegOne fone x = true) : fle (fabs x) fone = true := by
  have hfin : isFinite x = true := isFinite_of_within rfl rfl hx
  obtain ⟨h1, h2⟩ := Bool.and_eq_true_iff.1 hx
  obtain ⟨n, m, rfl⟩ := isFinite_cases hfin
  cases n <;> simp [fle, rank, fabs, fone_eq, fnegOne_eq] at h1 h2 ⊢ <;> omega

/-! ### The domains of the exponential and the logarithm, and O55 -/

/-- A value in [-20, 20] has a position in the domain of the exponential. -/
theorem rank_of_within_exp2Domain {x : F32} (h : within (F32.ofBits 0xC1A00000#32) (F32.ofBits 0x41A00000#32) x = true) :
    ∃ r, rank x = some r ∧ -exp2DomainPos ≤ r ∧ r ≤ exp2DomainPos := by
  obtain ⟨hlo, hhi⟩ := Bool.and_eq_true_iff.1 h
  obtain ⟨l, r, hl, hr, hlr⟩ := fle_iff_rank.1 hlo
  obtain ⟨r', u, hr', hu, hru⟩ := fle_iff_rank.1 hhi
  obtain rfl : r = r' := Option.some.inj (hr.symm.trans hr')
  obtain rfl : -exp2DomainPos = l := Option.some.inj hl
  obtain rfl : exp2DomainPos = u := Option.some.inj hu
  exact ⟨r, hr, hlr, hru⟩

/-- A finite positive value has a position between 0 and that of the greatest finite value. -/
theorem rank_of_finite_pos {x : F32} (hf : isFinite x = true) (hp : flt fzero x = true) :
    ∃ r, rank x = some r ∧ 0 < r ∧ r ≤ finitePos := by
  obtain ⟨r, hr, _, hhi⟩ := isFinite_iff_rank.1 hf
  obtain ⟨z, r', hz, hr', hlt⟩ := flt_iff_rank.1 hp
  obtain rfl : r = r' := Option.some.inj (hr.symm.trans hr')
  obtain rfl : 0 = z := Option.some.inj (rank_fzero.symm.trans hz)
  exact ⟨r, hr, hlt, hhi⟩

/-- Settles O55: the exponential and the logarithm by their monotone maps between positions, the other three by [-1, 1]. -/
theorem elementaryProperties : Obligations.ElementaryProperties := by
  have hsin (x : F32) := cfgSin2pi_within x
  have hcos (x : F32) := cfgCos2pi_within x
  have htanh (x : F32) := cfgTanh_within x
  refine ⟨fun x h => ?exp2Finite, fun x hf hp => ?log2Finite,
    fun x => ⟨isFinite_of_within rfl rfl (hsin x), isFinite_of_within rfl rfl (hcos x), isFinite_of_within rfl rfl (htanh x)⟩,
    ⟨cfgExp2_fzero, cfgLog2_fone, if_pos rfl, if_pos rfl, if_pos rfl⟩,
    fun x => ⟨fabs_le_fone (hsin x), fabs_le_fone (hcos x), fabs_le_fone (htanh x)⟩,
    fun _ _ => cfgExp2_mono, fun _ _ => cfgLog2_mono⟩
  case exp2Finite =>
    obtain ⟨r, hr, hlo, hhi⟩ := rank_of_within_exp2Domain h
    exact isFinite_cfgExp2 hr hlo hhi
  case log2Finite =>
    obtain ⟨r, hr, hpos, hhi⟩ := rank_of_finite_pos hf hp
    exact isFinite_cfgLog2 hr hpos hhi

end Sys2Proof.Machine
end

section
/-! What one operation can do to the state. An operation is a chain of the updates of Machine/Ops.lean; `Touches` says of a chain which
parts it may change and that it leaves alone all that no operation may disturb. It is proved once for each update and composed along the
meaning of each instruction (`exec_touches`). -/

namespace Sys2Proof

/-- Register files are equal when their elements are. -/
theorem Per8.ext_get {α : Type} {v w : Per8 α} (h : ∀ i, v.get i = w.get i) : v = w := by
  obtain ⟨a0, a1, a2, a3, a4, a5, a6, a7⟩ := v
  obtain ⟨b0, b1, b2, b3, b4, b5, b6, b7⟩ := w
  exact Per8.mk.injEq .. ▸ ⟨h 0, h 1, h 2, h 3, h 4, h 5, h 6, h 7⟩

end Sys2Proof

namespace Sys2Proof.Machine

/-! ### Frames compose -/

theorem keptExcept.trans {changed : Part → Prop} {s t u : State} (h : keptExcept changed s t) (h' : keptExcept changed t u) :
    keptExcept changed s u := by
  intro p hp
  have h1 := h p hp
  have h2 := h' p hp
  cases p <;> exact Eq.trans h2 h1

theorem keptExcept.mono {P Q : Part → Prop} {s t : State} (h : keptExcept P s t) (hPQ : ∀ p, P p → Q p) : keptExcept Q s t :=
  fun p hp => h p (fun hP => hp (hPQ p hP))

/-! ### What every operation keeps -/

/-- Raising a flag clears none (R25). -/
theorem Status.sticky_raise {st : Status} {f g : Flag} {b : Bool} (h : st.flag g = true) : (st.raise f b).flag g = true := by
  rw [Status.flag_raise]
  split
  · next e => rw [← e, h, Bool.true_or]
  · exact h

/-- The invariants of the sample memory (R28, R71) and of the smoothers (R40) hold after if they hold before. -/
structure KeepsInvariants (s t : State) : Prop where
  memory : memoryInv s → memoryInv t
  smoothers : (∀ k, smootherInv (s.sm.get k)) → ∀ k, smootherInv (t.sm.get k)

theorem KeepsInvariants.trans {s t u : State} (h : KeepsInvariants s t) (h' : KeepsInvariants t u) : KeepsInvariants s u :=
  ⟨fun hs => h'.memory (h.memory hs), fun hs => h'.smoothers (h.smoothers hs)⟩

/-- Both invariants speak of nothing but the memory, the lines' registers, the capacity and the smoothers. -/
theorem KeepsInvariants.of_eq {s t : State} (hmem : t.mem = s.mem) (hdl : t.dl = s.dl) (hcap : t.cap = s.cap) (hsm : t.sm = s.sm) :
    KeepsInvariants s t where
  memory := fun ⟨hwf, hwp⟩ => ⟨hmem ▸ hwf, fun c => hdl ▸ hcap ▸ hwp c⟩
  smoothers := fun hs => hsm ▸ hs

/-- From `s` to `t` nothing changed but the parts that `changed` names; the model's two lists stand, no flag was cleared (R25), and the
invariants of the memory and of the smoothers were kept. -/
structure Touches (changed : Part → Prop) (s t : State) : Prop extends KeepsInvariants s t where
  frame : keptExcept changed s t
  bus : t.bus = s.bus
  readLog : t.readLog = s.readLog
  sticky : ∀ f, s.status.flag f = true → t.status.flag f = true

namespace Touches

variable {P : Part → Prop} {s t u : State}

theorem refl : Touches P s s where
  toKeepsInvariants := .of_eq rfl rfl rfl rfl
  frame := fun p _ => by cases p <;> rfl
  bus := rfl
  readLog := rfl
  sticky := fun _ => id

theorem trans (h : Touches P s t) (h' : Touches P t u) : Touches P s u where
  toKeepsInvariants := h.toKeepsInvariants.trans h'.toKeepsInvariants
  frame := h.frame.trans h'.frame
  bus := h'.bus.trans h.bus
  readLog := h'.readLog.trans h.readLog
  sticky := fun f hf => h'.sticky f (h.sticky f hf)

/-! ### The updates of one part -/

theorem setArg {i : Fin 8} {v : Word} (h : P (.arg i)) : Touches P s (s.setArg i v) where
  toKeepsInvariants := .of_eq rfl rfl rfl rfl
  frame := fun p hp => by
    cases p with
    | arg j =>
      have hj : j ≠ i := fun e => hp (e ▸ h)
      simp [kept, hj]
    | _ => rfl
  bus := rfl
  readLog := rfl
  sticky := fun _ => id

theorem setRes {i : Fin 8} {v : Word} (h : P (.res i)) : Touches P s (s.setRes i v) where
  toKeepsInvariants := .of_eq rfl rfl rfl rfl
  frame := fun p hp => by
    cases p with
    | res j =>
      have hj : j ≠ i := fun e => hp (e ▸ h)
      simp [kept, hj]
    | _ => rfl
  bus := rfl
  readLog := rfl
  sticky := fun _ => id

theorem setResF {i : Fin 8} {x : F32} (h : P (.res i)) : Touches P s (s.setResF i x) := setRes h

theorem setResB {i : Fin 8} {b : Bool} (h : P (.res i)) : Touches P s (s.setResB i b) := setRes h

theorem raise {f : Flag} {b : Bool} (h : P (.flag f)) : Touches P s (s.raise f b) where
  toKeepsInvariants := .of_eq rfl rfl rfl rfl
  frame := fun p hp => by
    cases p with
    | flag g =>
      have hg : g ≠ f := fun e => hp (e ▸ h)
      simp [kept, hg]
    | _ => rfl
  bus := rfl
  readLog := rfl
  sticky := fun _ hg => Status.sticky_raise hg

theorem setPh {c : Fin 4} {x : Phasor} (h : P (.phasor c)) : Touches P s (s.setPh c x) where
  toKeepsInvariants := .of_eq rfl rfl rfl rfl
  frame := fun p hp => by
    cases p with
    | phasor d =>
      have hd : d ≠ c := fun e => hp (e ▸ h)
      simp [kept, hd]
    | _ => rfl
  bus := rfl
  readLog := rfl
  sticky := fun _ => id

theorem setCk {k : Clock} (h : P .clock) : Touches P s (s.setCk k) where
  toKeepsInvariants := .of_eq rfl rfl rfl rfl
  frame := fun p hp => by
    cases p with
    | clock => exact absurd h hp
    | _ => rfl
  bus := rfl
  readLog := rfl
  sticky := fun _ => id

theorem setFx {f : Fx} (h : P .fxEngine) : Touches P s (s.setFx f) where
  toKeepsInvariants := .of_eq rfl rfl rfl rfl
  frame := fun p hp => by
    cases p with
    | fxEngine => exact absurd h hp
    | _ => rfl
  bus := rfl
  readLog := rfl
  sticky := fun _ => id

theorem setFxIn {f : FxInput} (h : P .fxInputs) : Touches P s (s.setFxIn f) where
  toKeepsInvariants := .of_eq rfl rfl rfl rfl
  frame := fun p hp => by
    cases p with
    | fxInputs => exact absurd h hp
    | _ => rfl
  bus := rfl
  readLog := rfl
  sticky := fun _ => id

/-- A smoother may be replaced by one that keeps its invariant. -/
theorem setSm {k : Fin 8} {x : Smoother} (h : P (.smoother k)) (hx : smootherInv (s.sm.get k) → smootherInv x) :
    Touches P s (s.setSm k x) where
  memory := id
  smoothers := fun hs j => by
    rw [State.setSm_sm, Per8.get_set]
    split
    · exact hx (hs k)
    · exact hs j
  frame := fun p hp => by
    cases p with
    | smoother j =>
      have hj : j ≠ k := fun e => hp (e ▸ h)
      simp [kept, hj]
    | _ => rfl
  bus := rfl
  readLog := rfl
  sticky := fun _ => id

/-- A line's registers may be replaced by registers whose cursor is inside the line (R28). -/
theorem setDl {c : Fin 4} {d : DelayLine} (h : P (.line c)) (hd : (s.dl.get c).wp.toNat < s.cap → d.wp.toNat < s.cap) :
    Touches P s (s.setDl c d) where
  memory := fun ⟨hwf, hwp⟩ => ⟨hwf, fun e => by
    rw [State.setDl_dl, State.setDl_cap, Per4.get_set]
    split
    · exact hd (hwp c)
    · exact hwp e⟩
  smoothers := id
  frame := fun p hp => by
    cases p with
    | line e =>
      have he : e ≠ c := fun q => hp (q ▸ h)
      simp [kept, he]
    | _ => rfl
  bus := rfl
  readLog := rfl
  sticky := fun _ => id

/-- A line's samples all cleared (R131). -/
theorem clearLine {c : Fin 4} (h : ∀ k, P (.byte c k)) : Touches P s (s.setMem (s.mem.clearLine c)) where
  memory := fun ⟨hwf, hwp⟩ => ⟨Memory.wf_clearLine _ c hwf, hwp⟩
  smoothers := id
  frame := fun p hp => by
    cases p with
    | byte d k =>
      have hd : d ≠ c := fun e => hp (e ▸ h k)
      simp [kept, Memory.readByte_clearLine, hd]
    | _ => rfl
  bus := rfl
  readLog := rfl
  sticky := fun _ => id

/-- A slot written and the cursor advanced (R132): the cursor wraps at `CAP`. -/
theorem lineWrite {c : Fin 4} {v : Word} (h : ∀ p, p = .line c ∨ slotPart c (writeSlotOf s c) p → P p) :
    Touches P s (lineWrite s c v) where
  memory := fun ⟨hwf, hwp⟩ => by
    refine ⟨Memory.wf_writeSlot _ c _ v hwf, fun d => ?_⟩
    have hcap := s.cap_bounds
    have hlt := modFloor_lt (((s.dl.get c).wp.toNat : Int) + 1) (n := s.cap) (by omega)
    have hwrap : (BitVec.ofNat 32 (modFloor (((s.dl.get c).wp.toNat : Int) + 1) s.cap)).toNat < s.cap := by
      rw [BitVec.toNat_ofNat, Nat.mod_eq_of_lt (by omega)]
      exact hlt
    simp only [lineWrite_eq, Per4.get_set]
    split
    · exact hwrap
    · exact hwp d
  smoothers := id
  frame := (lineWrite_kept s c v).mono h
  bus := rfl
  readLog := rfl
  sticky := fun _ => id

end Touches

/-! ### The operations instructions share -/

theorem isFinite_finValue (x : F32) : isFinite (finValue x) = true := by
  unfold finValue
  split
  · assumption
  · rfl

theorem clamp01_within (x : F32) : within fzero fone (clamp01 x) = true :=
  Bool.and_eq_true_iff.2 (clamp_within x fzero fone rfl)

/-- `SM.STEP` stores a finite output: where the recurrence overflows it stores its input (R363). -/
theorem isFinite_smNext (m : Smoother) {x : F32} (hx : isFinite x = true) : isFinite (smNext m x) = true := by
  unfold smNext
  split
  · assumption
  · exact hx

/-- A finite output stored keeps a smoother's invariant. -/
theorem smootherInv_output {m : Smoother} {y : F32} (hy : isFinite y = true) (h : smootherInv m) : smootherInv { m with y := y } :=
  ⟨hy, h.2⟩

/-- A coefficient in [0, 1] stored keeps a smoother's invariant. -/
theorem smootherInv_coefficient {m : Smoother} {a : F32} (ha : within fzero fone a = true) (h : smootherInv m) :
    smootherInv { m with a := a } :=
  ⟨h.1, ha⟩

namespace Touches

variable {P : Part → Prop} {s : State}

theorem setTempo {bad : Bool} {n : Int} (hck : P .clock) (herr : P (.flag .argerr)) : Touches P s (setTempo s bad n) := by
  unfold Machine.setTempo
  split
  · exact raise herr
  · exact setCk hck

theorem waveshape {f : F32 → F32 → F32} (hres : P (.res 0)) (hfin : P (.flag .nonfin)) : Touches P s (waveshape f s) :=
  (raise hfin).trans (setResF hres)

/-- A channel put back (R250): the kernel either may drive its phasor or left it alone. -/
theorem putVoice {c : Fin 4} {v : Voice} (hfx : P .fxEngine) (hph : P (.phasor c) ∨ v.ph = s.ph.get c) :
    Touches P s (s.putVoice c v) := by
  rcases hph with hph | hph
  · exact (setFx hfx).trans (setPh hph)
  · have hself : s.putVoice c v = s.setFx { s.fx with chan := s.fx.chan.set c v.ch, rng := v.rng } := by
      simp [State.putVoice, State.setPh, State.setFx, hph]
    exact hself ▸ setFx hfx

end Touches

/-- The modes whose kernel drives the channel's phasor: the Knuth mode and the granular ones (R256, R282). -/
def drivesPhasor : FxMode → Bool
  | .knuth | .gran | .octave | .texture | .shimmer | .crystals => true
  | .basic | .pingpong | .unlinked | .resonator | .chorus | .fluid => false

/-- The kernel of every other mode leaves the phasor as it was. -/
theorem kernel_ph {m : FxMode} (h : drivesPhasor m = false) (fr : Frame) (rd : F32 → F32) (c : Fin 4) (v : Voice) :
    (kernel m fr rd c v).voice.ph = v.ph := by
  cases m with
  | basic | pingpong | unlinked | resonator | chorus | fluid => rfl
  | knuth | gran | octave | texture | shimmer | crystals => cases h

namespace Touches

variable {P : Part → Prop} {s : State}

theorem fxChannelStep {m : FxMode} {fr : Frame} {rd : Fin 4 → F32 → F32} {c : Fin 4} (hfx : P .fxEngine) (hfin : P (.flag .nonfin))
    (hph : drivesPhasor m = true → ∀ c, P (.phasor c)) : Touches P s (fxChannelStep m fr rd c s) := by
  have hdrive : P (.phasor c) ∨ (channelKernel m fr rd c s).voice.ph = s.ph.get c := by
    cases hm : drivesPhasor m with
    | true => exact .inl (hph hm c)
    | false => exact .inr (kernel_ph hm ..)
  exact (putVoice (v := { (channelKernel m fr rd c s).voice with ch := (channelFinish m fr rd c s).ch }) hfx hdrive).trans
    (raise hfin)

/-- A frame of the effect engine (R212): the mode's entry and the channel loop. -/
theorem fxProc {m : FxMode} (hfx : P .fxEngine) (hfin : P (.flag .nonfin)) (hph : drivesPhasor m = true → ∀ c, P (.phasor c)) :
    Touches P s (fxProc m s) :=
  ((((setFx hfx).trans (fxChannelStep hfx hfin hph)).trans (fxChannelStep hfx hfin hph)).trans
    (fxChannelStep hfx hfin hph)).trans (fxChannelStep hfx hfin hph)

end Touches

/-! ### The 56 instructions -/

/-- Every instruction answers a next state (R400), and touches no more than its rule writes. -/
theorem exec_touches (i : Instr) (s : State) : ∃ t, exec i s = .next t ∧ Touches (mayChange i s) s t := by
  cases i with
  | nop => exact ⟨_, rfl, .refl⟩
  | dlInit c =>
    exact ⟨_, rfl, (Touches.clearLine fun k => Or.inr ⟨k, rfl⟩).trans
      (.setDl (Or.inl rfl) fun h => (Nat.zero_le _).trans_lt h)⟩
  | dlWrite c => exact ⟨_, rfl, .lineWrite fun _ => id⟩
  | dlWriteg c =>
    refine ⟨_, rfl, ?_⟩
    split
    · exact .refl
    · exact (Touches.raise (Or.inr (Or.inl rfl))).trans (.lineWrite fun _ hp => hp.imp_right Or.inr)
  | dlSetdly c => exact ⟨_, rfl, (Touches.raise (Or.inr rfl)).trans (.setDl (Or.inl rfl) id)⟩
  | dlRead0 c => exact ⟨_, rfl, .setResF rfl⟩
  | dlRead c | dlReadh c => exact ⟨_, rfl, (Touches.raise (Or.inr rfl)).trans (.setResF (Or.inl rfl))⟩
  | phInit c => exact ⟨_, rfl, (Touches.raise (Or.inr rfl)).trans (.setPh (Or.inl rfl))⟩
  | phSetdly c | phSetratio c | phSetdepth c => exact ⟨_, rfl, .setPh rfl⟩
  | phProc c => exact ⟨_, rfl, (Touches.setPh (Or.inl rfl)).trans (.setResF (Or.inr rfl))⟩
  | phGetpos c tri | phGetsmp c tri => exact ⟨_, rfl, .setResF rfl⟩
  | ckInit => exact ⟨_, rfl, (Touches.raise (Or.inr rfl)).trans (.setCk (Or.inl rfl))⟩
  | ckTick =>
    exact ⟨_, rfl, (((Touches.raise (Or.inr (Or.inr (Or.inr rfl)))).trans (.setCk (Or.inl rfl))).trans
      (.setResB (Or.inr (Or.inl rfl)))).trans (.setResB (Or.inr (Or.inr (Or.inl rfl))))⟩
  | ckSetmodeInt | ckSetmodeCv | ckSetmodeMidi => exact ⟨_, rfl, .setCk rfl⟩
  | ckSetbpm | ckSetfreq | ckSetsmp | ckSetspqn => exact ⟨_, rfl, .setTempo (Or.inl rfl) (Or.inr rfl)⟩
  | ckGetbpm | ckGetspb | ckGetppqn => exact ⟨_, rfl, .setRes rfl⟩
  | ckGetfreq => exact ⟨_, rfl, .setResF rfl⟩
  | ckPresent => exact ⟨_, rfl, .setResB rfl⟩
  | fxInit => exact ⟨_, rfl, (Touches.raise (Or.inr rfl)).trans (.setFx (Or.inl rfl))⟩
  | fxProcBasic | fxProcPingpong | fxProcUnlinked | fxProcResonator | fxProcChorus | fxProcFluid =>
    exact ⟨_, rfl, .fxProc (Or.inl rfl) (Or.inr rfl) nofun⟩
  | fxProcKnuth | fxProcGran | fxProcOctave | fxProcTexture | fxProcShimmer | fxProcCrystals =>
    exact ⟨_, rfl, .fxProc (Or.inl rfl) (Or.inr (Or.inl rfl)) fun _ c => Or.inr (Or.inr ⟨c, rfl⟩)⟩
  | wsFold | wsDiode | wsQuant | wsMod | wsTanh | wsTanhf => exact ⟨_, rfl, .waveshape (Or.inl rfl) (Or.inr rfl)⟩
  | smSet k =>
    exact ⟨_, rfl, ((Touches.raise (Or.inr (Or.inr rfl))).trans
      (.setSm (Or.inl rfl) (smootherInv_output (isFinite_finValue _)))).trans (.setResF (Or.inr (Or.inl rfl)))⟩
  | smCoef k =>
    exact ⟨_, rfl, (Touches.setSm (Or.inl rfl) (smootherInv_coefficient (clamp01_within _))).trans (.setResF (Or.inr rfl))⟩
  | smStep k =>
    exact ⟨_, rfl, ((Touches.raise (Or.inr (Or.inr rfl))).trans
      (.setSm (Or.inl rfl) (smootherInv_output (isFinite_smNext _ (isFinite_finValue _))))).trans (.setResF (Or.inr (Or.inl rfl)))⟩
  | gdFin => exact ⟨_, rfl, (Touches.raise (Or.inr rfl)).trans (.setRes (Or.inl rfl))⟩
  | gdDnk => exact ⟨_, rfl, .setResF rfl⟩
  | psGet m slot =>
    exact ⟨_, rfl, ((((Touches.setResF (Or.inl rfl)).trans (.setResF (Or.inr (Or.inl rfl)))).trans
      (.setRes (Or.inr (Or.inr (Or.inl rfl))))).trans (.setRes (Or.inr (Or.inr (Or.inr (Or.inl rfl)))))).trans
      (.setResF (Or.inr (Or.inr (Or.inr (Or.inr rfl)))))⟩
  | psMap m slot | psUnmap m slot => exact ⟨_, rfl, .setResF rfl⟩

/-- The state an instruction answers: `exec` read backwards. -/
theorem touches_of_exec {i : Instr} {s t : State} (h : exec i s = .next t) : Touches (mayChange i s) s t := by
  obtain ⟨u, hu, htouch⟩ := exec_touches i s
  exact Host.Outcome.next.inj (hu.symm.trans h) ▸ htouch

/-- Settles O7: every instruction is a chain of updates of parts its rule writes. -/
theorem ownership : Obligations.Ownership := fun _ _ _ h => (touches_of_exec h).frame

end Sys2Proof.Machine
end

section
/-! The bus. What each kind of transaction does (R74, R75, R100), one inversion of `step` into the seven things it can do, and from them
and `exec_touches` the statements about every step. -/

namespace Sys2Proof.Machine

/-! ### Transactions and the registers they reach -/

/-- An access reaches a register only as a 32-bit access at its address. -/
theorem accessTarget_eq_some {a : BitVec 12} {bits : Nat} {r : Reg} (h : accessTarget a bits = some r) :
    bits = 32 ∧ a = BitVec.ofNat 12 r.addr := by
  unfold accessTarget at h
  split at h
  · next hw =>
    refine ⟨hw.1, ?_⟩
    rw [addr_of_regAt h, BitVec.ofNat_toNat, BitVec.setWidth_eq]
  · cases h

/-- A write that starts no operation stores to its register. -/
theorem step_write {s : State} {r : Reg} {v : Word} {rest : List Txn} (hbus : s.bus = .write (BitVec.ofNat 12 r.addr) 32 v :: rest)
    (hr : r ≠ .cmd) : step s = .next (regWrite s.advance r v) := by
  have hfetch : fetch s = .transfer (.write (BitVec.ofNat 12 r.addr) 32 v) := by
    simp [fetch, classify, hbus, accessTarget_addr, hr]
  simp [step, hfetch, transfer, busWrite, accessTarget_addr]

/-- A read logs its register's value. -/
theorem step_read {s : State} {r : Reg} {rest : List Txn} (hbus : s.bus = .read (BitVec.ofNat 12 r.addr) 32 :: rest) :
    step s = .next (s.advance.logRead (regRead s.advance r)) := by
  simp [step, fetch, classify, hbus, transfer, busRead, accessTarget_addr]

/-- A write to `CMD` runs its word. -/
theorem step_command {s : State} {w : Word} {rest : List Txn} (hbus : s.bus = commandTxn w :: rest) :
    step s = runCommand w s.advance := by
  have hcmd : accessTarget 0x008#12 32 = some .cmd := accessTarget_addr .cmd
  simp [step, fetch, classify, hbus, commandTxn, hcmd]

theorem State.advance_eq {s : State} {t : Txn} {rest : List Txn} (hbus : s.bus = t :: rest) :
    s.advance = { s with bus := rest, pc := s.pc + 1 } := by
  simp [State.advance, hbus]

/-- Settles O4. -/
theorem stepRunsDecoded : Obligations.StepRunsDecoded := by
  intro s w i rest hbus hdec
  rw [step_command hbus, State.advance_eq hbus, runCommand, hdec]

/-! ### What a step can do -/

/-- The seven things a step can do, and what it leaves (R23, R74, R75, R100, R112, R410). -/
inductive StepResult (s : State) : State → Prop where
  | idle : StepResult s s
  | instruction (i : Instr) (t : State) : exec i s.advance = .next t → StepResult s t
  | illegal : StepResult s (illegalCommand s.advance)
  | write (r : Reg) (v : Word) (rest : List Txn) : s.bus = .write (BitVec.ofNat 12 r.addr) 32 v :: rest →
      StepResult s (regWrite s.advance r v)
  | ignoredWrite : StepResult s (busError s.advance)
  | read (v : Word) : StepResult s (s.advance.logRead v)
  | ignoredRead : StepResult s ((busError s.advance).logRead 0#32)

/-- Every step answers a next state (R400), in one of the seven ways. -/
theorem step_result (s : State) : ∃ t, step s = .next t ∧ StepResult s t := by
  unfold step
  cases hf : fetch s with
  | idle => exact ⟨_, rfl, .idle⟩
  | command w =>
    simp only [runCommand]
    cases decode w with
    | ok i =>
      obtain ⟨t, ht, -⟩ := exec_touches i s.advance
      exact ⟨t, ht, .instruction i t ht⟩
    | error _ => exact ⟨_, rfl, .illegal⟩
  | transfer t =>
    refine ⟨_, rfl, ?_⟩
    cases hbus : s.bus with
    | nil => simp [fetch, hbus] at hf
    | cons x rest =>
      rw [fetch, hbus] at hf
      cases x with
      | read a bits =>
        obtain rfl : Txn.read a bits = t := by simpa [classify] using hf
        simp only [transfer, busRead]
        cases accessTarget a bits with
        | some r => exact .read _
        | none => exact .ignoredRead
      | write a bits v =>
        obtain rfl : Txn.write a bits v = t := by
          simp only [classify] at hf
          split at hf
          · cases hf
          · exact Fetched.transfer.inj hf
        simp only [transfer, busWrite]
        cases htarget : accessTarget a bits with
        | some r =>
          obtain ⟨rfl, rfl⟩ := accessTarget_eq_some htarget
          exact .write r v rest hbus
        | none => exact .ignoredWrite

theorem stepResult_of_step {s t : State} (h : step s = .next t) : StepResult s t := by
  obtain ⟨u, hu, hres⟩ := step_result s
  exact Host.Outcome.next.inj (hu.symm.trans h) ▸ hres

theorem execNop_eq (s : State) : exec .nop s = .next s := rfl

/-- No rule writes an `ARG` register (R21), the pc (R23) or `CAP` (R42). -/
theorem not_mayChange (i : Instr) (s : State) : (∀ k, ¬ mayChange i s (.arg k)) ∧ ¬ mayChange i s .pc ∧ ¬ mayChange i s .capacity := by
  cases i <;> simp [mayChange, slotPart]

/-- Settles O6: what no rule writes stays, by the frame of the instruction; a step does one of the seven things. -/
theorem everyInstructionCompletes : Obligations.EveryInstructionCompletes := by
  refine ⟨fun i s => ?_, fun s => ?_, rfl, execNop_eq⟩
  · obtain ⟨t, ht, htouch⟩ := exec_touches i s
    obtain ⟨harg, hpc, hcap⟩ := not_mayChange i s
    exact ⟨t, ht, Per8.ext_get fun k => htouch.frame (.arg k) (harg k), htouch.frame .pc hpc, htouch.frame .capacity hcap,
      htouch.bus, htouch.readLog⟩
  · obtain ⟨t, ht, -⟩ := step_result s
    exact ⟨t, ht⟩

/-! ### The invariants of the memory and of the smoothers -/

theorem advance_keeps (s : State) : KeepsInvariants s s.advance := .of_eq rfl rfl rfl rfl

theorem logRead_keeps (s : State) (v : Word) : KeepsInvariants s (s.logRead v) := .of_eq rfl rfl rfl rfl

theorem raise_keeps (s : State) (f : Flag) (b : Bool) : KeepsInvariants s (s.raise f b) := .of_eq rfl rfl rfl rfl

/-- A register the host may write is none of the memory's, the lines', the capacity or the smoothers'. -/
theorem regWrite_keeps (s : State) (r : Reg) (v : Word) : KeepsInvariants s (regWrite s r v) := by
  cases r <;> exact .of_eq rfl rfl rfl rfl

theorem step_keepsInvariants {s t : State} (h : step s = .next t) : KeepsInvariants s t := by
  have hadv := advance_keeps s
  cases stepResult_of_step h with
  | idle => exact .of_eq rfl rfl rfl rfl
  | instruction i t hexec => exact hadv.trans (touches_of_exec hexec).toKeepsInvariants
  | illegal | ignoredWrite => exact hadv.trans (raise_keeps ..)
  | write r v => exact hadv.trans (regWrite_keeps _ r v)
  | read v => exact hadv.trans (logRead_keeps _ v)
  | ignoredRead => exact hadv.trans ((raise_keeps ..).trans (logRead_keeps ..))

/-- Settles O49: no update that an instruction or a transaction is made of breaks a smoother's invariant. -/
theorem smootherInvKept : Obligations.SmootherInvKept := fun _ _ hs h => (step_keepsInvariants h).smoothers hs

/-- Settles O59: no update that an instruction or a transaction is made of breaks the memory's invariant. -/
theorem memoryInvKept : Obligations.MemoryInvKept := fun _ _ hs h => (step_keepsInvariants h).memory hs

/-! ### The sticky flags -/

/-- A register write does to the flags what its access says: write-one-to-clear is `STATUS` alone (R25, R27, R75). -/
theorem regWrite_status (s : State) (r : Reg) (v : Word) :
    (regWrite s r v).status =
      if r = .status then s.status.writeOneToClear v
      else if r.access = .ro then s.status.raise .buserr true
      else s.status := by
  cases r <;> rfl

/-- A write to any register but `STATUS` clears no flag. -/
theorem regWrite_sticky {s : State} {r : Reg} {v : Word} (hr : r ≠ .status) {f : Flag} (h : s.status.flag f = true) :
    (regWrite s r v).status.flag f = true := by
  rw [regWrite_status, if_neg hr]
  split
  · exact Status.sticky_raise h
  · exact h

/-- A step that is no write to `STATUS` clears no flag. -/
theorem step_sticky {s t : State} (h : step s = .next t) {f : Flag}
    (hno : ∀ v rest, s.bus ≠ .write (BitVec.ofNat 12 Reg.status.addr) 32 v :: rest) (hf : s.status.flag f = true) :
    t.status.flag f = true := by
  cases stepResult_of_step h with
  | idle => exact hf
  | instruction i t hexec => exact (touches_of_exec hexec).sticky f hf
  | illegal | ignoredWrite | ignoredRead => exact Status.sticky_raise hf
  | write r v rest hbus =>
    have hr : r ≠ .status := fun e => hno v rest (e ▸ hbus)
    exact regWrite_sticky hr hf
  | read v => exact hf

theorem advance_frame (s : State) : keptExcept (fun p => p = .pc) s s.advance := by
  intro p hp
  cases p with
  | pc => exact absurd rfl hp
  | _ => rfl

/-- A write to `STATUS` changes the flags alone. -/
theorem regWrite_status_frame (s : State) (v : Word) : keptExcept (fun p => ∃ f, p = .flag f) s (regWrite s .status v) := by
  intro p hp
  cases p with
  | flag f => exact absurd ⟨f, rfl⟩ hp
  | _ => rfl

/-- Settles O58: every update raises flags, none clears one, but for the write to `STATUS`. -/
theorem statusSticky : Obligations.StatusSticky := by
  intro s t h
  refine ⟨fun f hno hf => step_sticky h hno hf, fun v rest hbus => ?_⟩
  have hstep : step s = .next (regWrite s.advance .status v) := step_write (r := .status) hbus (by decide)
  obtain rfl : regWrite s.advance .status v = t := Host.Outcome.next.inj (hstep.symm.trans h)
  refine ⟨regWrite_status s.advance .status v, ?_⟩
  exact ((advance_frame s).mono fun _ => Or.inr).trans ((regWrite_status_frame s.advance v).mono fun _ => Or.inl)

end Sys2Proof.Machine
end

section
/-! Register accesses (R27, R74): what a write to a read-write register does to each register of the map and to each part, and O56. -/

namespace Sys2Proof.Machine

variable {s : State} {r q : Reg} {v : Word}

/-! ### The state after a register write -/

@[simp] theorem regRead_advance (s : State) (r : Reg) : regRead s.advance r = regRead s r := by
  cases r <;> rfl

@[simp] theorem regWrite_mem (s : State) (r : Reg) (v : Word) : (regWrite s r v).mem = s.mem := by
  cases r <;> rfl

@[simp] theorem regWrite_pc (s : State) (r : Reg) (v : Word) : (regWrite s r v).pc = s.pc := by
  cases r <;> rfl

/-- Of the clock, a register write reaches the three fields the host may write. -/
theorem regWrite_ck (s : State) (r : Reg) (v : Word) :
    (regWrite s r v).ck = { s.ck with
      ppqnInt := (regWrite s r v).ck.ppqnInt
      ppqnExt := (regWrite s r v).ck.ppqnExt
      clockTimeout := (regWrite s r v).ck.clockTimeout } := by
  cases r <;> rfl

/-- Of the engine, a register write reaches the generator. -/
theorem regWrite_fx (s : State) (r : Reg) (v : Word) : (regWrite s r v).fx = { s.fx with rng := (regWrite s r v).fx.rng } := by
  cases r <;> rfl

/-- A write to a read-write register touches the part that holds it. -/
theorem regWrite_touches (hr : r.access = .rw) : Touches (fun p => p.holdsRegister r) s (regWrite s r v) := by
  cases r with
  | arg i => exact .setArg rfl
  | ckPpqnInt | ckPpqnExt | ckTimeout => exact .setCk rfl
  | fxDry c | fxDly c | fxP c => exact .setFxIn rfl
  | fxMeta1 | fxMeta2 | fxCtl | fxFb => exact .setFxIn rfl
  | fxRng => exact .setFx rfl
  | _ => cases hr

/-! ### The registers after a register write -/

/-- A read-write register reads what was written, but for a PPQN written 0 (R27). -/
theorem regRead_regWrite_self (hr : r.access = .rw) :
    regRead (regWrite s r v) r = if (r = .ckPpqnInt ∨ r = .ckPpqnExt) ∧ v = 0#32 then 1#32 else v := by
  cases r with
  | arg i => simp [regWrite, regRead]
  | ckPpqnInt | ckPpqnExt => simp [regWrite, regRead, ppqnStored]
  | fxDry c | fxDly c | fxP c => simp [regWrite, regRead]
  | fxMeta1 | fxMeta2 | fxFb => simp [regWrite, regRead]
  | ckTimeout | fxCtl | fxRng => simp [regWrite, regRead]
  | _ => cases hr

/-- Every other register reads as before, but for `CK_FLAGS`, which shows whether the timeout has passed. -/
theorem regRead_regWrite_of_ne (hr : r.access = .rw) (hq : q ≠ r) (hflags : q ≠ .ckFlags) :
    regRead (regWrite s r v) q = regRead s q := by
  cases r with
  | arg i =>
    cases q with
    | arg j =>
      have hd : j ≠ i := fun e => hq (e ▸ rfl)
      simp [regWrite, regRead, hd]
    | _ => rfl
  | fxDry c =>
    cases q with
    | fxDry d =>
      have hd : d ≠ c := fun e => hq (e ▸ rfl)
      simp [regWrite, regRead, hd]
    | _ => rfl
  | fxDly c =>
    cases q with
    | fxDly d =>
      have hd : d ≠ c := fun e => hq (e ▸ rfl)
      simp [regWrite, regRead, hd]
    | _ => rfl
  | fxP c =>
    cases q with
    | fxP d =>
      have hd : d ≠ c := fun e => hq (e ▸ rfl)
      simp [regWrite, regRead, hd]
    | _ => rfl
  | ckPpqnInt | ckPpqnExt | ckTimeout | fxMeta1 | fxMeta2 | fxCtl | fxFb | fxRng =>
    -- `q` is untouched, or it is one of the two registers set apart.
    cases q <;> first | rfl | contradiction
  | _ => cases hr

/-- Settles O56: a read is one entry of the log; a write touches the part that holds its register, and no other register is read from the
field it changes. -/
theorem registerAccess : Obligations.RegisterAccess := by
  intro s r v rest
  constructor
  · intro hbus
    rw [step_read hbus, regRead_advance, State.advance_eq hbus]
    rfl
  · intro hbus hr
    have hcmd : r ≠ .cmd := fun e => by cases e; cases hr
    have htouch : Touches (fun p => p.holdsRegister r) s.advance (regWrite s.advance r v) := regWrite_touches hr
    refine ⟨regWrite s.advance r v, step_write hbus hcmd, htouch.readLog, regWrite_mem .., ?_, regWrite_pc ..,
      regRead_regWrite_self hr, fun q hq hflags => ?_, ?_, regWrite_ck .., regWrite_fx ..⟩
    · rw [htouch.bus, State.advance_eq hbus]
    · rw [regRead_regWrite_of_ne hr hq hflags, regRead_advance]
    · exact ((advance_frame s).mono fun _ => Or.inr).trans (htouch.frame.mono fun _ => Or.inl)

end Sys2Proof.Machine
end

section
/-! Hardware reset (R430): the invariants hold of the state it leaves, and O60. Each part of the reset state is a closed value, so what it
holds is evaluated; only the capacity is open (log 1). -/

namespace Sys2Proof.Machine

/-! ### The invariants at reset -/

theorem memoryInv_reset : memoryInv State.reset := by
  refine ⟨State.reset_mem_wf, fun c => ?_⟩
  have hcap := State.reset.cap_bounds
  have hwp : (State.reset.dl.get c).wp = 0#32 := by fin_cases c <;> rfl
  rw [hwp, BitVec.toNat_ofNat]
  omega

theorem phasorInv_reset : phasorInv Phasor.reset := by
  unfold phasorInv
  decide +kernel

theorem clockInv_reset : clockInv Clock.reset := by
  unfold clockInv averagesInv
  decide +kernel

theorem fxChannelInv_resetAt {x y : F32} (hx : inUnit x = true) (hy : inUnit y = true) : fxChannelInv (FxChannel.resetAt x y) := by
  have hgrain (g : Fin 4) : grainInv ((FxChannel.resetAt x y).grain.get g) := by
    fin_cases g <;> nofun
  exact ⟨rfl, rfl, rfl, rfl, Nat.zero_le 24, fun k => by fin_cases k <;> rfl, fun k => by fin_cases k <;> rfl, rfl, rfl, hx, hy, hgrain⟩

theorem fxInv_reset : fxInv State.reset.fx := by
  refine ⟨rfl, rfl, rfl, fun l => by fin_cases l <;> rfl, fun c => ?_⟩
  fin_cases c <;> exact fxChannelInv_resetAt rfl rfl

theorem smootherInv_reset (k : Fin 8) : smootherInv (State.reset.sm.get k) := by
  fin_cases k <;> exact ⟨rfl, rfl⟩

/-! ### What the registers read at reset -/

/-- The registers of a channel after reset, but for the host's inputs (R27). -/
theorem regRead_reset_channel (c : Fin 4) :
    regRead State.reset (.dlWp c) = 0#32 ∧ regRead State.reset (.dlDlyi c) = 0#32 ∧ regRead State.reset (.dlDlyf c) = 0#32 ∧
    regRead State.reset (.phMain c) = 0#32 ∧ regRead State.reset (.phMod c) = 0#32 ∧ regRead State.reset (.phSr c) = 0x473B8000#32 ∧
    regRead State.reset (.phDsamp c) = 0x473B8000#32 ∧ regRead State.reset (.phFreq c) = 0x3F800000#32 ∧
    regRead State.reset (.phRatio c) = 0x3F800000#32 ∧ regRead State.reset (.phDepth c) = 0#32 ∧
    regRead State.reset (.fxWet c) = 0#32 ∧ regRead State.reset (.fxWhich c) = 0#32 := by
  fin_cases c <;> decide

theorem regRead_reset_input (c : Fin 4) : regRead State.reset (.fxDry c) = 0#32 ∧ regRead State.reset (.fxDly c) = 0#32 := by
  fin_cases c <;> decide

theorem regRead_reset_general (i : Fin 8) : regRead State.reset (.arg i) = 0#32 ∧ regRead State.reset (.res i) = 0#32 := by
  fin_cases i <;> decide

theorem regRead_reset_smoother (k : Fin 8) : regRead State.reset (.smY k) = 0#32 ∧ regRead State.reset (.smA k) = 0x3F800000#32 := by
  fin_cases k <;> decide

theorem regRead_reset_average (j : Fin 3) : regRead State.reset (.ckAvg j) = 0#32 := by
  fin_cases j <;> rfl

/-- `FX.INIT` at 48000 Hz leaves the engine as reset does (R211, R430). -/
theorem execFxInit_reset : ∃ t, exec .fxInit (State.reset.setArg 0 0x473B8000#32) = .next t ∧ t.fx = State.reset.fx := by
  have hrate : rateOr (argF (State.reset.setArg 0 0x473B8000#32) 0) = Config.srNomF := by decide +kernel
  refine ⟨_, rfl, ?_⟩
  rw [State.setFx_fx, hrate]
  rfl

/-- The tempo at reset is 120 BPM (R194). -/
theorem execCkGetbpm_reset : ∃ t, exec .ckGetbpm State.reset = .next t ∧ t.res.get 0 = 120#32 := by
  refine ⟨_, rfl, ?_⟩
  decide +kernel

/-- Settles O60: the closed values evaluated, the capacity by its type. -/
theorem resetState : Obligations.ResetState := by
  obtain ⟨hcapLow, hcapHigh⟩ := State.reset.cap_bounds
  exact ⟨regRead_reset_general, rfl, rfl, by decide, rfl, rfl, rfl, rfl, rfl, rfl, hcapLow, hcapHigh, rfl, rfl, rfl, rfl, rfl,
    rfl, rfl, regRead_reset_average, rfl, regRead_reset_input, by decide, by decide, rfl, by decide, regRead_reset_general, rfl, rfl,
    rfl, rfl, rfl, by decide, by decide, by decide, by decide, by decide, regRead_reset_channel, regRead_reset_smoother,
    execCkGetbpm_reset, execFxInit_reset, memoryInv_reset, fun c => by fin_cases c <;> exact phasorInv_reset, clockInv_reset,
    fxInv_reset, smootherInv_reset⟩

end Sys2Proof.Machine
end

section
/-! Ignored accesses (R75): an access on one of the four grounds reaches no register it may act on, so it raises `BUSERR` and is done. -/

namespace Sys2Proof.Machine

variable {s : State} {a : BitVec 12} {bits : Nat} {v : Word} {rest : List Txn}

/-! ### The grounds for ignoring an access -/

theorem accessTarget_eq_some_iff {r : Reg} :
    accessTarget a bits = some r ↔ bits = 32 ∧ a.toNat % 4 = 0 ∧ regAt a.toNat = some r := by
  simp [accessTarget, and_assoc]

/-- A read on one of the grounds reaches no register. -/
theorem accessTarget_ignoredRead
    (h : (Txn.read a bits).wide = false ∨ (Txn.read a bits).aligned = false ∨ (Txn.read a bits).mapped = false ∨
      (Txn.read a bits).permitted = false) :
    accessTarget a bits = none := by
  refine Option.eq_none_iff_forall_ne_some.2 fun r htarget => ?_
  obtain ⟨hbits, halign, hreg⟩ := accessTarget_eq_some_iff.1 htarget
  simp [Txn.wide, Txn.aligned, Txn.mapped, Txn.permitted, hbits, halign, hreg] at h

/-- If a write on one of the grounds reaches a register, the ground is that the register is read-only. -/
theorem readOnly_of_ignoredWrite {r : Reg}
    (h : (Txn.write a bits v).wide = false ∨ (Txn.write a bits v).aligned = false ∨ (Txn.write a bits v).mapped = false ∨
      (Txn.write a bits v).permitted = false) (htarget : accessTarget a bits = some r) :
    r.access = .ro := by
  obtain ⟨hbits, halign, hreg⟩ := accessTarget_eq_some_iff.1 htarget
  simpa [Txn.wide, Txn.aligned, Txn.mapped, Txn.permitted, hbits, halign, hreg] using h

/-! ### What an ignored access does -/

/-- A write to a read-only register stores nothing (R75). -/
theorem regWrite_of_readOnly {r : Reg} (hr : r.access = .ro) (s : State) (v : Word) : regWrite s r v = busError s := by
  cases r with
  | status | cmd | arg i | ckPpqnInt | ckPpqnExt | ckTimeout => cases hr
  | fxDry c | fxDly c | fxMeta1 | fxMeta2 | fxCtl | fxFb | fxP k | fxRng => cases hr
  | _ => rfl

/-- A read that reaches no register raises `BUSERR` and answers 0. -/
theorem step_ignoredRead (hbus : s.bus = .read a bits :: rest) (htarget : accessTarget a bits = none) :
    step s = .next ((busError s.advance).logRead 0#32) := by
  simp [step, fetch, classify, hbus, transfer, busRead, htarget]

/-- A write that reaches no register but a read-only one raises `BUSERR`; it is no command, since `CMD` is not read-only. -/
theorem step_ignoredWrite (hbus : s.bus = .write a bits v :: rest)
    (hro : ∀ r, accessTarget a bits = some r → r.access = .ro) : step s = .next (busError s.advance) := by
  have hcmd : accessTarget a bits ≠ some .cmd := fun e => nomatch hro .cmd e
  have hwrite : busWrite s.advance a bits v = busError s.advance := by
    unfold busWrite
    split
    · next r htarget => exact regWrite_of_readOnly (hro r htarget) ..
    · rfl
  simp [step, fetch, classify, hbus, hcmd, transfer, hwrite]

theorem busError_flag (s : State) : (busError s).status.flag .buserr = true := by
  simp [busError]

theorem logRead_frame (P : Part → Prop) (s : State) (v : Word) : keptExcept P s (s.logRead v) := fun p _ => by
  cases p <;> rfl

/-- Taking a transaction off the list and raising `BUSERR` changes the flag and the pc. -/
theorem busError_advance_frame (s : State) : keptExcept (fun p => p = .flag .buserr ∨ p = .pc) s (busError s.advance) :=
  ((advance_frame s).mono fun _ => Or.inr).trans (Touches.raise (Or.inl rfl)).frame

/-- Settles O57: an ignored access is a bus error, logged as 0 if it is a read; `CMD` is a mapped register that reads 0. -/
theorem ignoredAccess : Obligations.IgnoredAccess := by
  refine ⟨fun s x rest hbus hground => ?_, fun s rest hbus => ?_⟩
  · have hframe := busError_advance_frame s
    cases x with
    | read a bits =>
      exact ⟨_, step_ignoredRead hbus (accessTarget_ignoredRead hground), busError_flag _, hframe.trans (logRead_frame _ _ _), rfl⟩
    | write a bits v =>
      exact ⟨_, step_ignoredWrite hbus fun _ => readOnly_of_ignoredWrite hground, busError_flag _, hframe, rfl⟩
  · have hstep := step_read (r := .cmd) hbus
    rw [hstep, State.advance_eq hbus]
    rfl

end Sys2Proof.Machine
end

section
/-! The codec of command words (R100 to R109, R112). A word is decoded from its five fields, so the statements about words are statements
about fields: how a word is put together from them or taken apart, which fields are legal, and what the operation they select encodes to. -/

namespace Sys2Proof

/-! ### A word and its fields (R101) -/

theorem commandWord_toNat (op inst imm : Nat) :
    (commandWord op inst imm).toNat = (op * 16777216 + inst * 1048576 + imm) % 4294967296 := by
  simp [commandWord]

/-- The fields from the word's value. The word is a variable here: `omega` on the value of an applied `commandWord` makes the kernel
evaluate it. -/
theorem fieldsOf_eq_of_toNat {w : Word} {op inst imm : Nat} (hw : w.toNat = (op * 16777216 + inst * 1048576 + imm) % 4294967296)
    (hinst : inst < 16) (himm : imm < 2 ^ 16) :
    fieldsOf w = ⟨BitVec.ofNat 4 (op / 16), BitVec.ofNat 4 (op % 16), BitVec.ofNat 4 inst, 0, BitVec.ofNat 16 imm⟩ := by
  simp only [fieldsOf, Fields.mk.injEq, ← BitVec.toNat_inj, BitVec.extractLsb'_toNat, BitVec.ofNat_eq_ofNat, BitVec.toNat_ofNat,
    Nat.shiftRight_eq_div_pow]
  omega

theorem fieldsOf_commandWord (op : Nat) {inst imm : Nat} (hinst : inst < 16) (himm : imm < 2 ^ 16) :
    fieldsOf (commandWord op inst imm) =
      ⟨BitVec.ofNat 4 (op / 16), BitVec.ofNat 4 (op % 16), BitVec.ofNat 4 inst, 0, BitVec.ofNat 16 imm⟩ :=
  fieldsOf_eq_of_toNat (commandWord_toNat op inst imm) hinst himm

/-- A word whose `zero` field is 0 is the command word of its other fields. -/
theorem commandWord_fieldsOf {w : Word} (hzero : (fieldsOf w).zero = 0) :
    commandWord ((fieldsOf w).unit.toNat * 16 + (fieldsOf w).fn.toNat) (fieldsOf w).inst.toNat (fieldsOf w).imm.toNat = w := by
  have hz := congrArg BitVec.toNat hzero
  apply BitVec.eq_of_toNat_eq
  rw [commandWord_toNat]
  simp only [fieldsOf, BitVec.extractLsb'_toNat, BitVec.ofNat_eq_ofNat, BitVec.toNat_ofNat, Nat.shiftRight_eq_div_pow] at hz ⊢
  omega

theorem fieldsOf_and (v w : Word) :
    fieldsOf (v &&& w) =
      ⟨(fieldsOf v).unit &&& (fieldsOf w).unit, (fieldsOf v).fn &&& (fieldsOf w).fn, (fieldsOf v).inst &&& (fieldsOf w).inst,
        (fieldsOf v).zero &&& (fieldsOf w).zero, (fieldsOf v).imm &&& (fieldsOf w).imm⟩ := by
  simp [fieldsOf, BitVec.extractLsb'_and]

/-! ### Live bits -/

theorem and_eq_self_of_and_not_eq_zero {n : Nat} {x m : BitVec n} (h : x &&& ~~~m = 0) : x &&& m = x := by
  calc x &&& m = (x &&& m) ||| (x &&& ~~~m) := by rw [h]; simp
    _ = x &&& (m ||| ~~~m) := BitVec.and_or_distrib_left.symm
    _ = x := by simp

theorem toNat_and_live {imm live : BitVec 16} (h : imm &&& ~~~live = 0) : imm.toNat &&& live.toNat = imm.toNat := by
  rw [← BitVec.toNat_and, and_eq_self_of_and_not_eq_zero h]

theorem toNat_le_live {imm live : BitVec 16} (h : imm &&& ~~~live = 0) : imm.toNat ≤ live.toNat :=
  toNat_and_live h ▸ Nat.and_le_right

/-- An immediate with no live bit is 0. -/
theorem toNat_eq_zero_of_dead {imm : BitVec 16} (h : imm &&& ~~~(0 : BitVec 16) = 0) : imm.toNat = 0 :=
  Nat.le_zero.1 (toNat_le_live h)

/-! ### Legal fields -/

/-- The tests of R112 the decoder makes before it looks at the operation. -/
structure Fields.Legal (f : Fields) : Prop where
  fn : f.fn.toNat < fnCount f.unit.toNat
  inst : f.inst.toNat < instCount f.unit.toNat f.fn.toNat
  zero : f.zero = 0
  imm : f.imm &&& ~~~(liveImm f.unit.toNat f.fn.toNat) = 0

theorem unit_lt_of_fn_lt {unit fn : Nat} (h : fn < fnCount unit) : unit < 8 := by
  by_contra hunit
  obtain ⟨k, rfl⟩ := Nat.exists_eq_add_of_le (Nat.le_of_not_lt hunit)
  simp [fnCount, Nat.add_comm 8 k] at h

theorem decodeFields_of_legal {f : Fields} (h : f.Legal) : decodeFields f = decodeOp f.unit.toNat f.fn.toNat f.inst f.imm := by
  obtain ⟨hfn, hinst, hzero, himm⟩ := h
  simp [decodeFields, Nat.not_le.2 (unit_lt_of_fn_lt hfn), Nat.not_le.2 hfn, Nat.not_le.2 hinst, hzero, himm]

theorem legal_of_decodeFields {f : Fields} {i : Instr} (h : decodeFields f = .ok i) : f.Legal := by
  unfold decodeFields at h
  simp only at h
  split_ifs at h with hunit hfn hinst hzero himm
  exact ⟨Nat.lt_of_not_le hfn, Nat.lt_of_not_le hinst, not_not.1 hzero, not_not.1 himm⟩

theorem decode_eq_ok_iff {w : Word} {i : Instr} :
    decode w = .ok i ↔
      (fieldsOf w).Legal ∧ decodeOp (fieldsOf w).unit.toNat (fieldsOf w).fn.toNat (fieldsOf w).inst (fieldsOf w).imm = .ok i :=
  ⟨fun h => ⟨legal_of_decodeFields h, decodeFields_of_legal (legal_of_decodeFields h) ▸ h⟩,
    fun ⟨hlegal, hop⟩ => (decodeFields_of_legal hlegal).trans hop⟩

/-- The decoder on a word put together from its fields. -/
theorem decode_commandWord {op inst imm : Nat} (hop : op < 256) (hfn : op % 16 < fnCount (op / 16))
    (hinst : inst < instCount (op / 16) (op % 16)) (himm : imm < 2 ^ 16)
    (hlive : BitVec.ofNat 16 imm &&& ~~~(liveImm (op / 16) (op % 16)) = 0) :
    decode (commandWord op inst imm) = decodeOp (op / 16) (op % 16) (BitVec.ofNat 4 inst) (BitVec.ofNat 16 imm) := by
  have hcount : instCount (op / 16) (op % 16) ≤ 8 := by
    unfold instCount
    split_ifs <;> decide
  have hunit : (BitVec.ofNat 4 (op / 16)).toNat = op / 16 := by simp; omega
  have hfn4 : (BitVec.ofNat 4 (op % 16)).toNat = op % 16 := by simp
  have hinst4 : (BitVec.ofNat 4 inst).toNat = inst := by simp; omega
  rw [decode, fieldsOf_commandWord op (by omega) himm, decodeFields_of_legal, hunit, hfn4]
  exact ⟨by rwa [hunit, hfn4], by rwa [hunit, hfn4, hinst4], rfl, by rwa [hunit, hfn4]⟩

/-! ### Operands -/

theorem instChannel_val {inst : BitVec 4} (h : inst.toNat < 4) : (instChannel inst).val = inst.toNat := Nat.mod_eq_of_lt h

theorem instSmoother_val {inst : BitVec 4} (h : inst.toNat < 8) : (instSmoother inst).val = inst.toNat := Nat.mod_eq_of_lt h

@[simp] theorem instChannel_ofNat (c : Fin 4) : instChannel (BitVec.ofNat 4 c.val) = c := by
  revert c; decide

@[simp] theorem instSmoother_ofNat (k : Fin 8) : instSmoother (BitVec.ofNat 4 k.val) = k := by
  revert k; decide

theorem immTri_value {imm : BitVec 16} (h : imm.toNat ≤ 1) : (if immTri imm then 1 else 0) = imm.toNat := by
  obtain h0 | h1 : imm.toNat = 0 ∨ imm.toNat = 1 := by omega
  · simp [immTri, h0]
  · simp [immTri, h1]

theorem fxModeOf_eq_some_iff {n : Nat} {m : FxMode} : fxModeOf n = some m ↔ m.code = n := by
  refine ⟨fun h => ?_, fun h => ?_⟩
  · unfold fxModeOf at h
    split at h <;> cases h <;> rfl
  · subst h
    cases m <;> rfl

theorem code_lt (m : FxMode) : m.code < 12 := by
  cases m <;> decide

/-- Twelve numbers name an effect mode (R105). -/
theorem exists_fxModeOf {n : Nat} (h : n < 12) : ∃ m, fxModeOf n = some m := by
  interval_cases n <;> exact ⟨_, rfl⟩

theorem encode_fxProcInstr (m : FxMode) : encode (fxProcInstr m) = commandWord 0x41 0 m.code := by
  cases m <;> rfl

theorem encode_setmodeInstr {n : Nat} {m : ClockMode} (h : clockModeOf n = some m) : encode (setmodeInstr m) = commandWord 0x32 0 n := by
  unfold clockModeOf at h
  split at h <;> cases h <;> rfl

/-- The immediate of a `PS.*` word has a mode and a slot and nothing else (R106). -/
theorem psImm_of_live {imm : BitVec 16} {m : FxMode} (hlive : imm &&& ~~~0x00F3#16 = 0)
    (hmode : fxModeOf (imm.toNat / 16 % 16) = some m) : psImm m (immSlot imm) = imm.toNat := by
  have hle : imm.toNat ≤ 0xF3 := toNat_le_live hlive
  have hlow : imm.toNat % 2 ^ 4 ≤ 3 := by
    calc imm.toNat % 2 ^ 4 = (imm.toNat &&& 0xF3) % 2 ^ 4 := congrArg (· % 2 ^ 4) (toNat_and_live hlive).symm
      _ = imm.toNat % 2 ^ 4 &&& 3 := Nat.and_mod_two_pow
      _ ≤ 3 := Nat.and_le_right
  simp only [psImm, immSlot, fxModeOf_eq_some_iff.1 hmode]
  omega

theorem decodePs_psImm (mk : FxMode → Fin 4 → Instr) (m : FxMode) (slot : Fin 4) :
    decodePs mk (BitVec.ofNat 16 (psImm m slot)) = .ok (mk m slot) := by
  have hcode := code_lt m
  have hnat : (BitVec.ofNat 16 (psImm m slot)).toNat = m.code * 16 + slot.val := by
    simp [psImm]; omega
  have hmode : fxModeOf ((BitVec.ofNat 16 (psImm m slot)).toNat / 16 % 16) = some m :=
    fxModeOf_eq_some_iff.2 (by omega)
  have hslot : immSlot (BitVec.ofNat 16 (psImm m slot)) = slot := Fin.ext (by simp only [immSlot]; omega)
  rw [decodePs, hmode, hslot]

theorem psImm_live (m : FxMode) (slot : Fin 4) : BitVec.ofNat 16 (psImm m slot) &&& ~~~0x00F3#16 = 0 := by
  cases m <;> revert slot <;> decide

theorem psImm_lt (m : FxMode) (slot : Fin 4) : psImm m slot < 2 ^ 16 := by
  have := code_lt m
  simp only [psImm]; omega

/-! ### Decode after encode -/

/-- Settles O1: the encoder puts each operand in the field the decoder takes it from; a word without an operand is a constant. -/
theorem decodeOfEncode : Obligations.DecodeOfEncode := by
  intro i
  cases i with
  | dlInit c | dlWrite c | dlWriteg c | dlSetdly c | dlRead0 c | dlRead c | dlReadh c
  | phInit c | phSetdly c | phSetratio c | phSetdepth c | phProc c =>
    refine (decode_commandWord (by decide) (by decide) c.isLt (by decide) (by decide)).trans ?_
    simp [decodeOp]
  | phGetpos c tri | phGetsmp c tri =>
    cases tri
    all_goals
      refine (decode_commandWord (by decide) (by decide) c.isLt (by decide) (by decide)).trans ?_
      simp [decodeOp, immTri]
  | smSet k | smCoef k | smStep k =>
    refine (decode_commandWord (by decide) (by decide) k.isLt (by decide) (by decide)).trans ?_
    simp [decodeOp]
  | psGet m slot | psMap m slot | psUnmap m slot =>
    refine (decode_commandWord (by decide) (by decide) (by decide) (psImm_lt m slot) ?_).trans ?_
    · exact psImm_live m slot
    · exact decodePs_psImm _ m slot
  | _ => rfl

/-- Settles O5: each word is the word of its instruction. -/
theorem decodesSpecWords : Obligations.DecodesSpecWords :=
  ⟨decodeOfEncode .nop, decodeOfEncode (.dlReadh 2), decodeOfEncode (.dlWriteg 3), decodeOfEncode (.phGetpos 1 true),
    decodeOfEncode (.phGetsmp 3 false), decodeOfEncode .ckSetmodeMidi, decodeOfEncode .fxProcChorus, decodeOfEncode .fxProcFluid,
    decodeOfEncode .wsTanhf, decodeOfEncode (.smStep 5), decodeOfEncode (.smSet 7), decodeOfEncode (.psMap .chorus 2),
    decodeOfEncode (.psUnmap .fluid 3)⟩

/-! ### Encode after decode -/

section EncodeOfDecode

variable {op : Nat} {inst : BitVec 4} {imm : BitVec 16} {i : Instr}

theorem encode_of_plainOp {j : Instr} (henc : encode j = commandWord op 0 0) (hinst : inst.toNat < 1) (hlive : imm &&& ~~~0#16 = 0)
    (h : Except.ok (ε := Illegal) j = .ok i) : encode i = commandWord op inst.toNat imm.toNat := by
  cases h
  rw [henc, Nat.lt_one_iff.1 hinst, toNat_eq_zero_of_dead hlive]

theorem encode_of_channelOp {mk : Fin 4 → Instr} (henc : ∀ c, encode (mk c) = commandWord op c.val 0) (hinst : inst.toNat < 4)
    (hlive : imm &&& ~~~0#16 = 0) (h : Except.ok (ε := Illegal) (mk (instChannel inst)) = .ok i) :
    encode i = commandWord op inst.toNat imm.toNat := by
  cases h
  rw [henc, instChannel_val hinst, toNat_eq_zero_of_dead hlive]

theorem encode_of_smootherOp {mk : Fin 8 → Instr} (henc : ∀ k, encode (mk k) = commandWord op k.val 0) (hinst : inst.toNat < 8)
    (hlive : imm &&& ~~~0#16 = 0) (h : Except.ok (ε := Illegal) (mk (instSmoother inst)) = .ok i) :
    encode i = commandWord op inst.toNat imm.toNat := by
  cases h
  rw [henc, instSmoother_val hinst, toNat_eq_zero_of_dead hlive]

theorem encode_of_triangleOp {mk : Fin 4 → Bool → Instr} (henc : ∀ c tri, encode (mk c tri) = commandWord op c.val (if tri then 1 else 0))
    (hinst : inst.toNat < 4) (hlive : imm &&& ~~~1#16 = 0)
    (h : Except.ok (ε := Illegal) (mk (instChannel inst) (immTri imm)) = .ok i) :
    encode i = commandWord op inst.toNat imm.toNat := by
  cases h
  rw [henc, instChannel_val hinst, immTri_value (toNat_le_live hlive)]

theorem encode_of_decodeSetmode (hinst : inst.toNat < 1) (hlive : imm &&& ~~~0x0003#16 = 0) (h : decodeSetmode imm = .ok i) :
    encode i = commandWord 0x32 inst.toNat imm.toNat := by
  have hle : imm.toNat ≤ 3 := toNat_le_live hlive
  rw [decodeSetmode, Nat.mod_eq_of_lt (by omega)] at h
  split at h
  · next m hmode => cases h; rw [encode_setmodeInstr hmode, Nat.lt_one_iff.1 hinst]
  · cases h

theorem encode_of_decodeFxProc (hinst : inst.toNat < 1) (hlive : imm &&& ~~~0x000F#16 = 0) (h : decodeFxProc imm = .ok i) :
    encode i = commandWord 0x41 inst.toNat imm.toNat := by
  have hle : imm.toNat ≤ 15 := toNat_le_live hlive
  rw [decodeFxProc, Nat.mod_eq_of_lt (by omega)] at h
  split at h
  · next m hmode => cases h; rw [encode_fxProcInstr, fxModeOf_eq_some_iff.1 hmode, Nat.lt_one_iff.1 hinst]
  · cases h

theorem encode_of_decodePs {mk : FxMode → Fin 4 → Instr} (henc : ∀ m slot, encode (mk m slot) = commandWord op 0 (psImm m slot))
    (hinst : inst.toNat < 1) (hlive : imm &&& ~~~0x00F3#16 = 0) (h : decodePs mk imm = .ok i) :
    encode i = commandWord op inst.toNat imm.toNat := by
  unfold decodePs at h
  split at h
  · next m hmode => cases h; rw [henc, psImm_of_live hlive hmode, Nat.lt_one_iff.1 hinst]
  · cases h

/-- The operation read from legal fields encodes to the word of those fields. The cases are the rows of the opcode map in its order,
taken together by the operands they have. -/
theorem encode_of_decodeOp {unit fn : Nat} (hinst : inst.toNat < instCount unit fn) (hlive : imm &&& ~~~(liveImm unit fn) = 0)
    (h : decodeOp unit fn inst imm = .ok i) : encode i = commandWord (unit * 16 + fn) inst.toNat imm.toNat := by
  unfold decodeOp at h
  split at h
  -- `DL.*` and `PH.INIT` to `PH.PROC`
  case h_2 | h_3 | h_4 | h_5 | h_6 | h_7 | h_8 | h_9 | h_10 | h_11 | h_12 | h_13 =>
    exact encode_of_channelOp (fun _ => rfl) hinst hlive h
  -- `PH.GETPOS` and `PH.GETSMP`
  case h_14 | h_15 => exact encode_of_triangleOp (fun _ _ => rfl) hinst hlive h
  -- `CK.SETMODE`, `FX.PROC`, `SM.*`, `PS.*`
  case h_18 => exact encode_of_decodeSetmode hinst hlive h
  case h_29 => exact encode_of_decodeFxProc hinst hlive h
  case h_36 | h_37 | h_38 => exact encode_of_smootherOp (fun _ => rfl) hinst hlive h
  case h_41 | h_42 | h_43 => exact encode_of_decodePs (fun _ _ => rfl) hinst hlive h
  -- no operation
  case h_44 => cases h
  -- operations without operand
  all_goals exact encode_of_plainOp rfl hinst hlive h

end EncodeOfDecode

/-- Settles O2: legal fields are those of the word their operation encodes to, and a word is made of its fields. -/
theorem encodeOfDecode : Obligations.EncodeOfDecode := by
  intro w i h
  obtain ⟨hlegal, hop⟩ := decode_eq_ok_iff.1 h
  exact (encode_of_decodeOp hlegal.inst hlegal.imm hop).trans (commandWord_fieldsOf hlegal.zero)

end Sys2Proof
end

section
/-! Legality by the opcode table (R109) is legality by fields: what every row fixes and leaves open is read off the 56 rows once, and with
it a selected word has legal fields, hence decodes. A word that does not is the no-op of R112. -/

namespace Sys2Proof

/-! ### Modes with a name -/

/-- The mode an operation takes from its immediate is one that R104 and R105 name. -/
def ModeNamed (unit fn : Nat) (imm : BitVec 16) : Prop :=
  (unit = 3 → fn = 2 → imm.toNat % 4 < 3) ∧ (unit = 4 → fn = 1 → imm.toNat % 16 < 12) ∧ (unit = 7 → imm.toNat / 16 % 16 < 12)

theorem exists_decodeSetmode {imm : BitVec 16} (h : imm.toNat % 4 < 3) : ∃ i, decodeSetmode imm = .ok i := by
  unfold decodeSetmode
  generalize imm.toNat % 4 = n at h
  interval_cases n <;> exact ⟨_, rfl⟩

theorem exists_decodeFxProc {imm : BitVec 16} (h : imm.toNat % 16 < 12) : ∃ i, decodeFxProc imm = .ok i := by
  obtain ⟨m, hm⟩ := exists_fxModeOf h
  exact ⟨fxProcInstr m, by rw [decodeFxProc, hm]⟩

theorem exists_decodePs (mk : FxMode → Fin 4 → Instr) {imm : BitVec 16} (h : imm.toNat / 16 % 16 < 12) :
    ∃ i, decodePs mk imm = .ok i := by
  obtain ⟨m, hm⟩ := exists_fxModeOf h
  exact ⟨mk m (immSlot imm), by rw [decodePs, hm]⟩

/-- An assigned operation decodes when its mode, if it has one, is named. -/
theorem exists_decodeOp {unit fn : Nat} (inst : BitVec 4) {imm : BitVec 16} (hfn : fn < fnCount unit) (hmode : ModeNamed unit fn imm) :
    ∃ i, decodeOp unit fn inst imm = .ok i := by
  obtain ⟨hclock, heffect, hslot⟩ := hmode
  unfold decodeOp
  split
  case h_18 => exact exists_decodeSetmode (hclock rfl rfl)
  case h_29 => exact exists_decodeFxProc (heffect rfl rfl)
  case h_41 | h_42 | h_43 => exact exists_decodePs _ (hslot rfl)
  -- the rows before it leave no assigned function over
  case h_44 =>
    have hunit := unit_lt_of_fn_lt hfn
    exfalso
    grind [fnCount]
  all_goals exact ⟨_, rfl⟩

/-! ### What the rows of the table fix -/

/-- A row fixes the unit and the function, of an operation that is assigned (R108). -/
theorem opcodeRows_operation : ∀ r ∈ opcodeRows, (fieldsOf r.mask).unit = 15 ∧ (fieldsOf r.mask).fn = 15 ∧
    (fieldsOf r.pattern).fn.toNat < fnCount (fieldsOf r.pattern).unit.toNat := by decide +kernel

/-- A row leaves open only instances that exist, and fixes the `zero` field at 0 (R101). -/
theorem opcodeRows_inst : ∀ r ∈ opcodeRows, (fieldsOf r.mask).zero = 15 ∧ (fieldsOf r.pattern).zero = 0 ∧
    ∀ inst : BitVec 4, inst &&& (fieldsOf r.mask).inst = (fieldsOf r.pattern).inst →
      inst.toNat < instCount (fieldsOf r.pattern).unit.toNat (fieldsOf r.pattern).fn.toNat := by decide +kernel

/-- A row fixes the dead bits of the immediate at 0 (R102). -/
theorem opcodeRows_dead : ∀ r ∈ opcodeRows,
    ~~~(liveImm (fieldsOf r.pattern).unit.toNat (fieldsOf r.pattern).fn.toNat) &&& ~~~(fieldsOf r.mask).imm = 0 ∧
    (fieldsOf r.pattern).imm &&& ~~~(liveImm (fieldsOf r.pattern).unit.toNat (fieldsOf r.pattern).fn.toNat) = 0 := by decide +kernel

/-- A row of `CK.SETMODE` or `FX.PROC` fixes the whole immediate, at a mode with a name (R104, R105). -/
theorem opcodeRows_mode : ∀ r ∈ opcodeRows,
    ((fieldsOf r.pattern).unit.toNat = 3 → (fieldsOf r.pattern).fn.toNat = 2 →
      (fieldsOf r.mask).imm = BitVec.allOnes 16 ∧ (fieldsOf r.pattern).imm.toNat % 4 < 3) ∧
    ((fieldsOf r.pattern).unit.toNat = 4 → (fieldsOf r.pattern).fn.toNat = 1 →
      (fieldsOf r.mask).imm = BitVec.allOnes 16 ∧ (fieldsOf r.pattern).imm.toNat % 16 < 12) := by decide +kernel

/-! ### Selected words -/

section Selected

variable {r : OpcodeRow} {w : Word}

/-- A row selects by fields; unit, function and `zero` are fixed by every row. -/
theorem fields_of_selects (hr : r ∈ opcodeRows) (h : r.selects w = true) :
    (fieldsOf w).unit = (fieldsOf r.pattern).unit ∧ (fieldsOf w).fn = (fieldsOf r.pattern).fn ∧
    (fieldsOf w).inst &&& (fieldsOf r.mask).inst = (fieldsOf r.pattern).inst ∧ (fieldsOf w).zero = 0 ∧
    (fieldsOf w).imm &&& (fieldsOf r.mask).imm = (fieldsOf r.pattern).imm := by
  have hfields : fieldsOf (w &&& r.mask) = fieldsOf r.pattern := congrArg fieldsOf (beq_iff_eq.1 h)
  rw [fieldsOf_and] at hfields
  obtain ⟨hunit, hfn, -⟩ := opcodeRows_operation r hr
  obtain ⟨hzero, hzero0, -⟩ := opcodeRows_inst r hr
  have hall (x : BitVec 4) : x &&& 15 = x := BitVec.and_allOnes
  refine ⟨?_, ?_, congrArg Fields.inst hfields, ?_, congrArg Fields.imm hfields⟩
  · rw [← congrArg Fields.unit hfields, hunit, hall]
  · rw [← congrArg Fields.fn hfields, hfn, hall]
  · rw [← hzero0, ← congrArg Fields.zero hfields, hzero, hall]

theorem legal_of_selects (hr : r ∈ opcodeRows) (h : r.selects w = true) : (fieldsOf w).Legal := by
  obtain ⟨hunit, hfn, hinst, hzero, himm⟩ := fields_of_selects hr h
  obtain ⟨-, -, hassigned⟩ := opcodeRows_operation r hr
  obtain ⟨-, -, hinstances⟩ := opcodeRows_inst r hr
  obtain ⟨hfixed, hdead⟩ := opcodeRows_dead r hr
  refine ⟨by rwa [hunit, hfn], by rw [hunit, hfn]; exact hinstances _ hinst, hzero, ?_⟩
  rw [hunit, hfn]
  generalize liveImm (fieldsOf r.pattern).unit.toNat (fieldsOf r.pattern).fn.toNat = live at hfixed hdead ⊢
  calc (fieldsOf w).imm &&& ~~~live
      = (fieldsOf w).imm &&& (~~~live &&& (fieldsOf r.mask).imm) := by rw [and_eq_self_of_and_not_eq_zero hfixed]
    _ = (fieldsOf w).imm &&& (fieldsOf r.mask).imm &&& ~~~live := by rw [BitVec.and_comm (~~~live), BitVec.and_assoc]
    _ = 0 := by rw [himm, hdead]

theorem slotMode_of_psModeLegal (h : psModeLegal w = true) (hunit : (fieldsOf w).unit.toNat = 7) :
    (fieldsOf w).imm.toNat / 16 % 16 < 12 := by
  have hmode : w.toNat / 2 ^ 28 = 7 → w.toNat / 16 % 16 < 12 := of_decide_eq_true h
  simp only [fieldsOf, BitVec.extractLsb'_toNat, Nat.shiftRight_eq_div_pow] at hunit ⊢
  omega

theorem modeNamed_of_selects (hr : r ∈ opcodeRows) (h : r.selects w = true) (hps : psModeLegal w = true) :
    ModeNamed (fieldsOf w).unit.toNat (fieldsOf w).fn.toNat (fieldsOf w).imm := by
  obtain ⟨hunit, hfn, -, -, himm⟩ := fields_of_selects hr h
  obtain ⟨hclock, heffect⟩ := opcodeRows_mode r hr
  have hfixed (hmask : (fieldsOf r.mask).imm = BitVec.allOnes 16) : (fieldsOf w).imm = (fieldsOf r.pattern).imm := by
    rw [← himm, hmask, BitVec.and_allOnes]
  refine ⟨fun hu hf => ?_, fun hu hf => ?_, slotMode_of_psModeLegal hps⟩
  · obtain ⟨hmask, hlt⟩ := hclock (hunit ▸ hu) (hfn ▸ hf)
    rwa [hfixed hmask]
  · obtain ⟨hmask, hlt⟩ := heffect (hunit ▸ hu) (hfn ▸ hf)
    rwa [hfixed hmask]

end Selected

open Laws.MatchMask in
/-- Every instruction's word selects one row and is legal: the laws of Laws/PerInstr.lean together. -/
theorem matchMask (i : Instr) : Statement i := by
  cases i
  exacts [nop, dlInit _, dlWrite _, dlWriteg _, dlSetdly _, dlRead0 _, dlRead _, dlReadh _, phInit _, phSetdly _,
    phSetratio _, phSetdepth _, phProc _, phGetpos _ _, phGetsmp _ _, ckInit, ckTick, ckSetmodeInt, ckSetmodeCv,
    ckSetmodeMidi, ckSetbpm, ckSetfreq, ckSetsmp, ckSetspqn, ckGetbpm, ckGetfreq, ckGetspb, ckPresent, ckGetppqn, fxInit,
    fxProcBasic, fxProcPingpong, fxProcUnlinked, fxProcResonator, fxProcChorus, fxProcKnuth, fxProcGran, fxProcOctave,
    fxProcTexture, fxProcShimmer, fxProcCrystals, fxProcFluid, wsFold, wsDiode, wsQuant, wsMod, wsTanh, wsTanhf, smSet _,
    smCoef _, smStep _, gdFin, gdDnk, psGet _ _, psMap _ _, psUnmap _ _]

/-- The table and the decoder know the same words. -/
theorem legalWord_iff_decode (w : Word) : legalWord w = true ↔ ∃ i, decode w = .ok i := by
  refine ⟨fun h => ?_, fun ⟨i, hi⟩ => ?_⟩
  · obtain ⟨hany, hps⟩ := Bool.and_eq_true_iff.1 h
    obtain ⟨r, hr, hsel⟩ := List.any_eq_true.1 hany
    have hlegal := legal_of_selects hr hsel
    obtain ⟨i, hi⟩ := exists_decodeOp (fieldsOf w).inst hlegal.fn (modeNamed_of_selects hr hsel hps)
    exact ⟨i, decode_eq_ok_iff.2 ⟨hlegal, hi⟩⟩
  · rw [← encodeOfDecode w i hi]
    exact (matchMask i).2

end Sys2Proof

namespace Sys2Proof.Machine

/-! ### Illegal words (R112) -/

theorem step_illegal {s : State} {w : Word} {rest : List Txn} (hbus : s.bus = commandTxn w :: rest) (h : legalWord w = false) :
    step s = .next (illegalCommand s.advance) := by
  rw [step_command hbus, runCommand]
  cases hdec : decode w with
  | ok i => simp [(legalWord_iff_decode w).2 ⟨i, hdec⟩] at h
  | error _ => rfl

theorem illegalCommand_flag (s : State) : (illegalCommand s).status.flag .illcmd = true := by
  simp [illegalCommand]

/-- Taking a transaction off the list and raising `ILLCMD` changes the flag and the pc. -/
theorem illegalCommand_advance_frame (s : State) :
    keptExcept (fun p => p = .flag .illcmd ∨ p = .pc) s (illegalCommand s.advance) :=
  ((advance_frame s).mono fun _ => Or.inr).trans (Touches.raise (Or.inl rfl)).frame

/-- Settles O3: the table's legality is the decoder's, and the word the decoder rejects raises `ILLCMD` and is done. -/
theorem illegalWordOnlyFlags : Obligations.IllegalWordOnlyFlags := by
  refine fun w => ⟨legalWord_iff_decode w, fun s rest hbus h => ?_⟩
  exact ⟨_, step_illegal hbus h, illegalCommand_flag _, rfl, congrArg List.tail hbus, illegalCommand_advance_frame s⟩

end Sys2Proof.Machine
end

section
/-! The delay-line operations (R131 to R140). What a line write does to the slots and to the line's registers is said once; the reads are
functions of the taps behind the cursor. -/

namespace Sys2Proof.Machine

/-! ### Slots behind the cursor (R139) -/

theorem modFloor_natCast (a n : Nat) : modFloor a n = a % n := rfl

theorem tap_eq (s : State) (c : Fin 4) (i k : Int) :
    tap s c i k = F32.ofBits (s.mem.readSlot c (modFloor (((s.dl.get c).wp.toNat : Int) - i - k) s.cap)) := rfl

/-! ### A line write (R132) -/

/-- A slot read after a line write: the slot at the cursor holds the value written, every other slot is as before. -/
theorem lineWrite_readSlot {s : State} (hwf : s.mem.wf = true) (c d : Fin 4) (a : Nat) (v : Word) :
    (lineWrite s c v).mem.readSlot d a = if d = c ∧ a = (s.dl.get c).wp.toNat then v else s.mem.readSlot d a := by
  rw [lineWrite_eq]
  exact Memory.readSlot_writeSlot _ _ _ _ _ _ hwf

/-- A line write advances its cursor by one modulo `CAP`. -/
theorem lineWrite_wp (s : State) (c : Fin 4) (v : Word) :
    ((lineWrite s c v).dl.get c).wp.toNat = ((s.dl.get c).wp.toNat + 1) % s.cap := by
  have hcap := s.cap_bounds
  have hlt : ((s.dl.get c).wp.toNat + 1) % s.cap < s.cap := Nat.mod_lt _ (by omega)
  have hmod : modFloor (((s.dl.get c).wp.toNat : Int) + 1) s.cap = ((s.dl.get c).wp.toNat + 1) % s.cap :=
    modFloor_natCast ((s.dl.get c).wp.toNat + 1) s.cap
  simp only [lineWrite_eq, Per4.get_set, if_true, hmod, BitVec.toNat_ofNat]
  exact Nat.mod_eq_of_lt (by omega)

/-- A line write keeps the stored delay. -/
theorem lineWrite_dly (s : State) (c : Fin 4) (v : Word) :
    ((lineWrite s c v).dl.get c).dlyI = (s.dl.get c).dlyI ∧ ((lineWrite s c v).dl.get c).dlyF = (s.dl.get c).dlyF := by
  simp [lineWrite_eq]

/-! ### The words -/

/-- The word of a row whose only operand is the channel (R101). -/
theorem commandWord_channel (op c : Nat) : commandWord op c 0 = BitVec.ofNat 32 (op * 2 ^ 24 + c * 2 ^ 20) := by
  rw [commandWord, Nat.add_zero]

/-! ### The meanings -/

theorem exec_dlWrite (c : Fin 4) (s : State) : exec (.dlWrite c) s = .next (lineWrite s c (s.arg.get 0)) := rfl

theorem exec_dlWriteg_of_frozen {s : State} (h : frozen s = true) (c : Fin 4) : exec (.dlWriteg c) s = .next s :=
  congrArg Host.Outcome.next (if_pos h)

theorem exec_dlWriteg_of_running {s : State} (h : frozen s = false) (c : Fin 4) :
    exec (.dlWriteg c) s =
      .next (lineWrite (s.raise .nonfin (notFinite (argF s 0))) c (dnk (finValue (argF s 0))).toBits) :=
  congrArg Host.Outcome.next (if_neg (ne_true_of_eq_false h))

theorem exec_dlRead (c : Fin 4) (s : State) :
    exec (.dlRead c) s = .next ((s.raise .range (outOfRange s (argF s 0))).setResF 0 (readLin s c (argF s 0))) := rfl

theorem exec_dlReadh (c : Fin 4) (s : State) :
    exec (.dlReadh c) s = .next ((s.raise .range (outOfRange s (argF s 0))).setResF 0 (readHerm s c (argF s 0))) := rfl

/-- Settles O8: a cleared line reads +0.0 everywhere. -/
theorem dlInitClears : Obligations.DlInitClears := by
  intro c s
  refine ⟨commandWord_channel 0x10 c.val, _, rfl, fun a _ => ?_, ?_, ownership (.dlInit c) s _ rfl⟩
  · rw [State.setDl_mem, State.setMem_mem, Memory.readSlot_clearLine, if_pos rfl]
  · rw [State.setDl_dl, Per4.get_set, if_pos rfl]
    rfl

/-- Settles O9: the laws of a line write. -/
theorem dlWriteStores : Obligations.DlWriteStores := by
  intro c s ⟨hwf, _⟩
  obtain ⟨hdlyI, hdlyF⟩ := lineWrite_dly s c (s.arg.get 0)
  refine ⟨commandWord_channel 0x11 c.val, _, exec_dlWrite c s, ?_, lineWrite_wp .., hdlyI, hdlyF,
    ownership (.dlWrite c) s _ (exec_dlWrite c s)⟩
  rw [lineWrite_readSlot hwf, if_pos ⟨rfl, rfl⟩]

/-- Settles O10: frozen, nothing; running, a line write of the guarded sample after the flag. -/
theorem dlWritegGuards : Obligations.DlWritegGuards := by
  intro c s ⟨hwf, _⟩
  refine ⟨commandWord_channel 0x12 c.val, fun hfrozen => exec_dlWriteg_of_frozen hfrozen c, fun hrunning => ?_⟩
  intro x v k
  have hexec := exec_dlWriteg_of_running hrunning c
  obtain ⟨hdlyI, hdlyF⟩ := lineWrite_dly (s.raise .nonfin (notFinite x)) c (dnk (finValue x)).toBits
  refine ⟨_, hexec, ?_, lineWrite_wp .., hdlyI, hdlyF, ?_, ownership (.dlWriteg c) s _ hexec⟩
  · rw [lineWrite_readSlot (s := s.raise .nonfin _) hwf, if_pos ⟨rfl, rfl⟩]
    rfl
  · simp only [lineWrite_eq, State.raise_status, Status.flag_raise, if_true]
    rfl

/-! ### Reads (R134 to R140) -/

/-- What an operation that raises a flag and answers in `RES[0]` leaves in both. -/
theorem raise_setResF (s : State) (f : Flag) (b : Bool) (y : F32) :
    ((s.raise f b).setResF 0 y).res.get 0 = y.toBits ∧ ((s.raise f b).setResF 0 y).status.flag f = (s.status.flag f || b) := by
  simp

/-- `DL.SETDLY` keeps the cursor, stores the split delay and checks its range. -/
theorem exec_dlSetdly (c : Fin 4) (s : State) : ∃ t, exec (.dlSetdly c) s = .next t ∧ (t.dl.get c).wp = (s.dl.get c).wp ∧
    (t.dl.get c).dlyI = intWord (splitInt (argF s 0)) ∧ (t.dl.get c).dlyF = splitFrac (argF s 0) ∧
    t.status.flag .range = (s.status.flag .range || outOfRange s (argF s 0)) := by
  refine ⟨_, rfl, ?_⟩
  simp only [State.setDl_dl, Per4.get_set, State.setDl_status, State.raise_status, Status.flag_raise, if_true, and_self]

/-- `DL.READ0` reads at the stored delay. -/
theorem exec_dlRead0 (c : Fin 4) (s : State) :
    exec (.dlRead0 c) s = .next (s.setResF 0 (readLinAt s c (s.dl.get c).dlyI.toInt (s.dl.get c).dlyF)) := rfl

/-- Settles O11: each result is the model's read at the delay, its taps written out. -/
theorem dlDelayOperations : Obligations.DlDelayOperations := by
  intro c s d bad x lin half f cc v a bn
  refine ⟨?_, ?_, ?_, ?_⟩
  · obtain ⟨t, hexec, hwp, hdlyI, hdlyF, hflag⟩ := exec_dlSetdly c s
    exact ⟨t, hexec, hwp, hdlyI, hdlyF, hflag, ownership _ _ _ hexec⟩
  · have hexec := exec_dlRead0 c s
    refine ⟨_, hexec, ?_, ownership _ _ _ hexec⟩
    rw [State.setResF_res, Per8.get_set, if_pos rfl]
    rfl
  · have hexec := exec_dlRead c s
    obtain ⟨hres, hflag⟩ := raise_setResF s .range bad (readLin s c d)
    exact ⟨_, hexec, hres, hflag, ownership _ _ _ hexec⟩
  · have hexec := exec_dlReadh c s
    obtain ⟨hres, hflag⟩ := raise_setResF s .range bad (readHerm s c d)
    exact ⟨_, hexec, hres, hflag, ownership _ _ _ hexec⟩

theorem modFloor_sub_mul (a n : Int) (m : Nat) : modFloor (a - n * m) m = modFloor a m :=
  congrArg Int.toNat (Int.sub_mul_emod_self_right a n m)

/-- A tap repeats every `CAP` slots (R140). -/
theorem tap_add_mul_cap (s : State) (c : Fin 4) (i k n : Int) : tap s c (i + n * (s.cap : Int)) k = tap s c i k := by
  have hwrap : ((s.dl.get c).wp.toNat : Int) - (i + n * s.cap) - k = (s.dl.get c).wp.toNat - i - k - n * s.cap := by ring
  rw [tap_eq, tap_eq, hwrap, modFloor_sub_mul]

/-- Two states whose line has one capacity, one cursor and the same samples have the same taps. -/
theorem tap_congr {s t : State} {c : Fin 4} (hcap : t.cap = s.cap) (hwp : (t.dl.get c).wp = (s.dl.get c).wp)
    (hmem : ∀ a, a < s.cap → t.mem.readSlot c a = s.mem.readSlot c a) (i k : Int) : tap t c i k = tap s c i k := by
  have hpos := s.cap_bounds
  rw [tap_eq, tap_eq, hcap, hwp, hmem _ (modFloor_lt _ (by omega))]

/-- A read is made of its taps and the fraction alone. -/
theorem reads_congr {s t : State} {c : Fin 4} {d e : F32} (htap : ∀ k, tap t c (splitInt e) k = tap s c (splitInt d) k)
    (hfrac : splitFrac e = splitFrac d) : readLin t c e = readLin s c d ∧ readHerm t c e = readHerm s c d := by
  simp only [readLin, readLinAt, readHerm, htap, hfrac, and_self]

/-- Settles O12: the taps repeat, and no tap looks beyond its line. -/
theorem readsAlias : Obligations.ReadsAlias := by
  refine ⟨tap_add_mul_cap, fun s c d e n hint hfrac => ?_, fun s t c d hcap hwp hmem => ?_⟩
  · exact reads_congr (fun k => by rw [hint, tap_add_mul_cap]) hfrac
  · exact reads_congr (fun k => tap_congr hcap hwp hmem _ k) rfl

end Sys2Proof.Machine
end

section
/-! The round trip of a sample through a line (R141). At an integer delay the fraction is +0.0, so either read is the tap plus a product
with a zero, and a finite value plus a zero is that value up to the sign of a zero. The tap is the slot the sample was written to, as
long as fewer than `CAP` writes have followed. -/

namespace Sys2Proof.Machine

/-! ### Sums with a zero -/

section Zero

variable {x z : F32}

/-- The sum of a zero and a finite value compares equal to the value. -/
theorem sameValue_fadd_zero_left (hz : isFinite z = true) (h0 : unitsOf z = 0) (hx : isFinite x = true) :
    sameValue (fadd z x) x = true :=
  Bool.and_eq_true_iff.2 ⟨fadd_le hz hx hx (by omega), le_fadd hz hx hx (by omega)⟩

/-- The sum of a finite value and a zero compares equal to the value. -/
theorem sameValue_fadd_zero_right (hz : isFinite z = true) (h0 : unitsOf z = 0) (hx : isFinite x = true) :
    sameValue (fadd x z) x = true :=
  Bool.and_eq_true_iff.2 ⟨fadd_le hx hz hx (by omega), le_fadd hx hz hx (by omega)⟩

/-- A zero less a finite value compares equal to the value's negation. -/
theorem sameValue_zero_fsub (hz : isFinite z = true) (h0 : unitsOf z = 0) (hx : isFinite x = true) :
    sameValue (fsub z x) (fneg x) = true := by
  have hneg : isFinite (fneg x) = true := by rwa [isFinite_fneg]
  have hval := unitsOf_fneg x
  exact Bool.and_eq_true_iff.2 ⟨fsub_le hz hx hneg (by omega), le_fsub hz hx hneg (by omega)⟩

theorem isFinite_of_sameValue (h : sameValue x z = true) (hz : isFinite z = true) : isFinite x = true := by
  obtain ⟨hle, hge⟩ := Bool.and_eq_true_iff.1 h
  exact isFinite_of_between hz hz hge hle

/-- A finite value times +0.0 is a zero. -/
theorem fmul_fzero (hx : isFinite x = true) : isFinite (fmul x fzero) = true ∧ unitsOf (fmul x fzero) = 0 := by
  obtain ⟨n, h⟩ := fmul_zero_right hx (z := fzero) rfl rfl
  rw [h]
  cases n <;> exact ⟨rfl, rfl⟩

end Zero

/-! ### The interpolations at fraction +0.0 -/

/-- The linear interpolation at fraction +0.0 is its first tap (R136). -/
theorem readLinAt_fzero {s : State} {c : Fin 4} {i : Int} (h0 : isFinite (tap s c i 0) = true)
    (hdiff : isFinite (fsub (tap s c i 1) (tap s c i 0)) = true) :
    sameValue (readLinAt s c i fzero) (tap s c i 0) = true := by
  obtain ⟨hfin, hzero⟩ := fmul_fzero hdiff
  exact sameValue_fadd_zero_right hfin hzero h0

/-- A Horner chain with finite coefficients at +0.0 is its last coefficient. -/
theorem cubic_fzero {a bn cc x0 : F32} (ha : isFinite a = true) (hbn : isFinite bn = true) (hcc : isFinite cc = true)
    (h0 : isFinite x0 = true) :
    sameValue (fadd (fmul (fadd (fmul (fsub (fmul a fzero) bn) fzero) cc) fzero) x0) x0 = true := by
  obtain ⟨hfin, hzero⟩ := fmul_fzero ha
  have hquad : isFinite (fsub (fmul a fzero) bn) = true :=
    isFinite_of_sameValue (sameValue_zero_fsub hfin hzero hbn) (by rwa [isFinite_fneg])
  obtain ⟨hfin, hzero⟩ := fmul_fzero hquad
  have hlin : isFinite (fadd (fmul (fsub (fmul a fzero) bn) fzero) cc) = true :=
    isFinite_of_sameValue (sameValue_fadd_zero_left hfin hzero hcc) hcc
  obtain ⟨hfin, hzero⟩ := fmul_fzero hlin
  exact sameValue_fadd_zero_left hfin hzero h0

/-! ### Integer delays (R135, R139) -/

/-- An integer delay below `CAP` splits into itself and +0.0 and is in range. -/
theorem split_i2f {s : State} {d : Int} (h0 : 0 ≤ d) (hcap : d < s.cap) :
    splitInt (i2f d) = d ∧ splitFrac (i2f d) = fzero ∧ outOfRange s (i2f d) = false := by
  have hbound := s.cap_bounds
  have hunit : (0 : Int) < 2 ^ 149 := by decide
  obtain ⟨hfin, hval, hint⟩ := i2f_exact (n := d) (by omega)
  obtain ⟨hcapFin, hcapVal, -⟩ := i2f_exact (n := (s.cap : Int)) (by omega)
  have hlow : fle fzero (i2f d) = true := by
    have hz : unitsOf fzero = 0 := rfl
    rw [fle_iff rfl hfin, hval, hz]
    exact Int.mul_nonneg h0 hunit.le
  have hhigh : flt (i2f d) (i2f s.cap) = true := by
    rw [flt_iff hfin hcapFin, hval, hcapVal]
    exact Int.mul_lt_mul_of_pos_right hcap hunit
  exact ⟨hint, fsub_i2f_f2i (by omega), by rw [outOfRange, hlow, hhigh]; rfl⟩

/-- At an integer delay below `CAP` both reads interpolate at fraction +0.0 and raise nothing (R136, R137). -/
theorem exec_reads_integerDelay {s : State} {d : Int} (h0 : 0 ≤ d) (hcap : d < s.cap) (harg : argF s 0 = i2f d) (c : Fin 4) :
    exec (.dlRead c) s = .next (s.setResF 0 (readLinAt s c d fzero)) ∧
    exec (.dlReadh c) s = .next (s.setResF 0 (hermite (tap s c d (-1)) (tap s c d 0) (tap s c d 1) (tap s c d 2) fzero)) := by
  obtain ⟨hint, hfrac, hrange⟩ := split_i2f h0 hcap
  rw [exec_dlRead, exec_dlReadh, harg, hrange, State.raise_false, readLin, readHerm, hint, hfrac]
  exact ⟨rfl, rfl⟩

theorem ofBits_res_setResF (s : State) (x : F32) : F32.ofBits ((s.setResF 0 x).res.get 0) = x := by
  simp

/-! ### Runs of writes -/

/-- One write of a run: `ARG[0]` and the line write. -/
theorem runWith_dlWrite (s : State) (c : Fin 4) (v : Word) : runWith (.dlWrite c) s v = lineWrite (s.setArg 0 v) c v := by
  rw [runWith, exec_dlWrite, State.setArg_arg, Per8.get_set, if_pos rfl]
  rfl

theorem memoryInv_runWith_dlWrite {s : State} (h : memoryInv s) (c : Fin 4) (v : Word) : memoryInv (runWith (.dlWrite c) s v) := by
  have hset : Touches (fun _ => True) s (s.setArg 0 v) := .setArg trivial
  have hwrite : Touches (fun _ => True) (s.setArg 0 v) (lineWrite (s.setArg 0 v) c v) := .lineWrite fun _ _ => trivial
  rw [runWith_dlWrite]
  exact (hset.trans hwrite).memory h

/-- One write of a run: the capacity, the cursor, the slots. -/
theorem runWith_dlWrite_line {s : State} (h : memoryInv s) (c : Fin 4) (v : Word) :
    (runWith (.dlWrite c) s v).cap = s.cap ∧
    ((runWith (.dlWrite c) s v).dl.get c).wp.toNat = ((s.dl.get c).wp.toNat + 1) % s.cap ∧
    ∀ a, (runWith (.dlWrite c) s v).mem.readSlot c a = if a = (s.dl.get c).wp.toNat then v else s.mem.readSlot c a := by
  obtain ⟨hwf, -⟩ := h
  rw [runWith_dlWrite]
  refine ⟨rfl, lineWrite_wp .., fun a => ?_⟩
  rw [lineWrite_readSlot (s := s.setArg 0 v) hwf, State.setArg_dl, State.setArg_mem]
  simp

/-- The slot `j` ahead of a cursor, `0 < j < CAP`, is not the one at the cursor. -/
theorem add_mod_ne {wp j cap : Nat} (hwp : wp < cap) (hj : 0 < j) (hjcap : j < cap) : (wp + j) % cap ≠ wp := by
  rcases Nat.lt_or_ge (wp + j) cap with hlt | hge
  · rw [Nat.mod_eq_of_lt hlt]
    omega
  · rw [Nat.mod_eq_sub_mod hge, Nat.mod_eq_of_lt (by omega)]
    omega

/-- A run of writes advances the cursor by its length modulo `CAP` and leaves the slots it does not reach. -/
theorem runEach_dlWrite {s : State} (h : memoryInv s) (c : Fin 4) (vs : List Word) :
    (runEach (.dlWrite c) s vs).cap = s.cap ∧
    ((runEach (.dlWrite c) s vs).dl.get c).wp.toNat = ((s.dl.get c).wp.toNat + vs.length) % s.cap ∧
    ∀ j, vs.length ≤ j → j < s.cap →
      (runEach (.dlWrite c) s vs).mem.readSlot c (((s.dl.get c).wp.toNat + j) % s.cap) =
        s.mem.readSlot c (((s.dl.get c).wp.toNat + j) % s.cap) := by
  induction vs generalizing s with
  | nil =>
    obtain ⟨-, hwp⟩ := h
    exact ⟨rfl, (Nat.mod_eq_of_lt (hwp c)).symm, fun _ _ _ => rfl⟩
  | cons x xs ih =>
    obtain ⟨hcap, hwp, hslot⟩ := runWith_dlWrite_line h c x
    obtain ⟨hcaps, hwps, hslots⟩ := ih (memoryInv_runWith_dlWrite h c x)
    rw [hcap] at hcaps hwps hslots
    rw [hwp] at hwps hslots
    refine ⟨hcaps, ?_, fun j hlen hj => ?_⟩
    · rw [List.length_cons, show (s.dl.get c).wp.toNat + (xs.length + 1) = (s.dl.get c).wp.toNat + 1 + xs.length by omega,
        ← Nat.mod_add_mod]
      exact hwps
    · rw [List.length_cons] at hlen
      have hshift : (((s.dl.get c).wp.toNat + 1) % s.cap + (j - 1)) % s.cap = ((s.dl.get c).wp.toNat + j) % s.cap := by
        rw [Nat.mod_add_mod]
        congr 1
        omega
      have hlater := hslots (j - 1) (by omega) (by omega)
      rw [hshift, hslot, if_neg (add_mod_ne (h.2 c) (by omega) hj)] at hlater
      exact hlater

/-- `n` slots behind a cursor that has moved on by `n` is where it was. -/
theorem modFloor_back {wp cap : Nat} (n : Nat) (hwp : wp < cap) : modFloor (((wp + n) % cap : Nat) - (n : Int) - 0) cap = wp := by
  have hmod : (((wp + n) % cap : Nat) - (n : Int) - 0) % (cap : Int) = (wp : Int) % cap := by
    rw [sub_zero, Int.natCast_emod, Int.emod_sub_emod, Nat.cast_add, add_sub_cancel_right]
  exact (congrArg Int.toNat hmod).trans (Nat.mod_eq_of_lt hwp)

/-- The sample written first is the tap at the number of writes, as long as fewer than `CAP` writes have followed it. -/
theorem tap_runEach_dlWrite {s : State} (h : memoryInv s) (c : Fin 4) (v : Word) {vs : List Word} (hlen : vs.length < s.cap) :
    tap (runEach (.dlWrite c) s (v :: vs)) c (vs.length + 1) 0 = F32.ofBits v := by
  have hwp := h.2 c
  obtain ⟨hcap, hwpAll, -⟩ := runEach_dlWrite h c (v :: vs)
  obtain ⟨hcap1, hwp1, hslot1⟩ := runWith_dlWrite_line h c v
  obtain ⟨-, -, hslots⟩ := runEach_dlWrite (memoryInv_runWith_dlWrite h c v) c vs
  rw [hcap1, hwp1] at hslots
  have hround : (((s.dl.get c).wp.toNat + 1) % s.cap + (s.cap - 1)) % s.cap = (s.dl.get c).wp.toNat := by
    rw [Nat.mod_add_mod, show (s.dl.get c).wp.toNat + 1 + (s.cap - 1) = (s.dl.get c).wp.toNat + s.cap by omega, Nat.add_mod_right,
      Nat.mod_eq_of_lt hwp]
  have hslot := hslots (s.cap - 1) (by omega) (by omega)
  rw [hround, hslot1, if_pos rfl] at hslot
  rw [tap_eq, hcap, hwpAll, List.length_cons, ← Nat.cast_add_one, modFloor_back _ hwp]
  exact congrArg F32.ofBits hslot

/-- Taps do not see the general registers. -/
theorem tap_setArg (s : State) (i : Fin 8) (v : Word) (c : Fin 4) (j k : Int) : tap (s.setArg i v) c j k = tap s c j k := by
  rw [tap_eq, State.setArg_mem, State.setArg_dl, State.setArg_cap, tap_eq]

/-- Settles O13: the tap at the delay is the sample written, and either read at fraction +0.0 is that tap. -/
theorem writeReadRoundTrip : Obligations.WriteReadRoundTrip := by
  intro s c v vs hinv hfin hlen t d u
  have hcap : u.cap = s.cap := by rw [State.setArg_cap, (runEach_dlWrite hinv c (v :: vs)).1]
  have harg : argF u 0 = i2f d := by rw [argF, State.setArg_arg, Per8.get_set, if_pos rfl, F32.ofBits_toBits]
  have htap : tap u c d 0 = F32.ofBits v := by rw [tap_setArg, tap_runEach_dlWrite hinv c v (by omega)]
  have hd : d = vs.length + 1 := rfl
  clear_value u d
  intro half cc w a
  obtain ⟨hread, hreadh⟩ := exec_reads_integerDelay (by omega) (by omega) harg c
  have hfinTap : isFinite (tap u c d 0) = true := htap ▸ hfin
  refine ⟨fun hdiff => ⟨_, hread, ?_, State.setResF_status ..⟩, fun hcc ha hbn => ⟨_, hreadh, ?_, State.setResF_status ..⟩⟩
  · rw [ofBits_res_setResF, ← htap]
    exact readLinAt_fzero hfinTap hdiff
  · rw [ofBits_res_setResF, ← htap]
    exact cubic_fzero ha hbn hcc hfinTap

end Sys2Proof.Machine
end

section
/-! The phasor (R151 to R158). Its invariant is kept operation by operation; a step is a chain of such operations, on its own or inside a
frame of the effect engine, or it leaves the phasors alone. -/

namespace Sys2Proof

/-! ### Order and quotients -/

theorem flt_of_flt_of_fle {x y z : F32} (h : flt x y = true) (h' : fle y z = true) : flt x z = true := by
  obtain ⟨a, b, ha, hb, hab⟩ := flt_iff_rank.1 h
  obtain ⟨b', c, hb', hc, hbc⟩ := fle_iff_rank.1 h'
  obtain rfl : b = b' := Option.some.inj (hb.symm.trans hb')
  exact flt_iff_rank.2 ⟨a, c, ha, hc, hab.trans_le hbc⟩

/-- A value that is not below another is at least it, when neither is a NaN. -/
theorem fle_of_not_flt {x y : F32} (hx : isFinite x = true) (hy : isFinite y = true) (h : flt x y = false) : fle y x = true := by
  have hlt : ¬ unitsOf x < unitsOf y := fun hlt => Bool.false_ne_true (h.symm.trans ((flt_iff hx hy).2 hlt))
  exact (fle_iff hy hx).2 (not_lt.1 hlt)

/-- Below 1.0 is at most its predecessor 1 - 2^-24. -/
theorem fle_pred_fone {x : F32} (h : flt x fone = true) : fle x (F32.ofBits 0x3F7FFFFF#32) = true := by
  obtain ⟨a, b, ha, hb, hab⟩ := flt_iff_rank.1 h
  obtain rfl : onePos = b := Option.some.inj (rank_fone.symm.trans hb)
  exact fle_iff_rank.2 ⟨a, 0x3F7FFFFF, ha, rfl, Int.le_of_lt_add_one hab⟩

/-- What lies between two finite values is finite, and its exact value lies between theirs. -/
theorem units_of_between {l x h : F32} (hl : isFinite l = true) (hh : isFinite h = true) (h1 : fle l x = true)
    (h2 : fle x h = true) : isFinite x = true ∧ unitsOf l ≤ unitsOf x ∧ unitsOf x ≤ unitsOf h :=
  have hx := isFinite_of_between hl hh h1 h2
  ⟨hx, (fle_iff hl hx).1 h1, (fle_iff hx hh).1 h2⟩

/-- A quotient of positive values underflows only where the divisor is the greater by far: it is positive while the divisor is at most
2^24 times the dividend. -/
theorem fdiv_pos {a b : F32} (ha : isFinite a = true) (hb : isFinite b = true) (h0 : 0 < unitsOf b)
    (h : unitsOf b ≤ 2 ^ 24 * unitsOf a) : flt fzero (fdiv a b) = true := by
  have hmin : unitsOf (F32.ofBits 0x33800000#32) = 2 ^ 125 := by decide
  have hle : fle (F32.ofBits 0x33800000#32) (fdiv a b) = true := le_fdiv ha hb h0 rfl (by rw [hmin]; omega)
  exact flt_of_flt_of_fle rfl hle

end Sys2Proof

namespace Sys2Proof.Machine

theorem unitsOf_fone : unitsOf fone = 2 ^ 149 := by decide

theorem inUnit_wrap01 (x : F32) : inUnit (wrap01 x) = true := Bool.and_eq_true_iff.2 (wrap01_inUnit x)

theorem within_clamp (x : F32) {lo hi : F32} (h : fle lo hi = true) : within lo hi (clamp x lo hi) = true :=
  Bool.and_eq_true_iff.2 (clamp_within x lo hi h)

/-! ### The modulated position (R156) -/

/-- The fold takes [0, 1) into (0.25, 0.75]: the greatest value below 1.0 leaves 2^-24, whose half still shows in the sum with 0.25. -/
theorem phFold_range {x : F32} (h : inUnit x = true) :
    flt fquarter (phFold x) = true ∧ fle (phFold x) (F32.ofBits 0x3F400000#32) = true := by
  have hzero : unitsOf fzero = 0 := by decide
  have hone := unitsOf_fone
  have hpred : unitsOf (F32.ofBits 0x3F7FFFFF#32) = 2 ^ 149 - 2 ^ 125 := by decide
  have hulp : unitsOf (F32.ofBits 0x33800000#32) = 2 ^ 125 := by decide
  have hhalf : unitsOf fhalf = 2 ^ 148 := by decide
  have hhalfUlp : unitsOf (F32.ofBits 0x33000000#32) = 2 ^ 124 := by decide
  have hquarter : unitsOf fquarter = 2 ^ 147 := by decide
  have hnext : unitsOf (F32.ofBits 0x3E800001#32) = 2 ^ 147 + 2 ^ 124 := by decide
  have htop : unitsOf (F32.ofBits 0x3F400000#32) = 2 ^ 149 - 2 ^ 147 := by decide
  obtain ⟨hlo, hlt⟩ := Bool.and_eq_true_iff.1 h
  obtain ⟨hx, hx0, hx1⟩ := units_of_between rfl rfl hlo (fle_pred_fone hlt)
  -- 1 - x in [2^-24, 1], its half in [2^-25, 0.5]
  obtain ⟨hsub, hsub0, hsub1⟩ := units_of_between (l := F32.ofBits 0x33800000#32) (h := fone) rfl rfl
    (le_fsub (a := fone) rfl hx rfl (by omega)) (fsub_le rfl hx rfl (by omega))
  obtain ⟨hmul, hmul0, hmul1⟩ := units_of_between (l := F32.ofBits 0x33000000#32) (h := fhalf) rfl rfl
    (le_fmul (b := fhalf) hsub rfl rfl (by rw [hhalf]; omega)) (fmul_le hsub rfl rfl (by rw [hhalf]; omega))
  have hfold : fle (F32.ofBits 0x3E800001#32) (phFold x) = true := le_fadd hmul rfl rfl (by omega)
  exact ⟨flt_of_flt_of_fle rfl hfold, fadd_le hmul rfl rfl (by omega)⟩

theorem inUnit_phSweep (p : Phasor) : inUnit (phSweep p) = true := inUnit_wrap01 _

/-! ### The operations keep the invariant of their phasor (R158) -/

/-- The guard of R151 lets a finite rate of at least 1 Hz through. -/
theorem rateOr_valid (x : F32) : isFinite (rateOr x) = true ∧ fle fone (rateOr x) = true := by
  unfold rateOr
  split
  · exact ⟨rfl, rfl⟩
  · next h =>
    obtain ⟨hfin, hlt⟩ : isFinite x = true ∧ flt x fone = false := by simpa [badRate, notFinite] using h
    exact ⟨hfin, fle_of_not_flt hfin rfl hlt⟩

/-- The frequency `PH.INIT` computes is a value divided by itself (R151). -/
theorem phasorInv_phInitWith {sr : F32} (hfin : isFinite sr = true) (hone : fle fone sr = true) : phasorInv (phInitWith sr) := by
  have hunits := (fle_iff rfl hfin).1 hone
  rw [unitsOf_fone] at hunits
  have hfreq : flt fzero (fdiv sr sr) = true := fdiv_pos hfin hfin (by omega) (by omega)
  exact ⟨rfl, rfl, hfin, hone, hone, .inr rfl, rfl, hfreq, rfl, rfl⟩

/-- A delay in [1, 2^24] divides a rate of at least 1 Hz without underflow (R152). -/
theorem phasorInv_phSetDly {p : Phasor} (h : phasorInv p) (d : F32) : phasorInv (phSetDly p d) := by
  obtain ⟨hmain, hmod, hsr, hsr1, -, -, -, -, hratio, hdepth⟩ := h
  obtain ⟨hlo, hhi⟩ := clamp_within d Config.dsampMin Config.dsampMax rfl
  obtain ⟨hfin, hloUnits, hhiUnits⟩ := units_of_between rfl rfl hlo hhi
  have hmax : unitsOf Config.dsampMax = 2 ^ 173 := by decide
  have hmin : unitsOf Config.dsampMin = 2 ^ 149 := unitsOf_fone
  have hsrUnits := (fle_iff rfl hsr).1 hsr1
  rw [unitsOf_fone] at hsrUnits
  have hfreq : flt fzero (fdiv p.sr (clamp d Config.dsampMin Config.dsampMax)) = true := fdiv_pos hsr hfin (by omega) (by omega)
  exact ⟨hmain, hmod, hsr, hsr1, hlo, .inl hhi, rfl, hfreq, hratio, hdepth⟩

theorem phasorInv_phSetRatio {p : Phasor} (h : phasorInv p) (r : F32) : phasorInv (phSetRatio p r) := by
  obtain ⟨hmain, hmod, hsr, hsr1, hd1, hdmax, hfreq, hpos, -, hdepth⟩ := h
  exact ⟨hmain, hmod, hsr, hsr1, hd1, hdmax, hfreq, hpos, within_clamp r rfl, hdepth⟩

theorem phasorInv_phSetDepth {p : Phasor} (h : phasorInv p) (x : F32) : phasorInv (phSetDepth p x) := by
  obtain ⟨hmain, hmod, hsr, hsr1, hd1, hdmax, hfreq, hpos, hratio, -⟩ := h
  exact ⟨hmain, hmod, hsr, hsr1, hd1, hdmax, hfreq, hpos, hratio, within_clamp x rfl⟩

/-- Both accumulators pass through `wrap01`, which is total (R11, R155). -/
theorem phasorInv_phProc {p : Phasor} (h : phasorInv p) : phasorInv (phProc p) := by
  obtain ⟨-, -, hrest⟩ := h
  exact ⟨inUnit_wrap01 _, inUnit_wrap01 _, hrest⟩

theorem phasorInv_drivePhasor {p : Phasor} (h : phasorInv p) (base ratio depth : F32) : phasorInv (drivePhasor base ratio depth p) :=
  phasorInv_phProc (phasorInv_phSetDepth (phasorInv_phSetRatio (phasorInv_phSetDly h base) ratio) depth)

/-! ### What a kernel does to its channel's phasor (R256, R282) -/

/-- The grain cloud works on the channel and the generator (R288). -/
theorem grainTrigger_ph (cap : Nat) (base rate jit : F32) (v : Voice) : (grainTrigger cap base rate jit v).ph = v.ph := by
  unfold grainTrigger startGrain
  split
  · split <;> rfl
  · rfl

theorem granMix_ph (m : FxMode) (fr : Frame) (rd : F32 → F32) (base rate head : F32) (v : Voice) :
    (granMix m fr rd base rate head v).voice.ph = v.ph := by
  simp only [granMix]
  split
  · exact grainTrigger_ph ..
  · rfl

theorem kernelGran_ph (m : FxMode) (fr : Frame) (rd : F32 → F32) (base : F32) (v : Voice) :
    (kernelGran m fr rd base v).voice.ph = drivePhasor base fr.p.e1 fone v.ph := granMix_ph ..

/-- A kernel either leaves its channel's phasor or drives it. -/
theorem kernel_ph_cases (m : FxMode) (fr : Frame) (rd : F32 → F32) (c : Fin 4) (v : Voice) :
    (kernel m fr rd c v).voice.ph = v.ph ∨
    ∃ base ratio depth, (kernel m fr rd c v).voice.ph = drivePhasor base ratio depth v.ph := by
  cases m with
  | basic | pingpong | unlinked | resonator | chorus | fluid => exact .inl (kernel_ph rfl ..)
  | knuth => exact .inr ⟨_, _, _, rfl⟩
  | gran | octave | texture | shimmer | crystals => exact .inr ⟨_, _, _, kernelGran_ph ..⟩

theorem phasorInv_kernel {v : Voice} (h : phasorInv v.ph) (m : FxMode) (fr : Frame) (rd : F32 → F32) (c : Fin 4) :
    phasorInv (kernel m fr rd c v).voice.ph := by
  rcases kernel_ph_cases m fr rd c v with hph | ⟨base, ratio, depth, hph⟩ <;> rw [hph]
  · exact h
  · exact phasorInv_drivePhasor h base ratio depth

/-! ### Every step keeps the invariant of every phasor -/

/-- A phasor whose invariant holds before has it after (R158). -/
def KeepsPhasors (s t : State) : Prop := ∀ c, phasorInv (s.ph.get c) → phasorInv (t.ph.get c)

namespace KeepsPhasors

variable {s t u : State}

theorem trans (h : KeepsPhasors s t) (h' : KeepsPhasors t u) : KeepsPhasors s u := fun c hc => h' c (h c hc)

theorem of_eq (h : t.ph = s.ph) : KeepsPhasors s t := fun _ hc => h ▸ hc

/-- One phasor replaced by one that has the invariant if it had. -/
theorem of_set {c : Fin 4} {p : Phasor} (h : t.ph = s.ph.set c p) (hp : phasorInv (s.ph.get c) → phasorInv p) : KeepsPhasors s t := by
  intro d hd
  rw [h, Per4.get_set]
  split
  · next e => exact hp (e ▸ hd)
  · exact hd

theorem fxChannelStep (m : FxMode) (fr : Frame) (rd : Fin 4 → F32 → F32) (c : Fin 4) (s : State) :
    KeepsPhasors s (fxChannelStep m fr rd c s) :=
  of_set (congrArg State.ph (fxChannelStep_eq m fr rd c s)) fun h => phasorInv_kernel (v := voiceOf s c) h m fr (rd c) c

/-- A frame of the effect engine: its mode's entry has no phasor in it, its channel loop one a turn (R212). -/
theorem fxProc (m : FxMode) (s : State) : KeepsPhasors s (fxProc m s) := by
  have turn := fxChannelStep m (frameOf m s) (readHerm s)
  have entry : KeepsPhasors s (s.setFx (frameFx m s)) := of_eq (State.setFx_ph ..)
  exact (((entry.trans (turn 0 _)).trans (turn 1 _)).trans (turn 2 _)).trans (turn 3 _)

/-- An instruction whose rule writes no phasor. -/
theorem exec_of_frame {i : Instr} {s : State} (h : ∀ c, ¬ mayChange i s (.phasor c)) : ∃ t, exec i s = .next t ∧ KeepsPhasors s t := by
  obtain ⟨t, ht, htouch⟩ := exec_touches i s
  have hkept : ∀ c, t.ph.get c = s.ph.get c := fun c => htouch.frame (.phasor c) (h c)
  exact ⟨t, ht, fun c hc => (hkept c).symm ▸ hc⟩

end KeepsPhasors

/-- The instructions that write a phasor are the phasor's own and a frame of a mode that drives it. -/
theorem exec_phasors (i : Instr) (s : State) : ∃ t, exec i s = .next t ∧ KeepsPhasors s t := by
  cases i with
  | phInit c =>
    obtain ⟨hfin, hone⟩ := rateOr_valid (argF s 0)
    exact ⟨_, rfl, .of_set (State.setPh_ph ..) fun _ => phasorInv_phInitWith hfin hone⟩
  | phSetdly c => exact ⟨_, rfl, .of_set (State.setPh_ph ..) fun h => phasorInv_phSetDly h _⟩
  | phSetratio c => exact ⟨_, rfl, .of_set (State.setPh_ph ..) fun h => phasorInv_phSetRatio h _⟩
  | phSetdepth c => exact ⟨_, rfl, .of_set (State.setPh_ph ..) fun h => phasorInv_phSetDepth h _⟩
  | phProc c => exact ⟨_, rfl, .of_set (State.setResF_ph ..) phasorInv_phProc⟩
  | fxProcKnuth | fxProcGran | fxProcOctave | fxProcTexture | fxProcShimmer | fxProcCrystals => exact ⟨_, rfl, .fxProc _ s⟩
  | _ => exact KeepsPhasors.exec_of_frame fun c => by simp [mayChange, slotPart]

/-- No register of a phasor is writable (R27). -/
theorem regWrite_ph (s : State) (r : Reg) (v : Word) : (regWrite s r v).ph = s.ph := by
  cases r <;> rfl

theorem step_keepsPhasors {s t : State} (h : step s = .next t) : KeepsPhasors s t := by
  cases stepResult_of_step h with
  | idle | illegal | ignoredWrite | read v | ignoredRead => exact .of_eq rfl
  | instruction i t hexec =>
    obtain ⟨u, hu, hkeeps⟩ := exec_phasors i s.advance
    obtain rfl : u = t := Host.Outcome.next.inj (hu.symm.trans hexec)
    exact (KeepsPhasors.of_eq (State.advance_ph s)).trans hkeeps
  | write r v => exact .of_eq (regWrite_ph s.advance r v)

/-- Settles O17: each phasor by itself, over what a step can do. -/
theorem phasorInvKept : Obligations.PhasorInvKept := fun _ _ hs h c => step_keepsPhasors h c (hs c)

/-! ### The meanings (R151 to R157) -/

theorem exec_phInit (c : Fin 4) (s : State) :
    exec (.phInit c) s = .next ((s.raise .argerr (badRate (argF s 0))).setPh c (phInitWith (rateOr (argF s 0)))) := rfl

theorem exec_phSetdly (c : Fin 4) (s : State) : exec (.phSetdly c) s = .next (s.setPh c (phSetDly (s.ph.get c) (argF s 0))) := rfl

theorem exec_phSetratio (c : Fin 4) (s : State) :
    exec (.phSetratio c) s = .next (s.setPh c (phSetRatio (s.ph.get c) (argF s 0))) := rfl

theorem exec_phSetdepth (c : Fin 4) (s : State) :
    exec (.phSetdepth c) s = .next (s.setPh c (phSetDepth (s.ph.get c) (argF s 0))) := rfl

theorem exec_phProc (c : Fin 4) (s : State) :
    exec (.phProc c) s = .next ((s.setPh c (phProc (s.ph.get c))).setResF 0 (phProc (s.ph.get c)).main) := rfl

theorem exec_phGetpos (c : Fin 4) (tri : Bool) (s : State) :
    exec (.phGetpos c tri) s = .next (s.setResF 0 (phGetPos (s.ph.get c) tri)) := rfl

theorem exec_phGetsmp (c : Fin 4) (tri : Bool) (s : State) :
    exec (.phGetsmp c tri) s = .next (s.setResF 0 (phGetSmp (s.ph.get c) tri)) := rfl

/-- A phasor put back is the one its channel then has. -/
theorem setPh_get_self (s : State) (c : Fin 4) (p : Phasor) : (s.setPh c p).ph.get c = p := by
  rw [State.setPh_ph, Per4.get_set, if_pos rfl]

theorem setResF_get_self (s : State) (i : Fin 8) (x : F32) : (s.setResF i x).res.get i = x.toBits := by
  rw [State.setResF_res, Per8.get_set, if_pos rfl]

/-- Settles O16: the sweep is wrapped, the fold takes the unit interval into its half. -/
theorem phPositionRange : Obligations.PhPositionRange := by
  intro c s
  have hsweep := inUnit_phSweep (s.ph.get c)
  refine ⟨⟨_, exec_phGetpos c false s, ?_⟩, _, exec_phGetpos c true s, ?_⟩
  · rw [ofBits_res_setResF]
    exact hsweep
  · rw [ofBits_res_setResF]
    exact phFold_range hsweep

/-- Settles O14: each operation stores the phasor its rule gives, and its frame is its rule's. -/
theorem phasorSetup : Obligations.PhasorSetup := by
  intro c s x zero one bad sr d
  refine ⟨commandWord_channel 0x20 c.val, commandWord_channel 0x21 c.val, commandWord_channel 0x22 c.val,
    commandWord_channel 0x23 c.val, ⟨_, exec_phInit c s, ?_, ?_, ownership _ _ _ (exec_phInit c s)⟩,
    ⟨_, exec_phSetdly c s, ?_, ownership _ _ _ (exec_phSetdly c s)⟩,
    ⟨_, exec_phSetratio c s, ?_, ownership _ _ _ (exec_phSetratio c s)⟩,
    ⟨_, exec_phSetdepth c s, ?_, ownership _ _ _ (exec_phSetdepth c s)⟩⟩
  · exact setPh_get_self ..
  · rw [State.setPh_status, State.raise_status, Status.flag_raise, if_pos rfl]
    rfl
  · exact setPh_get_self ..
  · exact setPh_get_self ..
  · exact setPh_get_self ..

/-- Settles O15: one store of the advanced phasor and one answer, or an answer alone. -/
theorem phasorOperations : Obligations.PhasorOperations := by
  intro c tri s p one half quarter e sweep pos
  have hpos : phGetPos p tri = pos := rfl
  refine ⟨⟨_, exec_phProc c s, ?_, ?_, ownership _ _ _ (exec_phProc c s)⟩,
    ⟨_, exec_phGetpos c tri s, ?_, ownership _ _ _ (exec_phGetpos c tri s)⟩,
    ⟨_, exec_phGetsmp c tri s, ?_, ownership _ _ _ (exec_phGetsmp c tri s)⟩⟩
  · rw [State.setResF_ph]
    exact setPh_get_self ..
  · exact setResF_get_self ..
  · rw [setResF_get_self, hpos]
  · rw [setResF_get_self, phGetSmp, hpos]

end Sys2Proof.Machine
end

section
/-! The clock engine's registers and its short operations (R171, R175, R176, R189 to R198): what a number narrowed to a register reads as,
and what `CK.INIT`, `CK.SETMODE`, the setters and the queries leave. -/

namespace Sys2Proof.Machine

/-! ### Numbers narrowed to a register (R172) -/

theorem natWord_toNat {n : Nat} (h : n < 2 ^ 32) : (natWord n).toNat = n := by
  rw [natWord, BitVec.toNat_ofNat, Nat.mod_eq_of_lt h]

theorem natWord_toInt {n : Nat} (h : n < 2 ^ 31) : (natWord n).toInt = n := by
  rw [BitVec.toInt_eq_toNat_of_lt] <;> rw [natWord_toNat (by omega)]
  omega

theorem intWord_toInt {n : Int} (hlo : -2 ^ 31 ≤ n) (hhi : n < 2 ^ 31) : (intWord n).toInt = n := by
  rw [intWord, BitVec.toInt_ofInt]
  exact Int.bmod_eq_of_le (by omega) (by omega)

@[simp] theorem natWord_of_toNat (w : Word) : natWord w.toNat = w := by
  rw [natWord, BitVec.ofNat_toNat, BitVec.setWidth_eq]

@[simp] theorem intWord_of_toInt (w : Word) : intWord w.toInt = w := BitVec.ofInt_toInt

/-- A word that is not negative reads the same as an `I32` and as a `U32`. -/
theorem toInt_toNat_of_nonneg {w : Word} (h : 0 ≤ w.toInt) : w.toInt.toNat = w.toNat := by
  rw [BitVec.toInt_eq_toNat_cond] at h ⊢
  split at h <;> omega

/-! ### One update -/

theorem setCk_frame (s : State) (k : Clock) : keptExcept (fun p => p = .clock) s (s.setCk k) :=
  (Touches.setCk (P := fun p => p = .clock) rfl).frame

theorem setRes_frame (s : State) (i : Fin 8) (v : Word) : keptExcept (fun p => p = .res i) s (s.setRes i v) :=
  (Touches.setRes (P := fun p => p = .res i) rfl).frame

theorem setRes_get_self (s : State) (i : Fin 8) (v : Word) : (s.setRes i v).res.get i = v := by
  rw [State.setRes_res, Per8.get_set, if_pos rfl]

theorem raise_frame (s : State) (f : Flag) (b : Bool) : keptExcept (fun p => p = .flag f) s (s.raise f b) :=
  (Touches.raise (P := fun p => p = .flag f) rfl).frame

/-! ### `CK.INIT` (R171) -/

theorem initMode_eq (n : Nat) : initMode n = if n = 1 then .externalCV else if n = 2 then .midiClock else .internal := by
  unfold initMode
  split
  · rfl
  · rfl
  · next h1 h2 => rw [if_neg h1, if_neg h2]

/-- `CK.INIT` raises `ARGERR` when it replaced one of the four guarded arguments. -/
theorem initArgErr_eq (s : State) :
    initArgErr s = decide ((s.arg.get 0).toNat < 1 ∨ (s.arg.get 2).toNat < 1 ∨ 2 < (s.arg.get 4).toNat ∨ (s.arg.get 3).toInt ≤ 0) := by
  rw [Bool.eq_iff_iff]
  simp only [initArgErr, Bool.or_eq_true, decide_eq_true_eq, or_assoc]
  rfl

/-- The SPQN argument as it stands, or 120 BPM at the new rate. -/
theorem initSpqn_toInt (w : Word) (rate : Nat) :
    initSpqn w.toInt rate = if w.toInt ≤ 0 then natWord (max 1 (rate / 2)) else w := by
  rw [initSpqn, quarterAtDefault_eq, intWord_of_toInt]

/-- The arguments (48000, 0, 4, 24000, 0) give the clock's reset state when `ppqn_ext` is 1 (R430). -/
theorem initClock_reset {k : Clock} (h : k.ppqnExt = 1#32) : initClock 48000 0 4 24000 .internal k = Clock.reset := by
  simp only [initClock, rearm, h, if_true]
  rfl

theorem exec_ckInit (s : State) :
    exec .ckInit s = .next ((s.raise .argerr (initArgErr s)).setCk
      (initClock (initRate (argU s 0)) (argU s 1) (initPpqn (argU s 2)) (argI s 3) (initMode (argU s 4)) s.ck)) := rfl

/-- Settles O18: the clock is `initClock` of the guarded arguments, each guard read off once. -/
theorem ckInitSets : Obligations.CkInitSets := by
  intro s sr pp m q
  have hmode : initMode (argU s 4) = m := initMode_eq _
  have hspqn : initSpqn (argI s 3) sr = q := initSpqn_toInt ..
  have hblock : natWord (argU s 1) = s.arg.get 1 := natWord_of_toNat _
  refine ⟨rfl, _, exec_ckInit s, ?clock, ?flag, ownership _ _ _ (exec_ckInit s), fun h0 h1 h2 h3 h4 hext => ?reset⟩
  case clock =>
    rw [State.setCk_ck, hmode, show initRate (argU s 0) = sr from rfl]
    unfold initClock
    rw [hspqn, hblock, initTimeout_eq]
    rfl
  case flag =>
    rw [State.setCk_status, State.raise_status, Status.flag_raise, if_pos rfl, initArgErr_eq]
  case reset =>
    simp only [State.setCk_ck, argU, argI, h0, h1, h2, h3, h4]
    exact initClock_reset hext

/-! ### `CK.SETMODE` (R175, R176) -/

theorem exec_setmodeInstr (m : ClockMode) (s : State) : exec (setmodeInstr m) s = .next (s.setCk (setMode m s.ck)) := by
  cases m <;> rfl

/-- Internal mode keeps a positive SPQN, else falls back to the last valid one, else to 120 BPM; the external modes wait for a tempo. -/
theorem modeSpqn_eq (m : ClockMode) (k : Clock) :
    modeSpqn m k = if m = .internal then
      if 0 < k.spqn.toInt then k.spqn else if 0 < k.lastValid.toInt then k.lastValid else natWord (max 1 (k.sr.toNat / 2))
    else 0#32 := by
  cases m with
  | internal =>
    simp only [modeSpqn, restoredSpqn, defaultSpqn, quarterAtDefault_eq, if_true, ← not_lt, ite_not]
  | externalCV | midiClock => rfl

/-- Settles O19: a re-arm with the mode and its SPQN set. -/
theorem ckSetmodeRearms : Obligations.CkSetmodeRearms := by
  intro m s q
  refine ⟨by cases m <;> rfl, by decide, _, exec_setmodeInstr m s, ?_, setCk_frame _ _⟩
  rw [State.setCk_ck, setMode, modeSpqn_eq]
  rfl

/-! ### The tempo setters (R189 to R193) -/

/-- The guard lets the finite positive tempos through. -/
theorem badTempo_eq_false_iff {x : F32} : badTempo x = false ↔ isFinite x = true ∧ flt fzero x = true := by
  simp [badTempo, notFinite, fgt]

section Setter

variable {i : Instr} {s : State} {n : Int}

/-- A setter whose operand passed its guard. -/
theorem stores_of_setTempo (h : exec i s = .next (setTempo s false n)) :
    ∃ t, exec i s = .next t ∧ t.ck = { s.ck with spqn := BitVec.ofInt 32 (max n 1), lastValid := BitVec.ofInt 32 (max n 1) } ∧
      keptExcept (fun p => p = .clock) s t :=
  ⟨_, h, rfl, setCk_frame _ _⟩

/-- A setter whose operand its guard rejected. -/
theorem rejects_of_setTempo (h : exec i s = .next (setTempo s true n)) :
    ∃ t, exec i s = .next t ∧ t.status.flag .argerr = true ∧ keptExcept (fun p => p = .flag .argerr) s t :=
  ⟨_, h, Bool.or_true _, raise_frame _ _ _⟩

end Setter

theorem exec_ckSetbpm (s : State) :
    exec .ckSetbpm s = .next (setTempo s (badTempo (argF s 0)) (spqnOfBpm s.ck (argF s 0))) := rfl

theorem exec_ckSetfreq (s : State) :
    exec .ckSetfreq s = .next (setTempo s (badTempo (argF s 0)) (spqnOfFreq s.ck (argF s 0))) := rfl

theorem exec_ckSetsmp (s : State) :
    exec .ckSetsmp s = .next (setTempo s (badTempo (argF s 0)) (spqnOfSamples (argF s 0))) := rfl

theorem exec_ckSetspqn (s : State) : exec .ckSetspqn s = .next (setTempo s (decide (argI s 0 ≤ 0)) (argI s 0)) := rfl

/-- Settles O24: each setter is `setTempo` under its guard. -/
theorem ckSettersStore : Obligations.CkSettersStore := by
  intro s x half rate good stores rejects
  have hbpm := exec_ckSetbpm s
  have hfreq := exec_ckSetfreq s
  have hsmp := exec_ckSetsmp s
  have hspqn := exec_ckSetspqn s
  refine ⟨rfl, rfl, rfl, rfl, fun hgood => ?_, fun hbad => ?_, fun hpos => ?_, fun hneg => ?_⟩
  · have hx : badTempo (argF s 0) = false := badTempo_eq_false_iff.2 hgood
    rw [hx] at hbpm hfreq hsmp
    exact ⟨stores_of_setTempo hbpm, stores_of_setTempo hfreq, stores_of_setTempo hsmp⟩
  · have hx : badTempo (argF s 0) = true := eq_true_of_ne_false (mt badTempo_eq_false_iff.1 hbad)
    rw [hx] at hbpm hfreq hsmp
    exact ⟨rejects_of_setTempo hbpm, rejects_of_setTempo hfreq, rejects_of_setTempo hsmp⟩
  · rw [show decide (argI s 0 ≤ 0) = false from decide_eq_false (not_le.2 hpos)] at hspqn
    exact stores_of_setTempo hspqn
  · rw [show decide (argI s 0 ≤ 0) = true from decide_eq_true hneg] at hspqn
    exact rejects_of_setTempo hspqn

/-! ### The queries (R194 to R198) -/

/-- Bit 1 of `CK_FLAGS` is the query `CK.PRESENT` (R31, R197). -/
theorem clockFlags_present (k : Clock) : (clockFlags k).getLsbD 1 = clockPresent k := by
  unfold clockFlags
  generalize k.gate = gate, clockPresent k = present, k.prevTrig = prev, k.firstSeen = seen
  revert gate present prev seen
  decide

/-- The query's result on a tempo, SPQN read as a `U32`. -/
theorem bpmOf_eq (k : Clock) :
    bpmOf k = if k.spqn.toInt ≤ 0 then 120
      else min (2 ^ 32 - 1) ((2 * k.sr.toNat * 60 + k.spqn.toNat) / (2 * k.spqn.toNat)) := by
  unfold bpmOf
  split
  · rfl
  · rw [toInt_toNat_of_nonneg (by omega)]
    rfl

theorem natWord_curPpqn (k : Clock) :
    natWord (curPpqn k) = match k.mode with | .internal => k.ppqnInt | .externalCV => k.ppqnExt | .midiClock => 24#32 := by
  unfold curPpqn
  cases k.mode with
  | internal | externalCV => exact natWord_of_toNat _
  | midiClock => rfl

theorem exec_ckGetbpm (s : State) : exec .ckGetbpm s = .next (s.setRes 0 (natWord (bpmOf s.ck))) := rfl

theorem exec_ckGetfreq (s : State) : exec .ckGetfreq s = .next (s.setRes 0 (freqOf s.ck).toBits) := rfl

theorem exec_ckGetspb (s : State) : exec .ckGetspb s = .next (s.setRes 0 s.ck.spqn) := rfl

theorem exec_ckPresent (s : State) : exec .ckPresent s = .next (s.setRes 0 (boolWord (clockPresent s.ck))) := rfl

theorem exec_ckGetppqn (s : State) : exec .ckGetppqn s = .next (s.setRes 0 (natWord (curPpqn s.ck))) := rfl

/-- A query leaves its answer in `RES[0]` and nothing else. -/
theorem answers_of_setRes {i : Instr} {s : State} {v w : Word} (h : exec i s = .next (s.setRes 0 v)) (hv : v = w) :
    ∃ t, exec i s = .next t ∧ t.res.get 0 = w ∧ keptExcept (fun p => p = .res 0) s t :=
  ⟨_, h, (setRes_get_self ..).trans hv, setRes_frame _ _ _⟩

theorem boolWord_clockPresent (k : Clock) :
    boolWord (clockPresent k) = if k.timeoutCnt.toNat < k.clockTimeout.toNat then 1#32 else 0#32 := by
  simp [boolWord, clockPresent]

/-- Settles O25: each answer is the value its rule gives, in the registers' terms. -/
theorem ckQueriesAnswer : Obligations.CkQueriesAnswer := by
  intro s k answers
  refine ⟨rfl, rfl, rfl, rfl, rfl, clockFlags_present k, answers_of_setRes (exec_ckGetbpm s) ?bpm,
    answers_of_setRes (exec_ckGetfreq s) ?freq, answers_of_setRes (exec_ckGetspb s) rfl,
    answers_of_setRes (exec_ckPresent s) (boolWord_clockPresent k), answers_of_setRes (exec_ckGetppqn s) (natWord_curPpqn k)⟩
  case bpm =>
    rw [bpmOf_eq, apply_ite natWord]
    rfl
  case freq =>
    rw [freqOf, apply_ite F32.toBits]
    rfl

end Sys2Proof.Machine
end

section
/-! `CK.TICK` (R177 to R183). A tick is two halves on separate fields: the detection reads the trigger and sets the tempo, the divider reads
the tempo and drives accumulator, pulse count and gate. Each half is given by its cases, the tick by the two halves. -/

namespace Sys2Proof.Machine

variable {k : Clock} {trig : Bool}

/-! ### Saturating counters (R172) -/

theorem incSat_eq (x : Word) : incSat x = if x.toNat < 2 ^ 32 - 1 then x + 1#32 else x := by
  unfold incSat
  split
  · rw [natWord, BitVec.ofNat_add, BitVec.ofNat_toNat, BitVec.setWidth_eq]
  · rfl

theorem incSat_toNat (x : Word) : (incSat x).toNat = if x.toNat < 2 ^ 32 - 1 then x.toNat + 1 else x.toNat := by
  unfold incSat
  split
  · next h => exact natWord_toNat (by omega)
  · rfl

/-! ### The detection half (R179, R181 to R183) -/

theorem risingEdge_eq_false_iff : risingEdge k trig = false ↔ trig = false ∨ k.prevTrig = true := by
  cases trig <;> simp [risingEdge]

/-- The PPQN of the pulses in an external mode (R172). -/
theorem detPpqn_of_external (h : k.mode ≠ .internal) : detPpqn k = if k.mode = .midiClock then 24 else k.ppqnExt.toNat := by
  unfold detPpqn
  cases hm : k.mode with
  | internal => exact absurd hm h
  | externalCV | midiClock => rfl

theorem implausible_eq_true_iff {n : Nat} : implausible n = true ↔ n < 10 ∨ 10000000 < n := by
  rw [implausible, Bool.or_eq_true, decide_eq_true_eq, decide_eq_true_eq]
  rfl

/-- The interval a rising edge measures, scaled to a quarter note (R181). -/
def scaledInterval (k : Clock) : Nat := (incSat k.detAcc).toNat * detPpqn k

/-- In Internal mode nothing is detected. -/
theorem detectStep_internal (h : k.mode = .internal) : detectStep k trig = k := by
  simp [detectStep, h]

theorem detectStep_external (h : k.mode ≠ .internal) : detectStep k trig = detectEdge { k with detAcc := incSat k.detAcc } trig := by
  unfold detectStep
  cases hm : k.mode with
  | internal => exact absurd hm h
  | externalCV | midiClock => rfl

theorem tickRejects_external (h : k.mode ≠ .internal) :
    tickRejects k trig = (risingEdge k trig && (k.firstSeen && implausible (scaledInterval k))) := by
  unfold tickRejects
  cases hm : k.mode with
  | internal => exact absurd hm h
  | externalCV | midiClock => rfl

/-- Without a rising edge the two counters advance. -/
theorem detectStep_waiting (h : k.mode ≠ .internal) (hedge : risingEdge k trig = false) :
    detectStep k trig = { k with detAcc := incSat k.detAcc, timeoutCnt := incSat k.timeoutCnt } := by
  rw [detectStep_external h]
  exact if_neg (ne_true_of_eq_false hedge)

/-- The first pulse measures nothing (R181). -/
theorem processTrigger_first {n : Nat} (hseen : k.firstSeen = false) : processTrigger k n = { k with firstSeen := true } := if_pos hseen

/-- An implausible interval is dropped (R182). -/
theorem processTrigger_rejected {n : Nat} (hseen : k.firstSeen = true) (hbad : implausible (n * detPpqn k) = true) :
    processTrigger k n = k :=
  (if_neg (ne_false_of_eq_true hseen)).trans (if_pos hbad)

/-- Any other goes through the tempo filter (R183). -/
theorem processTrigger_accepted {n : Nat} (hseen : k.firstSeen = true) (hok : implausible (n * detPpqn k) = false) :
    processTrigger k n = filterTempo k (n * detPpqn k) :=
  (if_neg (ne_false_of_eq_true hseen)).trans (if_neg (ne_true_of_eq_false hok))

/-- A rising edge restarts the detection accumulator after the interval was processed (R179). -/
theorem detectStep_edge {k' : Clock} (h : k.mode ≠ .internal) (hedge : risingEdge k trig = true)
    (hproc : processTrigger { k with detAcc := incSat k.detAcc, timeoutCnt := 0#32 } (incSat k.detAcc).toNat = k') :
    detectStep k trig = { k' with detAcc := 0#32 } := by
  rw [detectStep_external h, ← hproc]
  exact if_pos hedge

/-- The first pulse and a rejected interval restart the counters and leave the tempo. -/
theorem detectStep_unmeasured (h : k.mode ≠ .internal) (hedge : risingEdge k trig = true)
    (hn : k.firstSeen = false ∨ implausible (scaledInterval k) = true) :
    detectStep k trig = { k with detAcc := 0#32, timeoutCnt := 0#32, firstSeen := true } := by
  by_cases hseen : k.firstSeen = true
  · rw [detectStep_edge h hedge (processTrigger_rejected hseen (hn.resolve_left (ne_false_of_eq_true hseen)))]
    simp only [hseen]
  · exact detectStep_edge h hedge (processTrigger_first (eq_false_of_ne_true hseen))

/-- An accepted interval sets the tempo. -/
theorem detectStep_measured (h : k.mode ≠ .internal) (hedge : risingEdge k trig = true) (hseen : k.firstSeen = true)
    (hok : implausible (scaledInterval k) = false) :
    detectStep k trig = { filterTempo k (scaledInterval k) with detAcc := 0#32, timeoutCnt := 0#32 } :=
  detectStep_edge h hedge (processTrigger_accepted hseen hok)

/-- What the detection half can do. -/
theorem detectStep_cases (k : Clock) (trig : Bool) :
    (k.mode = .internal ∧ detectStep k trig = k) ∨
    (k.mode ≠ .internal ∧ risingEdge k trig = false ∧
      detectStep k trig = { k with detAcc := incSat k.detAcc, timeoutCnt := incSat k.timeoutCnt }) ∨
    (k.mode ≠ .internal ∧ risingEdge k trig = true ∧ (k.firstSeen = false ∨ implausible (scaledInterval k) = true) ∧
      detectStep k trig = { k with detAcc := 0#32, timeoutCnt := 0#32, firstSeen := true }) ∨
    (k.mode ≠ .internal ∧ risingEdge k trig = true ∧ k.firstSeen = true ∧ implausible (scaledInterval k) = false ∧
      detectStep k trig = { filterTempo k (scaledInterval k) with detAcc := 0#32, timeoutCnt := 0#32 }) := by
  by_cases hm : k.mode = .internal
  · exact .inl ⟨hm, detectStep_internal hm⟩
  cases hedge : risingEdge k trig with
  | false => exact .inr (.inl ⟨hm, rfl, detectStep_waiting hm hedge⟩)
  | true =>
    by_cases hn : k.firstSeen = false ∨ implausible (scaledInterval k) = true
    · exact .inr (.inr (.inl ⟨hm, rfl, hn, detectStep_unmeasured hm hedge hn⟩))
    · obtain ⟨hseen, hok⟩ : k.firstSeen = true ∧ implausible (scaledInterval k) = false := by simpa using hn
      exact .inr (.inr (.inr ⟨hm, rfl, hseen, hok, detectStep_measured hm hedge hseen hok⟩))

/-! ### The two halves of a tick (R177, R178, R180) -/

theorem gateCountdown_eq (k : Clock) :
    gateCountdown k = { k with gate := decide (0 < k.gateTimer.toNat), gateTimer := natWord (k.gateTimer.toNat - 1) } := by
  unfold gateCountdown
  by_cases h : 0 < k.gateTimer.toNat
  · rw [if_pos h, decide_eq_true h]
  · have htimer : natWord (k.gateTimer.toNat - 1) = k.gateTimer := by
      rw [show k.gateTimer.toNat - 1 = k.gateTimer.toNat by omega, natWord_of_toNat]
    rw [if_neg h, decide_eq_false h, htimer]

/-- The detection neither reads nor writes what the output half drives. -/
theorem detectStep_outputs (k : Clock) (trig : Bool) (acc timer : Word) (gate : Bool) :
    detectStep { k with outAcc := acc, gateTimer := timer, gate := gate } trig =
      { detectStep k trig with outAcc := acc, gateTimer := timer, gate := gate } := by
  rcases detectStep_cases k trig with ⟨hm, h⟩ | ⟨hm, hedge, h⟩ | ⟨hm, hedge, hn, h⟩ | ⟨hm, hedge, hseen, hok, h⟩ <;> rw [h]
  · exact detectStep_internal hm
  · exact detectStep_waiting hm hedge
  · exact detectStep_unmeasured hm hedge hn
  · exact detectStep_measured hm hedge hseen hok

/-- The clock the divider is given: what the detection left, the accumulator and the gate's timer advanced. -/
theorem tickInput_eq (k : Clock) (trig : Bool) :
    tickInput k trig =
      { detectStep k trig with
        outAcc := incSat k.outAcc, gate := decide (0 < k.gateTimer.toNat), gateTimer := natWord (k.gateTimer.toNat - 1)
        prevTrig := trig } := by
  have hdetect := detectStep_outputs k trig (incSat k.outAcc) (natWord (k.gateTimer.toNat - 1)) (decide (0 < k.gateTimer.toNat))
  simp only [tickInput, gateCountdown_eq, hdetect]

/-- The divider writes four fields. -/
theorem outputDivider_eq (k : Clock) :
    outputDivider k =
      { k with
        outAcc := (outputDivider k).outAcc, pulseCnt := (outputDivider k).pulseCnt, gate := (outputDivider k).gate
        gateTimer := (outputDivider k).gateTimer } := by
  unfold outputDivider
  split
  · split <;> rfl
  · rfl

/-- A tick leaves what the detection left, but for the four fields of the divider and the trigger's memory. -/
theorem tickClock_eq (k : Clock) (trig : Bool) :
    tickClock k trig =
      { detectStep k trig with
        outAcc := (tickClock k trig).outAcc, pulseCnt := (tickClock k trig).pulseCnt, gate := (tickClock k trig).gate
        gateTimer := (tickClock k trig).gateTimer, prevTrig := trig } := by
  have h := outputDivider_eq (tickInput k trig)
  rw [tickInput_eq] at h
  rw [tickClock, tickInput_eq]
  exact h

/-- `CK.TICK` in terms of the clock's tick. -/
theorem exec_ckTick (s : State) : ∃ t, exec .ckTick s = .next t ∧ t.ck = tickClock s.ck (argB s 0) ∧
    t.status = s.status.raise .clkrej (tickRejects s.ck (argB s 0)) ∧
    t.res.get 0 = boolWord (tickEdge s.ck (argB s 0)) ∧ t.res.get 1 = boolWord t.ck.gate :=
  ⟨_, rfl, rfl, rfl, rfl, rfl⟩

end Sys2Proof.Machine
end

section
/-! What one `CK.TICK` leaves, field by field: the detection half (O20) and the output half (O21). -/

namespace Sys2Proof.Machine

variable {k : Clock} {trig : Bool}

/-! ### What no tick writes -/

/-- The detection leaves the settings and the output half's counts. -/
theorem detectStep_kept (k : Clock) (trig : Bool) :
    (detectStep k trig).mode = k.mode ∧ (detectStep k trig).ppqnInt = k.ppqnInt ∧ (detectStep k trig).ppqnExt = k.ppqnExt ∧
    (detectStep k trig).clockTimeout = k.clockTimeout ∧ (detectStep k trig).sr = k.sr ∧ (detectStep k trig).block = k.block ∧
    (detectStep k trig).pulseCnt = k.pulseCnt := by
  rcases detectStep_cases k trig with ⟨-, h⟩ | ⟨-, -, h⟩ | ⟨-, -, -, h⟩ | ⟨-, -, -, -, h⟩ <;> rw [h] <;>
    exact ⟨rfl, rfl, rfl, rfl, rfl, rfl, rfl⟩

/-! ### Detection -/

/-- The sum of the filled slots, slot by slot (R183). -/
theorem sumFilled_eq (a : Per3 Word) {n : Nat} (h1 : 1 ≤ n) (h3 : n ≤ 3) :
    sumFilled a n = a.e0.toNat + (if 2 ≤ n then a.e1.toNat else 0) + (if 3 ≤ n then a.e2.toNat else 0) := by
  interval_cases n <;> rfl

theorem tickRejects_internal (h : k.mode = .internal) : tickRejects k trig = false := by
  simp [tickRejects, h]

/-- Settles O20: each case of the detection, its scaled interval and its sum in the statement's terms. -/
theorem ckTickDetects : Obligations.CkTickDetects := by
  intro s k trig up n fill avg total
  obtain ⟨t, hexec, hck, hstatus, -, -⟩ := exec_ckTick s
  have hup (x : Word) : incSat x = up x := incSat_eq x
  obtain ⟨hmode, hint, hext, htimeout, hsr, hblock, -⟩ := detectStep_kept k trig
  replace hck : t.ck = tickClock k trig := hck
  replace hstatus : t.status = s.status.raise .clkrej (tickRejects k trig) := hstatus
  rw [tickClock_eq] at hck
  refine ⟨t, hexec, ?_⟩
  rw [hck]
  refine ⟨rfl, hmode, hint, hext, htimeout, hsr, hblock, ownership .ckTick s t hexec, ?_⟩
  by_cases hm : k.mode = .internal
  · rw [if_pos hm, detectStep_internal hm, hstatus, tickRejects_internal hm]
    exact ⟨rfl, rfl, rfl, rfl, rfl, rfl, rfl, rfl, Status.raise_false ..⟩
  rw [if_neg hm]
  have hscaled : scaledInterval k = n := by rw [scaledInterval, detPpqn_of_external hm, hup]
  rw [tickRejects_external hm, hscaled] at hstatus
  by_cases hedge : trig = false ∨ k.prevTrig = true
  · have hrise : risingEdge k trig = false := risingEdge_eq_false_iff.2 hedge
    rw [if_pos hedge, detectStep_waiting hm hrise, hstatus, hrise]
    exact ⟨hup _, hup _, rfl, rfl, rfl, rfl, rfl, rfl, Status.raise_false ..⟩
  have hrise : risingEdge k trig = true := eq_true_of_ne_false (mt risingEdge_eq_false_iff.1 hedge)
  rw [if_neg hedge]
  rw [hrise, Bool.true_and] at hstatus
  by_cases hn : k.firstSeen = false ∨ n < 10 ∨ 10000000 < n
  · have hunmeasured : k.firstSeen = false ∨ implausible (scaledInterval k) = true := by
      rwa [hscaled, implausible_eq_true_iff]
    rw [if_pos hn, detectStep_unmeasured hm hrise hunmeasured]
    refine ⟨rfl, rfl, rfl, rfl, rfl, rfl, rfl, rfl, ?_⟩
    rw [hstatus, Status.flag_raise, if_pos rfl]
    rcases hn with hseen | hbad
    · rw [hseen, Bool.false_and]
    · rw [implausible_eq_true_iff.2 hbad, Bool.and_true]
  · obtain ⟨hseen, hrange⟩ := not_or.1 hn
    have hok : implausible n = false := eq_false_of_ne_true (mt implausible_eq_true_iff.1 hrange)
    have htotal : sumFilled avg fill = total := sumFilled_eq avg (by omega) (by omega)
    rw [if_neg hn, detectStep_measured hm hrise (eq_true_of_ne_false hseen) (hscaled ▸ hok), hscaled, hstatus, hok, Bool.and_false,
      Status.raise_false, ← htotal]
    exact ⟨rfl, rfl, eq_true_of_ne_false hseen, rfl, rfl, rfl, rfl, rfl, rfl⟩

/-! ### Divider and gate -/

/-- The output half's fields as the divider is given them. -/
theorem tickInput_outputs (k : Clock) (trig : Bool) :
    (tickInput k trig).outAcc = incSat k.outAcc ∧ (tickInput k trig).pulseCnt = k.pulseCnt ∧
    (tickInput k trig).ppqnInt = k.ppqnInt ∧ (tickInput k trig).sr = k.sr ∧
    (tickInput k trig).gate = decide (0 < k.gateTimer.toNat) ∧ (tickInput k trig).gateTimer.toNat = k.gateTimer.toNat - 1 := by
  obtain ⟨-, hint, -, -, hsr, -, hcnt⟩ := detectStep_kept k trig
  have htimer : k.gateTimer.toNat - 1 < 2 ^ 32 := by omega
  rw [tickInput_eq]
  exact ⟨rfl, hcnt, hint, hsr, rfl, natWord_toNat htimer⟩

/-- The tempo a tick leaves is the one its divider was given. -/
theorem tickClock_spqn (k : Clock) (trig : Bool) : (tickClock k trig).spqn = (tickInput k trig).spqn := by
  rw [tickClock, outputDivider_eq]

theorem dividerPulses_iff :
    dividerPulses k = true ↔ 0 < k.spqn.toInt ∧ max 1 (k.spqn.toNat / k.ppqnInt.toNat) ≤ k.outAcc.toNat := by
  rw [dividerPulses, Bool.and_eq_true, decide_eq_true_eq, decide_eq_true_eq, divThr]
  refine and_congr_right fun h => ?_
  rw [toInt_toNat_of_nonneg h.le]

theorem quarterDone_iff : quarterDone k = true ↔ k.ppqnInt.toNat ≤ k.pulseCnt.toNat + 1 := decide_eq_true_iff

theorem outputDivider_noPulse (h : dividerPulses k = false) : outputDivider k = k ∧ dividerEdge k = false := by
  simp [outputDivider, dividerEdge, h]

theorem outputDivider_pulse (h : dividerPulses k = true) (hq : quarterDone k = false) :
    outputDivider k = { k with outAcc := 0#32, pulseCnt := natWord (k.pulseCnt.toNat + 1) } ∧ dividerEdge k = false := by
  simp [outputDivider, dividerEdge, h, hq]

theorem outputDivider_quarter (h : dividerPulses k = true) (hq : quarterDone k = true) :
    outputDivider k = { k with outAcc := 0#32, pulseCnt := 0#32, gate := true, gateTimer := natWord (gateLen k - 1) } ∧
      dividerEdge k = true := by
  simp [outputDivider, dividerEdge, h, hq]

/-- The gate's length in frames, less the frame that opens it, fits its timer. -/
theorem gateTimer_toNat (k : Clock) : (natWord (gateLen k - 1)).toNat = max 1 (k.sr.toNat * 5 / 1000) - 1 := by
  have hlen : gateLen k = max 1 (k.sr.toNat * 5 / 1000) := rfl
  rw [hlen]
  exact natWord_toNat (by omega)

/-- A divider pulse that completes no quarter note advances the pulse count without wrapping. -/
theorem pulseCnt_toNat {p c : Word} (h : ¬ p.toNat ≤ c.toNat + 1) : (natWord (c.toNat + 1)).toNat = c.toNat + 1 :=
  natWord_toNat (by omega)

/-- Settles O21: the three cases of the divider on the clock it is given. -/
theorem ckTickDivides : Obligations.CkTickDivides := by
  intro s k acc
  obtain ⟨t, hexec, hck, -, hedge, hgate⟩ := exec_ckTick s
  refine ⟨t, hexec, hgate, ?_⟩
  intro pulse
  generalize argB s 0 = trig at hck hedge
  have hspqn : t.ck.spqn = (tickInput k trig).spqn := hck ▸ tickClock_spqn k trig
  obtain ⟨hacc, hcnt, hppqn, hsr, hgateIn, htimer⟩ := tickInput_outputs k trig
  have haccNat : (tickInput k trig).outAcc.toNat = acc := hacc ▸ incSat_toNat k.outAcc
  have hpulse : dividerPulses (tickInput k trig) = true ↔ pulse := by
    rw [dividerPulses_iff, haccNat, hppqn, ← hspqn]
  have hquarter : quarterDone (tickInput k trig) = true ↔ k.ppqnInt.toNat ≤ k.pulseCnt.toNat + 1 := by
    rw [quarterDone_iff, hcnt, hppqn]
  replace hedge : t.res.get 0 = boolWord (dividerEdge (tickInput k trig)) := hedge
  replace hck : t.ck = outputDivider (tickInput k trig) := hck
  clear_value pulse
  by_cases hp : pulse
  · by_cases hq : k.ppqnInt.toNat ≤ k.pulseCnt.toNat + 1
    · obtain ⟨hout, hone⟩ := outputDivider_quarter (hpulse.2 hp) (hquarter.2 hq)
      refine ⟨fun h => absurd hp h, fun _ h => absurd hq (by omega), fun _ _ => ?_, fun h => absurd ⟨hp, hq⟩ h⟩
      rw [hck, hedge, hout, hone]
      exact ⟨rfl, rfl, rfl, rfl, (gateTimer_toNat _).trans (by rw [hsr])⟩
    · obtain ⟨hout, hzero⟩ := outputDivider_pulse (hpulse.2 hp) (eq_false_of_ne_true (mt hquarter.1 hq))
      refine ⟨fun h => absurd hp h, fun _ _ => ?_, fun _ h => absurd h hq, fun _ => ?_⟩ <;> rw [hck, hout]
      · exact ⟨rfl, by rw [hcnt]; exact pulseCnt_toNat hq⟩
      · exact ⟨by rw [hedge, hzero]; rfl, hgateIn, htimer⟩
  · obtain ⟨hout, hzero⟩ := outputDivider_noPulse (eq_false_of_ne_true (mt hpulse.1 hp))
    refine ⟨fun _ => ?_, fun h => absurd h hp, fun h => absurd h hp, fun _ => ?_⟩ <;> rw [hck, hout]
    · exact ⟨haccNat, hcnt⟩
    · exact ⟨by rw [hedge, hzero]; rfl, hgateIn, htimer⟩

end Sys2Proof.Machine
end

section
/-! The clock invariant (R199): each operation that writes the clock keeps it, and no other step reaches its fields but a write to a PPQN or
to the timeout. -/

namespace Sys2Proof.Machine

variable {k : Clock}

/-! ### The tempo filter (R183) -/

/-- A mean lies where the values do. -/
theorem meanFilled_bounds {a : Per3 Word} {n lo hi : Nat} (h1 : 1 ≤ n) (h3 : n ≤ 3)
    (h : ∀ j : Fin 3, j.val < n → lo ≤ (a.get j).toNat ∧ (a.get j).toNat ≤ hi) : lo ≤ meanFilled a n ∧ meanFilled a n ≤ hi := by
  have e0 : lo ≤ a.e0.toNat ∧ a.e0.toNat ≤ hi := h 0 h1
  have e1 (hn : 2 ≤ n) : lo ≤ a.e1.toNat ∧ a.e1.toNat ≤ hi := h 1 hn
  have e2 (hn : 3 ≤ n) : lo ≤ a.e2.toNat ∧ a.e2.toNat ≤ hi := h 2 hn
  rw [meanFilled, sumFilled_eq a h1 h3, Nat.le_div_iff_mul_le h1]
  refine ⟨?_, Nat.div_le_of_le_mul ?_⟩ <;> interval_cases n <;> simp at e1 e2 ⊢ <;> omega

/-- An accepted interval fills the next slot of the averaging buffer with a plausible value. -/
theorem averagesInv_filterTempo (h : averagesInv k) {n : Nat} (hlo : 10 ≤ n) (hhi : n ≤ 10000000) : averagesInv (filterTempo k n) := by
  obtain ⟨hslots, horder⟩ := h
  have hfill : (nextFill k.avgFill).val = min 3 (k.avgFill.val + 1) := rfl
  have hidx : (nextSlot k.avgIdx).val = (k.avgIdx.val + 1) % 3 := rfl
  refine ⟨fun j hj => ?_, fun hlt => ?_⟩
  · replace hj : j.val < (nextFill k.avgFill).val := hj
    simp only [filterTempo, Per3.get_set]
    split
    · rw [natWord_toNat (by omega)]
      exact ⟨hlo, hhi⟩
    · next hne =>
      have hne' : j.val ≠ k.avgIdx.val := fun e => hne (Fin.ext e)
      exact hslots j (by omega)
  · replace hlt : (nextFill k.avgFill).val < 3 := hlt
    change (nextSlot k.avgIdx).val = (nextFill k.avgFill).val
    have hnext := horder (by omega)
    omega

/-- The tempo an accepted interval leaves is in the sanity window. -/
theorem filterTempo_spqn (h : averagesInv k) {n : Nat} (hlo : 10 ≤ n) (hhi : n ≤ 10000000) : 10 ≤ (filterTempo k n).spqn.toInt := by
  obtain ⟨hslots, -⟩ := averagesInv_filterTempo h hlo hhi
  have hfill : (nextFill k.avgFill).val = min 3 (k.avgFill.val + 1) := rfl
  obtain ⟨hmean, hmeanHi⟩ := meanFilled_bounds (a := (filterTempo k n).avg) (n := (nextFill k.avgFill).val) (by omega) (by omega) hslots
  have hspqn : (filterTempo k n).spqn = natWord (meanFilled (filterTempo k n).avg (nextFill k.avgFill).val) := rfl
  rw [hspqn, natWord_toInt (by omega)]
  omega

/-! ### The operations keep the invariant -/

theorem clockInv_filterTempo (h : clockInv k) {n : Nat} (hlo : 10 ≤ n) (hhi : n ≤ 10000000) : clockInv (filterTempo k n) := by
  obtain ⟨-, -, -, hint, hext, hsr, havg⟩ := h
  have hspqn := filterTempo_spqn havg hlo hhi
  have hlast : (filterTempo k n).lastValid = (filterTempo k n).spqn := rfl
  exact ⟨by omega, fun _ => by omega, by rw [hlast]; omega, hint, hext, hsr, averagesInv_filterTempo havg hlo hhi⟩

theorem clockInv_detectStep (h : clockInv k) (trig : Bool) : clockInv (detectStep k trig) := by
  rcases detectStep_cases k trig with ⟨-, hd⟩ | ⟨-, -, hd⟩ | ⟨-, -, -, hd⟩ | ⟨-, -, -, hok, hd⟩ <;> rw [hd]
  · exact h
  · exact h
  · exact h
  · obtain ⟨hlo, hhi⟩ := not_or.1 (mt implausible_eq_true_iff.2 (ne_true_of_eq_false hok))
    exact clockInv_filterTempo h (by omega) (by omega)

/-- The output half and the trigger's memory are no part of the invariant. -/
theorem clockInv_tickClock (h : clockInv k) (trig : Bool) : clockInv (tickClock k trig) := by
  rw [tickClock_eq]
  exact clockInv_detectStep h trig

/-- A re-armed buffer holds nothing. -/
theorem averagesInv_rearm (k : Clock) : averagesInv (rearm k) := ⟨fun _ hj => absurd hj (Nat.not_lt_zero _), fun _ => rfl⟩

/-- Half a rate of 32 bits, and at least 1, is a positive `I32` (R172). -/
theorem quarterAtDefault_toInt {rate : Nat} (h : rate < 2 ^ 32) : 1 ≤ (natWord (quarterAtDefault rate)).toInt := by
  rw [quarterAtDefault_eq, natWord_toInt (by omega)]
  omega

theorem initSpqn_pos (w : Word) {rate : Nat} (h : rate < 2 ^ 32) : 1 ≤ (initSpqn w.toInt rate).toInt := by
  have hdefault := quarterAtDefault_toInt h
  rw [initSpqn, intWord_of_toInt]
  split <;> omega

/-- `CK.INIT` needs of the clock before it the kept `ppqn_ext` alone (R171). -/
theorem clockInv_initClock (h : 1 ≤ k.ppqnExt.toNat) (rate ppqn spqn : Word) (block : Nat) (m : ClockMode) :
    clockInv (initClock (initRate rate.toNat) block (initPpqn ppqn.toNat) spqn.toInt m k) := by
  have hrate : 1 ≤ initRate rate.toNat ∧ initRate rate.toNat < 2 ^ 32 := by
    unfold initRate Config.srNom
    split <;> omega
  have hppqn : 1 ≤ initPpqn ppqn.toNat ∧ initPpqn ppqn.toNat < 2 ^ 32 := by
    unfold initPpqn
    split <;> omega
  have hspqn := initSpqn_pos spqn hrate.2
  refine ⟨?_, fun hm => ?_, hspqn, ?_, h, ?_, averagesInv_rearm k⟩ <;> simp only [initClock] at *
  · split
    · omega
    · exact Int.le_refl 0
  · rwa [if_pos hm]
  · rw [natWord_toNat hppqn.2]
    exact hppqn.1
  · rw [natWord_toNat hrate.2]
    exact hrate.1

theorem modeSpqn_valid (h : clockInv k) (m : ClockMode) : 0 ≤ (modeSpqn m k).toInt ∧ (m = .internal → 1 ≤ (modeSpqn m k).toInt) := by
  obtain ⟨-, -, hlast, -⟩ := h
  cases m with
  | internal =>
    have hpos : 1 ≤ (modeSpqn .internal k).toInt := by
      rw [modeSpqn_eq, if_pos rfl, if_pos (show 0 < k.lastValid.toInt by omega)]
      split <;> omega
    exact ⟨by omega, fun _ => hpos⟩
  | externalCV | midiClock => exact ⟨Int.le_refl 0, nofun⟩

theorem clockInv_setMode (h : clockInv k) (m : ClockMode) : clockInv (setMode m k) := by
  obtain ⟨hspqn, hpos⟩ := modeSpqn_valid h m
  obtain ⟨-, -, hlast, hint, hext, hsr, -⟩ := h
  exact ⟨hspqn, hpos, hlast, hint, hext, hsr, averagesInv_rearm k⟩

theorem clockInv_storeTempo (h : clockInv k) {n : Int} (hn : n < 2 ^ 31) : clockInv (storeTempo k n) := by
  obtain ⟨-, -, -, hrest⟩ := h
  have hword : 1 ≤ (intWord (max n 1)).toInt := by
    rw [intWord_toInt (by omega) (by omega)]
    omega
  exact ⟨zero_le_one.trans hword, fun _ => hword, hword, hrest⟩

/-! ### Every step keeps the invariant -/

/-- The conversion of R10 saturates below 2^31. -/
theorem f2i_lt (x : F32) : f2i x < 2 ^ 31 := by
  unfold f2i
  split
  · decide
  · split <;> decide
  · simp only
    split <;> omega

theorem clockInv_setTempo {s : State} (h : clockInv s.ck) (bad : Bool) {n : Int} (hn : n < 2 ^ 31) :
    clockInv (setTempo s bad n).ck := by
  cases bad with
  | true => exact h
  | false => exact clockInv_storeTempo h hn

/-- An instruction whose rule does not write the clock. -/
theorem exec_clockInv_of_frame {i : Instr} {s : State} (h : clockInv s.ck) (hframe : ¬ mayChange i s .clock) :
    ∃ t, exec i s = .next t ∧ clockInv t.ck := by
  obtain ⟨t, hexec, htouch⟩ := exec_touches i s
  have hck : t.ck = s.ck := htouch.frame .clock hframe
  exact ⟨t, hexec, hck ▸ h⟩

/-- The instructions that write the clock are the clock's own. -/
theorem exec_clockInv (i : Instr) {s : State} (h : clockInv s.ck) : ∃ t, exec i s = .next t ∧ clockInv t.ck := by
  cases i with
  | ckInit =>
    obtain ⟨-, -, -, -, hext, -⟩ := h
    exact ⟨_, exec_ckInit s, clockInv_initClock hext ..⟩
  | ckTick =>
    obtain ⟨t, hexec, hck, -⟩ := exec_ckTick s
    exact ⟨t, hexec, hck ▸ clockInv_tickClock h _⟩
  | ckSetmodeInt => exact ⟨_, exec_setmodeInstr .internal s, clockInv_setMode h _⟩
  | ckSetmodeCv => exact ⟨_, exec_setmodeInstr .externalCV s, clockInv_setMode h _⟩
  | ckSetmodeMidi => exact ⟨_, exec_setmodeInstr .midiClock s, clockInv_setMode h _⟩
  | ckSetbpm => exact ⟨_, exec_ckSetbpm s, clockInv_setTempo h _ (f2i_lt _)⟩
  | ckSetfreq => exact ⟨_, exec_ckSetfreq s, clockInv_setTempo h _ (f2i_lt _)⟩
  | ckSetsmp => exact ⟨_, exec_ckSetsmp s, clockInv_setTempo h _ (f2i_lt _)⟩
  | ckSetspqn => exact ⟨_, exec_ckSetspqn s, clockInv_setTempo h _ (BitVec.toInt_lt (w := 32))⟩
  | _ => exact exec_clockInv_of_frame h (by simp [mayChange, slotPart])

/-- A PPQN is stored as at least 1 (R27). -/
theorem ppqnStored_pos (v : Word) : 1 ≤ (ppqnStored v).toNat := by
  unfold ppqnStored
  split
  · decide
  · next h =>
    have hne : v.toNat ≠ 0 := fun e => h (BitVec.eq_of_toNat_eq e)
    omega

theorem clockInv_regWrite {s : State} (h : clockInv s.ck) (r : Reg) (v : Word) : clockInv (regWrite s r v).ck := by
  have hstored := ppqnStored_pos v
  cases r with
  | ckPpqnInt =>
    obtain ⟨hspqn, hpos, hlast, -, hrest⟩ := h
    exact ⟨hspqn, hpos, hlast, hstored, hrest⟩
  | ckPpqnExt =>
    obtain ⟨hspqn, hpos, hlast, hint, -, hrest⟩ := h
    exact ⟨hspqn, hpos, hlast, hint, hstored, hrest⟩
  | _ => exact h

theorem step_clockInv {s t : State} (h : clockInv s.ck) (hstep : step s = .next t) : clockInv t.ck := by
  cases stepResult_of_step hstep with
  | idle | illegal | ignoredWrite | read v | ignoredRead => exact h
  | instruction i t hexec =>
    obtain ⟨u, hu, hinv⟩ := exec_clockInv i (s := s.advance) h
    obtain rfl : u = t := Host.Outcome.next.inj (hu.symm.trans hexec)
    exact hinv
  | write r v => exact clockInv_regWrite (s := s.advance) h r v

/-! ### The pulse count after a pulse (R180) -/

theorem incSat_ne_zero (x : Word) : (incSat x).toNat ≠ 0 := by
  rw [incSat_toNat]
  split <;> omega

/-- A pulse that completes the quarter note clears the count, any other leaves it below the PPQN. -/
theorem outputDivider_pulseCnt_lt (hppqn : 1 ≤ k.ppqnInt.toNat) (hp : dividerPulses k = true) :
    (outputDivider k).pulseCnt.toNat < k.ppqnInt.toNat := by
  cases hq : quarterDone k with
  | true =>
    rw [(outputDivider_quarter hp hq).1]
    exact hppqn
  | false =>
    have hlt : ¬ k.ppqnInt.toNat ≤ k.pulseCnt.toNat + 1 := mt quarterDone_iff.2 (ne_true_of_eq_false hq)
    rw [(outputDivider_pulse hp hq).1]
    exact (pulseCnt_toNat hlt).trans_lt (not_le.1 hlt)

/-- The accumulator has just advanced, so it is 0 after a tick only if the divider pulsed. -/
theorem pulses_of_outAcc_eq_zero {trig : Bool} (h : (tickClock k trig).outAcc = 0#32) : dividerPulses (tickInput k trig) = true := by
  refine eq_true_of_ne_false fun hnone => incSat_ne_zero k.outAcc ?_
  obtain ⟨hacc, -⟩ := tickInput_outputs k trig
  rw [tickClock, (outputDivider_noPulse hnone).1, hacc] at h
  rw [h]
  rfl

theorem tickClock_ppqnInt (k : Clock) (trig : Bool) : (tickClock k trig).ppqnInt = k.ppqnInt := by
  obtain ⟨-, hint, -⟩ := detectStep_kept k trig
  rw [tickClock_eq]
  exact hint

/-- Settles O26: the operations one by one, over what a step can do; the pulse count by the cases of the divider. -/
theorem clockInvKept : Obligations.ClockInvKept := by
  refine ⟨fun s t h hstep => step_clockInv h hstep, fun s t h hexec hzero => ?_⟩
  obtain ⟨u, hu, hck, -⟩ := exec_ckTick s
  obtain rfl : u = t := Host.Outcome.next.inj (hu.symm.trans hexec)
  obtain ⟨-, -, -, hint, -⟩ := h
  obtain ⟨-, -, hppqn, -⟩ := tickInput_outputs s.ck (argB s 0)
  rw [hck] at hzero ⊢
  have hlt := outputDivider_pulseCnt_lt (hppqn.symm ▸ hint) (pulses_of_outAcc_eq_zero hzero)
  rw [tickClock_ppqnInt, ← hppqn]
  exact hlt

end Sys2Proof.Machine
end

section
/-! Runs of ticks: the period of Internal mode (R186) and the loss of an external clock (R184, R188). -/

namespace Sys2Proof.Machine

variable {s : State} {k : Clock} {trig : Bool}

/-- A tick with its trigger written before acts on the clock alone as `tickClock`. -/
theorem runWith_ckTick_ck (s : State) (v : Word) : (runWith .ckTick s v).ck = tickClock s.ck (v.getLsbD 0) := rfl

/-! ### Internal mode: where the output half stands after `n` ticks (R186) -/

/-- The output half `n` ticks after a re-arm in Internal mode, the quarter note being `p` pulses of `thr` frames each: `pulseCnt` whole
pulses and `outAcc` frames of the current quarter have passed. -/
def QuarterPhase (p thr n : Nat) (k : Clock) : Prop :=
  k.mode = .internal ∧ k.ppqnInt.toNat = p ∧ 0 < k.spqn.toInt ∧ k.spqn.toNat = thr * p ∧ k.outAcc.toNat < thr ∧
  k.pulseCnt.toNat < p ∧ thr * k.pulseCnt.toNat + k.outAcc.toNat = n % (thr * p)

theorem tickClock_internal (h : k.mode = .internal) :
    tickClock k trig =
      { k with
        outAcc := (tickClock k trig).outAcc, pulseCnt := (tickClock k trig).pulseCnt, gate := (tickClock k trig).gate
        gateTimer := (tickClock k trig).gateTimer, prevTrig := trig } := by
  have htick := tickClock_eq k trig
  rwa [detectStep_internal h] at htick

/-- Whole pulses and the frames of one more are fewer frames than the quarter note. -/
theorem phase_lt {thr p c a : Nat} (ha : a < thr) (hc : c < p) : thr * c + a < thr * p := by
  calc thr * c + a < thr * c + thr := by omega
    _ = thr * (c + 1) := (Nat.mul_succ thr c).symm
    _ ≤ thr * p := Nat.mul_le_mul_left thr hc

/-- The next phase of a cycle that is not at its end. -/
theorem succ_mod_of_lt {n q x : Nat} (hx : n % q + 1 = x) (hlt : x < q) : x = (n + 1) % q ∧ ¬ q ∣ n + 1 := by
  have hmod : (n + 1) % q = x := by rw [← Nat.mod_add_mod, hx, Nat.mod_eq_of_lt hlt]
  refine ⟨hmod.symm, fun hdvd => ?_⟩
  have hzero := Nat.mod_eq_zero_of_dvd hdvd
  omega

/-- The cycle ends where its last phase ends. -/
theorem succ_mod_of_eq {n q : Nat} (hx : n % q + 1 = q) : 0 = (n + 1) % q ∧ q ∣ n + 1 := by
  have hmod : (n + 1) % q = 0 := by rw [← Nat.mod_add_mod, hx, Nat.mod_self]
  exact ⟨hmod.symm, Nat.dvd_of_mod_eq_zero hmod⟩

namespace QuarterPhase

variable {p thr n : Nat}

/-- A tick that leaves accumulator and count where the next phase has them. -/
theorem next (h : QuarterPhase p thr n k) (hacc : (tickClock k trig).outAcc.toNat < thr) (hcount : (tickClock k trig).pulseCnt.toNat < p)
    (hphase : thr * (tickClock k trig).pulseCnt.toNat + (tickClock k trig).outAcc.toNat = (n + 1) % (thr * p)) :
    QuarterPhase p thr (n + 1) (tickClock k trig) := by
  obtain ⟨hmode, hppqn, htempo, hspqn, -, -, -⟩ := h
  have htick := tickClock_internal (trig := trig) hmode
  exact ⟨by rwa [htick], by rwa [htick], by rwa [htick], by rwa [htick], hacc, hcount, hphase⟩

/-- What the divider is given: its accumulator does not saturate, it pulses at the end of a pulse's frames, and the last of `p` pulses
completes the quarter note. -/
theorem divider_iff (h : QuarterPhase p thr n k) (trig : Bool) :
    (tickInput k trig).outAcc.toNat = k.outAcc.toNat + 1 ∧
    (dividerPulses (tickInput k trig) = true ↔ thr ≤ k.outAcc.toNat + 1) ∧
    (quarterDone (tickInput k trig) = true ↔ p ≤ k.pulseCnt.toNat + 1) := by
  obtain ⟨hmode, hppqn, htempo, hspqn, hacc, hcount, -⟩ := h
  obtain ⟨hin, hcnt, hint, -⟩ := tickInput_outputs k trig
  have htempoIn : (tickInput k trig).spqn = k.spqn := by rw [tickInput_eq, detectStep_internal hmode]
  have hle : thr ≤ thr * p := Nat.le_mul_of_pos_right thr (by omega)
  have haccIn : (tickInput k trig).outAcc.toNat = k.outAcc.toNat + 1 := by
    rw [hin, incSat_toNat, if_pos (by omega)]
  have hthr : thr * p / p = thr := Nat.mul_div_cancel thr (by omega)
  refine ⟨haccIn, ?_, by rw [quarterDone_iff, hcnt, hint, hppqn]⟩
  rw [dividerPulses_iff, haccIn, htempoIn, hint, hspqn, hppqn, hthr]
  omega

/-- One tick further, an edge exactly at the end of the quarter note. -/
theorem tick (h : QuarterPhase p thr n k) (trig : Bool) :
    QuarterPhase p thr (n + 1) (tickClock k trig) ∧ (tickEdge k trig = true ↔ thr * p ∣ n + 1) := by
  obtain ⟨haccIn, hpulses, hdone⟩ := h.divider_iff trig
  obtain ⟨-, hcnt, -⟩ := tickInput_outputs k trig
  have hnow := h
  obtain ⟨-, hppqn, -, -, hacc, hcount, hphase⟩ := hnow
  by_cases hp : thr ≤ k.outAcc.toNat + 1
  · by_cases hq : p ≤ k.pulseCnt.toNat + 1
    · -- the quarter note is complete
      obtain ⟨hout, hedge⟩ := outputDivider_quarter (hpulses.2 hp) (hdone.2 hq)
      have hend : n % (thr * p) + 1 = thr * p := by
        rw [← hphase, add_assoc, show k.outAcc.toNat + 1 = thr by omega, show p = k.pulseCnt.toNat + 1 by omega, Nat.mul_succ]
      obtain ⟨hmod, hdvd⟩ := succ_mod_of_eq hend
      refine ⟨h.next ?_ ?_ ?_, iff_of_true hedge hdvd⟩ <;> rw [tickClock, hout]
      · exact (Nat.zero_le _).trans_lt hacc
      · exact (Nat.zero_le _).trans_lt hcount
      · exact hmod
    · -- a pulse inside the quarter note
      obtain ⟨hout, hedge⟩ := outputDivider_pulse (hpulses.2 hp) (eq_false_of_ne_true (mt hdone.1 hq))
      have hnext : (natWord ((tickInput k trig).pulseCnt.toNat + 1)).toNat = k.pulseCnt.toNat + 1 := by
        rw [hcnt]
        exact pulseCnt_toNat (p := k.ppqnInt) (by rwa [hppqn])
      have hx : n % (thr * p) + 1 = thr * (k.pulseCnt.toNat + 1) := by
        rw [← hphase, add_assoc, show k.outAcc.toNat + 1 = thr by omega, Nat.mul_succ]
      obtain ⟨hmod, hdvd⟩ := succ_mod_of_lt hx (phase_lt (a := 0) (by omega) (by omega))
      refine ⟨h.next ?_ ?_ ?_, iff_of_false (ne_true_of_eq_false hedge) hdvd⟩ <;> rw [tickClock, hout]
      · exact (Nat.zero_le _).trans_lt hacc
      · exact hnext.trans_lt (not_le.1 hq)
      · exact (congrArg (thr * ·) hnext).trans hmod
  · -- a frame inside a pulse
    obtain ⟨hout, hedge⟩ := outputDivider_noPulse (eq_false_of_ne_true (mt hpulses.1 hp))
    have hx : n % (thr * p) + 1 = thr * k.pulseCnt.toNat + (k.outAcc.toNat + 1) := by rw [← hphase, add_assoc]
    obtain ⟨hmod, hdvd⟩ := succ_mod_of_lt hx (phase_lt (by omega) hcount)
    refine ⟨h.next ?_ ?_ ?_, iff_of_false (ne_true_of_eq_false hedge) hdvd⟩ <;> rw [tickClock, hout]
    · omega
    · rwa [hcnt]
    · rwa [hcnt, haccIn]

theorem runEach {s : State} (h : QuarterPhase p thr n s.ck) (vs : List Word) :
    QuarterPhase p thr (n + vs.length) (runEach .ckTick s vs).ck := by
  induction vs generalizing s n with
  | nil => exact h
  | cons v vs ih =>
    rw [List.length_cons, Nat.add_comm vs.length, ← Nat.add_assoc]
    exact ih (s := runWith .ckTick s v) (runWith_ckTick_ck s v ▸ (h.tick (v.getLsbD 0)).1)

end QuarterPhase

/-- Settles O22: the phase of the output half after `n` ticks is `n` modulo SPQN, and the edge is where it wraps. -/
theorem internalPeriodicity : Obligations.InternalPeriodicity := by
  intro s vs v hmode hacc hcount hppqn htempo ⟨thr, hspqn⟩
  rw [Nat.mul_comm] at hspqn
  have hpos : 0 < s.ck.spqn.toNat := by
    have hword := toInt_toNat_of_nonneg htempo.le
    omega
  have hthr : 0 < thr := Nat.pos_of_ne_zero fun e => by simp [e] at hspqn; omega
  have hstart : QuarterPhase s.ck.ppqnInt.toNat thr 0 s.ck :=
    ⟨hmode, rfl, htempo, hspqn, by rw [hacc]; exact hthr, by rw [hcount]; exact hppqn, by rw [hacc, hcount]; simp⟩
  obtain ⟨-, hedge⟩ := (hstart.runEach vs).tick (argB ((runEach .ckTick s vs).setArg 0 v) 0)
  obtain ⟨t, hexec, -, -, hres, -⟩ := exec_ckTick ((runEach .ckTick s vs).setArg 0 v)
  refine ⟨t, hexec, ?_⟩
  rw [hres, State.setArg_ck, boolWord, hspqn]
  exact if_congr (by rw [hedge, Nat.zero_add]) rfl rfl

/-! ### Clock loss (R184, R188) -/

/-- Without a rising edge an external mode's tick keeps the tempo and counts. -/
theorem tickClock_waiting (h : k.mode ≠ .internal) (hedge : risingEdge k trig = false) :
    tickClock k trig =
      { k with
        detAcc := incSat k.detAcc, timeoutCnt := incSat k.timeoutCnt
        outAcc := (tickClock k trig).outAcc, pulseCnt := (tickClock k trig).pulseCnt, gate := (tickClock k trig).gate
        gateTimer := (tickClock k trig).gateTimer, prevTrig := trig } := by
  have htick := tickClock_eq k trig
  rwa [detectStep_waiting h hedge] at htick

/-- What a run of ticks without a rising edge keeps, and the frames it counts (R179, R184). -/
theorem runEach_ckTick_noEdge {vs : List Word} (hmode : s.ck.mode ≠ .internal) (hno : noEdge s.ck.prevTrig vs = true)
    (hlen : s.ck.timeoutCnt.toNat + vs.length < 2 ^ 32) :
    (runEach .ckTick s vs).ck.spqn = s.ck.spqn ∧ (runEach .ckTick s vs).ck.lastValid = s.ck.lastValid ∧
    (runEach .ckTick s vs).ck.sr = s.ck.sr ∧ (runEach .ckTick s vs).ck.clockTimeout = s.ck.clockTimeout ∧
    (runEach .ckTick s vs).ck.timeoutCnt.toNat = s.ck.timeoutCnt.toNat + vs.length := by
  induction vs generalizing s with
  | nil => exact ⟨rfl, rfl, rfl, rfl, rfl⟩
  | cons v vs ih =>
    rw [List.length_cons] at hlen ⊢
    obtain ⟨hfirst, hrest⟩ := Bool.and_eq_true_iff.1 hno
    have hedge : risingEdge s.ck (v.getLsbD 0) = false := (Bool.not_eq_true' _).mp hfirst
    have htick : (runWith .ckTick s v).ck = _ := (runWith_ckTick_ck s v).trans (tickClock_waiting hmode hedge)
    have hcount : (runWith .ckTick s v).ck.timeoutCnt.toNat = s.ck.timeoutCnt.toNat + 1 := by
      rw [htick, incSat_toNat, if_pos (by omega)]
    obtain ⟨hspqn, hlast, hsr, htimeout, hcnt⟩ := ih (s := runWith .ckTick s v) (by rwa [htick]) (by rwa [htick]) (by omega)
    refine ⟨hspqn.trans (by rw [htick]), hlast.trans (by rw [htick]), hsr.trans (by rw [htick]), htimeout.trans (by rw [htick]), ?_⟩
    exact hcnt.trans (by omega)

theorem bpmOf_congr {k' : Clock} (hspqn : k'.spqn = k.spqn) (hsr : k'.sr = k.sr) : bpmOf k' = bpmOf k := by
  rw [bpmOf_eq, bpmOf_eq, hspqn, hsr]

/-- Settles O23: the run keeps what the tempo is made of, and the counter the query compares is its length. -/
theorem clockLoss : Obligations.ClockLoss := by
  intro s vs hmode hno hzero hlen t
  have hzeroNat : s.ck.timeoutCnt.toNat = 0 := by rw [hzero]; rfl
  obtain ⟨hspqn, hlast, hsr, htimeout, hcount⟩ := runEach_ckTick_noEdge hmode hno (by omega)
  rw [hzeroNat, Nat.zero_add] at hcount
  refine ⟨hspqn, hlast, hcount, ⟨_, exec_ckPresent t, ?_⟩, _, _, exec_ckGetbpm t, exec_ckGetbpm s, ?_⟩
  · rw [setRes_get_self, boolWord_clockPresent, hcount, htimeout]
  · rw [setRes_get_self, setRes_get_self, bpmOf_congr hspqn hsr]

end Sys2Proof.Machine
end

section
/-! What one frame of the effect engine leaves, for all twelve modes at once (R212). A frame is what the four kernels answer and what the
stages behind them make of it: `answer` names the kernels' answers in the order of the channels, `fxProc_eq` is the frame they give, and
`Seamed` is all that any kernel may do to the fields the shared stages own (R215, R250). -/

namespace Sys2Proof

theorem Per4.ext_get {α : Type} {v w : Per4 α} (h : ∀ i, v.get i = w.get i) : v = w := by
  obtain ⟨a0, a1, a2, a3⟩ := v
  obtain ⟨b0, b1, b2, b3⟩ := w
  exact Per4.mk.injEq .. ▸ ⟨h 0, h 1, h 2, h 3⟩

end Sys2Proof

namespace Sys2Proof.Machine

/-! ### The answers of the four kernels -/

/-- What the kernel of channel `c` answers in a frame of mode `m` when the generator stands at `r`. -/
def answerFrom (m : FxMode) (s : State) (r : Word) (c : Fin 4) : KernelOut :=
  kernel m (frameOf m s) (readHerm s c) c ⟨entered m s c, s.ph.get c, r⟩

/-- The generator when the channels below `n` are done: the kernels draw in the order 0 to 3 (R222). -/
def rngBefore (m : FxMode) (s : State) : Nat → Word
  | 0 => s.fx.rng
  | n + 1 => (answerFrom m s (rngBefore m s n) (Fin.ofNat 4 n)).voice.rng

/-- What the kernel of channel `c` answers in a frame of mode `m`. -/
def answer (m : FxMode) (s : State) (c : Fin 4) : KernelOut := answerFrom m s (rngBefore m s c.val) c

/-- What the stages behind the kernel of channel `c` leave. -/
def finished (m : FxMode) (s : State) (c : Fin 4) : ChannelOut :=
  finishChannel (allpassOn s) (allpassGain s.fxIn.fb) (answer m s c).voice.ch (answer m s c).raw

theorem rngBefore_succ (m : FxMode) (s : State) (c : Fin 4) : rngBefore m s (c.val + 1) = (answer m s c).voice.rng := by
  rw [rngBefore, Fin.ofNat_val_eq_self]
  rfl

/-- The answers are the ones the channel loop computes. -/
theorem kernel_eq_answer (m : FxMode) (s : State) (c : Fin 4) :
    kernel m (frameOf m s) (readHerm s c) c ⟨(frameFx m s).chan.get c, s.ph.get c, rngBefore m s c.val⟩ =
      ⟨⟨(answer m s c).voice.ch, (answer m s c).voice.ph, rngBefore m s (c.val + 1)⟩, (answer m s c).raw⟩ := by
  rw [frameFx_chan, rngBefore_succ]
  rfl

/-- A frame (R212). -/
theorem fxProc_eq (m : FxMode) (s : State) :
    fxProc m s =
      { s with
        fx := { frameFx m s with chan := Per4.ofFn fun c => (finished m s c).ch, rng := rngBefore m s 4 }
        ph := Per4.ofFn fun c => (answer m s c).voice.ph
        status := (((s.status.raise .nonfin (finished m s 0).nonfin).raise .nonfin (finished m s 1).nonfin).raise .nonfin
          (finished m s 2).nonfin).raise .nonfin (finished m s 3).nonfin } := by
  have e := fxProc_of_kernels (ch := fun c => (answer m s c).voice.ch) (ph := fun c => (answer m s c).voice.ph)
    (raw := fun c => (answer m s c).raw) (r := rngBefore m s) (frameFx_rng m s).symm (kernel_eq_answer m s)
  exact e

theorem exec_fxProcInstr (m : FxMode) (s : State) : exec (fxProcInstr m) s = .next (fxProc m s) := by
  cases m <;> rfl

@[simp] theorem fxProc_chan (m : FxMode) (s : State) (c : Fin 4) : (fxProc m s).fx.chan.get c = (finished m s c).ch := by
  rw [fxProc_eq, Per4.get_ofFn]

@[simp] theorem fxProc_ph (m : FxMode) (s : State) (c : Fin 4) : (fxProc m s).ph.get c = (answer m s c).voice.ph := by
  rw [fxProc_eq, Per4.get_ofFn]

theorem fxProc_rng (m : FxMode) (s : State) : (fxProc m s).fx.rng = rngBefore m s 4 := by
  rw [fxProc_eq]

/-- Of the engine, a frame's own step and the generator apart, only the channels change. -/
theorem fxProc_fx (m : FxMode) (s : State) :
    (fxProc m s).fx = { frameFx m s with chan := (fxProc m s).fx.chan, rng := rngBefore m s 4 } := by
  rw [fxProc_eq]

theorem fxProc_nonfin (m : FxMode) (s : State) :
    (fxProc m s).status.flag .nonfin =
      (s.status.flag .nonfin || (finished m s 0).nonfin || (finished m s 1).nonfin || (finished m s 2).nonfin ||
        (finished m s 3).nonfin) := by
  rw [fxProc_eq]
  simp only [Status.flag_raise, if_true]

/-- A frame with the allpass stage off, in the statements' terms. -/
theorem fxProc_frameOut {s : State} (m : FxMode) (off : allpassOn s = false) :
    frameOut s (fxProc m s) (fun c => (answer m s c).voice.ch) (fun c => (answer m s c).raw) :=
  frameOut_of_kernels off (frameFx_rng m s).symm (kernel_eq_answer m s)

/-! ### The state before the channel loop (R212, R215) -/

@[simp] theorem frameFx_curMode (m : FxMode) (s : State) : (frameFx m s).curMode = m := by
  have hstep : (frameFx m s).curMode = (enterMode m s.fx).curMode := by cases m <;> rfl
  rw [hstep, enterMode]
  split
  · next e => exact e.symm
  · rfl

/-- Without a step of its own a mode leaves all of the engine but the channels and the mode. -/
theorem frameFx_of_plain {m : FxMode} (s : State) (hchorus : m ≠ .chorus) (hfluid : m ≠ .fluid) :
    frameFx m s = { s.fx with chan := (frameFx m s).chan, curMode := m } := by
  have hstep : frameFx m s = enterMode m s.fx := by
    cases m with
    | chorus => exact absurd rfl hchorus
    | fluid => exact absurd rfl hfluid
    | basic | pingpong | unlinked | resonator | knuth | gran | octave | texture | shimmer | crystals => rfl
  rw [hstep]
  unfold enterMode
  split
  · next e => rw [e]
  · rfl

/-- A channel as a frame finds it, field by field where a mode change leaves the field alone. -/
theorem entered_eq (m : FxMode) (s : State) (c : Fin 4) :
    entered m s c =
      { s.fx.chan.get c with
        xfRem := (entered m s c).xfRem, xfFrom := (entered m s c).xfFrom
        posValid := (entered m s c).posValid, dvalid := (entered m s c).dvalid } := by
  unfold entered
  dsimp only
  split <;> rfl

/-- A mode change (R215). -/
theorem entered_of_ne {m : FxMode} {s : State} (h : m ≠ s.fx.curMode) (c : Fin 4) :
    entered m s c =
      { s.fx.chan.get c with xfRem := 24, xfFrom := (s.fx.chan.get c).lastOut, posValid := false, dvalid := false } := by
  rw [entered, if_neg h]
  rfl

/-! ### The stages behind the kernel (R217 to R221) -/

/-- The stages behind the kernel write the countdown, the outputs and the allpass memories. -/
theorem finishChannel_ch (apen : Bool) (g : F32) (ch : FxChannel) (raw : F32) :
    (finishChannel apen g ch raw).ch =
      { ch with
        xfRem := ch.xfRem - 1
        wet := (finishChannel apen g ch raw).ch.lastOut, which := (finishChannel apen g ch raw).ch.lastOut
        lastOut := (finishChannel apen g ch raw).ch.lastOut
        apX1 := (finishChannel apen g ch raw).ch.apX1, apY1 := (finishChannel apen g ch raw).ch.apY1 } := by
  simp only [finishChannel, allpassStore]
  split
  · split <;> rfl
  · rfl

theorem finished_ch (m : FxMode) (s : State) (c : Fin 4) :
    (finished m s c).ch =
      { (answer m s c).voice.ch with
        xfRem := (answer m s c).voice.ch.xfRem - 1
        wet := (finished m s c).ch.lastOut, which := (finished m s c).ch.lastOut, lastOut := (finished m s c).ch.lastOut
        apX1 := (finished m s c).ch.apX1, apY1 := (finished m s c).ch.apY1 } :=
  finishChannel_ch ..

/-! ### What a kernel may do to the fields of the shared stages (R215, R250) -/

/-- From `ch` to `ch'` the outputs and the allpass memories stand, and the fade stands or was armed from the last output. -/
def Seamed (ch ch' : FxChannel) : Prop :=
  ch'.wet = ch.wet ∧ ch'.which = ch.which ∧ ch'.lastOut = ch.lastOut ∧ ch'.apX1 = ch.apX1 ∧ ch'.apY1 = ch.apY1 ∧
  (ch'.xfRem = ch.xfRem ∧ ch'.xfFrom = ch.xfFrom ∨ ch'.xfRem = 24 ∧ ch'.xfFrom = ch.lastOut)

namespace Seamed

variable {ch ch' ch'' : FxChannel}

theorem refl : Seamed ch ch := ⟨rfl, rfl, rfl, rfl, rfl, .inl ⟨rfl, rfl⟩⟩

theorem trans (h : Seamed ch ch') (h' : Seamed ch' ch'') : Seamed ch ch'' := by
  obtain ⟨hwet, hwhich, hlast, hx, hy, hfade⟩ := h
  obtain ⟨hwet', hwhich', hlast', hx', hy', hfade'⟩ := h'
  refine ⟨hwet'.trans hwet, hwhich'.trans hwhich, hlast'.trans hlast, hx'.trans hx, hy'.trans hy, ?_⟩
  rw [hlast] at hfade'
  rcases hfade' with ⟨hrem', hfrom'⟩ | harmed
  · rw [hrem', hfrom']
    exact hfade
  · exact .inr harmed

theorem forceSeam : Seamed ch (forceSeam ch) := ⟨rfl, rfl, rfl, rfl, rfl, .inr ⟨rfl, rfl⟩⟩

/-- A fade armed from the last output is still so armed. -/
theorem armed (h : Seamed ch ch') (hrem : ch.xfRem = 24) (hfrom : ch.xfFrom = ch.lastOut) :
    ch'.xfRem = 24 ∧ ch'.xfFrom = ch.lastOut := by
  obtain ⟨-, -, -, -, -, hfade⟩ := h
  rcases hfade with ⟨hrem', hfrom'⟩ | harmed
  · exact ⟨hrem'.trans hrem, hfrom'.trans hfrom⟩
  · exact harmed

/-- The allpass memories stand. -/
theorem memories (h : Seamed ch ch') : ch'.apX1 = ch.apX1 ∧ ch'.apY1 = ch.apY1 := by
  obtain ⟨-, -, -, hx, hy, -⟩ := h
  exact ⟨hx, hy⟩

theorem seamDetect (base pos : F32) : Seamed ch (seamDetect base pos ch) := by
  unfold Machine.seamDetect
  split
  · exact ⟨rfl, rfl, rfl, rfl, rfl, .inr ⟨rfl, rfl⟩⟩
  · exact ⟨rfl, rfl, rfl, rfl, rfl, .inl ⟨rfl, rfl⟩⟩

theorem divTarget (freeze : Bool) (jf base : F32) : Seamed ch (divTarget freeze jf base ch) := by
  unfold Machine.divTarget
  repeat' split
  all_goals exact ⟨rfl, rfl, rfl, rfl, rfl, .inl ⟨rfl, rfl⟩⟩

theorem divAdvance (p0 sr : F32) : Seamed ch (divAdvance p0 sr ch) := by
  unfold Machine.divAdvance
  split <;> exact ⟨rfl, rfl, rfl, rfl, rfl, .inl ⟨rfl, rfl⟩⟩

theorem sliceSeam (idx : Fin 8) : Seamed ch (sliceSeam idx ch) := by
  unfold Machine.sliceSeam
  split
  · exact refl
  · exact ⟨rfl, rfl, rfl, rfl, rfl, .inr ⟨rfl, rfl⟩⟩

theorem accStep (base rate : F32) : Seamed ch (accStep base rate ch) := by
  have hwrap : Seamed ch (accWrap base rate ch) := by
    unfold accWrap
    dsimp only
    split
    · exact ⟨rfl, rfl, rfl, rfl, rfl, .inr ⟨rfl, rfl⟩⟩
    · split
      · exact ⟨rfl, rfl, rfl, rfl, rfl, .inr ⟨rfl, rfl⟩⟩
      · exact ⟨rfl, rfl, rfl, rfl, rfl, .inl ⟨rfl, rfl⟩⟩
  unfold Machine.accStep
  dsimp only
  split
  · exact hwrap
  · exact hwrap.trans ⟨rfl, rfl, rfl, rfl, rfl, .inl ⟨rfl, rfl⟩⟩

theorem crystalAdvance (base rate p3 : F32) (idx : Fin 8) : Seamed ch (crystalAdvance base rate p3 idx ch) := by
  unfold Machine.crystalAdvance
  dsimp only
  split
  · exact ⟨rfl, rfl, rfl, rfl, rfl, .inr ⟨rfl, rfl⟩⟩
  · exact ⟨rfl, rfl, rfl, rfl, rfl, .inl ⟨rfl, rfl⟩⟩

theorem granLaw (m : FxMode) (p : Per4 F32) (base rate : F32) (idx : Fin 8) : Seamed ch (granLaw m p base rate idx ch) := by
  unfold Machine.granLaw
  split
  · exact crystalAdvance ..
  · exact accStep ..

end Seamed

/-! ### The granular kernel by its head (R289) -/

/-- From `ch` to `ch'` what the head of a granular mode does not own stands: the divisor crossfade, the grains, the particle. -/
def HeadFrame (ch ch' : FxChannel) : Prop :=
  ch'.dvalid = ch.dvalid ∧ ch'.dxfPos = ch.dxfPos ∧ ch'.gphase = ch.gphase ∧ ch'.grain = ch.grain ∧ ch'.px = ch.px ∧ ch'.py = ch.py

namespace HeadFrame

variable {ch ch' ch'' : FxChannel}

theorem trans (h : HeadFrame ch ch') (h' : HeadFrame ch' ch'') : HeadFrame ch ch'' := by
  obtain ⟨hd, hdxf, hphase, hgrain, hx, hy⟩ := h
  obtain ⟨hd', hdxf', hphase', hgrain', hx', hy'⟩ := h'
  exact ⟨hd'.trans hd, hdxf'.trans hdxf, hphase'.trans hphase, hgrain'.trans hgrain, hx'.trans hx, hy'.trans hy⟩

theorem seamDetect (base pos : F32) : HeadFrame ch (seamDetect base pos ch) := by
  unfold Machine.seamDetect
  split <;> exact ⟨rfl, rfl, rfl, rfl, rfl, rfl⟩

theorem sliceSeam (idx : Fin 8) : HeadFrame ch (sliceSeam idx ch) := by
  unfold Machine.sliceSeam
  split <;> exact ⟨rfl, rfl, rfl, rfl, rfl, rfl⟩

theorem granLaw (m : FxMode) (p : Per4 F32) (base rate : F32) (idx : Fin 8) : HeadFrame ch (granLaw m p base rate idx ch) := by
  unfold Machine.granLaw
  split
  · unfold crystalAdvance
    dsimp only
    split <;> exact ⟨rfl, rfl, rfl, rfl, rfl, rfl⟩
  · unfold accStep accWrap
    dsimp only
    repeat' split
    all_goals exact ⟨rfl, rfl, rfl, rfl, rfl, rfl⟩

end HeadFrame

/-- The head of a granular mode: slice, position law and seam detection (R284 to R289). -/
def granHead (m : FxMode) (fr : Frame) (base : F32) (v : Voice) : FxChannel :=
  let idx := sliceOf fr.m2
  let ch := granLaw m fr.p base (granRate m fr.p fr.m1) idx (sliceSeam idx v.ch)
  seamDetect base (clampD fr.cap (granPos m base (wobble fr.p base (drivePhasor base fr.p.e1 fone v.ph)) idx ch)) ch

/-- The granular kernel is the mix at its head (R289). -/
theorem kernelGran_eq (m : FxMode) (fr : Frame) (rd : F32 → F32) (base : F32) (v : Voice) :
    kernelGran m fr rd base v =
      granMix m fr rd base (granRate m fr.p fr.m1) (rd (granHead m fr base v).lastPos)
        ⟨granHead m fr base v, drivePhasor base fr.p.e1 fone v.ph, v.rng⟩ := rfl

theorem Seamed.granHead (m : FxMode) (fr : Frame) (base : F32) (v : Voice) : Seamed v.ch (granHead m fr base v) :=
  ((Seamed.sliceSeam _).trans (.granLaw ..)).trans (.seamDetect ..)

theorem HeadFrame.granHead (m : FxMode) (fr : Frame) (base : F32) (v : Voice) : HeadFrame v.ch (granHead m fr base v) :=
  ((HeadFrame.sliceSeam _).trans (.granLaw ..)).trans (.seamDetect ..)

/-- A trigger writes the trigger phase and the grains (R288). -/
theorem grainTrigger_ch (cap : Nat) (base rate jit : F32) (v : Voice) :
    (grainTrigger cap base rate jit v).ch =
      { v.ch with
        gphase := (grainTrigger cap base rate jit v).ch.gphase, grain := (grainTrigger cap base rate jit v).ch.grain } := by
  unfold grainTrigger startGrain
  split
  · split <;> rfl
  · rfl

/-- The mix writes the trigger phase and the grains (R289). -/
theorem granMix_ch (m : FxMode) (fr : Frame) (rd : F32 → F32) (base rate head : F32) (v : Voice) :
    (granMix m fr rd base rate head v).voice.ch =
      { v.ch with
        gphase := (granMix m fr rd base rate head v).voice.ch.gphase
        grain := (granMix m fr rd base rate head v).voice.ch.grain } := by
  simp only [granMix]
  split
  · simp only [grainCloud]
    rw [grainTrigger_ch]
  · rfl

theorem Seamed.kernelGran (m : FxMode) (fr : Frame) (rd : F32 → F32) (base : F32) (v : Voice) :
    Seamed v.ch (kernelGran m fr rd base v).voice.ch := by
  rw [kernelGran_eq, granMix_ch]
  exact Seamed.granHead m fr base v

/-- Every kernel keeps to this. -/
theorem Seamed.kernel (m : FxMode) (fr : Frame) (rd : F32 → F32) (c : Fin 4) (v : Voice) :
    Seamed v.ch (kernel m fr rd c v).voice.ch := by
  cases m with
  | basic | pingpong | unlinked => exact (Seamed.divTarget ..).trans (.divAdvance ..)
  | resonator | chorus => exact .refl
  | knuth => exact .seamDetect ..
  | gran | octave | texture | shimmer | crystals => exact .kernelGran ..
  | fluid => exact ⟨rfl, rfl, rfl, rfl, rfl, .inl ⟨rfl, rfl⟩⟩

theorem Seamed.answer (m : FxMode) (s : State) (c : Fin 4) : Seamed (entered m s c) (answer m s c).voice.ch :=
  Seamed.kernel m (frameOf m s) (readHerm s c) c ⟨entered m s c, s.ph.get c, rngBefore m s c.val⟩

end Sys2Proof.Machine
end

section
/-! Ranges of rounded results that the engine's invariant rests on (R295, R323): a value that is not finite stays so through sums and
products, quotients by at least 1.0 shrink, and a draw is an exact multiple of 2^-24 (R222). -/

namespace Sys2Proof.Machine

variable {a b x y : F32}

/-! ### Values that are not finite (R9) -/

theorem isFinite_of_sumOr {q : F32} (hq : isFinite q = false) (h : isFinite (sumOr q a b) = true) :
    isFinite a = true ∧ isFinite b = true := by
  have hne : isFinite q ≠ true := Bool.eq_false_iff.1 hq
  cases a with
  | fin n m =>
    cases b with
    | fin k l => exact ⟨rfl, rfl⟩
    | inf k => cases h
    | nan k p => exact absurd h hne
  | inf n =>
    cases b with
    | fin k l => cases h
    | inf k =>
      simp only [sumOr] at h
      split at h
      · cases h
      · exact absurd h hne
    | nan k p => exact absurd h hne
  | nan n p => exact absurd h hne

theorem isFinite_of_fadd (h : isFinite (fadd a b) = true) : isFinite a = true ∧ isFinite b = true := isFinite_of_sumOr rfl h

theorem isFinite_of_fsub (h : isFinite (fsub a b) = true) : isFinite a = true ∧ isFinite b = true := by
  rw [← isFinite_fneg b]
  exact isFinite_of_sumOr rfl h

theorem isFinite_of_fmul (h : isFinite (fmul a b) = true) : isFinite a = true ∧ isFinite b = true := by
  cases a with
  | fin n m =>
    cases b with
    | fin k l => exact ⟨rfl, rfl⟩
    | inf k =>
      simp only [fmul] at h
      split at h <;> cases h
    | nan k p => cases h
  | inf n =>
    cases b with
    | fin k l =>
      simp only [fmul] at h
      split at h <;> cases h
    | inf k | nan k p => cases h
  | nan n p => cases h

/-! ### Intervals in exact values -/

theorem within_iff {l h : F32} (hl : isFinite l = true) (hh : isFinite h = true) :
    within l h x = true ↔ isFinite x = true ∧ unitsOf l ≤ unitsOf x ∧ unitsOf x ≤ unitsOf h := by
  refine ⟨fun hx => ?_, fun ⟨hx, h1, h2⟩ => Bool.and_eq_true_iff.2 ⟨(fle_iff hl hx).2 h1, (fle_iff hx hh).2 h2⟩⟩
  obtain ⟨h1, h2⟩ := Bool.and_eq_true_iff.1 hx
  exact units_of_between hl hh h1 h2

theorem unitsOf_fzero : unitsOf fzero = 0 := rfl

theorem inUnit_iff : inUnit x = true ↔ isFinite x = true ∧ 0 ≤ unitsOf x ∧ unitsOf x < 2 ^ 149 := by
  rw [← unitsOf_fone]
  refine ⟨fun h => ?_, fun ⟨hx, h0, h1⟩ => Bool.and_eq_true_iff.2 ⟨(fle_iff rfl hx).2 h0, (flt_iff hx rfl).2 h1⟩⟩
  obtain ⟨hlo, hlt⟩ := Bool.and_eq_true_iff.1 h
  have hx := isFinite_of_between rfl rfl hlo (fle_pred_fone hlt)
  exact ⟨hx, (fle_iff rfl hx).1 hlo, (flt_iff hx rfl).1 hlt⟩

/-- A value that is at least 0.0 and not at least 1.0 is in [0,1). -/
theorem inUnit_of_not_fle (h0 : fle fzero x = true) (h1 : fle fone x = false) : inUnit x = true := by
  obtain ⟨z, r, hz, hr, h⟩ := fle_iff_rank.1 h0
  refine Bool.and_eq_true_iff.2 ⟨h0, flt_iff_rank.2 ⟨r, onePos, hr, rank_fone, ?_⟩⟩
  by_contra hge
  exact Bool.false_ne_true (h1.symm.trans (fle_iff_rank.2 ⟨onePos, r, rank_fone, hr, not_lt.1 hge⟩))

theorem flt_eq_false_of_fle (h : fle x y = true) : flt y x = false := by
  obtain ⟨p, q, hp, hq, hpq⟩ := fle_iff_rank.1 h
  simp [flt, hp, hq, hpq]

/-! ### Quotients, maxima and minima -/

/-- A quotient by at least 1.0, +infinity included, is between 0 and the dividend. -/
theorem within_fdiv (ha : isFinite a = true) (h0 : 0 ≤ unitsOf a) (hb : fle fone b = true) : within fzero a (fdiv a b) = true := by
  cases hfin : isFinite b with
  | true =>
    have hb1 := (fle_iff rfl hfin).1 hb
    rw [unitsOf_fone] at hb1
    have hpos : 0 < unitsOf b := by omega
    exact Bool.and_eq_true_iff.2 ⟨le_fdiv ha hfin hpos rfl (by rw [unitsOf_fzero, zero_mul]; positivity),
      fdiv_le ha hfin hpos ha (mul_le_mul_of_nonneg_left hb1 h0)⟩
  | false =>
    obtain ⟨n, m, rfl⟩ := isFinite_cases ha
    cases b with
    | fin k l => cases hfin
    | nan k p => cases hb
    | inf k =>
      have hzero : unitsOf (fdiv (.fin n m) (.inf k)) = 0 := by cases n <;> cases k <;> rfl
      exact (within_iff rfl rfl).2 ⟨rfl, hzero.ge, hzero.trans_le h0⟩

/-- The comparisons of two values that are not NaN exclude and exhaust each other. -/
theorem fle_of_flt_eq_false (hx : isNan x = false) (hy : isNan y = false) (h : flt x y = false) : fle y x = true := by
  obtain ⟨p, hp⟩ : ∃ p, rank x = some p := by cases x <;> simp_all [rank, isNan]
  obtain ⟨q, hq⟩ : ∃ q, rank y = some q := by cases y <;> simp_all [rank, isNan]
  refine fle_iff_rank.2 ⟨q, p, hq, hp, ?_⟩
  by_contra hlt
  exact Bool.false_ne_true (h.symm.trans (flt_iff_rank.2 ⟨p, q, hp, hq, not_le.1 hlt⟩))

theorem fle_refl (hx : isNan x = false) : fle x x = true := by
  cases x <;> simp_all [fle, rank, isNan]

theorem fle_fmax2_left (ha : isNan a = false) : fle a (fmax2 a b) = true := by
  unfold fmax2
  rw [if_neg (Bool.eq_false_iff.1 ha)]
  split
  · exact fle_refl ha
  · next hb =>
    split
    · exact fle_refl ha
    · next hgt => exact fle_of_flt_eq_false (Bool.eq_false_iff.2 hb) ha (Bool.eq_false_iff.2 hgt)

/-- The lesser of 1.0 and a value that is at least 0. -/
theorem within_fmin2_fone (h0 : fle fzero x = true) : within fzero fone (fmin2 fone x) = true := by
  have hone : within fzero fone fone = true := rfl
  unfold fmin2
  rw [if_neg (by decide : ¬ isNan fone = true)]
  split
  · exact hone
  · next hx =>
    split
    · exact hone
    · next hlt => exact Bool.and_eq_true_iff.2 ⟨h0, fle_of_flt_eq_false rfl (Bool.eq_false_iff.2 hx) (Bool.eq_false_iff.2 hlt)⟩

/-! ### A draw (R222) -/

/-- The bits of a multiple of 2^-24 below 1 are those of the integer with the exponent lowered by 24. -/
theorem exists_magUnits_scaled {n : Nat} (h : n < 2 ^ 24) : ∃ m : Fin 0x7F800000, magUnits m.val = n * 2 ^ 125 := by
  rcases Nat.eq_zero_or_pos n with rfl | hpos
  · exact ⟨0, by simp⟩
  obtain ⟨m, hm, hmag⟩ := magUnits_nat h.le
  have hone : magUnits (127 * 2 ^ 23) = 2 ^ 149 := magUnits_join (k := 126) (q := 2 ^ 23) (by norm_num) (.inr le_rfl)
  have hge : 127 * 2 ^ 23 ≤ m := by
    rw [← magUnits_le_iff, hone, hmag]
    exact Nat.le_mul_of_pos_left _ hpos
  refine ⟨⟨m - 24 * 2 ^ 23, by omega⟩, ?_⟩
  have hdrop : magUnits m = magUnits (m - 24 * 2 ^ 23) * 2 ^ 24 := by
    rw [magUnits_large (by omega), magUnits_large (by omega), show (m - 24 * 2 ^ 23) % 2 ^ 23 = m % 2 ^ 23 by omega, mul_assoc, ← pow_add]
    congr 2
    omega
  have hscale : magUnits (m - 24 * 2 ^ 23) * 2 ^ 24 = n * 2 ^ 125 * 2 ^ 24 := by rw [← hdrop, hmag, mul_assoc, ← pow_add]
  exact Nat.eq_of_mul_eq_mul_right (by positivity) hscale

/-- A draw is its state's upper 24 bits times 2^-24, without rounding. -/
theorem rngValue_units (r : Word) : isFinite (rngValue r) = true ∧ unitsOf (rngValue r) = (r.toNat / 2 ^ 8 : Nat) * 2 ^ 125 := by
  have hr : r.toNat < 2 ^ 32 := r.isLt
  have hn : r.toNat / 2 ^ 8 < 2 ^ 24 := by omega
  unfold rngValue
  generalize r.toNat / 2 ^ 8 = n at hn
  obtain ⟨hfin, hval, -⟩ := i2f_exact (n := (n : Int)) (by omega)
  obtain ⟨m, hm⟩ := exists_magUnits_scaled hn
  have hscale : unitsOf Config.rngScale = 2 ^ 125 := by decide
  have htarget : unitsOf (.fin false m) = n * 2 ^ 125 := by
    rw [unitsOf_fin, if_neg (by decide), hm]
    push_cast
    rfl
  have hexact : unitsOf (.fin false m) * 2 ^ 149 = unitsOf (i2f (n : Int)) * unitsOf Config.rngScale := by
    rw [htarget, hval, hscale]
    ring
  have hle := fmul_le hfin (b := Config.rngScale) rfl (h := .fin false m) rfl hexact.ge
  have hge := le_fmul hfin (b := Config.rngScale) rfl (l := .fin false m) rfl hexact.le
  obtain ⟨hf, h1, h2⟩ := units_of_between rfl rfl hge hle
  exact ⟨hf, (le_antisymm h2 h1).trans htarget⟩

theorem inUnit_rngValue (r : Word) : inUnit (rngValue r) = true := by
  have hr : r.toNat < 2 ^ 32 := r.isLt
  obtain ⟨hfin, hval⟩ := rngValue_units r
  exact inUnit_iff.2 ⟨hfin, by rw [hval]; positivity, by rw [hval]; omega⟩

end Sys2Proof.Machine
end

section
/-! The engine's invariant (R224, R295, R323). A channel's invariant has two halves: what the shared stages own, which no kernel can break
(`Seamed`) and which the stages keep finite, and what the modes own, which is kept kernel by kernel. -/

namespace Sys2Proof.Machine

/-! ### The two halves of a channel's invariant -/

/-- The half of the shared stages: outputs, held samples and allpass memories finite, the fade at most 24 frames (R217 to R221). -/
def StageInv (ch : FxChannel) : Prop :=
  isFinite ch.wet = true ∧ isFinite ch.which = true ∧ isFinite ch.lastOut = true ∧ isFinite ch.xfFrom = true ∧ ch.xfRem ≤ 24 ∧
  (∀ k, isFinite (ch.apX1.get k) = true) ∧ ∀ k, isFinite (ch.apY1.get k) = true

/-- The half of the modes: the divisor crossfade, the grain cloud, the particle (R251, R288, R321). -/
def ModeInv (ch : FxChannel) : Prop :=
  within fzero fone ch.dxfPos = true ∧ inUnit ch.gphase = true ∧ inUnit ch.px = true ∧ inUnit ch.py = true ∧
  ∀ g, grainInv (ch.grain.get g)

theorem fxChannelInv_iff {ch : FxChannel} : fxChannelInv ch ↔ StageInv ch ∧ ModeInv ch := by
  unfold fxChannelInv StageInv ModeInv
  simp only [and_assoc]

/-! ### The shared stages -/

/-- No kernel breaks the stages' half. -/
theorem StageInv.of_seamed {ch ch' : FxChannel} (h : StageInv ch) (hs : Seamed ch ch') : StageInv ch' := by
  obtain ⟨hwet, hwhich, hlast, hfrom, hrem, hx, hy⟩ := h
  obtain ⟨ewet, ewhich, elast, ex, ey, hfade⟩ := hs
  have hfade' : isFinite ch'.xfFrom = true ∧ ch'.xfRem ≤ 24 := by
    rcases hfade with ⟨erem, efrom⟩ | ⟨erem, efrom⟩ <;> rw [erem, efrom]
    · exact ⟨hfrom, hrem⟩
    · exact ⟨hlast, le_rfl⟩
  exact ⟨ewet ▸ hwet, ewhich ▸ hwhich, elast ▸ hlast, hfade'.1, hfade'.2, ex ▸ hx, ey ▸ hy⟩

/-- A mode change arms the fade (R215). -/
theorem seamed_entered (m : FxMode) (s : State) (c : Fin 4) : Seamed (s.fx.chan.get c) (entered m s c) := by
  unfold entered
  dsimp only
  split
  · exact .refl
  · exact ⟨rfl, rfl, rfl, rfl, rfl, .inr ⟨rfl, rfl⟩⟩

/-- A finite output of the second section had a finite input (R219): what is not finite passes through sums and products. -/
theorem isFinite_of_allpassSection {g x x1 y1 : F32} (h : isFinite (allpassSection g x x1 y1) = true) : isFinite x = true := by
  unfold allpassSection dnk at h
  exact (isFinite_of_fmul (isFinite_of_fadd (isFinite_of_fadd (isFinite_of_fadd (isFinite_of_fsub h).1).1).1).1).2

/-- The allpass memories are finite after the stage: stored with a finite result, cleared with any other (R219, R220). -/
theorem allpassStore_finite (g : F32) {x : F32} (hx : isFinite x = true) (ch : FxChannel) (k : Fin 2) :
    isFinite ((allpassStore g x ch).apX1.get k) = true ∧ isFinite ((allpassStore g x ch).apY1.get k) = true := by
  unfold allpassStore
  split
  · next hsecond =>
    have hfirst : isFinite (allpassFirst g x ch) = true := isFinite_of_allpassSection hsecond
    fin_cases k
    · exact ⟨hx, hfirst⟩
    · exact ⟨hfirst, hsecond⟩
  · fin_cases k <;> exact ⟨rfl, rfl⟩

theorem finishChannel_memories {ch : FxChannel} (h : StageInv ch) (apen : Bool) (g raw : F32) (k : Fin 2) :
    isFinite ((finishChannel apen g ch raw).ch.apX1.get k) = true ∧ isFinite ((finishChannel apen g ch raw).ch.apY1.get k) = true := by
  cases apen with
  | true => exact allpassStore_finite g (isFinite_finValue _) (xfadeCount ch) k
  | false =>
    obtain ⟨-, -, -, -, -, hx, hy⟩ := h
    exact ⟨hx k, hy k⟩

/-- The stages behind the kernel keep their half. -/
theorem StageInv.finishChannel {ch : FxChannel} (h : StageInv ch) (apen : Bool) (g raw : F32) :
    StageInv (finishChannel apen g ch raw).ch := by
  obtain ⟨hwet, hwhich, hout⟩ := finishChannel_outputs apen g ch raw
  have hfade := finishChannel_ch apen g ch raw
  have hfrom : (Machine.finishChannel apen g ch raw).ch.xfFrom = ch.xfFrom := by rw [hfade]
  have hrem : (Machine.finishChannel apen g ch raw).ch.xfRem = ch.xfRem - 1 := by rw [hfade]
  have hmem := finishChannel_memories h apen g raw
  obtain ⟨-, -, -, hheld, hleft, -, -⟩ := h
  exact ⟨hwet ▸ hout, hwhich ▸ hout, hout, hfrom ▸ hheld, hrem ▸ (Nat.sub_le ..).trans hleft, fun k => (hmem k).1, fun k => (hmem k).2⟩

/-- The stages behind the kernel do not touch the modes' half. -/
theorem ModeInv.finishChannel {ch : FxChannel} (h : ModeInv ch) (apen : Bool) (g raw : F32) :
    ModeInv (finishChannel apen g ch raw).ch := by
  rw [finishChannel_ch]
  exact h

/-! ### The frame's operands -/

/-- A base delay is a finite value of at most 2^24 (R214). -/
theorem baseDelay_units (s : State) (c : Fin 4) :
    isFinite (baseDelay s c) = true ∧ 0 ≤ unitsOf (baseDelay s c) ∧ unitsOf (baseDelay s c) ≤ 2 ^ 173 := by
  have hcap := s.cap_bounds
  obtain ⟨hfin, hval, -⟩ := i2f_exact (n := (s.cap : Int) - 3) (by omega)
  have hmin : unitsOf (F32.ofBits 0x40000000#32) = 2 ^ 150 := by decide
  have hle : fle (F32.ofBits 0x40000000#32) (i2f ((s.cap : Int) - 3)) = true := (fle_iff rfl hfin).2 (by rw [hmin, hval]; omega)
  obtain ⟨hbase, hlo, hhi⟩ := (within_iff rfl hfin).1 (within_clamp (s.fxIn.dly.get c) hle)
  rw [hmin] at hlo
  rw [hval] at hhi
  exact ⟨hbase, by unfold baseDelay readable; omega, by unfold baseDelay readable; omega⟩

/-- A parameter of a frame is in its entry's range, where the entry's default is (R212, R384). -/
theorem param_within (m : FxMode) (k : Fin 4) (s : State) (hrange : fle (specEntry m k).min (specEntry m k).max = true)
    (hdflt : within (specEntry m k).min (specEntry m k).max (specEntry m k).dflt = true) :
    within (specEntry m k).min (specEntry m k).max (param m s k) = true := by
  rw [param_eq, clampSpec]
  split
  · exact hdflt
  · exact within_clamp _ hrange

/-! ### The divisor crossfade (R251) -/

theorem ModeInv.divTarget {ch : FxChannel} (h : ModeInv ch) (freeze : Bool) (jf base : F32) : ModeInv (divTarget freeze jf base ch) := by
  have hkept := h
  obtain ⟨hdxf, hrest⟩ := h
  unfold Machine.divTarget
  split
  · exact ⟨rfl, hrest⟩
  · split
    · split
      · split
        · exact hkept
        · exact ⟨rfl, hrest⟩
      · exact ⟨hdxf, hrest⟩
    · exact hkept

/-- The advance adds 1000 over at least 1.0 to the position and stops at 1.0. -/
theorem ModeInv.divAdvance {ch : FxChannel} (h : ModeInv ch) {p0 sr : F32} (hrate : fle fone (fmul p0 sr) = true) :
    ModeInv (divAdvance p0 sr ch) := by
  have hkept := h
  obtain ⟨hdxf, hrest⟩ := h
  have hthousand : isFinite Config.msPerSecond = true ∧ 0 ≤ unitsOf Config.msPerSecond := by decide
  obtain ⟨hstep, hstep0, -⟩ := (within_iff rfl hthousand.1).1 (within_fdiv hthousand.1 hthousand.2 hrate)
  obtain ⟨hpos, hpos0, -⟩ := (within_iff rfl rfl).1 hdxf
  rw [unitsOf_fzero] at hstep0 hpos0
  have hsum : fle fzero (fadd ch.dxfPos (fdiv Config.msPerSecond (fmul p0 sr))) = true :=
    le_fadd hpos hstep rfl (by rw [unitsOf_fzero]; omega)
  unfold Machine.divAdvance
  split
  · exact ⟨within_fmin2_fone hsum, hrest⟩
  · exact hkept

/-- In modes 0 to 2 the crossfade time is at least 5 ms, so its length in thousandths of a frame is at least 1 (R251, R380). -/
theorem fle_fone_crossfade {m : FxMode} {s : State} (hm : m = .basic ∨ m = .pingpong ∨ m = .unlinked) (hfin : isFinite s.fx.sr = true)
    (hsr : fle fone s.fx.sr = true) : fle fone (fmul (param m s 0) s.fx.sr) = true := by
  have hmin : unitsOf (F32.ofBits 0x40A00000#32) = 5 * 2 ^ 149 := by decide
  have hrange : within (F32.ofBits 0x40A00000#32) (F32.ofBits 0x42C80000#32) (param m s 0) = true := by
    rcases hm with rfl | rfl | rfl
    · exact param_within .basic 0 s rfl rfl
    · exact param_within .pingpong 0 s rfl rfl
    · exact param_within .unlinked 0 s rfl rfl
  obtain ⟨hp, hp0, -⟩ := (within_iff rfl rfl).1 hrange
  rw [hmin] at hp0
  have hsr1 := (fle_iff rfl hfin).1 hsr
  rw [unitsOf_fone] at hsr1
  refine le_fmul hp hfin rfl ?_
  rw [unitsOf_fone]
  exact mul_le_mul (by omega) hsr1 (by positivity) (by omega)

/-! ### The grain cloud (R288, R295) -/

theorem ModeInv.of_headFrame {ch ch' : FxChannel} (h : ModeInv ch) (hh : HeadFrame ch ch') : ModeInv ch' := by
  obtain ⟨-, hdxf, hphase, hgrain, hx, hy⟩ := hh
  unfold ModeInv
  rwa [hdxf, hphase, hgrain, hx, hy]

/-- The nominal grain size is at least 64, whatever the base delay, and finite for a base delay. -/
theorem grainSize_units (s : State) (c : Fin 4) :
    isFinite (grainSize (baseDelay s c)) = true ∧ 2 ^ 155 ≤ unitsOf (grainSize (baseDelay s c)) := by
  have hmin : unitsOf Config.grSizeMin = 2 ^ 155 := by decide
  have hfrac : unitsOf Config.grSizeFrac = 2 ^ 147 := by decide
  have htop : unitsOf (F32.ofBits 0x4A800000#32) = 2 ^ 171 := by decide
  obtain ⟨hbase, hbase0, hbase1⟩ := baseDelay_units s c
  obtain ⟨hquarter, -, -⟩ := units_of_between (l := fzero) (h := F32.ofBits 0x4A800000#32) rfl rfl
    (le_fmul (a := Config.grSizeFrac) rfl hbase rfl (by rw [unitsOf_fzero, hfrac]; omega))
    (fmul_le (a := Config.grSizeFrac) rfl hbase rfl (by rw [htop, hfrac]; omega))
  have hsize : isFinite (grainSize (baseDelay s c)) = true := by
    unfold grainSize fmax2
    split
    · exact hquarter
    · split
      · rfl
      · split
        · rfl
        · exact hquarter
  have hge : fle Config.grSizeMin (grainSize (baseDelay s c)) = true := fle_fmax2_left rfl
  exact ⟨hsize, hmin ▸ (fle_iff rfl hsize).1 hge⟩

/-- A jitter of at most 1 about a size of at least 64 leaves at least 32. -/
theorem fle_jittered {x jit r : F32} (hx : isFinite x = true) (hx64 : 2 ^ 155 ≤ unitsOf x) (hjit : within fzero fone jit = true)
    (hr : inUnit r = true) : fle (F32.ofBits 0x42000000#32) (jittered x jit r) = true := by
  have hhalf : unitsOf fhalf = 2 ^ 148 := by decide
  have hminus : unitsOf (fneg fhalf) = -2 ^ 148 := by decide
  have hthreeHalves : unitsOf (F32.ofBits 0x3FC00000#32) = 2 ^ 149 + 2 ^ 148 := by decide
  have hthirtyTwo : unitsOf (F32.ofBits 0x42000000#32) = 2 ^ 154 := by decide
  have hone := unitsOf_fone
  obtain ⟨hrf, hr0, hr1⟩ := inUnit_iff.1 hr
  obtain ⟨hjf, hj0, hj1⟩ := (within_iff rfl rfl).1 hjit
  rw [unitsOf_fzero] at hj0
  rw [hone] at hj1
  -- r - 0.5 and its product with the jitter are in [-0.5, 0.5], one more is in [0.5, 1.5]
  obtain ⟨hoff, hoff0, hoff1⟩ := units_of_between (l := fneg fhalf) (h := fhalf) rfl rfl
    (le_fsub hrf (b := fhalf) rfl rfl (by omega)) (fsub_le hrf (b := fhalf) rfl rfl (by omega))
  rw [hminus] at hoff0
  rw [hhalf] at hoff1
  obtain ⟨hprod, hprod0, hprod1⟩ := units_of_between (l := fneg fhalf) (h := fhalf) rfl rfl
    (le_fmul hjf hoff rfl (by rw [hminus]; nlinarith)) (fmul_le hjf hoff rfl (by rw [hhalf]; nlinarith))
  rw [hminus] at hprod0
  rw [hhalf] at hprod1
  obtain ⟨hfac, hfac0, hfac1⟩ := units_of_between (l := fhalf) (h := F32.ofBits 0x3FC00000#32) rfl rfl
    (le_fadd (a := fone) rfl hprod rfl (by omega)) (fadd_le (a := fone) rfl hprod rfl (by omega))
  rw [hhalf] at hfac0
  have hle : (2 : Int) ^ 155 * 2 ^ 148 ≤ unitsOf x * unitsOf (fadd fone (fmul jit (fsub r fhalf))) :=
    mul_le_mul hx64 hfac0 (by positivity) (by omega)
  exact le_fmul hx hfac rfl (by rw [hthirtyTwo]; omega)

/-- The jitter of a granular mode, a percentage or 0.25, is in [0,1] (R280, R289). -/
theorem grainJitter_within (m : FxMode) (s : State) : within fzero fone (grainJitter m (frameParams m s)) = true := by
  have hpercent (hrange : within fzero fhundred (param m s 3) = true) : within fzero fone (fdiv (param m s 3) fhundred) = true := by
    have hundred : isFinite fhundred = true ∧ unitsOf fhundred = 25 * 2 ^ 151 := by decide
    obtain ⟨hp, hp0, hp1⟩ := (within_iff rfl hundred.1).1 hrange
    rw [unitsOf_fzero] at hp0
    refine Bool.and_eq_true_iff.2 ⟨le_fdiv hp hundred.1 (by rw [hundred.2]; positivity) rfl ?_,
      fdiv_le hp hundred.1 (by rw [hundred.2]; positivity) rfl ?_⟩
    · rw [unitsOf_fzero]
      omega
    · rw [unitsOf_fone]
      omega
  cases m with
  | gran => exact hpercent (param_within .gran 3 s rfl rfl)
  | octave => exact hpercent (param_within .octave 3 s rfl rfl)
  | texture => exact hpercent (param_within .texture 3 s rfl rfl)
  | basic | pingpong | unlinked | resonator | chorus | knuth | shimmer | crystals | fluid => rfl

/-- A grain as it is triggered (R288). -/
theorem grainInv_newGrain (s : State) (c : Fin 4) (rate : F32) {jit r1 r2 : F32} (hjit : within fzero fone jit = true)
    (hr : inUnit r2 = true) : grainInv (newGrain s.cap (baseDelay s c) rate jit r1 r2) := by
  obtain ⟨hsize, hsize64⟩ := grainSize_units s c
  exact fun _ => ⟨fle_jittered hsize hsize64 hjit hr, rfl, rfl⟩

/-- A grain that plays on is short of phase 1 (R288). -/
theorem grainInv_grainAdvance {g : Grain} (h : grainInv g) : grainInv (grainAdvance g) := by
  unfold grainAdvance
  split
  · next hactive =>
    obtain ⟨hsize, hamp, hphase⟩ := h hactive
    intro hon
    obtain ⟨hpf, hp0, -⟩ := inUnit_iff.1 hphase
    have hone : fle fone g.size = true := by
      obtain ⟨a, b, ha, hb, hab⟩ := fle_iff_rank.1 hsize
      obtain rfl : (0x42000000 : Int) = a := Option.some.inj ha
      exact fle_iff_rank.2 ⟨onePos, b, rank_fone, hb, le_trans (by decide) hab⟩
    obtain ⟨hstep, hstep0, -⟩ := (within_iff rfl rfl).1 (within_fdiv (a := fone) rfl (by decide) hone)
    rw [unitsOf_fzero] at hstep0
    have hsum : fle fzero (fadd g.phase (fdiv fone g.size)) = true := le_fadd hpf hstep rfl (by rw [unitsOf_fzero]; omega)
    exact ⟨hsize, hamp, inUnit_of_not_fle hsum (by simpa [fge] using hon)⟩
  · exact h

/-- The trigger phase moves by a quotient of at least 0. -/
theorem fle_fzero_triggerPhase (s : State) (c : Fin 4) {ch : FxChannel} (h : inUnit ch.gphase = true) :
    fle fzero (triggerPhase (baseDelay s c) ch) = true := by
  have htwo : isFinite ftwo = true ∧ 0 ≤ unitsOf ftwo := by decide
  obtain ⟨hsize, hsize64⟩ := grainSize_units s c
  obtain ⟨hpf, hp0, -⟩ := inUnit_iff.1 h
  have hone : fle fone (grainSize (baseDelay s c)) = true := (fle_iff rfl hsize).2 (by rw [unitsOf_fone]; omega)
  obtain ⟨hstep, hstep0, -⟩ := (within_iff rfl htwo.1).1 (within_fdiv htwo.1 htwo.2 hone)
  rw [unitsOf_fzero] at hstep0
  exact le_fadd hpf hstep rfl (by rw [unitsOf_fzero]; omega)

theorem ModeInv.startGrain {v : Voice} (h : ModeInv v.ch) (s : State) (c : Fin 4) {rate jit : F32} (hjit : within fzero fone jit = true) :
    ModeInv (startGrain s.cap (baseDelay s c) rate jit v).ch := by
  have hkept := h
  obtain ⟨hdxf, hphase, hx, hy, hgrain⟩ := h
  unfold Machine.startGrain
  split
  · exact hkept
  · refine ⟨hdxf, hphase, hx, hy, fun k => ?_⟩
    rw [Per4.get_set]
    split
    · exact grainInv_newGrain s c rate hjit (inUnit_rngValue _)
    · exact hgrain k

theorem ModeInv.grainTrigger {v : Voice} (h : ModeInv v.ch) (s : State) (c : Fin 4) {rate jit : F32} (hjit : within fzero fone jit = true) :
    ModeInv (grainTrigger s.cap (baseDelay s c) rate jit v).ch := by
  obtain ⟨hdxf, hphase, hrest⟩ := h
  unfold Machine.grainTrigger
  split
  · have hwrapped : ModeInv { v.ch with gphase := wrap01 (triggerPhase (baseDelay s c) v.ch) } := ⟨hdxf, inUnit_wrap01 _, hrest⟩
    exact ModeInv.startGrain (v := { v with ch := _ }) hwrapped s c hjit
  · next hshort => exact ⟨hdxf, inUnit_of_not_fle (fle_fzero_triggerPhase s c hphase) (Bool.eq_false_iff.2 hshort), hrest⟩

theorem ModeInv.granMix {m : FxMode} {s : State} {c : Fin 4} {rd : F32 → F32} {rate head : F32} {v : Voice} (h : ModeInv v.ch) :
    ModeInv (granMix m (frameOf m s) rd (baseDelay s c) rate head v).voice.ch := by
  unfold Machine.granMix
  dsimp only
  split
  · obtain ⟨hdxf, hphase, hx, hy, hgrain⟩ := h.grainTrigger s c (rate := rate) (grainJitter_within m s)
    refine ⟨hdxf, hphase, hx, hy, fun g => ?_⟩
    rw [grainCloud, Per4.get_map]
    exact grainInv_grainAdvance (hgrain g)
  · obtain ⟨hdxf, -, hx, hy, -⟩ := h
    refine ⟨hdxf, rfl, hx, hy, fun g => ?_⟩
    rw [grainIdle, Per4.get_map]
    nofun

/-! ### Every kernel keeps the modes' half -/

theorem ModeInv.answer {m : FxMode} {s : State} {c : Fin 4} (h : ModeInv (entered m s c)) (hfin : isFinite s.fx.sr = true)
    (hsr : fle fone s.fx.sr = true) : ModeInv (answer m s c).voice.ch := by
  have hbase := frameOf_base m s c
  have hdiv (hm : m = .basic ∨ m = .pingpong ∨ m = .unlinked) :
      ModeInv (kernelDivXfade (frameOf m s) (readHerm s c) ((frameOf m s).base.get c)
        ⟨entered m s c, s.ph.get c, rngBefore m s c.val⟩).voice.ch := by
    have hrate := fle_fone_crossfade hm hfin hsr
    rw [← frameParams_get, ← frameFx_sr m s] at hrate
    exact (h.divTarget ..).divAdvance hrate
  have hgran : ModeInv (kernelGran m (frameOf m s) (readHerm s c) ((frameOf m s).base.get c)
      ⟨entered m s c, s.ph.get c, rngBefore m s c.val⟩).voice.ch := by
    rw [kernelGran_eq, hbase]
    exact .granMix (h.of_headFrame (HeadFrame.granHead m (frameOf m s) (baseDelay s c) ⟨entered m s c, _, _⟩))
  cases m with
  | basic => exact hdiv (.inl rfl)
  | pingpong => exact hdiv (.inr (.inl rfl))
  | unlinked => exact hdiv (.inr (.inr rfl))
  | resonator | chorus => exact h
  | knuth => exact h.of_headFrame (.seamDetect ..)
  | gran | octave | texture | shimmer | crystals => exact hgran
  | fluid =>
    obtain ⟨hdxf, hphase, -, -, hgrain⟩ := h
    exact ⟨hdxf, hphase, inUnit_wrap01 _, inUnit_wrap01 _, hgrain⟩

/-! ### The engine (O29) -/

theorem fxChannelInv_finished {m : FxMode} {s : State} (h : fxInv s.fx) (c : Fin 4) : fxChannelInv (finished m s c).ch := by
  obtain ⟨hfin, hsr, -, -, hchan⟩ := h
  obtain ⟨hstage, hmode⟩ := fxChannelInv_iff.1 (hchan c)
  have hentered : ModeInv (entered m s c) := by
    rw [entered_eq]
    exact hmode
  exact fxChannelInv_iff.2 ⟨(hstage.of_seamed ((seamed_entered m s c).trans (Seamed.answer m s c))).finishChannel _ _ _,
    (hentered.answer hfin hsr).finishChannel _ _ _⟩

/-- The oscillators of the chorus and the orbit of the fluid mode pass through `wrap01` (R255, R322). -/
theorem frameFx_phases {m : FxMode} {s : State} (h : fxInv s.fx) :
    inUnit (frameFx m s).orbit = true ∧ ∀ l, inUnit ((frameFx m s).lfoPh.get l) = true := by
  obtain ⟨-, -, horbit, hlfo, -⟩ := h
  have hentry : (enterMode m s.fx).orbit = s.fx.orbit ∧ (enterMode m s.fx).lfoPh = s.fx.lfoPh := by
    unfold enterMode
    split <;> exact ⟨rfl, rfl⟩
  have hplain : inUnit (enterMode m s.fx).orbit = true ∧ ∀ l, inUnit ((enterMode m s.fx).lfoPh.get l) = true := by
    rw [hentry.1, hentry.2]
    exact ⟨horbit, hlfo⟩
  cases m with
  | chorus => exact ⟨hplain.1, fun l => by fin_cases l <;> exact inUnit_wrap01 _⟩
  | fluid => exact ⟨inUnit_wrap01 _, hplain.2⟩
  | basic | pingpong | unlinked | resonator | knuth | gran | octave | texture | shimmer | crystals => exact hplain

theorem fxInv_fxProc {s : State} (h : fxInv s.fx) (m : FxMode) : fxInv (fxProc m s).fx := by
  obtain ⟨horbit, hlfo⟩ := frameFx_phases (m := m) h
  have hchan (c : Fin 4) : fxChannelInv ((fxProc m s).fx.chan.get c) := by
    rw [fxProc_chan]
    exact fxChannelInv_finished h c
  obtain ⟨hfin, hsr, -⟩ := h
  rw [fxProc_fx]
  exact ⟨(frameFx_sr m s).symm ▸ hfin, (frameFx_sr m s).symm ▸ hsr, horbit, hlfo, hchan⟩

theorem fxInv_resetWith {sr : F32} (hfin : isFinite sr = true) (hone : fle fone sr = true) : fxInv (Fx.resetWith sr) := by
  refine ⟨hfin, hone, rfl, fun l => by fin_cases l <;> rfl, fun c => ?_⟩
  fin_cases c <;> exact fxChannelInv_resetAt rfl rfl

/-- An instruction whose rule does not write the engine. -/
theorem exec_fxInv_of_frame {i : Instr} {s : State} (h : fxInv s.fx) (hframe : ¬ mayChange i s .fxEngine) :
    ∃ t, exec i s = .next t ∧ fxInv t.fx := by
  obtain ⟨t, hexec, htouch⟩ := exec_touches i s
  have hfx : t.fx = s.fx := htouch.frame .fxEngine hframe
  exact ⟨t, hexec, hfx ▸ h⟩

/-- The instructions that write the engine are `FX.INIT` and the twelve frames. -/
theorem exec_fxInv (i : Instr) {s : State} (h : fxInv s.fx) : ∃ t, exec i s = .next t ∧ fxInv t.fx := by
  have hframe (m : FxMode) : ∃ t, exec (fxProcInstr m) s = .next t ∧ fxInv t.fx := ⟨_, exec_fxProcInstr m s, fxInv_fxProc h m⟩
  cases i with
  | fxInit =>
    obtain ⟨hfin, hone⟩ := rateOr_valid (argF s 0)
    exact ⟨_, rfl, fxInv_resetWith hfin hone⟩
  | fxProcBasic => exact hframe .basic
  | fxProcPingpong => exact hframe .pingpong
  | fxProcUnlinked => exact hframe .unlinked
  | fxProcResonator => exact hframe .resonator
  | fxProcChorus => exact hframe .chorus
  | fxProcKnuth => exact hframe .knuth
  | fxProcGran => exact hframe .gran
  | fxProcOctave => exact hframe .octave
  | fxProcTexture => exact hframe .texture
  | fxProcShimmer => exact hframe .shimmer
  | fxProcCrystals => exact hframe .crystals
  | fxProcFluid => exact hframe .fluid
  | _ => exact exec_fxInv_of_frame h (by simp [mayChange, slotPart])

/-- Of the engine the host writes the generator, of which the invariant says nothing. -/
theorem fxInv_regWrite {s : State} (h : fxInv s.fx) (r : Reg) (v : Word) : fxInv (regWrite s r v).fx := by
  rw [regWrite_fx]
  exact h

/-- Settles O29: over what a step can do; a frame keeps the shared stages' half of a channel's invariant because no kernel breaks it, and
the modes' half kernel by kernel. -/
theorem fxInvKept : Obligations.FxInvKept := by
  intro s t h hstep
  cases stepResult_of_step hstep with
  | idle | illegal | ignoredWrite | read v | ignoredRead => exact h
  | instruction i t hexec =>
    obtain ⟨u, hu, hinv⟩ := exec_fxInv i (s := s.advance) h
    obtain rfl : u = t := Host.Outcome.next.inj (hu.symm.trans hexec)
    exact hinv
  | write r v => exact fxInv_regWrite (s := s.advance) h r v

end Sys2Proof.Machine
end

section
/-! `FX.INIT` (O27) and the facts every frame shares: completion, outputs and frame (O28), the allpass stage against the same frame without
it (O33), the fade a mode change starts (O32) and the draws (O42). -/

namespace Sys2Proof.Machine

/-! ### `FX.INIT` (R211) -/

theorem exec_fxInit (s : State) :
    exec .fxInit s = .next ((s.raise .argerr (badRate (argF s 0))).setFx (Fx.resetWith (rateOr (argF s 0)))) := rfl

/-- Settles O27: the engine after `FX.INIT` is the reset one with the rate R151's guard lets through. -/
theorem fxInitResets : Obligations.FxInitResets := by
  intro s x zero one q1 q3 half bad grain chan
  have htouch : Touches (fun p => p = .fxEngine ∨ p = .flag .argerr) s
      ((s.raise .argerr (badRate (argF s 0))).setFx (Fx.resetWith (rateOr (argF s 0)))) :=
    (Touches.raise (.inr rfl)).trans (.setFx (.inl rfl))
  exact ⟨rfl, _, exec_fxInit s, rfl, Status.flag_raise s.status .argerr .argerr bad, htouch.frame⟩

/-! ### Completion, outputs, frame (O28) -/

theorem fxProc_outputs (m : FxMode) (s : State) (c : Fin 4) :
    let ch := (fxProc m s).fx.chan.get c
    ch.wet = ch.lastOut ∧ ch.which = ch.lastOut ∧ isFinite ch.lastOut = true := by
  simp only [fxProc_chan]
  exact finishChannel_outputs ..

theorem fxProc_curMode (m : FxMode) (s : State) : (fxProc m s).fx.curMode = m := by
  rw [fxProc_fx]
  exact frameFx_curMode m s

theorem fxProc_sr (m : FxMode) (s : State) : (fxProc m s).fx.sr = s.fx.sr := by
  rw [fxProc_fx]
  exact frameFx_sr m s

/-- Of the parts outside the engine a frame touches `NONFIN` and, in the modes that drive them, the phasors. -/
theorem fxProc_frame (m : FxMode) (s : State) :
    keptExcept (fun p => p = .fxEngine ∨ p = .flag .nonfin ∨ drivesPhasor m = true ∧ ∃ c, p = .phasor c) s (fxProc m s) :=
  (Touches.fxProc (.inl rfl) (.inr (.inl rfl)) fun h c => .inr (.inr ⟨h, c, rfl⟩)).frame

theorem fxProc_frame_of_still {m : FxMode} (h : drivesPhasor m = false) (s : State) :
    keptExcept (fun p => p = .fxEngine ∨ p = .flag .nonfin) s (fxProc m s) :=
  (Touches.fxProc (.inl rfl) (.inr rfl) fun h' => by rw [h] at h'; cases h').frame

theorem fxProc_frame_of_driven (m : FxMode) (s : State) :
    keptExcept (fun p => p = .fxEngine ∨ p = .flag .nonfin ∨ ∃ c, p = .phasor c) s (fxProc m s) :=
  (fxProc_frame m s).mono fun _ => Or.imp_right (Or.imp_right And.right)

theorem drivesPhasor_iff (m : FxMode) : drivesPhasor m = true ↔ 5 ≤ m.code ∧ m.code ≤ 10 := by
  cases m <;> decide

/-- With the allpass stage off `NONFIN` comes from a guard, which leaves its +0.0 in that channel's outputs (R218). -/
theorem fxProc_nonfin_off {m : FxMode} {s : State} (off : allpassOn s = false) (h : (fxProc m s).status.flag .nonfin = true) :
    s.status.flag .nonfin = true ∨ ∃ c, ((fxProc m s).fx.chan.get c).wet = F32.ofBits 0x00000000#32 := by
  obtain ⟨hout, hflag⟩ := fxProc_frameOut m off
  have hguard (c : Fin 4) (hc : isFinite (faded (answer m s c).voice.ch (answer m s c).raw) = false) :
      ∃ c, ((fxProc m s).fx.chan.get c).wet = F32.ofBits 0x00000000#32 := by
    refine ⟨c, ?_⟩
    rw [(hout c).1, silenced, hc]
    rfl
  rw [hflag] at h
  rcases Bool.or_eq_true_iff.1 h with h | h
  · exact .inl h
  · simp only [Bool.not_eq_true', Bool.and_eq_false_iff] at h
    rcases h with ((h | h) | h) | h <;> exact .inr (hguard _ h)

/-- Settles O28. -/
theorem fxProcCompletes : Obligations.FxProcCompletes := by
  intro m s
  have hword : encode (fxProcInstr m) = BitVec.ofNat 32 (0x41000000 + m.code) := by cases m <;> rfl
  refine ⟨hword, _, exec_fxProcInstr m s, fxProc_curMode m s, fxProc_sr m s, fxProc_outputs m s, fxProc_nonfin_off,
    (fxProc_frame m s).mono fun p => Or.imp_right (Or.imp_right fun ⟨hdrives, hp⟩ => ?_)⟩
  obtain ⟨hlo, hhi⟩ := (drivesPhasor_iff m).1 hdrives
  exact ⟨hlo, hhi, hp⟩

/-! ### The allpass stage (O33) -/

/-- The same machine with the stage's bit of `FX_CTL` clear. -/
def withoutAllpass (s : State) : State := s.setFxIn { s.fxIn with ctl := s.fxIn.ctl &&& 0xFFFFFFFD#32 }

/-- The stage's bit reaches no kernel. -/
theorem answerFrom_withoutAllpass (m : FxMode) (s : State) (r : Word) (c : Fin 4) :
    answerFrom m (withoutAllpass s) r c = answerFrom m s r c := by
  have hframe : frameOf m (withoutAllpass s) = { frameOf m s with apen := allpassOn (withoutAllpass s), g := allpassGain s.fxIn.fb } := by
    unfold frameOf
    rw [show frozen (withoutAllpass s) = frozen s from (allpassOn_cleared s).2]
    rfl
  unfold answerFrom
  rw [hframe, kernel_allpass]
  rfl

theorem rngBefore_withoutAllpass (m : FxMode) (s : State) (n : Nat) : rngBefore m (withoutAllpass s) n = rngBefore m s n := by
  induction n with
  | zero => rfl
  | succ n ih => rw [rngBefore, rngBefore, ih, answerFrom_withoutAllpass]

theorem answer_withoutAllpass (m : FxMode) (s : State) (c : Fin 4) : answer m (withoutAllpass s) c = answer m s c := by
  rw [answer, answer, rngBefore_withoutAllpass, answerFrom_withoutAllpass]

/-- What the stage adds to a channel of the frame without it (R219, R220). -/
theorem finished_on {m : FxMode} {s : State} (on : allpassOn s = true) (c : Fin 4) :
    let off := (finished m (withoutAllpass s) c).ch
    let g := allpassGain s.fxIn.fb
    finished m s c =
      { ch := putOutput (finValue (allpassSecond g off.wet (s.fx.chan.get c))) (allpassStore g off.wet off)
        nonfin := (finished m (withoutAllpass s) c).nonfin || notFinite (allpassSecond g off.wet (s.fx.chan.get c)) } := by
  obtain ⟨hx, hy⟩ := ((seamed_entered m s c).trans (Seamed.answer m s c)).memories
  have hsecond (g x : F32) : allpassSecond g x (answer m s c).voice.ch = allpassSecond g x (s.fx.chan.get c) := by
    unfold allpassSecond allpassFirst
    rw [hx, hy]
  simp only [finished, answer_withoutAllpass, on, show allpassOn (withoutAllpass s) = false from (allpassOn_cleared s).1]
  rw [finishChannel_on, hsecond]

/-- The stage's memories as the two sections fill them, from those of the frame before (R219, R220). -/
theorem putOutput_allpassStore (g y x : F32) {ch ch0 : FxChannel} (hx : ch.apX1 = ch0.apX1) (hy : ch.apY1 = ch0.apY1) :
    putOutput y (allpassStore g x ch) =
      { ch with
        wet := y, which := y, lastOut := y
        apX1 := if isFinite (allpassSecond g x ch0) then ⟨x, allpassFirst g x ch0⟩ else ⟨fzero, fzero⟩
        apY1 := if isFinite (allpassSecond g x ch0) then ⟨allpassFirst g x ch0, allpassSecond g x ch0⟩ else ⟨fzero, fzero⟩ } := by
  have hfirst : allpassFirst g x ch = allpassFirst g x ch0 := by rw [allpassFirst, allpassFirst, hx, hy]
  have hsecond : allpassSecond g x ch = allpassSecond g x ch0 := by rw [allpassSecond, allpassSecond, hfirst, hx, hy]
  unfold allpassStore putOutput
  rw [hfirst, hsecond]
  split <;> rfl

/-- With the stage off a frame leaves the memories alone. -/
theorem finished_off_memories {m : FxMode} {s : State} (off : allpassOn s = false) (c : Fin 4) :
    (finished m s c).ch.apX1 = (s.fx.chan.get c).apX1 ∧ (finished m s c).ch.apY1 = (s.fx.chan.get c).apY1 := by
  rw [finished, off, finishChannel_off]
  exact ((seamed_entered m s c).trans (Seamed.answer m s c)).memories

theorem keptExcept.symm {changed : Part → Prop} {s t : State} (h : keptExcept changed s t) : keptExcept changed t s := by
  intro p hp
  have hkept := h p hp
  cases p <;> exact Eq.symm hkept

/-- Beside the engine, the inputs and `NONFIN` the stage changes nothing: the phasors are the kernels' in both frames. -/
theorem fxProc_withoutAllpass_frame (m : FxMode) (s : State) :
    keptExcept (fun p => p = .fxInputs ∨ p = .fxEngine ∨ p = .flag .nonfin) (fxProc m (withoutAllpass s)) (fxProc m s) := by
  let outer : Part → Prop := fun p => p = .fxInputs ∨ p = .fxEngine ∨ p = .flag .nonfin ∨ ∃ c, p = .phasor c
  have hinputs : Touches outer s (withoutAllpass s) := .setFxIn (.inl rfl)
  have hframe (u : State) : keptExcept outer u (fxProc m u) := (fxProc_frame_of_driven m u).mono fun _ => .inr
  have hboth := (hframe (withoutAllpass s)).symm.trans (hinputs.frame.symm.trans (hframe s))
  intro p hp
  by_cases hph : ∃ c, p = .phasor c
  · obtain ⟨c, rfl⟩ := hph
    simp only [kept, fxProc_ph, answer_withoutAllpass]
  · refine hboth p fun houter => hp ?_
    rcases houter with h | h | h | h
    · exact .inl h
    · exact .inr (.inl h)
    · exact .inr (.inr h)
    · exact absurd h hph

/-- Settles O33: both frames are made of the same kernels' answers. -/
theorem allpassStage : Obligations.AllpassStage := by
  intro m s on u zero k g ap first second
  have hoff : allpassOn u = false := (allpassOn_cleared s).1
  have hchan (c : Fin 4) : (fxProc m s).fx.chan.get c = putOutput (silenced (second (fxProc m u) c))
      (allpassStore g ((fxProc m u).fx.chan.get c).wet ((fxProc m u).fx.chan.get c)) := by
    simp only [second, first, fxProc_chan]
    rw [finished_on on]
    rfl
  have hnonfin (c : Fin 4) : (finished m s c).nonfin = ((finished m u c).nonfin || !isFinite (second (fxProc m u) c)) := by
    simp only [second, first, fxProc_chan]
    rw [finished_on on]
    rfl
  refine ⟨_, _, exec_fxProcInstr m s, exec_fxProcInstr m u, fun c => ?_, ?_, fxProc_fxIn m s, ?_, fxProc_withoutAllpass_frame m s⟩
  · obtain ⟨hx, hy⟩ := finished_off_memories (m := m) hoff c
    rw [hchan c, putOutput_allpassStore (ch0 := s.fx.chan.get c) _ _ _ (by rw [fxProc_chan, hx]; rfl) (by rw [fxProc_chan, hy]; rfl)]
    rfl
  · rw [fxProc_fx m s, fxProc_fx m u, show rngBefore m u 4 = rngBefore m s 4 from rngBefore_withoutAllpass m s 4]
    rfl
  · rw [fxProc_nonfin, fxProc_nonfin, hnonfin, hnonfin, hnonfin, hnonfin]
    simp only [Bool.not_and]
    rw [show u.status = s.status from rfl]
    ac_rfl

/-! ### The granular mix (R289) -/

theorem granMix_of_idle {m : FxMode} {fr : Frame} (h : fgt (fdiv fr.p.e2 fhundred) fzero = false) (rd : F32 → F32) (base rate head : F32)
    (v : Voice) : granMix m fr rd base rate head v = ⟨{ v with ch := grainIdle v.ch }, head⟩ :=
  if_neg (Bool.eq_false_iff.1 h)

theorem granMix_of_playing {m : FxMode} {fr : Frame} (h : fgt (fdiv fr.p.e2 fhundred) fzero = true) (rd : F32 → F32)
    (base rate head : F32) (v : Voice) :
    granMix m fr rd base rate head v =
      let k := grainCloud fr.cap rd base rate (grainJitter m fr.p) v
      let mix := fdiv fr.p.e2 fhundred
      { k with raw := fadd (fmul head (fsub fone mix)) (fmul k.raw mix) } :=
  if_pos h

/-- The kernel of modes 6 to 10 is the granular one. -/
theorem answer_gran {m : FxMode} (h : 6 ≤ m.code ∧ m.code ≤ 10) (s : State) (c : Fin 4) :
    answer m s c =
      granMix m (frameOf m s) (readHerm s c) (baseDelay s c) (granRate m (frameParams m s) (clamp01 s.fxIn.meta1))
        (readHerm s c (granHead m (frameOf m s) (baseDelay s c) ⟨entered m s c, s.ph.get c, rngBefore m s c.val⟩).lastPos)
        ⟨granHead m (frameOf m s) (baseDelay s c) ⟨entered m s c, s.ph.get c, rngBefore m s c.val⟩,
          drivePhasor (baseDelay s c) (frameParams m s).e1 fone (s.ph.get c), rngBefore m s c.val⟩ := by
  have hkernel : answer m s c = kernelGran m (frameOf m s) (readHerm s c) ((frameOf m s).base.get c)
      ⟨entered m s c, s.ph.get c, rngBefore m s c.val⟩ := by
    obtain ⟨hlo, hhi⟩ := h
    cases m with
    | basic | pingpong | unlinked | resonator | chorus | knuth => exact absurd hlo (by decide)
    | gran | octave | texture | shimmer | crystals => rfl
    | fluid => exact absurd hhi (by decide)
  rw [hkernel, frameOf_base, kernelGran_eq]
  rfl

/-- Without grains a granular channel is its head with the pool idle, and its sample the read there. -/
theorem answer_gran_idle {m : FxMode} (h : 6 ≤ m.code ∧ m.code ≤ 10) {s : State} (off : grainsOn m s = false) (c : Fin 4) :
    let head := granHead m (frameOf m s) (baseDelay s c) ⟨entered m s c, s.ph.get c, rngBefore m s c.val⟩
    answer m s c =
      ⟨⟨grainIdle head, drivePhasor (baseDelay s c) (frameParams m s).e1 fone (s.ph.get c), rngBefore m s c.val⟩,
        readHerm s c head.lastPos⟩ := by
  intro head
  rw [answer_gran h, granMix_of_idle (fr := frameOf m s) off]

/-! ### Modes 0 to 2 (R251 to R253) -/

theorem answer_div {m : FxMode} (h : m = .basic ∨ m = .pingpong ∨ m = .unlinked) (s : State) (c : Fin 4) :
    let ch := divTarget (frozen s) (fdiv (param m s 1) fhundred) (baseDelay s c) (entered m s c)
    answer m s c =
      ⟨⟨divAdvance (param m s 0) s.fx.sr ch, s.ph.get c, rngBefore m s c.val⟩, divRead (readHerm s c) ch⟩ := by
  have hkernel : answer m s c = kernelDivXfade (frameOf m s) (readHerm s c) ((frameOf m s).base.get c)
      ⟨entered m s c, s.ph.get c, rngBefore m s c.val⟩ := by
    rcases h with rfl | rfl | rfl <;> rfl
  rw [hkernel, frameOf_base, ← frameParams_get, ← frameParams_get, ← frameFx_sr m s]
  rfl

/-- A crossfade that is over does not advance, and the sample is the read at the current delay (R251). -/
theorem answer_div_settled {m : FxMode} (h : m = .basic ∨ m = .pingpong ∨ m = .unlinked) {s : State} {c : Fin 4} {ch : FxChannel}
    (hch : divTarget (frozen s) (fdiv (param m s 1) fhundred) (baseDelay s c) (entered m s c) = ch) (hdxf : fle fone ch.dxfPos = true) :
    answer m s c = ⟨⟨ch, s.ph.get c, rngBefore m s c.val⟩, readHerm s c ch.curD⟩ := by
  have hover : ¬ flt ch.dxfPos fone = true := Bool.eq_false_iff.1 (flt_eq_false_of_fle hdxf)
  rw [answer_div h, hch, divAdvance, if_neg hover, divRead, if_neg hover]

/-- After `FX.INIT` or a mode change the base delay is taken over and read at (R251). -/
theorem answer_div_unknown {m : FxMode} (h : m = .basic ∨ m = .pingpong ∨ m = .unlinked) {s : State} {c : Fin 4}
    (hd : (entered m s c).dvalid = false) :
    answer m s c =
      ⟨⟨{ entered m s c with curD := baseDelay s c, prevD := baseDelay s c, dxfPos := fone, dvalid := true }, s.ph.get c,
        rngBefore m s c.val⟩, readHerm s c (baseDelay s c)⟩ :=
  answer_div_settled h (if_pos hd) rfl

/-! ### A mode change (O32) -/

/-- What a kernel remembers of the position and of the delay: the modes that detect seams know the position after a frame, modes 0 to 2
the delay, the others what they knew (R216, R251). -/
theorem kernel_valid (m : FxMode) (fr : Frame) (rd : F32 → F32) (c : Fin 4) (v : Voice) :
    (kernel m fr rd c v).voice.ch.posValid = (v.ch.posValid || decide (5 ≤ m.code ∧ m.code ≤ 10)) ∧
    (kernel m fr rd c v).voice.ch.dvalid = (v.ch.dvalid || decide (m.code ≤ 2)) := by
  have hdiv (freeze : Bool) (jf base p0 sr : F32) :
      (divAdvance p0 sr (divTarget freeze jf base v.ch)).posValid = v.ch.posValid ∧
      (divAdvance p0 sr (divTarget freeze jf base v.ch)).dvalid = true := by
    have hadvance (ch : FxChannel) : (divAdvance p0 sr ch).posValid = ch.posValid ∧ (divAdvance p0 sr ch).dvalid = ch.dvalid := by
      unfold divAdvance
      split <;> exact ⟨rfl, rfl⟩
    rw [(hadvance _).1, (hadvance _).2]
    unfold divTarget
    split
    · exact ⟨rfl, rfl⟩
    · next hd =>
      have hd : v.ch.dvalid = true := by simpa using hd
      repeat' split
      all_goals exact ⟨rfl, hd⟩
  have hgran (base : F32) : (kernelGran m fr rd base v).voice.ch.posValid = true ∧
      (kernelGran m fr rd base v).voice.ch.dvalid = v.ch.dvalid := by
    obtain ⟨hd, -⟩ := HeadFrame.granHead m fr base v
    rw [kernelGran_eq, granMix_ch]
    exact ⟨rfl, hd⟩
  cases m with
  | basic | pingpong | unlinked =>
    obtain ⟨hpos, hd⟩ := hdiv fr.freeze (fdiv fr.p.e1 fhundred) (fr.base.get c) fr.p.e0 fr.sr
    exact ⟨hpos.trans (Bool.or_false _).symm, hd.trans (Bool.or_true _).symm⟩
  | resonator | chorus | fluid => exact ⟨(Bool.or_false _).symm, (Bool.or_false _).symm⟩
  | knuth => exact ⟨(Bool.or_true _).symm, by unfold kernel kernelKnuth seamDetect; dsimp only; split <;> exact (Bool.or_false _).symm⟩
  | gran | octave | texture | shimmer | crystals =>
    obtain ⟨hpos, hd⟩ := hgran (fr.base.get c)
    exact ⟨hpos.trans (Bool.or_true _).symm, hd.trans (Bool.or_false _).symm⟩

/-- The sample of the modes that read at the head, where no grain is mixed in: the read at the position they leave (R256, R289). -/
theorem answer_raw_lastPos {m : FxMode} {s : State} (h : m = .knuth ∨ 6 ≤ m.code ∧ m.code ≤ 10 ∧ grainsOn m s = false) (c : Fin 4) :
    (answer m s c).raw = readHerm s c (answer m s c).voice.ch.lastPos := by
  rcases h with rfl | ⟨hlo, hhi, off⟩
  · rfl
  · rw [answer_gran_idle ⟨hlo, hhi⟩ off]
    rfl

/-- With the allpass stage off the output is the faded and guarded sample (R217, R218). -/
theorem fxProc_wet {m : FxMode} {s : State} (off : allpassOn s = false) (c : Fin 4) :
    ((fxProc m s).fx.chan.get c).wet = silenced (faded (answer m s c).voice.ch (answer m s c).raw) := by
  rw [((fxProc_frameOut m off).1 c).1]

/-- The first frame of a fade is 1/24 of the way (R217). -/
theorem faded_first {ch : FxChannel} (h : ch.xfRem = 24) (raw : F32) :
    faded ch raw = fadd ch.xfFrom (fmul (fsub raw ch.xfFrom) (fdiv (F32.ofBits 0x3F800000#32) (F32.ofBits 0x41C00000#32))) := by
  have hone : i2f (25 - ((24 : Nat) : Int)) = F32.ofBits 0x3F800000#32 := by decide
  rw [faded, if_neg (by omega), h, hone]

/-- Settles O32: every kernel leaves the fade that the mode change armed, and the stages count it down by one. -/
theorem modeChangeFades : Obligations.ModeChangeFades := by
  intro m s hne
  refine ⟨_, exec_fxProcInstr m s, fxProc_curMode m s, fun c => ?_⟩
  intro held ch near
  have hentered := entered_of_ne (Ne.symm hne) c
  obtain ⟨hrem, hfrom⟩ := (Seamed.answer m s c).armed (by rw [hentered]) (by rw [hentered])
  have hheld : (answer m s c).voice.ch.xfFrom = held := hfrom.trans (by rw [hentered])
  obtain ⟨hpos, hd⟩ := kernel_valid m (frameOf m s) (readHerm s c) c ⟨entered m s c, s.ph.get c, rngBefore m s c.val⟩
  have hunknown : (entered m s c).posValid = false ∧ (entered m s c).dvalid = false := by rw [hentered]; exact ⟨rfl, rfl⟩
  have hnear (off : allpassOn s = false) : ch.wet = silenced (near (answer m s c).raw) := by
    rw [show ch.wet = _ from fxProc_wet off c, faded_first hrem, hheld]
  have hch : ch = (finished m s c).ch := fxProc_chan m s c
  rw [finished_ch] at hch
  refine ⟨?_, ?_, ?_, ?_, fun off hm => ?_, fun off hm => ?_⟩
  · rw [hch, hrem]
  · rw [hch]
    exact hheld
  · rw [hch]
    exact hpos.trans (by rw [hunknown.1, Bool.false_or])
  · rw [hch]
    exact hd.trans (by rw [hunknown.2, Bool.false_or])
  · have hdiv : m = .basic ∨ m = .pingpong ∨ m = .unlinked := by cases m <;> simp [FxMode.code] at hm ⊢
    have hanswer := answer_div_unknown hdiv hunknown.2
    exact ⟨by rw [hch, hanswer], by rw [hnear off, hanswer]⟩
  · rw [hnear off, answer_raw_lastPos hm c, hch]

end Sys2Proof.Machine
end

section
/-! The draws of a frame (O42) and the delay-type modes (O30, O31, O34, O35, O36): each kernel's answer in the statements' terms. -/

namespace Sys2Proof.Machine

/-! ### The draws (R222, R257, R295, R321) -/

theorem rngAfter_add (j k : Nat) (r : Word) : rngAfter j (rngAfter k r) = rngAfter (k + j) r := by
  induction j with
  | zero => rfl
  | succ j ih => rw [rngAfter, ih, ← Nat.add_assoc, rngAfter]

/-- A trigger draws twice where a grain is free, and nothing else draws (R288). -/
theorem grainTrigger_draws (cap : Nat) (base rate jit : F32) (v : Voice) :
    ∃ k, (k = 0 ∨ k = 2) ∧ (grainTrigger cap base rate jit v).rng = rngAfter k v.rng := by
  unfold grainTrigger startGrain
  split
  · split
    · exact ⟨0, .inl rfl, rfl⟩
    · exact ⟨2, .inr rfl, rfl⟩
  · exact ⟨0, .inl rfl, rfl⟩

/-- The draws of a kernel: none in modes 0 to 5, none or two in modes 6 to 10, two in mode 11. -/
theorem kernel_draws (m : FxMode) (fr : Frame) (rd : F32 → F32) (c : Fin 4) (v : Voice) :
    ∃ k, (k = 0 ∨ k = 2) ∧ (m.code ≤ 5 → k = 0) ∧ (m = .fluid → k = 2) ∧ (kernel m fr rd c v).voice.rng = rngAfter k v.rng := by
  have hgran : ∃ k, (k = 0 ∨ k = 2) ∧ (kernelGran m fr rd (fr.base.get c) v).voice.rng = rngAfter k v.rng := by
    rw [kernelGran_eq, granMix]
    dsimp only
    split
    · exact grainTrigger_draws ..
    · exact ⟨0, .inl rfl, rfl⟩
  cases m with
  | basic | pingpong | unlinked | resonator | chorus | knuth => exact ⟨0, .inl rfl, fun _ => rfl, nofun, rfl⟩
  | gran | octave | texture | shimmer | crystals =>
    obtain ⟨k, hk, hrng⟩ := hgran
    exact ⟨k, hk, fun h => absurd h (by decide), nofun, hrng⟩
  | fluid => exact ⟨2, .inr rfl, fun h => absurd h (by decide), fun _ => rfl, rfl⟩

theorem answer_draws (m : FxMode) (s : State) (c : Fin 4) :
    ∃ k, (k = 0 ∨ k = 2) ∧ (m.code ≤ 5 → k = 0) ∧ (m = .fluid → k = 2) ∧
      rngBefore m s (c.val + 1) = rngAfter k (rngBefore m s c.val) := by
  rw [rngBefore_succ]
  exact kernel_draws ..

/-- Settles O42: a draw is exact, and a frame's draws are those of its four kernels one after the other. -/
theorem randomDraws : Obligations.RandomDraws := by
  refine ⟨fun r => ⟨BitVec.toNat_ofNat .., ?_, (drawn_eq r).symm, inUnit_rngValue r⟩, fun m s => ?_⟩
  · rw [(rngValue_units r).2, mul_assoc, ← pow_add]
  · obtain ⟨k0, h0, hfew0, hfluid0, hrng0⟩ := answer_draws m s 0
    obtain ⟨k1, h1, hfew1, hfluid1, hrng1⟩ := answer_draws m s 1
    obtain ⟨k2, h2, hfew2, hfluid2, hrng2⟩ := answer_draws m s 2
    obtain ⟨k3, h3, hfew3, hfluid3, hrng3⟩ := answer_draws m s 3
    refine ⟨_, k0 + k1 + k2 + k3, exec_fxProcInstr m s, ?_, fun h => ?_, fun _ _ => by omega, fun h => ?_⟩
    · have hall : rngBefore m s 4 = rngAfter k3 (rngAfter k2 (rngAfter k1 (rngAfter k0 s.fx.rng))) :=
        hrng3.trans (congrArg _ (hrng2.trans (congrArg _ (hrng1.trans (congrArg _ hrng0)))))
      rw [fxProc_rng, hall, rngAfter_add, rngAfter_add, rngAfter_add, Nat.add_assoc, Nat.add_assoc]
    · rw [hfew0 h, hfew1 h, hfew2 h, hfew3 h]
    · rw [hfluid0 h, hfluid1 h, hfluid2 h, hfluid3 h]

/-! ### Frames of known answers -/

/-- With the allpass stage off a frame is known from its kernels' channels and samples. -/
theorem frameOut_of_answers {m : FxMode} {s : State} (off : allpassOn s = false) {ch : Fin 4 → FxChannel} {raw : Fin 4 → F32}
    (hch : ∀ c, (answer m s c).voice.ch = ch c) (hraw : ∀ c, (answer m s c).raw = raw c) : frameOut s (fxProc m s) ch raw := by
  obtain rfl : (fun c => (answer m s c).voice.ch) = ch := funext hch
  obtain rfl : (fun c => (answer m s c).raw) = raw := funext hraw
  exact fxProc_frameOut m off

theorem channelOut_of_answer {m : FxMode} {s : State} (off : allpassOn s = false) {c : Fin 4} {ch : FxChannel} {ph : Phasor} {r : Word}
    {raw : F32} (h : answer m s c = ⟨⟨ch, ph, r⟩, raw⟩) : channelOut (fxProc m s) c ch raw := by
  have hout : channelOut (fxProc m s) c (answer m s c).voice.ch (answer m s c).raw := (fxProc_frameOut m off).1 c
  rwa [h] at hout

/-- The engine after a frame of a mode without a step of its own. -/
theorem fxProc_fx_plain {m : FxMode} (s : State) (hchorus : m ≠ .chorus) (hfluid : m ≠ .fluid) :
    (fxProc m s).fx = { s.fx with chan := (fxProc m s).fx.chan, curMode := m, rng := rngBefore m s 4 } := by
  rw [fxProc_fx, frameFx_of_plain s hchorus hfluid]

/-- Modes 0 to 5 leave the generator alone (R257). -/
theorem rngBefore_of_still {m : FxMode} (h : m.code ≤ 5) (s : State) : rngBefore m s 4 = s.fx.rng := by
  have hnone (c : Fin 4) : rngBefore m s (c.val + 1) = rngBefore m s c.val := by
    obtain ⟨k, -, hfew, -, hrng⟩ := answer_draws m s c
    rw [hrng, hfew h, rngAfter]
  exact (hnone 3).trans ((hnone 2).trans ((hnone 1).trans (hnone 0)))

/-- The engine after a frame of a mode that neither draws nor has a step of its own. -/
theorem fxProc_fx_still {m : FxMode} (s : State) (hcode : m.code ≤ 5) (hchorus : m ≠ .chorus) :
    (fxProc m s).fx = { s.fx with chan := (fxProc m s).fx.chan, curMode := m } := by
  have hfluid : m ≠ .fluid := fun h => by rw [h] at hcode; exact absurd hcode (by decide)
  rw [fxProc_fx_plain s hchorus hfluid, rngBefore_of_still hcode]

/-! ### Modes 0 to 2 (O30, O31) -/

section Divisor

variable {m : FxMode} {s : State} {c : Fin 4}

theorem divTarget_of_done {freeze : Bool} {jf base : F32} {ch : FxChannel} (hd : ch.dvalid = true) (hdone : fle fone ch.dxfPos = true) :
    divTarget freeze jf base ch =
      if bigJump jf base ch then if freeze then ch else { ch with prevD := ch.curD, curD := base, dxfPos := fzero }
      else { ch with curD := base } := by
  rw [divTarget, if_neg (by rw [hd]; decide), fge, if_pos hdone]

theorem divTarget_of_running {freeze : Bool} {jf base : F32} {ch : FxChannel} (hd : ch.dvalid = true)
    (hrun : flt ch.dxfPos fone = true) : divTarget freeze jf base ch = ch := by
  have hdone : ¬ fle fone ch.dxfPos = true := fun h => Bool.false_ne_true ((flt_eq_false_of_fle h).symm.trans hrun)
  rw [divTarget, if_neg (by rw [hd]; decide), fge, if_neg hdone]

/-- While a crossfade runs the sample is the mix of the two reads, and the position advances (R251). -/
theorem answer_div_crossfading (hm : m = .basic ∨ m = .pingpong ∨ m = .unlinked) {ch : FxChannel}
    (hch : divTarget (frozen s) (fdiv (param m s 1) fhundred) (baseDelay s c) (entered m s c) = ch) (hrun : flt ch.dxfPos fone = true) :
    answer m s c =
      ⟨⟨{ ch with dxfPos := fmin2 fone (fadd ch.dxfPos (fdiv Config.msPerSecond (fmul (param m s 0) s.fx.sr))) }, s.ph.get c,
        rngBefore m s c.val⟩,
        fadd (readHerm s c ch.prevD) (fmul (fsub (readHerm s c ch.curD) (readHerm s c ch.prevD)) ch.dxfPos)⟩ := by
  rw [answer_div hm, hch, divAdvance, if_pos hrun, divRead, if_pos hrun]

end Divisor

/-- Settles O30: both times the kernel reads at the base delay, now the current one. -/
theorem divisorFollows : Obligations.DivisorFollows := by
  intro m c s hm off k base one jump
  have hplain : m.code ≤ 5 ∧ m ≠ .chorus ∧ drivesPhasor m = false := by rcases hm with rfl | rfl | rfl <;> decide
  obtain ⟨hcode, hchorus, hstill⟩ := hplain
  refine ⟨_, exec_fxProcInstr m s, fun hd => channelOut_of_answer off (answer_div_unknown hm hd), fun hd hdone hjump => ?_,
    fxProc_fx_still s hcode hchorus, fxProc_frame_of_still hstill s⟩
  have hfollow : divTarget (frozen s) (fdiv (param m s 1) fhundred) base k = { k with curD := base } := by
    rw [divTarget_of_done hd hdone]
    exact if_neg (Bool.eq_false_iff.1 hjump)
  exact channelOut_of_answer off (answer_div_settled hm hfollow hdone)

/-- Settles O31: at a jump or in a running crossfade the kernel mixes two reads, under freeze it reads at the delay it has. -/
theorem divisorJumps : Obligations.DivisorJumps := by
  intro m c s hm off k base zero one old from0 rate jump
  refine ⟨_, exec_fxProcInstr m s, fun hd hdone hjump hthawed => ?_, fun hd hdone hjump hfrozen => ?_, fun hd hrun => ?_⟩
  · have hstart : divTarget (frozen s) (fdiv (param m s 1) fhundred) base k = { k with prevD := k.curD, curD := base, dxfPos := fzero } := by
      rw [divTarget_of_done hd hdone, hthawed]
      exact if_pos hjump
    exact channelOut_of_answer off (answer_div_crossfading hm hstart rfl)
  · have hhold : divTarget (frozen s) (fdiv (param m s 1) fhundred) base k = k := by
      rw [divTarget_of_done hd hdone, hfrozen]
      exact if_pos hjump
    exact channelOut_of_answer off (answer_div_settled hm hhold hdone)
  · exact channelOut_of_answer off (answer_div_crossfading hm (divTarget_of_running hd hrun) hrun)

/-! ### Resonator, chorus, Knuth (O34, O35, O36) -/

/-- Settles O34: the kernel leaves its channel and reads at the note's period. -/
theorem resonatorReads : Obligations.ResonatorReads := by
  intro s off
  have hraw (c : Fin 4) : (answer .resonator s c).raw = readHerm s c (readable s (fdiv s.fx.sr (noteFreq s))) := by
    rw [noteFreq_eq, ← frameFx_sr .resonator s]
    rfl
  exact ⟨_, exec_fxProcInstr .resonator s, frameOut_of_answers off (fun _ => rfl) hraw, fxProc_fx_still s (by decide) (by decide),
    fxProc_frame_of_still rfl s⟩

/-- The oscillators after the chorus's own step (R255). -/
theorem frameFx_chorus (s : State) :
    frameFx .chorus s = { s.fx with
      chan := (frameFx .chorus s).chan, curMode := .chorus
      lfoPh := ⟨wrap01 (fadd s.fx.lfoPh.e0 (fdiv (param .chorus s 0) s.fx.sr)),
        wrap01 (fadd s.fx.lfoPh.e1 (fdiv (param .chorus s 2) s.fx.sr))⟩ } := by
  have hstep : frameFx .chorus s = chorusFrame (frameParams .chorus s) (enterMode .chorus s.fx) := rfl
  rw [hstep, enterMode]
  split
  · next e =>
    rw [e]
    rfl
  · rfl

/-- Settles O35: channels 0 and 2 take the first oscillator and depth, channels 1 and 3 the second. -/
theorem chorusBlends : Obligations.ChorusBlends := by
  intro s off one ph raw
  have hlfo : (frameFx .chorus s).lfoPh = ⟨ph 0, ph 1⟩ := by rw [frameFx_chorus]; rfl
  have hraw (c : Fin 4) : (answer .chorus s c).raw = raw c := by
    have hanswer : (answer .chorus s c).raw = fmul fhalf (fadd (readHerm s c ((frameOf .chorus s).base.get c))
        (readHerm s c (chorusDelay (frameOf .chorus s) c ((frameOf .chorus s).base.get c)))) := rfl
    have hphase : (frameOf .chorus s).lfoPh = ⟨ph 0, ph 1⟩ := hlfo
    rw [hanswer, frameOf_base, chorusDelay, hphase]
    fin_cases c <;> rfl
  have hdraws : rngBefore .chorus s 4 = s.fx.rng := rfl
  refine ⟨_, exec_fxProcInstr .chorus s, frameOut_of_answers off (fun _ => rfl) hraw, ?_, fxProc_frame_of_still rfl s⟩
  rw [fxProc_fx, frameFx_chorus, hdraws]
  rfl

/-- Settles O36: the kernel's answer is the seam's channel, the driven phasor and the read at the folded position. -/
theorem knuthReads : Obligations.KnuthReads := by
  intro s off q pos
  have hanswer (c : Fin 4) : answer .knuth s c =
      ⟨⟨seamed (baseDelay s c) (pos c) (entered .knuth s c), q c, rngBefore .knuth s c.val⟩, readHerm s c (pos c)⟩ := by
    have hkernel : answer .knuth s c = kernelKnuth (frameOf .knuth s) (readHerm s c) ((frameOf .knuth s).base.get c)
      ⟨entered .knuth s c, s.ph.get c, rngBefore .knuth s c.val⟩ := rfl
    rw [hkernel, frameOf_base]
    rfl
  refine ⟨_, exec_fxProcInstr .knuth s, fun c => ?_,
    frameOut_of_answers off (fun c => by rw [hanswer]) (fun c => by rw [hanswer]), fxProc_fx_still s (by decide) (by decide),
    fxProc_frame_of_driven .knuth s⟩
  rw [fxProc_ph, hanswer]

end Sys2Proof.Machine
end

section
/-! The granular family (O38, O40, O41): the head of a channel is `headChannel` or, in the crystals mode, `blockChannel`; the grain cloud is
what `playing`, `aged` and `cloudSum` say. -/

namespace Sys2Proof.Machine

/-! ### Arming the fade (R215) -/

theorem armedIf_true (ch : FxChannel) : armedIf true ch = forceSeam ch := rfl

theorem armedIf_false (ch : FxChannel) : armedIf false ch = ch := rfl

theorem forceSeam_acc (ch : FxChannel) : (forceSeam ch).acc = ch.acc := rfl

/-- Arming touches the fade alone. -/
theorem armedIf_eq (b : Bool) (ch : FxChannel) :
    armedIf b ch = { ch with xfRem := (armedIf b ch).xfRem, xfFrom := (armedIf b ch).xfFrom } := by
  cases b <;> rfl

theorem armedIf_acc (b : Bool) (ch : FxChannel) : (armedIf b ch).acc = ch.acc := by rw [armedIf_eq]

/-- The slice with its seam (R284). -/
theorem sliceSeam_eq (idx : Fin 8) (ch : FxChannel) :
    sliceSeam idx ch = armedIf (decide (idx ≠ ch.lastSlice)) { ch with lastSlice := idx } := by
  unfold sliceSeam
  split
  · next h =>
    rw [decide_eq_false (not_not.2 h), armedIf_false, h]
  · next h =>
    rw [decide_eq_true h]
    rfl

/-! ### The offset of modes 6 to 9 (R285) -/

/-- The offset before the window's last check. -/
def wrappedOffset (base a : F32) : F32 :=
  if fle (accHigh base) a then fsub a (fsub (accHigh base) (accLow base))
  else if flt a (accLow base) then fadd a (fsub (accHigh base) (accLow base)) else a

/-- The offset's step: a wrap arms the fade, a value still outside the window is dropped. -/
theorem accStep_eq (base rate : F32) (ch : FxChannel) :
    let a := fadd ch.acc (fsub rate fone)
    let b := wrappedOffset base a
    accStep base rate ch =
      armedIf (fle (accHigh base) a || flt a (accLow base))
        { ch with acc := if fle (accLow base) b && flt b (accHigh base) then b else fzero } := by
  unfold accStep accInside accWrap wrappedOffset fge
  dsimp only
  generalize fadd ch.acc (fsub rate fone) = a
  generalize accHigh base = hi
  generalize accLow base = lo
  cases fle hi a with
  | true =>
    simp only [if_true, Bool.true_or, forceSeam_acc]
    split <;> rfl
  | false =>
    cases flt a lo with
    | true =>
      simp only [if_true, Bool.false_eq_true, if_false, Bool.or_true, forceSeam_acc]
      split <;> rfl
    | false =>
      simp only [Bool.false_eq_true, if_false, Bool.or_false]
      split <;> rfl

/-- Slice and offset together: the fields by name and one arming of the fade. -/
theorem accStep_sliceSeam (base rate : F32) (idx : Fin 8) (ch : FxChannel) :
    let a := fadd ch.acc (fsub rate fone)
    let b := wrappedOffset base a
    accStep base rate (sliceSeam idx ch) =
      armedIf (fle (accHigh base) a || flt a (accLow base) || decide (idx ≠ ch.lastSlice))
        { ch with acc := if fle (accLow base) b && flt b (accHigh base) then b else fzero, lastSlice := idx } := by
  rw [sliceSeam_eq, accStep_eq]
  generalize decide (idx ≠ ch.lastSlice) = seam
  dsimp only
  rw [armedIf_acc]
  generalize (fle (accHigh base) (fadd ch.acc (fsub rate fone)) || flt (fadd ch.acc (fsub rate fone)) (accLow base)) = wraps
  cases wraps <;> cases seam <;> rfl

/-! ### The blocks of the crystals mode (R287) -/

/-- Slice and block together: the fields by name and one arming of the fade. -/
theorem crystalAdvance_sliceSeam (base rate p3 : F32) (idx : Fin 8) (ch : FxChannel) :
    let n := ch.blkCnt + 1#32
    let ends := fle (blockLength base idx) (i2f (n.toNat : Int))
    crystalAdvance base rate p3 idx (sliceSeam idx ch) =
      armedIf (ends || decide (idx ≠ ch.lastSlice))
        { ch with
          lastSlice := idx
          blkCnt := if ends then 0#32 else n
          subStep := if ends then ch.subStep + 1 else ch.subStep
          rateSm := if ends then fadd ch.rateSm (fmul (fdiv p3 fhundred) (fsub rate ch.rateSm)) else ch.rateSm } := by
  intro n ends
  have hends (slice : FxChannel) (hblk : slice.blkCnt = ch.blkCnt) :
      fge (i2f ((slice.blkCnt + 1#32).toNat : Int)) (blockLength base idx) = ends := by rw [hblk]; rfl
  rw [sliceSeam_eq]
  unfold crystalAdvance
  dsimp only
  rw [hends _ (by rw [armedIf_eq])]
  cases ends <;> cases decide (idx ≠ ch.lastSlice) <;> rfl

/-! ### The head (R284 to R287, R289) -/

/-- The head of modes 6 to 9. -/
theorem granHead_offset {m : FxMode} (h : m = .gran ∨ m = .octave ∨ m = .texture ∨ m = .shimmer) (s : State) (c : Fin 4) (r : Word) :
    granHead m (frameOf m s) (baseDelay s c) ⟨entered m s c, s.ph.get c, r⟩ = headChannel m s c := by
  have hm : m ≠ .crystals ∧ 6 ≤ m.code ∧ m.code ≤ 10 := by rcases h with rfl | rfl | rfl | rfl <;> decide
  obtain ⟨hne, hcode⟩ := hm
  have hlaw : granHead m (frameOf m s) (baseDelay s c) ⟨entered m s c, s.ph.get c, r⟩ =
      let idx := sliceOf (clamp01 s.fxIn.meta2)
      let ch := accStep (baseDelay s c) (granRate m (frameParams m s) (clamp01 s.fxIn.meta1)) (sliceSeam idx (entered m s c))
      let wob := wobble (frameParams m s) (baseDelay s c) (drivePhasor (baseDelay s c) (frameParams m s).e1 fone (s.ph.get c))
      seamDetect (baseDelay s c) (clampD s.cap (gridQuant (fadd (fsub (baseDelay s c) ch.acc) wob) (baseDelay s c) idx)) ch := by
    unfold granHead granLaw granPos
    simp only [if_neg hne]
    rfl
  rw [hlaw, ← playRate_eq m s hcode, ← wobbleOf_eq, ← sliceIndex_eq]
  dsimp only
  rw [accStep_sliceSeam, armedIf_acc]
  unfold headChannel gridQuant
  rw [gridStep_eq]
  rfl

theorem crystalPos_armedIf (base wob : F32) (idx : Fin 8) (b : Bool) (ch : FxChannel) :
    crystalPos base wob idx (armedIf b ch) = crystalPos base wob idx ch := by
  cases b <;> rfl

/-- The head of the crystals mode. -/
theorem granHead_block (s : State) (c : Fin 4) (r : Word) :
    granHead .crystals (frameOf .crystals s) (baseDelay s c) ⟨entered .crystals s c, s.ph.get c, r⟩ = blockChannel s c := by
  have hlaw : granHead .crystals (frameOf .crystals s) (baseDelay s c) ⟨entered .crystals s c, s.ph.get c, r⟩ =
      let idx := sliceOf (clamp01 s.fxIn.meta2)
      let ch := crystalAdvance (baseDelay s c) (granRate .crystals (frameParams .crystals s) (clamp01 s.fxIn.meta1))
        ((frameParams .crystals s).get 3) idx (sliceSeam idx (entered .crystals s c))
      seamDetect (baseDelay s c) (clampD s.cap (crystalPos (baseDelay s c) (wobble (frameParams .crystals s) (baseDelay s c)
        (drivePhasor (baseDelay s c) (frameParams .crystals s).e1 fone (s.ph.get c))) idx ch)) ch := rfl
  rw [hlaw, ← playRate_eq .crystals s (by decide), ← wobbleOf_eq, ← sliceIndex_eq, frameParams_get]
  dsimp only
  rw [crystalAdvance_sliceSeam, crystalPos_armedIf]
  unfold blockChannel
  rw [gridStep_eq]
  rfl

/-- The head of channel `c` in a granular mode. -/
def headOf (m : FxMode) (s : State) (c : Fin 4) : FxChannel := if m = .crystals then blockChannel s c else headChannel m s c

theorem granHead_eq {m : FxMode} (h : 6 ≤ m.code ∧ m.code ≤ 10) (s : State) (c : Fin 4) (r : Word) :
    granHead m (frameOf m s) (baseDelay s c) ⟨entered m s c, s.ph.get c, r⟩ = headOf m s c := by
  unfold headOf
  split
  · next hm =>
    subst hm
    exact granHead_block s c r
  · next hm =>
    have hoffset : m = .gran ∨ m = .octave ∨ m = .texture ∨ m = .shimmer := by
      obtain ⟨hlo, hhi⟩ := h
      cases m <;> simp [FxMode.code] at hlo hhi hm ⊢
    exact granHead_offset hoffset s c r

/-- The granular kernel's answer in the statements' terms (R289). -/
theorem answer_head {m : FxMode} (h : 6 ≤ m.code ∧ m.code ≤ 10) (s : State) (c : Fin 4) :
    answer m s c =
      granMix m (frameOf m s) (readHerm s c) (baseDelay s c) (playRate m s) (readHerm s c (headOf m s c).lastPos)
        ⟨headOf m s c, driven (s.ph.get c) (baseDelay s c) (param m s 1) fone, rngBefore m s c.val⟩ := by
  rw [answer_gran h, granHead_eq h, ← playRate_eq m s h]
  rfl

theorem answer_head_idle {m : FxMode} (h : 6 ≤ m.code ∧ m.code ≤ 10) {s : State} (off : grainsOn m s = false) (c : Fin 4) :
    answer m s c =
      ⟨⟨grainIdle (headOf m s c), driven (s.ph.get c) (baseDelay s c) (param m s 1) fone, rngBefore m s c.val⟩,
        readHerm s c (headOf m s c).lastPos⟩ := by
  rw [answer_head h, granMix_of_idle (fr := frameOf m s) off]

/-- The phasor of a granular channel is driven with the base delay, whatever the grains (R282). -/
theorem answer_ph_gran {m : FxMode} (h : 6 ≤ m.code ∧ m.code ≤ 10) (s : State) (c : Fin 4) :
    (answer m s c).voice.ph = driven (s.ph.get c) (baseDelay s c) (param m s 1) fone := by
  rw [answer_head h, granMix_ph]

theorem rngBefore_idle {m : FxMode} (h : 6 ≤ m.code ∧ m.code ≤ 10) {s : State} (off : grainsOn m s = false) :
    rngBefore m s 4 = s.fx.rng := by
  have hnone (c : Fin 4) : rngBefore m s (c.val + 1) = rngBefore m s c.val := by rw [rngBefore_succ, answer_head_idle h off]
  exact (hnone 3).trans ((hnone 2).trans ((hnone 1).trans (hnone 0)))

/-- The engine after a granular frame without grains. -/
theorem fxProc_fx_idle {m : FxMode} (h : 6 ≤ m.code ∧ m.code ≤ 10) {s : State} (off : grainsOn m s = false) :
    (fxProc m s).fx = { s.fx with chan := (fxProc m s).fx.chan, curMode := m } := by
  have hown : m ≠ .chorus ∧ m ≠ .fluid := by
    constructor <;> rintro rfl <;> exact absurd h (by decide)
  rw [fxProc_fx_plain s hown.1 hown.2, rngBefore_idle h off]

/-! ### Modes 6 to 9 without grains (O38) -/

/-- Settles O38: without grains a channel's answer is its head, the grains idle. -/
theorem granularHead : Obligations.GranularHead := by
  intro m s hm off hidle idle
  have hcode : 6 ≤ m.code ∧ m.code ≤ 10 := by rcases hm with rfl | rfl | rfl | rfl <;> decide
  have hhead (c : Fin 4) : headOf m s c = headChannel m s c := if_neg (by rcases hm with rfl | rfl | rfl | rfl <;> decide)
  have hanswer (c : Fin 4) := answer_head_idle hcode hidle c
  refine ⟨_, exec_fxProcInstr m s, frameOut_of_answers off (fun c => ?_) (fun c => ?_), fun c => ?_, fxProc_fx_idle hcode hidle,
    fxProc_frame_of_driven m s⟩
  · rw [hanswer, hhead]
    rfl
  · rw [hanswer, hhead]
  · rw [fxProc_ph, answer_ph_gran hcode]
    rfl

/-! ### The crystals mode (O40) -/

/-- Whatever the mix, a granular channel keeps its head's fields but for the grains, the outputs and the memories. -/
theorem finished_head {m : FxMode} (h : 6 ≤ m.code ∧ m.code ≤ 10) (s : State) (c : Fin 4) :
    (finished m s c).ch =
      { headOf m s c with
        xfRem := (headOf m s c).xfRem - 1
        gphase := (finished m s c).ch.gphase, grain := (finished m s c).ch.grain
        wet := (finished m s c).ch.wet, which := (finished m s c).ch.which, lastOut := (finished m s c).ch.lastOut
        apX1 := (finished m s c).ch.apX1, apY1 := (finished m s c).ch.apY1 } := by
  have hmix := granMix_ch m (frameOf m s) (readHerm s c) (baseDelay s c) (playRate m s) (readHerm s c (headOf m s c).lastPos)
    ⟨headOf m s c, driven (s.ph.get c) (baseDelay s c) (param m s 1) fone, rngBefore m s c.val⟩
  rw [← answer_head h] at hmix
  rw [finished_ch, hmix]

/-- The end of a block arms the fade (R287). -/
theorem blockChannel_fade {s : State} {c : Fin 4}
    (h : fle (fmax2 (F32.ofBits 0x42800000#32) (gridStep s c)) (i2f (((entered .crystals s c).blkCnt + 1#32).toNat : Int)) = true) :
    (blockChannel s c).xfRem = 24 ∧ (blockChannel s c).xfFrom = (entered .crystals s c).lastOut := by
  unfold blockChannel
  dsimp only
  rw [h, Bool.true_or, armedIf_true, seamed_eq]
  exact (Seamed.seamDetect ..).armed rfl rfl

theorem seamed_block_fields (base pos : F32) (b : Bool) (ch : FxChannel) :
    let k := seamed base pos (armedIf b ch)
    k.acc = ch.acc ∧ k.lastSlice = ch.lastSlice ∧ k.blkCnt = ch.blkCnt ∧ k.subStep = ch.subStep ∧ k.rateSm = ch.rateSm := by
  unfold seamed
  dsimp only
  rw [armedIf_eq, armedIf_eq]
  exact ⟨rfl, rfl, rfl, rfl, rfl⟩

/-- Settles O40: the block's fields are the head's, which no later stage writes. -/
theorem crystalBlocks : Obligations.CrystalBlocks := by
  intro s
  have hcode : 6 ≤ FxMode.crystals.code ∧ FxMode.crystals.code ≤ 10 := by decide
  have hhead (c : Fin 4) : headOf .crystals s c = blockChannel s c := if_pos rfl
  refine ⟨_, exec_fxProcInstr .crystals s, fun c => ?_, fun off hidle => ⟨?_, fxProc_fx_idle hcode hidle⟩, fun c => ?_,
    fxProc_frame_of_driven .crystals s⟩
  · intro ch n len sm
    have hentered := entered_eq .crystals s c
    obtain ⟨hacc, hslice, hblk, hsub, hrate⟩ : (blockChannel s c).acc = ch.acc ∧ (blockChannel s c).lastSlice = sliceIndex s ∧
        (blockChannel s c).blkCnt = (if fle len (i2f (n.toNat : Int)) then 0#32 else n) ∧
        (blockChannel s c).subStep = (if fle len (i2f (n.toNat : Int)) then ch.subStep + 1 else ch.subStep) ∧
        (blockChannel s c).rateSm = (if fle len (i2f (n.toNat : Int)) then sm else ch.rateSm) := by
      unfold blockChannel
      dsimp only
      rw [hentered]
      exact seamed_block_fields ..
    have hfade := blockChannel_fade (s := s) (c := c)
    rw [hentered] at hfade
    rw [fxProc_chan, finished_head hcode, hhead]
    refine ⟨hacc, hslice, fun hends => ?_, fun hon => ?_⟩
    · obtain ⟨hrem, hfrom⟩ := hfade hends
      rw [if_pos hends] at hblk hsub hrate
      exact ⟨hblk, by rw [show _ = ch.subStep + 1 from hsub]; rfl, hrate, by rw [show (blockChannel s c).xfRem = 24 from hrem], hfrom⟩
    · have hon := Bool.eq_false_iff.1 hon
      rw [if_neg hon] at hblk hsub hrate
      exact ⟨hblk, hsub, hrate⟩
  · have hgrain (c : Fin 4) : (blockChannel s c).grain = (s.fx.chan.get c).grain := by
      obtain ⟨-, -, -, hgrain, -⟩ := HeadFrame.granHead .crystals (frameOf .crystals s) (baseDelay s c)
        ⟨entered .crystals s c, s.ph.get c, 0#32⟩
      rw [← granHead_block s c 0#32, hgrain, entered_eq]
    refine frameOut_of_answers off (fun c => ?_) (fun c => ?_)
    · rw [answer_head_idle hcode hidle, hhead, ← hgrain]
      rfl
    · rw [answer_head_idle hcode hidle, hhead]
  · rw [fxProc_ph, answer_ph_gran hcode]
    rfl

end Sys2Proof.Machine
end

section
/-! The grain cloud (O41): what a trigger leaves of the pool and of the generator, channel by channel in the order 0 to 3. -/

namespace Sys2Proof.Machine

/-! ### The pool (R288) -/

/-- The lowest free grain, or none because every grain plays. -/
theorem freeGrain_cases (gs : Per4 Grain) :
    (freeGrain gs = none ∧ ∀ g, (gs.get g).active = true) ∨
    ∃ g, freeGrain gs = some g ∧ (gs.get g).active = false ∧ ∀ h, h < g → (gs.get h).active = true := by
  obtain ⟨g0, g1, g2, g3⟩ := gs
  unfold freeGrain
  dsimp only
  cases h0 : g0.active with
  | false => exact .inr ⟨0, rfl, h0, fun h hlt => absurd hlt (Fin.not_lt_zero h)⟩
  | true =>
    cases h1 : g1.active with
    | false => exact .inr ⟨1, rfl, h1, fun
        | 0, _ => h0
        | 1, hlt | 2, hlt | 3, hlt => absurd hlt (by decide)⟩
    | true =>
      cases h2 : g2.active with
      | false => exact .inr ⟨2, rfl, h2, fun
          | 0, _ => h0
          | 1, _ => h1
          | 2, hlt | 3, hlt => absurd hlt (by decide)⟩
      | true =>
        cases h3 : g3.active with
        | false => exact .inr ⟨3, rfl, h3, fun
            | 0, _ => h0
            | 1, _ => h1
            | 2, _ => h2
            | 3, hlt => absurd hlt (by decide)⟩
        | true => exact .inl ⟨rfl, fun
            | 0 => h0
            | 1 => h1
            | 2 => h2
            | 3 => h3⟩

/-! ### The draws of the cloud (R288) -/

/-- One channel more to count over: `p` of that channel adds one. -/
theorem countBelow_succ (p : Fin 4 → Bool) (c : Fin 4) :
    (List.finRange 4).countP (fun k => decide (k.val < c.val + 1) && p k) =
      (List.finRange 4).countP (fun k => decide (k.val < c.val) && p k) + if p c then 1 else 0 := by
  have hchannels : List.finRange 4 = [0, 1, 2, 3] := rfl
  rw [hchannels]
  match c with
  | 0 | 1 | 2 | 3 => simp [List.countP_cons, Nat.add_comm, Nat.add_assoc]

/-- The draws of a channel come after those of the channels below it. -/
theorem cloudDraws_succ (s : State) (c : Fin 4) :
    cloudDraws s (c.val + 1) = cloudDraws s c.val + if cloudStarts s c then 2 else 0 := by
  unfold cloudDraws
  rw [countBelow_succ, Nat.mul_add]
  cases cloudStarts s c <;> rfl

/-! ### A trigger (R288) -/

/-- The trigger phase of channel `c` after the frame. -/
def phaseAfter (s : State) (c : Fin 4) : F32 := if fle fone (cloudPhase s c) then wrap01 (cloudPhase s c) else cloudPhase s c

/-- The jitter of a granular mode as the statements write it (R280, R289). -/
def jitterOf (m : FxMode) (s : State) : F32 := if m = .shimmer ∨ m = .crystals then fquarter else fdiv (param m s 3) fhundred

theorem grainJitter_eq {m : FxMode} (h : 6 ≤ m.code ∧ m.code ≤ 10) (s : State) : grainJitter m (frameParams m s) = jitterOf m s := by
  obtain ⟨hlo, hhi⟩ := h
  cases m with
  | basic | pingpong | unlinked | resonator | chorus | knuth => exact absurd hlo (by decide)
  | gran | octave | texture | shimmer | crystals => rfl
  | fluid => exact absurd hhi (by decide)

/-- A channel that starts no grain plays the pool as it is. -/
theorem playing_of_not_starts {s : State} {c : Fin 4} (h : cloudStarts s c = false) (m : FxMode) (g : Fin 4) :
    playing m s c g = (s.fx.chan.get c).grain.get g := if_neg fun hstarts => Bool.false_ne_true (h.symm.trans hstarts.1)

/-- A channel that starts a grain plays it in the place of the lowest free one. -/
theorem playing_of_starts {s : State} {c free : Fin 4} (h : cloudStarts s c = true)
    (hfree : ((s.fx.chan.get c).grain.get free).active = false)
    (hbelow : ∀ k, k < free → ((s.fx.chan.get c).grain.get k).active = true) (m : FxMode) (g : Fin 4) :
    playing m s c g =
      if g = free then
        newGrain s.cap (baseDelay s c) (playRate m s) (jitterOf m s)
          (drawn (rngAfter (cloudDraws s c.val + 1) s.fx.rng)) (drawn (rngAfter (cloudDraws s c.val + 2) s.fx.rng))
      else (s.fx.chan.get c).grain.get g := by
  split
  · next hg =>
    subst hg
    exact if_pos ⟨h, hfree, hbelow⟩
  · next hg =>
    refine if_neg fun ⟨_, hinactive, hall⟩ => ?_
    rcases Ne.lt_or_gt hg with hlt | hgt
    · exact Bool.false_ne_true (hinactive.symm.trans (hbelow g hlt))
    · exact Bool.false_ne_true (hfree.symm.trans (hall free hgt))

/-- A trigger leaves the channel's phase, the grains that play and the generator after its draws. -/
theorem grainTrigger_eq {m : FxMode} {s : State} {c : Fin 4} {v : Voice} (hgrain : v.ch.grain = (s.fx.chan.get c).grain)
    (hphase : v.ch.gphase = (s.fx.chan.get c).gphase) (hrng : v.rng = rngAfter (cloudDraws s c.val) s.fx.rng) :
    grainTrigger s.cap (baseDelay s c) (playRate m s) (jitterOf m s) v =
      { v with
        ch := { v.ch with gphase := phaseAfter s c, grain := Per4.ofFn (playing m s c) }
        rng := rngAfter (cloudDraws s (c.val + 1)) s.fx.rng } := by
  have hadvance : triggerPhase (baseDelay s c) v.ch = cloudPhase s c := by
    unfold triggerPhase
    rw [hphase]
    rfl
  have hidle (h : cloudStarts s c = false) : Per4.ofFn (playing m s c) = v.ch.grain ∧ rngAfter (cloudDraws s (c.val + 1)) s.fx.rng = v.rng := by
    refine ⟨Per4.ext_get fun g => ?_, ?_⟩
    · rw [Per4.get_ofFn, playing_of_not_starts h, hgrain]
    · rw [cloudDraws_succ, h, hrng]
      rfl
  unfold grainTrigger fge phaseAfter
  rw [hadvance]
  cases hfull : fle fone (cloudPhase s c) with
  | false =>
    obtain ⟨hpool, hdraws⟩ := hidle (by rw [cloudStarts, hfull, Bool.false_and])
    rw [hpool, hdraws]
    rfl
  | true =>
    rw [if_pos rfl, if_pos rfl]
    unfold startGrain
    dsimp only
    rcases freeGrain_cases v.ch.grain with ⟨hnone, hall⟩ | ⟨free, hsome, hfree, hbelow⟩
    · obtain ⟨hpool, hdraws⟩ := hidle (by
        rw [cloudStarts, hfull, Bool.true_and, decide_eq_false_iff_not]
        rintro ⟨g, hg⟩
        rw [← hgrain, hall] at hg
        cases hg)
      rw [hnone, hpool, hdraws]
    · rw [hgrain] at hfree hbelow
      have hstarts : cloudStarts s c = true := by
        rw [cloudStarts, hfull, Bool.true_and, decide_eq_true_iff]
        exact ⟨free, hfree⟩
      have hpool : v.ch.grain.set free (newGrain s.cap (baseDelay s c) (playRate m s) (jitterOf m s) (rngValue (rngNext v.rng))
          (rngValue (rngNext (rngNext v.rng)))) = Per4.ofFn (playing m s c) := by
        refine Per4.ext_get fun g => ?_
        rw [Per4.get_set, Per4.get_ofFn, playing_of_starts hstarts hfree hbelow, hgrain, hrng]
        rfl
      have hdraws : rngNext (rngNext v.rng) = rngAfter (cloudDraws s (c.val + 1)) s.fx.rng := by
        rw [cloudDraws_succ, hstarts, hrng]
        rfl
      rw [hsome, ← hpool, ← hdraws]

/-! ### The frame (O41) -/

/-- The head leaves the grains and their phase as the frame found them. -/
theorem headOf_grains {m : FxMode} (h : 6 ≤ m.code ∧ m.code ≤ 10) (s : State) (c : Fin 4) :
    (headOf m s c).grain = (s.fx.chan.get c).grain ∧ (headOf m s c).gphase = (s.fx.chan.get c).gphase := by
  obtain ⟨-, -, hphase, hgrain, -⟩ := HeadFrame.granHead m (frameOf m s) (baseDelay s c) ⟨entered m s c, s.ph.get c, 0#32⟩
  rw [← granHead_eq h s c 0#32, hgrain, hphase, entered_eq]
  exact ⟨rfl, rfl⟩

/-- The answer of a channel whose generator stands after the draws of the channels below it. -/
theorem answerFrom_playing {m : FxMode} (h : 6 ≤ m.code ∧ m.code ≤ 10) {s : State} (on : grainsOn m s = true) {c : Fin 4}
    (hrng : rngBefore m s c.val = rngAfter (cloudDraws s c.val) s.fx.rng) :
    let mix := fdiv (param m s 2) fhundred
    answer m s c =
      ⟨⟨{ headOf m s c with gphase := phaseAfter s c, grain := Per4.ofFn fun g => aged (playing m s c g) },
          driven (s.ph.get c) (baseDelay s c) (param m s 1) fone, rngAfter (cloudDraws s (c.val + 1)) s.fx.rng⟩,
        fadd (fmul (readHerm s c (headOf m s c).lastPos) (fsub fone mix)) (fmul (cloudSum m s c) mix)⟩ := by
  obtain ⟨hgrain, hphase⟩ := headOf_grains h s c
  have htrigger := grainTrigger_eq (m := m) (s := s) (c := c)
    (v := ⟨headOf m s c, driven (s.ph.get c) (baseDelay s c) (param m s 1) fone, rngBefore m s c.val⟩) hgrain hphase hrng
  rw [answer_head h, granMix_of_playing (fr := frameOf m s) on]
  dsimp only [grainCloud]
  rw [show grainJitter m (frameOf m s).p = jitterOf m s from grainJitter_eq h s, show (frameOf m s).cap = s.cap from rfl, htrigger]
  rfl

/-- The generator when the channels below `n` are done. -/
theorem rngBefore_playing {m : FxMode} (h : 6 ≤ m.code ∧ m.code ≤ 10) {s : State} (on : grainsOn m s = true) {n : Nat} (hn : n ≤ 4) :
    rngBefore m s n = rngAfter (cloudDraws s n) s.fx.rng := by
  induction n with
  | zero =>
    have hnone : cloudDraws s 0 = 0 := by
      unfold cloudDraws
      simp
    rw [hnone]
    rfl
  | succ n ih =>
    have hstep := rngBefore_succ m s ⟨n, hn⟩
    rw [answerFrom_playing h on (c := ⟨n, hn⟩) (ih (by omega))] at hstep
    exact hstep

/-- Settles O41: each channel's answer is the head's with the cloud's phase, grains and draws. -/
theorem grainCloudPlays : Obligations.GrainCloud := by
  intro m s hlo hhi off one mix head phase on
  have hcode : 6 ≤ m.code ∧ m.code ≤ 10 := ⟨hlo, hhi⟩
  have hown : m ≠ .chorus ∧ m ≠ .fluid := by
    constructor <;> rintro rfl <;> exact absurd hcode (by decide)
  have hanswer (c : Fin 4) := answerFrom_playing hcode on (rngBefore_playing hcode on c.isLt.le)
  refine ⟨_, exec_fxProcInstr m s, frameOut_of_answers off (fun c => ?_) (fun c => ?_), ?_, fun c => ?_, fxProc_frame_of_driven m s⟩
  · rw [hanswer]
    rfl
  · rw [hanswer]
    rfl
  · rw [fxProc_fx_plain s hown.1 hown.2, rngBefore_playing hcode on le_rfl]
  · rw [fxProc_ph, answer_ph_gran hcode]
    rfl

end Sys2Proof.Machine
end

section
/-! The fluid mode (O43): its own step of the frame, its draws, and the particle's move (R321, R322). -/

namespace Sys2Proof.Machine

/-- The orbit's step and the centres (R322). -/
theorem frameFx_fluid (s : State) :
    let orbit := wrap01 (fadd s.fx.orbit (fdiv (param .fluid s 3) s.fx.sr))
    let co := fmul fquarter (cfgCos2pi orbit)
    let si := fmul fquarter (cfgSin2pi orbit)
    frameFx .fluid s = { s.fx with
      chan := (frameFx .fluid s).chan, curMode := .fluid, orbit := orbit
      cx := ⟨fadd fhalf co, fsub fhalf co⟩, cy := ⟨fadd fhalf si, fsub fhalf si⟩ } := by
  have hstep : frameFx .fluid s = fluidFrame (frameParams .fluid s) (enterMode .fluid s.fx) := rfl
  rw [hstep, enterMode]
  split
  · next e =>
    rw [e]
    rfl
  · rfl

/-- The channels below `n` have made two draws each (R321). -/
theorem rngBefore_fluid (s : State) (n : Nat) : rngBefore .fluid s n = rngAfter (2 * n) s.fx.rng := by
  induction n with
  | zero => rfl
  | succ n ih =>
    have hdraws : rngBefore .fluid s (n + 1) = rngNext (rngNext (rngBefore .fluid s n)) := rfl
    rw [hdraws, ih]
    rfl

/-- Settles O43: channel `c` draws after the two draws of each channel below it, and the kernel moves its particle by them. -/
theorem fluidMoves : Obligations.FluidMoves := by
  intro s off zero quarter half one two hundred milli p orbit co si gam damp kr moved dly
  have hcx : (frameOf .fluid s).cx = ⟨fadd half co, fsub half co⟩ := congrArg Fx.cx (frameFx_fluid s)
  have hcy : (frameOf .fluid s).cy = ⟨fadd half si, fsub half si⟩ := congrArg Fx.cy (frameFx_fluid s)
  have hsr : (frameOf .fluid s).sr = s.fx.sr := frameFx_sr .fluid s
  have hmoved (c : Fin 4) : (answer .fluid s c).voice.ch = moved c := by
    have hanswer : (answer .fluid s c).voice.ch = fluidMove (frameOf .fluid s) (rngNext (rngBefore .fluid s c.val))
      (rngNext (rngNext (rngBefore .fluid s c.val))) (entered .fluid s c) := rfl
    rw [hanswer, rngBefore_fluid]
    unfold fluidMove
    rw [hcx, hcy, hsr]
    rfl
  have hraw (c : Fin 4) : (answer .fluid s c).raw = readHerm s c (readable s (fadd (baseDelay s c) (dly c))) := by
    have hanswer : (answer .fluid s c).raw = readHerm s c (clampD s.cap (fadd ((frameOf .fluid s).base.get c)
      (fluidOffset (frameOf .fluid s).p.e2 ((frameOf .fluid s).base.get c) (answer .fluid s c).voice.ch.px))) := rfl
    rw [hanswer, frameOf_base, hmoved]
    rfl
  refine ⟨_, exec_fxProcInstr .fluid s, frameOut_of_answers off hmoved hraw, ?_, fxProc_frame_of_still rfl s⟩
  rw [fxProc_fx, rngBefore_fluid, frameFx_fluid]
  rfl

end Sys2Proof.Machine
end

section
/-! The offset's window in modes 6 to 9 (O39) and the granular modes at neutral settings (O37). Both rest on the window around 0.0 being
non-empty at every base delay, which is at least 2. -/

namespace Sys2Proof.Machine

/-! ### The base delay (R214) -/

/-- The readable range [2, CAP - 3] is non-empty, its upper end exact. -/
theorem fle_readable_ends (s : State) : fle ftwo (i2f ((s.cap : Int) - 3)) = true := by
  have hcap := s.cap_bounds
  have htwo : unitsOf ftwo = 2 ^ 150 := by decide
  obtain ⟨hfin, hval, -⟩ := i2f_exact (n := (s.cap : Int) - 3) (by omega)
  exact (fle_iff rfl hfin).2 (by rw [htwo, hval]; omega)

theorem within_baseDelay (s : State) (c : Fin 4) : within ftwo (i2f ((s.cap : Int) - 3)) (baseDelay s c) = true :=
  within_clamp _ (fle_readable_ends s)

theorem fone_units_le_baseDelay (s : State) (c : Fin 4) : 2 ^ 149 ≤ unitsOf (baseDelay s c) := by
  have htwo : unitsOf ftwo = 2 ^ 150 := by decide
  obtain ⟨hfin, -, -⟩ := baseDelay_units s c
  obtain ⟨hlo, -⟩ := Bool.and_eq_true_iff.1 (within_baseDelay s c)
  have hunits := (fle_iff rfl hfin).1 hlo
  omega

/-- A value inside the bounds passes `clamp` unchanged. -/
theorem clamp_of_within {x lo hi : F32} (h : within lo hi x = true) : clamp x lo hi = x := by
  obtain ⟨hlo, hhi⟩ := Bool.and_eq_true_iff.1 h
  have hnan : isNan x = false := by
    obtain ⟨r, -, hrank, -⟩ := fle_iff_rank.1 hhi
    cases x with
    | fin n m | inf n => rfl
    | nan n p => cases hrank
  unfold clamp fgt
  rw [hnan, flt_eq_false_of_fle hlo, flt_eq_false_of_fle hhi]
  rfl

theorem readable_baseDelay (s : State) (c : Fin 4) : readable s (baseDelay s c) = baseDelay s c :=
  clamp_of_within (within_baseDelay s c)

/-! ### The window of the offset (R285) -/

theorem accLow_le_fzero (s : State) (c : Fin 4) : fle (accLow (baseDelay s c)) fzero = true := by
  obtain ⟨hfin, hnonneg, -⟩ := baseDelay_units s c
  have hlow : unitsOf (fsub fzero Config.accLo) ≤ 0 := by decide
  exact fmul_le rfl hfin rfl (by rw [unitsOf_fzero, zero_mul]; exact mul_nonpos_of_nonpos_of_nonneg hlow hnonneg)

/-- The upper end is at least the binary32 0.3. -/
theorem fzero_lt_accHigh (s : State) (c : Fin 4) : flt fzero (accHigh (baseDelay s c)) = true := by
  obtain ⟨hfin, -, -⟩ := baseDelay_units s c
  have hhigh : 0 ≤ unitsOf Config.accHi := by decide
  have hge : fle Config.accHi (accHigh (baseDelay s c)) = true :=
    le_fmul rfl hfin rfl (mul_le_mul_of_nonneg_left (fone_units_le_baseDelay s c) hhigh)
  exact flt_of_flt_of_fle rfl hge

theorem accInside_fzero (s : State) (c : Fin 4) : accInside (baseDelay s c) fzero = true :=
  Bool.and_eq_true_iff.2 ⟨accLow_le_fzero s c, fzero_lt_accHigh s c⟩

/-- The head's offset is the wrapped one where the window's last check passes it, 0.0 elsewhere (R285). -/
theorem headChannel_acc (m : FxMode) (s : State) (c : Fin 4) :
    let b := wrappedOffset (baseDelay s c) (fadd (entered m s c).acc (fsub (playRate m s) fone))
    (headChannel m s c).acc = if accInside (baseDelay s c) b then b else fzero :=
  (seamed_block_fields ..).1

theorem accInside_headChannel (m : FxMode) (s : State) (c : Fin 4) : accInside (baseDelay s c) (headChannel m s c).acc = true := by
  rw [headChannel_acc]
  split
  · next hinside => exact hinside
  · exact accInside_fzero s c

/-- Settles O39: no stage behind the head writes the offset. -/
theorem accumulatorWindow : Obligations.AccumulatorWindow := by
  intro m c s hm base
  have hcode : 6 ≤ m.code ∧ m.code ≤ 10 := by rcases hm with rfl | rfl | rfl | rfl <;> decide
  have hhead : headOf m s c = headChannel m s c := if_neg (by rcases hm with rfl | rfl | rfl | rfl <;> decide)
  refine ⟨_, exec_fxProcInstr m s, ?_⟩
  rw [fxProc_chan, finished_head hcode, hhead]
  exact Bool.and_eq_true_iff.1 (accInside_headChannel m s c)

/-! ### Neutral settings (R281, R283, R284) -/

/-- In the middle of meta1 the rate is 1.0 (R281). -/
theorem playRate_middle {m : FxMode} {s : State} (hm : m ≠ .shimmer) (h : s.fxIn.meta1 = fhalf) : playRate m s = fone := by
  have hdead : fle (fabs (fsub (clamp01 fhalf) fhalf)) (F32.ofBits 0x3D4CCCCD#32) = true := by decide
  unfold playRate
  dsimp only
  rw [if_neg hm, h, if_pos hdead]

/-- The first slice (R284). -/
theorem sliceIndex_of_zero {s : State} (h : s.fxIn.meta2 = fzero) : sliceIndex s = 0 := by
  unfold sliceIndex
  rw [h]
  decide

/-- Without P1 there is no wobble (R283). -/
theorem wobbleOf_off {m : FxMode} {s : State} (h : flt fzero (param m s 0) = false) (c : Fin 4) : wobbleOf m s c = fzero :=
  if_neg (Bool.eq_false_iff.1 h)

/-- A frame of the current mode finds its channels as they are (R212). -/
theorem entered_of_eq {m : FxMode} {s : State} (h : s.fx.curMode = m) (c : Fin 4) : entered m s c = s.fx.chan.get c :=
  if_pos h.symm

/-! ### The head at the base delay (R285, R286) -/

theorem fle_eq_false_of_flt {x y : F32} (h : flt x y = true) : fle y x = false := by
  obtain ⟨a, b, ha, hb, hab⟩ := flt_iff_rank.1 h
  simp [fle, ha, hb, hab]

/-- An offset of 0.0 is inside the window, so it is no wrap (R285). -/
theorem no_wrap_at_fzero (s : State) (c : Fin 4) :
    fle (accHigh (baseDelay s c)) fzero = false ∧ flt fzero (accLow (baseDelay s c)) = false :=
  ⟨fle_eq_false_of_flt (fzero_lt_accHigh s c), flt_eq_false_of_fle (accLow_le_fzero s c)⟩

/-- No offset and no wobble leave the position at the base delay, bit for bit. -/
theorem baseDelay_fsub_fadd_fzero (s : State) (c : Fin 4) : fadd (fsub (baseDelay s c) fzero) fzero = baseDelay s c := by
  obtain ⟨hfin, -, -⟩ := baseDelay_units s c
  have hpos := fone_units_le_baseDelay s c
  have hne : unitsOf (baseDelay s c) ≠ 0 := by omega
  rw [fsub_exact hfin (b := fzero) rfl hfin hne (by rw [unitsOf_fzero, sub_zero]), fadd_zero_right hfin rfl hne unitsOf_fzero]

/-- At rate 1.0, in the first slice, without wobble a channel at rest stays at rest: its head goes to the base delay. -/
theorem headChannel_rest {m : FxMode} {s : State} {c : Fin 4} (hrate : playRate m s = fone) (hslice : sliceIndex s = 0)
    (hwobble : wobbleOf m s c = fzero) (hacc : (entered m s c).acc = fzero) (hlast : (entered m s c).lastSlice = 0) :
    headChannel m s c = seamed (baseDelay s c) (baseDelay s c) (entered m s c) := by
  obtain ⟨hhigh, hlow⟩ := no_wrap_at_fzero s c
  unfold accHigh Config.accHi at hhigh
  unfold accLow Config.accLo at hlow
  have hstill : fadd fzero (fsub fone fone) = fzero := by decide
  unfold headChannel
  simp only [hrate, hslice, hwobble, hacc, hlast, hstill, hhigh, hlow, if_true, Bool.false_eq_true, if_false, Bool.or_false, ite_self,
    ne_eq, not_true_eq_false, decide_false, baseDelay_fsub_fadd_fzero, readable_baseDelay, armedIf_false]
  rw [← hacc, ← hlast]

/-- A head that stands where it was, or not too far from it, arms no fade (R216). -/
theorem seamed_of_not_jumps {base pos : F32} {ch : FxChannel} (h : jumps base pos ch = false) :
    seamed base pos ch = { ch with lastPos := pos, posValid := true } := by
  unfold seamed
  rw [h, armedIf_false]

/-- Settles O37: a channel at rest puts its head at the base delay, and without grains its answer is the head, the pool idle. -/
theorem granularNeutral : Obligations.GranularNeutral := by
  intro m c s hm ch base hcur off hmeta1 hmeta2 hwobble hidle hacc hlast hstays
  have hentered : entered m s c = ch := entered_of_eq hcur c
  have hrate : playRate m s = fone := playRate_middle (by rcases hm with rfl | rfl | rfl <;> decide) hmeta1
  have hcode : 6 ≤ m.code ∧ m.code ≤ 10 := by rcases hm with rfl | rfl | rfl <;> decide
  have hhead : headOf m s c = { ch with lastPos := base, posValid := true } := by
    have hne : m ≠ .crystals := by rcases hm with rfl | rfl | rfl <;> decide
    rw [headOf, if_neg hne, headChannel_rest hrate (sliceIndex_of_zero hmeta2) (wobbleOf_off hwobble c) (by rw [hentered]; exact hacc)
      (by rw [hentered]; exact hlast), hentered, seamed_of_not_jumps hstays]
  have hanswer := answer_head_idle hcode hidle c
  rw [hhead] at hanswer
  obtain ⟨hchan, -⟩ := channelOut_of_answer off hanswer
  refine ⟨_, exec_fxProcInstr m s, ?_⟩
  rw [hchan, fxProc_ph, hanswer]
  exact ⟨rfl, hacc, fun g => by rw [grainIdle, Per4.get_map], rfl, rfl, rfl⟩

end Sys2Proof.Machine
end

section
/-! A particle at rest in the fluid mode (O44). With the field and the turbulence off the target velocity is a sum of products with a zero
(R321 steps 1 to 3). A zero times a finite value is a zero, a zero times an infinity is not, so the proof needs every other factor finite:
`AtMost` bounds a magnitude by a power of two and carries the bound through the primitives. -/

namespace Sys2Proof.Machine

/-! ### Magnitudes below a power of two -/

section Magnitude

variable {a b x : F32} {i j k : Nat}

/-- `x` is finite, of magnitude at most 2^k. -/
def AtMost (k : Nat) (x : F32) : Prop := isFinite x = true ∧ |unitsOf x| ≤ 2 ^ (149 + k)

/-- The binary32 2^k, for k up to 127. -/
def powTwo (k : Nat) : F32 := ofMagBits false ((126 + k) * 2 ^ 23 + 2 ^ 23)

theorem ofMagBits_of_lt (neg : Bool) {m : Nat} (h : m < 0x7F800000) : ofMagBits neg m = .fin neg ⟨m, h⟩ := dif_pos h

theorem powTwo_units (h : k ≤ 127) : isFinite (powTwo k) = true ∧ unitsOf (powTwo k) = 2 ^ (149 + k) := by
  have hbits : (126 + k) * 2 ^ 23 + 2 ^ 23 < 0x7F800000 := by omega
  have hfin : powTwo k = .fin false ⟨(126 + k) * 2 ^ 23 + 2 ^ 23, hbits⟩ := ofMagBits_of_lt false hbits
  have hmag : magUnits ((126 + k) * 2 ^ 23 + 2 ^ 23) = 2 ^ (149 + k) := by
    rw [magUnits_join (by norm_num) (.inr le_rfl), ← pow_add, show 23 + (126 + k) = 149 + k by omega]
  rw [hfin]
  refine ⟨rfl, ?_⟩
  rw [unitsOf_fin, if_neg (by decide), hmag]
  push_cast
  rfl

/-- A rounded result is as small as the powers of two its exact value lies between. -/
theorem AtMost.of_between (hk : k ≤ 127) (hlo : fle (fneg (powTwo k)) x = true) (hhi : fle x (powTwo k) = true) : AtMost k x := by
  obtain ⟨hfin, hunits⟩ := powTwo_units hk
  obtain ⟨hx, h1, h2⟩ := units_of_between ((isFinite_fneg _).trans hfin) hfin hlo hhi
  rw [unitsOf_fneg, hunits] at h1
  rw [hunits] at h2
  exact ⟨hx, abs_le.2 ⟨h1, h2⟩⟩

/-- From 0 up the upper bound suffices. -/
theorem AtMost.of_nonneg (hx : isFinite x = true) (h0 : 0 ≤ unitsOf x) (h : unitsOf x ≤ 2 ^ (149 + k)) : AtMost k x :=
  ⟨hx, by rwa [abs_of_nonneg h0]⟩

theorem AtMost.of_inUnit (h : inUnit x = true) : AtMost 0 x := by
  obtain ⟨hfin, h0, h1⟩ := inUnit_iff.1 h
  exact .of_nonneg hfin h0 h1.le

/-- Two powers of two sum to at most any greater one. -/
theorem pow_add_pow_le (h : max i j < k) : (2 : Int) ^ (149 + i) + 2 ^ (149 + j) ≤ 2 ^ (149 + k) := by
  have hi : (2 : Int) ^ (149 + i) ≤ 2 ^ (148 + k) := pow_le_pow_right₀ (by norm_num) (by omega)
  have hj : (2 : Int) ^ (149 + j) ≤ 2 ^ (148 + k) := pow_le_pow_right₀ (by norm_num) (by omega)
  have htop : (2 : Int) ^ (149 + k) = 2 ^ (148 + k) * 2 := by rw [← pow_succ, show 148 + k + 1 = 149 + k by omega]
  omega

theorem AtMost.sumOr (q : F32) (ha : AtMost i a) (hb : AtMost j b) (h : max i j < k ∧ k ≤ 127) : AtMost k (sumOr q a b) := by
  obtain ⟨h, hk⟩ := h
  obtain ⟨hafin, ha⟩ := ha
  obtain ⟨hbfin, hb⟩ := hb
  obtain ⟨hfin, hunits⟩ := powTwo_units hk
  have htop := pow_add_pow_le h
  rw [abs_le] at ha hb
  refine .of_between hk (le_sumOr q hafin hbfin ((isFinite_fneg _).trans hfin) ?_) (sumOr_le q hafin hbfin hfin ?_)
  · rw [unitsOf_fneg, hunits]
    omega
  · rw [hunits]
    omega

theorem AtMost.fneg (ha : AtMost k a) : AtMost k (fneg a) := by
  obtain ⟨hfin, ha⟩ := ha
  exact ⟨(isFinite_fneg a).trans hfin, by rwa [unitsOf_fneg, abs_neg]⟩

theorem AtMost.fadd (ha : AtMost i a) (hb : AtMost j b) (h : max i j < k ∧ k ≤ 127) : AtMost k (fadd a b) :=
  ha.sumOr _ hb h

theorem AtMost.fsub (ha : AtMost i a) (hb : AtMost j b) (h : max i j < k ∧ k ≤ 127) : AtMost k (fsub a b) :=
  ha.sumOr _ hb.fneg h

theorem AtMost.fmul (ha : AtMost i a) (hb : AtMost j b) (h : i + j ≤ k ∧ k ≤ 127) : AtMost k (fmul a b) := by
  obtain ⟨h, hk⟩ := h
  obtain ⟨hafin, ha⟩ := ha
  obtain ⟨hbfin, hb⟩ := hb
  obtain ⟨hfin, hunits⟩ := powTwo_units hk
  have hprod : |unitsOf a * unitsOf b| ≤ 2 ^ (149 + k) * 2 ^ 149 := by
    calc |unitsOf a * unitsOf b| = |unitsOf a| * |unitsOf b| := abs_mul ..
      _ ≤ 2 ^ (149 + i) * 2 ^ (149 + j) := mul_le_mul ha hb (abs_nonneg _) (by positivity)
      _ = 2 ^ (298 + (i + j)) := by rw [← pow_add, show 149 + i + (149 + j) = 298 + (i + j) by omega]
      _ ≤ 2 ^ (298 + k) := pow_le_pow_right₀ (by norm_num) (by omega)
      _ = 2 ^ (149 + k) * 2 ^ 149 := by rw [← pow_add, show 149 + k + 149 = 298 + k by omega]
  obtain ⟨hlo, hhi⟩ := abs_le.1 hprod
  refine .of_between hk (le_fmul hafin hbfin ((isFinite_fneg _).trans hfin) ?_) (fmul_le hafin hbfin hfin ?_)
  · rwa [unitsOf_fneg, hunits, neg_mul]
  · rwa [hunits]

/-- A quotient of a value from 0 up by at least 1.0 is no greater. -/
theorem AtMost.fdiv (ha : AtMost k a) (h0 : 0 ≤ unitsOf a) (hb : fle fone b = true) : AtMost k (fdiv a b) := by
  obtain ⟨hafin, ha⟩ := ha
  obtain ⟨hfin, hlo, hhi⟩ := (within_iff rfl hafin).1 (within_fdiv hafin h0 hb)
  rw [unitsOf_fzero] at hlo
  rw [abs_of_nonneg h0] at ha
  exact .of_nonneg hfin hlo (hhi.trans ha)

end Magnitude

/-! ### Zeros under the primitives (R9) -/

section Zeros

variable {a b x : F32}

theorem isZero_iff : isZero x = true ↔ isFinite x = true ∧ unitsOf x = 0 := by
  have hwithin : isZero x = within fzero fzero x := Bool.and_comm ..
  rw [hwithin, within_iff rfl rfl, unitsOf_fzero]
  exact and_congr_right fun _ => ⟨fun ⟨h1, h2⟩ => le_antisymm h2 h1, fun h => ⟨h.ge, h.le⟩⟩

theorem isZero_fadd (ha : isZero a = true) (hb : isZero b = true) : isZero (fadd a b) = true := by
  obtain ⟨hafin, ha⟩ := isZero_iff.1 ha
  obtain ⟨hbfin, hb⟩ := isZero_iff.1 hb
  have hsum : unitsOf a + unitsOf b = 0 := by omega
  exact Bool.and_eq_true_iff.2 ⟨fadd_le hafin hbfin rfl hsum.le, le_fadd hafin hbfin rfl hsum.ge⟩

theorem isZero_fsub (ha : isZero a = true) (hb : isZero b = true) : isZero (fsub a b) = true := by
  obtain ⟨hafin, ha⟩ := isZero_iff.1 ha
  obtain ⟨hbfin, hb⟩ := isZero_iff.1 hb
  have hdiff : unitsOf a - unitsOf b = 0 := by omega
  exact Bool.and_eq_true_iff.2 ⟨fsub_le hafin hbfin rfl hdiff.le, le_fsub hafin hbfin rfl hdiff.ge⟩

theorem isZero_fmul (ha : isFinite a = true) (hb : isFinite b = true) (h : isZero a = true ∨ isZero b = true) :
    isZero (fmul a b) = true := by
  have hprod : unitsOf a * unitsOf b = 0 := by
    rcases h with h | h <;> obtain ⟨-, h⟩ := isZero_iff.1 h <;> rw [h]
    · exact zero_mul _
    · exact mul_zero _
  exact Bool.and_eq_true_iff.2 ⟨fmul_le ha hb rfl hprod.le, le_fmul ha hb rfl hprod.ge⟩

/-- A zero divided by a positive value, +infinity included. -/
theorem isZero_fdiv (ha : isZero a = true) (hb : flt fzero b = true) : isZero (fdiv a b) = true := by
  obtain ⟨hafin, ha⟩ := isZero_iff.1 ha
  cases hfin : isFinite b with
  | true =>
    have hpos : 0 < unitsOf b := (flt_iff rfl hfin).1 hb
    exact Bool.and_eq_true_iff.2 ⟨fdiv_le hafin hfin hpos rfl (by rw [ha, unitsOf_fzero, zero_mul, zero_mul]),
      le_fdiv hafin hfin hpos rfl (by rw [ha, unitsOf_fzero, zero_mul, zero_mul])⟩
  | false =>
    obtain ⟨n, m, rfl⟩ := isFinite_cases hafin
    cases b with
    | fin k l => cases hfin
    | nan k p => cases hb
    | inf k => cases n <;> cases k <;> rfl

theorem fle_fmax2_right (hb : isNan b = false) : fle b (fmax2 a b) = true := by
  unfold fmax2
  rw [if_neg (Bool.eq_false_iff.1 hb)]
  split
  · exact fle_refl hb
  · split
    · next hgt =>
      obtain ⟨p, q, hp, hq, hpq⟩ := flt_iff_rank.1 hgt
      exact fle_iff_rank.2 ⟨p, q, hp, hq, hpq.le⟩
    · exact fle_refl hb

end Zeros

/-! ### The particle's move without field and turbulence (R321 steps 1 to 3) -/

/-- The capped square of a distance is positive, whatever the distance. -/
theorem flt_fzero_fluidR2 (dx dy : F32) : flt fzero (fluidR2 dx dy) = true :=
  flt_of_flt_of_fle (y := Config.flR2min) rfl (fle_fmax2_right rfl)

/-- Without gain the field is a zero. -/
theorem isZero_field {gam px py : F32} {cx cy : Per2 F32} (hgam : isZero gam = true) (hpx : AtMost 0 px) (hpy : AtMost 0 py)
    (hcx : ∀ k, AtMost 1 (cx.get k)) (hcy : ∀ k, AtMost 1 (cy.get k)) :
    isZero (fieldX gam px py cx cy) = true ∧ isZero (fieldY gam px py cx cy) = true := by
  obtain ⟨hfin, -⟩ := isZero_iff.1 hgam
  have hzero : AtMost 0 fzero := ⟨rfl, by decide⟩
  have hpullX (k : Fin 2) : isZero (fdiv (fmul gam (fsub fzero (fsub py (cy.get k)))) (fluidR2 (fsub px (cx.get k)) (fsub py (cy.get k)))) =
      true := by
    have hdy : AtMost 3 (fsub fzero (fsub py (cy.get k))) := hzero.fsub (hpy.fsub (hcy k) (k := 2) (by decide)) (by decide)
    exact isZero_fdiv (isZero_fmul hfin hdy.1 (.inl hgam)) (flt_fzero_fluidR2 ..)
  have hpullY (k : Fin 2) : isZero (fdiv (fmul gam (fsub px (cx.get k))) (fluidR2 (fsub px (cx.get k)) (fsub py (cy.get k)))) = true := by
    have hdx : AtMost 2 (fsub px (cx.get k)) := hpx.fsub (hcx k) (by decide)
    exact isZero_fdiv (isZero_fmul hfin hdx.1 (.inl hgam)) (flt_fzero_fluidR2 ..)
  exact ⟨isZero_fadd (isZero_fadd rfl (hpullX 0)) (hpullX 1), isZero_fadd (isZero_fadd rfl (hpullY 0)) (hpullY 1)⟩

/-- A smoothed turbulence component stays small: it starts at most 1 and moves toward a draw (R321 step 2). -/
theorem atMost_turbStep {t : F32} (ht : AtMost 0 t) (w : Word) : AtMost 5 (turbStep t (rngValue w)) := by
  have htwo : AtMost 1 ftwo := ⟨rfl, by decide⟩
  have hone : AtMost 0 fone := ⟨rfl, by decide⟩
  have hturb : AtMost 0 Config.flTurb := ⟨rfl, by decide⟩
  have hdraw : AtMost 2 (fsub (fmul ftwo (rngValue w)) fone) :=
    (htwo.fmul (.of_inUnit (inUnit_rngValue w)) (k := 1) (by decide)).fsub hone (by decide)
  exact ht.fadd (hturb.fmul (hdraw.fsub ht (k := 3) (by decide)) (k := 3) (by decide)) (by decide)

/-- A resting velocity with a resting target stays at rest (R321 step 3). -/
theorem isZero_velStep {v u kr damp : F32} (hv : isZero v = true) (hu : isZero u = true) (hkr : isFinite kr = true)
    (hdamp : isFinite damp = true) : isZero (velStep v u kr damp) = true := by
  have hdiff := isZero_fsub hu hv
  have hsum := isZero_fadd hv (isZero_fmul hkr (isZero_iff.1 hdiff).1 (.inr hdiff))
  exact isZero_fmul (isZero_iff.1 hsum).1 hdamp (.inl hsum)

/-- A velocity of zero leaves a nonzero coordinate as it is, bit for bit (R321 step 3). -/
theorem wrap01_fadd_of_rest {x dt v : F32} (hx : isFinite x = true) (hx0 : unitsOf x ≠ 0) (hwrap : wrap01 x = x) (hdt : isFinite dt = true)
    (hv : isZero v = true) : wrap01 (fadd x (fmul dt v)) = x := by
  obtain ⟨hvfin, -⟩ := isZero_iff.1 hv
  obtain ⟨hfin, hzero⟩ := isZero_iff.1 (isZero_fmul hdt hvfin (.inr hv))
  rw [fadd_zero_right hx hfin hx0 hzero, hwrap]

/-- A coordinate that a resting particle keeps: in (0,1), unchanged by `wrap01`. -/
def Settled (x : F32) : Prop := inUnit x = true ∧ unitsOf x ≠ 0 ∧ wrap01 x = x

/-- A particle at rest: its velocity a zero, its turbulence within 1, its coordinates settled. -/
def AtRest (ch : FxChannel) : Prop :=
  isZero ch.vx = true ∧ isZero ch.vy = true ∧ AtMost 0 ch.tx ∧ AtMost 0 ch.ty ∧ Settled ch.px ∧ Settled ch.py

/-- A frame with the field and the turbulence off, its other operands in their ranges (R321, R322). -/
def StillFrame (fr : Frame) : Prop :=
  fr.m1 = fzero ∧ fr.p.e1 = fzero ∧ fle fone fr.sr = true ∧ within fzero fhundred fr.p.e0 = true ∧
  (∀ k, AtMost 1 (fr.cx.get k)) ∧ ∀ k, AtMost 1 (fr.cy.get k)

theorem isFinite_fluidDamp {p0 : F32} (h : within fzero fhundred p0 = true) : isFinite (fluidDamp p0) = true := by
  obtain ⟨hfin, h0, h1⟩ := (within_iff rfl rfl).1 h
  have hbound : unitsOf fhundred ≤ 2 ^ (149 + 7) := by decide
  rw [unitsOf_fzero] at h0
  have hp : AtMost 7 p0 := .of_nonneg hfin h0 (h1.trans hbound)
  have hone : AtMost 0 fone := ⟨rfl, by decide⟩
  have hmilli : AtMost 0 Config.flDamp := ⟨rfl, by decide⟩
  have hdamp : AtMost 8 (fluidDamp p0) := hone.fsub ((hp.fdiv h0 rfl).fmul hmilli (k := 7) (by decide)) (by decide)
  exact hdamp.1

theorem isFinite_fluidRelax {sr : F32} (h : fle fone sr = true) : isFinite (fluidRelax sr) = true := by
  obtain ⟨hpos, -⟩ := Bool.and_eq_true_iff.1 (within_fdiv (a := Config.flRelax) rfl (by decide) h)
  exact ((within_iff rfl rfl).1 (within_fmin2_fone hpos)).1

/-- A particle at rest stays at rest, where it is. -/
theorem fluidMove_of_rest {fr : Frame} {ch : FxChannel} (hfr : StillFrame fr) (hch : AtRest ch) (w1 w2 : Word) :
    (fluidMove fr w1 w2 ch).px = ch.px ∧ (fluidMove fr w1 w2 ch).py = ch.py ∧ isZero (fluidMove fr w1 w2 ch).vx = true ∧
      isZero (fluidMove fr w1 w2 ch).vy = true := by
  obtain ⟨hm1, hp1, hrate, hviscosity, hcx, hcy⟩ := hfr
  obtain ⟨hvx, hvy, htx, hty, ⟨hpx, hpx0, hwrapx⟩, ⟨hpy, hpy0, hwrapy⟩⟩ := hch
  have hgam : isZero (fmul Config.flGain fr.m1) = true := by rw [hm1]; decide
  have hturb : isZero (fdiv fr.p.e1 fhundred) = true := by rw [hp1]; decide
  obtain ⟨hturbFin, -⟩ := isZero_iff.1 hturb
  obtain ⟨hfieldX, hfieldY⟩ := isZero_field hgam (.of_inUnit hpx) (.of_inUnit hpy) hcx hcy
  have hkr := isFinite_fluidRelax hrate
  have hdamp := isFinite_fluidDamp hviscosity
  have hone : AtMost 0 fone := ⟨rfl, by decide⟩
  have hdt : AtMost 0 (fdiv fone fr.sr) := hone.fdiv (by decide) hrate
  have hux := isZero_fadd hfieldX (isZero_fmul hturbFin (atMost_turbStep htx w1).1 (.inl hturb))
  have huy := isZero_fadd hfieldY (isZero_fmul hturbFin (atMost_turbStep hty w2).1 (.inl hturb))
  have hvx' := isZero_velStep hvx hux hkr hdamp
  have hvy' := isZero_velStep hvy huy hkr hdamp
  exact ⟨wrap01_fadd_of_rest (inUnit_iff.1 hpx).1 hpx0 hwrapx hdt.1 hvx', wrap01_fadd_of_rest (inUnit_iff.1 hpy).1 hpy0 hwrapy hdt.1 hvy',
    hvx', hvy'⟩

/-! ### The first frame after `FX.INIT` (R211, R321, R322) -/

/-- Both centres' coordinates on an axis are at most 1, wherever the orbit stands (R322). -/
theorem atMost_centres {x : F32} (h : within fnegOne fone x = true) (k : Fin 2) :
    AtMost 1 ((⟨fadd fhalf (fmul fquarter x), fsub fhalf (fmul fquarter x)⟩ : Per2 F32).get k) := by
  obtain ⟨hfin, h1, h2⟩ := (within_iff rfl rfl).1 h
  have hlo : unitsOf fnegOne = -2 ^ 149 := by decide
  rw [hlo] at h1
  rw [unitsOf_fone] at h2
  have hx : AtMost 0 x := ⟨hfin, abs_le.2 ⟨h1, h2⟩⟩
  have hhalf : AtMost 0 fhalf := ⟨rfl, by decide⟩
  have hquarter : AtMost 0 fquarter := ⟨rfl, by decide⟩
  have hprod : AtMost 0 (fmul fquarter x) := hquarter.fmul hx (by decide)
  fin_cases k
  · exact hhalf.fadd hprod (by decide)
  · exact hhalf.fsub hprod (by decide)

theorem stillFrame_fluid {s : State} (hsr : fle fone s.fx.sr = true) (hmeta : s.fxIn.meta1 = fzero) (hturb : s.fxIn.p.e1 = fzero) :
    StillFrame (frameOf .fluid s) := by
  have hm1 : (frameOf .fluid s).m1 = clamp01 s.fxIn.meta1 := rfl
  have hp1 : (frameOf .fluid s).p.e1 = clampSpec .fluid 1 s.fxIn.p.e1 := rfl
  have hrate : (frameOf .fluid s).sr = s.fx.sr := frameFx_sr .fluid s
  have hcx : (frameOf .fluid s).cx = _ := congrArg Fx.cx (frameFx_fluid s)
  have hcy : (frameOf .fluid s).cy = _ := congrArg Fx.cy (frameFx_fluid s)
  refine ⟨?_, ?_, ?_, param_within .fluid 0 s rfl rfl, ?_, ?_⟩
  · rw [hm1, hmeta]
    decide
  · rw [hp1, hturb]
    decide
  · rwa [hrate]
  · rw [hcx]
    exact atMost_centres (cfgCos2pi_within _)
  · rw [hcy]
    exact atMost_centres (cfgSin2pi_within _)

/-- Every particle of a reset engine is at rest, at a quarter or three quarters of each axis (R39). -/
theorem atRest_resetWith (r : F32) (c : Fin 4) : AtRest ((Fx.resetWith r).chan.get c) := by
  have hzero : AtMost 0 fzero := ⟨rfl, by decide⟩
  have hleft : Settled (F32.ofBits 0x3E800000#32) := ⟨rfl, by decide, by decide⟩
  have hright : Settled (F32.ofBits 0x3F400000#32) := ⟨rfl, by decide, by decide⟩
  fin_cases c
  · exact ⟨rfl, rfl, hzero, hzero, hleft, hleft⟩
  · exact ⟨rfl, rfl, hzero, hzero, hright, hleft⟩
  · exact ⟨rfl, rfl, hzero, hzero, hleft, hright⟩
  · exact ⟨rfl, rfl, hzero, hzero, hright, hright⟩

/-- At a quarter and at three quarters the triangle is at its middle (R321 step 4). -/
theorem fluidTriangle_resetWith (r : F32) (c : Fin 4) :
    fsub (fsub fone (fabs (fsub (fmul ftwo ((Fx.resetWith r).chan.get c).px) fone))) fhalf = fzero := by
  have hpx : ((Fx.resetWith r).chan.get c).px = F32.ofBits 0x3E800000#32 ∨ ((Fx.resetWith r).chan.get c).px = F32.ofBits 0x3F400000#32 := by
    fin_cases c
    · exact .inl rfl
    · exact .inr rfl
    · exact .inl rfl
    · exact .inr rfl
  rcases hpx with h | h <;> rw [h] <;> decide

/-- Where the triangle is at its middle, the read is at the base delay (R321 step 4). -/
theorem readable_fluidOffset {s : State} {px : F32} (h : fsub (fsub fone (fabs (fsub (fmul ftwo px) fone))) fhalf = fzero) (c : Fin 4) :
    readable s (fadd (baseDelay s c) (fluidOffset (param .fluid s 2) (baseDelay s c) px)) = baseDelay s c := by
  have htwenty : unitsOf (F32.ofBits 0x41A00000#32) ≤ 2 ^ (149 + 5) := by decide
  obtain ⟨hp, hp0, hp1⟩ := (within_iff (l := fzero) (h := F32.ofBits 0x41A00000#32) rfl rfl).1 (param_within .fluid 2 s rfl rfl)
  rw [unitsOf_fzero] at hp0
  obtain ⟨hbase, hbase0, hbase1⟩ := baseDelay_units s c
  have hone := fone_units_le_baseDelay s c
  have hscale : AtMost 5 (fdiv (param .fluid s 2) fhundred) := .fdiv (.of_nonneg hp hp0 (hp1.trans htwenty)) hp0 rfl
  have hdelay : AtMost 24 (baseDelay s c) := .of_nonneg hbase hbase0 hbase1
  have hspan : AtMost 29 (fmul (fdiv (param .fluid s 2) fhundred) (baseDelay s c)) := hscale.fmul hdelay (by decide)
  obtain ⟨hoff, hoff0⟩ := fmul_fzero hspan.1
  rw [fluidOffset, h, fadd_zero_right hbase hoff (by omega) hoff0, readable_baseDelay]

/-- What the fluid kernel answers: the particle's move by the channel's two draws, and the read at the offset delay. -/
theorem answer_fluid (s : State) (c : Fin 4) :
    let w1 := rngNext (rngBefore .fluid s c.val)
    let ch := fluidMove (frameOf .fluid s) w1 (rngNext w1) (entered .fluid s c)
    (answer .fluid s c).voice.ch = ch ∧
      (answer .fluid s c).raw = readHerm s c (readable s (fadd (baseDelay s c) (fluidOffset (param .fluid s 2) (baseDelay s c) ch.px))) := by
  refine ⟨rfl, ?_⟩
  rw [← frameOf_base .fluid s c]
  rfl

/-- The stages behind the kernel leave the particle alone. -/
theorem fxProc_particle (m : FxMode) (s : State) (c : Fin 4) :
    let t := (fxProc m s).fx.chan.get c
    let ch := (answer m s c).voice.ch
    t.px = ch.px ∧ t.py = ch.py ∧ t.vx = ch.vx ∧ t.vy = ch.vy := by
  rw [fxProc_chan, finished_ch]
  exact ⟨rfl, rfl, rfl, rfl⟩

/-- Settles O44: the particle of a reset engine is at rest, the frame is still, so the particle stays and its offset is a zero. -/
theorem fluidAtRest : Obligations.FluidAtRest := by
  intro r c s hfin hone hreset hmeta hturb
  have hsr : s.fx.sr = r := congrArg Fx.sr hreset
  have hstill : StillFrame (frameOf .fluid s) := stillFrame_fluid (by rw [hsr]; exact hone) hmeta hturb
  have hrest : AtRest (entered .fluid s c) := by
    rw [entered_eq, hreset]
    exact atRest_resetWith r c
  have hentered : (entered .fluid s c).px = (s.fx.chan.get c).px ∧ (entered .fluid s c).py = (s.fx.chan.get c).py := by
    rw [entered_eq]
    exact ⟨rfl, rfl⟩
  obtain ⟨hch, hraw⟩ := answer_fluid s c
  obtain ⟨hpx, hpy, hvx, hvy⟩ := fluidMove_of_rest hstill hrest (rngNext (rngBefore .fluid s c.val))
    (rngNext (rngNext (rngBefore .fluid s c.val)))
  rw [hpx, hentered.1, readable_fluidOffset (by rw [hreset]; exact fluidTriangle_resetWith r c)] at hraw
  obtain ⟨epx, epy, evx, evy⟩ := fxProc_particle .fluid s c
  rw [hch] at epx epy evx evy
  refine ⟨_, exec_fxProcInstr .fluid s, epx.trans (hpx.trans hentered.1), epy.trans (hpy.trans hentered.2), evx ▸ hvx, evy ▸ hvy, ?_, ?_,
    fun off => ?_, fxProc_frame_of_still rfl s⟩
  · rw [fxProc_rng, rngBefore_fluid]
  · rw [fxProc_fx, frameFx_fluid, hreset]
    rfl
  · rw [fxProc_wet off, hraw, hch]
    rfl

end Sys2Proof.Machine
end

section
/-! The waveshapers (R340 to R348). Each is `waveshape` of a transfer function; a bound on the magnitude of the transfer function's result
gives both R348 (b) and (c), since only a finite value has a finite bound. The bounds of fold, diode, quantizer and modulo follow from the
last product or quotient alone; that of the rational tanh needs the rounding errors of all its operations. -/

namespace Sys2Proof.Machine

/-! ### Bounds on a magnitude -/

section Magnitude

variable {a b h x y : F32}

theorem fle_of_flt (hlt : flt x y = true) : fle x y = true := by
  obtain ⟨p, q, hp, hq, hpq⟩ := flt_iff_rank.1 hlt
  exact fle_iff_rank.2 ⟨p, q, hp, hq, hpq.le⟩

/-- A magnitude within a finite bound is that of a finite value. -/
theorem fle_fabs_iff (hh : isFinite h = true) : fle (fabs x) h = true ↔ isFinite x = true ∧ |unitsOf x| ≤ unitsOf h := by
  rw [← unitsOf_fabs]
  refine ⟨fun hle => ?_, fun ⟨hx, hle⟩ => (fle_iff ((isFinite_fabs x).trans hx) hh).2 hle⟩
  have hlow : fle fzero (fabs x) = true := by
    cases x with
    | fin n m => exact fle_iff_rank.2 ⟨0, m.val, rfl, rfl, Int.natCast_nonneg _⟩
    | inf n => rfl
    | nan n p => cases hle
  obtain ⟨hx, -, hunits⟩ := units_of_between rfl hh hlow hle
  exact ⟨(isFinite_fabs x).symm.trans hx, hunits⟩

theorem fle_fabs_of_between (hh : isFinite h = true) (hlo : fle (fneg h) x = true) (hhi : fle x h = true) : fle (fabs x) h = true := by
  obtain ⟨hx, h1, h2⟩ := units_of_between ((isFinite_fneg h).trans hh) hh hlo hhi
  rw [unitsOf_fneg] at h1
  exact (fle_fabs_iff hh).2 ⟨hx, abs_le.2 ⟨h1, h2⟩⟩

/-- An interval that is symmetric around 0 bounds the magnitude. -/
theorem fle_fabs_of_within {l : F32} (hl : fneg h = l) (hh : isFinite h = true) (hx : within l h x = true) : fle (fabs x) h = true := by
  obtain ⟨hlo, hhi⟩ := Bool.and_eq_true_iff.1 hx
  exact fle_fabs_of_between hh (hl ▸ hlo) hhi

theorem fle_fabs_fsub (ha : isFinite a = true) (hb : isFinite b = true) (hh : isFinite h = true)
    (hle : |unitsOf a - unitsOf b| ≤ unitsOf h) : fle (fabs (fsub a b)) h = true := by
  obtain ⟨h1, h2⟩ := abs_le.1 hle
  exact fle_fabs_of_between hh (le_fsub ha hb ((isFinite_fneg h).trans hh) (by rwa [unitsOf_fneg])) (fsub_le ha hb hh h2)

theorem fle_fabs_fmul (ha : isFinite a = true) (hb : isFinite b = true) (hh : isFinite h = true)
    (hle : |unitsOf a * unitsOf b| ≤ unitsOf h * 2 ^ 149) : fle (fabs (fmul a b)) h = true := by
  obtain ⟨h1, h2⟩ := abs_le.1 hle
  exact fle_fabs_of_between hh (le_fmul ha hb ((isFinite_fneg h).trans hh) (by rwa [unitsOf_fneg, neg_mul])) (fmul_le ha hb hh h2)

theorem fle_fabs_fdiv (ha : isFinite a = true) (hb : isFinite b = true) (h0 : 0 < unitsOf b) (hh : isFinite h = true)
    (hle : |unitsOf a| * 2 ^ 149 ≤ unitsOf h * unitsOf b) : fle (fabs (fdiv a b)) h = true := by
  rw [← abs_of_pos (show (0 : Int) < 2 ^ 149 by norm_num), ← abs_mul] at hle
  obtain ⟨h1, h2⟩ := abs_le.1 hle
  exact fle_fabs_of_between hh (le_fdiv ha hb h0 ((isFinite_fneg h).trans hh) (by rwa [unitsOf_fneg, neg_mul])) (fdiv_le ha hb h0 hh h2)

/-- A factor of magnitude at most 1 does not increase a magnitude. -/
theorem fle_fabs_fmul_of_unit (hx : isFinite x = true) (hy : fle (fabs y) fone = true) : fle (fabs (fmul x y)) (fabs x) = true := by
  obtain ⟨hyfin, hy⟩ := (fle_fabs_iff rfl).1 hy
  rw [unitsOf_fone] at hy
  refine fle_fabs_fmul hx hyfin ((isFinite_fabs x).trans hx) ?_
  rw [abs_mul, unitsOf_fabs]
  exact mul_le_mul_of_nonneg_left hy (abs_nonneg _)

end Magnitude

/-! ### The clamped parameter -/

/-- The threshold of fold and modulo (R341, R344). -/
def wsThreshold (p : F32) : F32 := clamp p Config.wsMin Config.wsMax

theorem within_wsThreshold (p : F32) : within Config.wsMin Config.wsMax (wsThreshold p) = true := within_clamp p rfl

theorem isFinite_wsThreshold (p : F32) : isFinite (wsThreshold p) = true := isFinite_of_within rfl rfl (within_wsThreshold p)

theorem unitsOf_wsThreshold_nonneg (p : F32) : 0 ≤ unitsOf (wsThreshold p) := by
  obtain ⟨-, hlow, -⟩ := (within_iff rfl rfl).1 (within_wsThreshold p)
  have hmin : 0 ≤ unitsOf Config.wsMin := by decide
  exact hmin.trans hlow

theorem fabs_wsThreshold (p : F32) : unitsOf (fabs (wsThreshold p)) = unitsOf (wsThreshold p) := by
  rw [unitsOf_fabs, abs_of_nonneg (unitsOf_wsThreshold_nonneg p)]

/-- A normal value doubles by a step of its exponent. -/
theorem magUnits_double {m : Nat} (h : 2 ^ 23 ≤ m) : magUnits (m + 2 ^ 23) = 2 * magUnits m := by
  obtain ⟨k, hk⟩ : ∃ k, m / 2 ^ 23 - 1 = k := ⟨_, rfl⟩
  rw [magUnits_large (by omega), magUnits_large (by omega), hk, Nat.add_mod_right,
    show (m + 2 ^ 23) / 2 ^ 23 - 1 = k + 1 by omega, pow_succ]
  ring

/-- The period of the modulo is twice the threshold, exactly. -/
theorem exists_double_wsThreshold (p : F32) : ∃ y, isFinite y = true ∧ unitsOf y = 2 * unitsOf (wsThreshold p) := by
  have hthr := within_wsThreshold p
  obtain ⟨n, m, hm⟩ := isFinite_cases (isFinite_wsThreshold p)
  rw [hm] at hthr ⊢
  obtain ⟨hlow, hhigh⟩ := Bool.and_eq_true_iff.1 hthr
  have hlow : (0x3A83126F : Int) ≤ signed n m.val := of_decide_eq_true hlow
  have hhigh : signed n m.val ≤ (0x447A0000 : Int) := of_decide_eq_true hhigh
  cases n with
  | true => simp only [signed, if_true] at hlow; omega
  | false =>
    simp only [signed, Bool.false_eq_true, if_false] at hlow hhigh
    refine ⟨.fin false ⟨m.val + 2 ^ 23, by omega⟩, rfl, ?_⟩
    simp only [unitsOf_fin, Bool.false_eq_true, if_false, magUnits_double (show 2 ^ 23 ≤ m.val by omega)]
    push_cast
    rfl

theorem fmul_ftwo_wsThreshold (p : F32) :
    isFinite (fmul ftwo (wsThreshold p)) = true ∧ |unitsOf (fmul ftwo (wsThreshold p))| ≤ 2 * unitsOf (wsThreshold p) := by
  obtain ⟨y, hy, hunits⟩ := exists_double_wsThreshold p
  have htwo : unitsOf ftwo = 2 ^ 150 := by decide
  rw [← hunits]
  refine (fle_fabs_iff hy).1 (fle_fabs_fmul rfl (isFinite_wsThreshold p) hy ?_)
  rw [htwo, hunits, abs_of_nonneg (mul_nonneg (by norm_num) (unitsOf_wsThreshold_nonneg p))]
  omega

/-! ### Fold and modulo (R341, R344) -/

/-- A wrapped value less 0.5 is in [-0.5, 0.5]. -/
theorem fle_fabs_wrap01_fsub_fhalf (x : F32) : fle (fabs (fsub (wrap01 x) fhalf)) fhalf = true := by
  obtain ⟨hfin, h0, h1⟩ := inUnit_iff.1 (inUnit_wrap01 x)
  have hhalf : unitsOf fhalf = 2 ^ 148 := by decide
  refine fle_fabs_fsub hfin rfl rfl (abs_le.2 ⟨?_, ?_⟩) <;> rw [hhalf] <;> omega

/-- The triangle stretched to [-1, 1]. -/
theorem fle_fabs_triangle (x : F32) : fle (fabs (fsub (fmul ftwo (tri01 x)) fone)) fone = true := by
  obtain ⟨hfin, hhalf⟩ := (fle_fabs_iff rfl).1 (fle_fabs_wrap01_fsub_fhalf (fadd x fquarter))
  have hhalfUnits : unitsOf fhalf = 2 ^ 148 := by decide
  have htwoUnits : unitsOf ftwo = 2 ^ 150 := by decide
  have htri : within fzero fone (tri01 x) = true := by
    have habsfin := (isFinite_fabs (fsub (wrap01 (fadd x fquarter)) fhalf)).trans hfin
    refine Bool.and_eq_true_iff.2 ⟨le_fmul rfl habsfin rfl ?_, fmul_le rfl habsfin rfl ?_⟩ <;> rw [unitsOf_fabs, htwoUnits]
    · rw [unitsOf_fzero, zero_mul]
      positivity
    · rw [unitsOf_fone]
      omega
  obtain ⟨htrifin, htri0, htri1⟩ := (within_iff rfl rfl).1 htri
  rw [unitsOf_fzero] at htri0
  rw [unitsOf_fone] at htri1
  have hdouble : within fzero ftwo (fmul ftwo (tri01 x)) = true := by
    refine Bool.and_eq_true_iff.2 ⟨le_fmul rfl htrifin rfl ?_, fmul_le rfl htrifin rfl ?_⟩
    · rw [unitsOf_fzero, zero_mul, htwoUnits]
      positivity
    · rw [htwoUnits]
      omega
  obtain ⟨hdoublefin, hdouble0, hdouble2⟩ := (within_iff rfl rfl).1 hdouble
  rw [unitsOf_fzero] at hdouble0
  rw [htwoUnits] at hdouble2
  refine fle_fabs_fsub hdoublefin rfl rfl (abs_le.2 ⟨?_, ?_⟩) <;> rw [unitsOf_fone] <;> omega

theorem wsFold_inside {x p : F32} (h : fle (fabs x) (wsThreshold p) = true) : wsFold x p = x := if_pos h

theorem wsMod_inside {x p : F32} (h : flt (fabs x) (wsThreshold p) = true) : wsMod x p = x := if_pos h

theorem fabs_wsFold_le (x p : F32) : fle (fabs (wsFold x p)) (wsThreshold p) = true := by
  unfold wsFold
  extract_lets t
  split
  · assumption
  · have hfin := isFinite_wsThreshold p
    have hle := fle_fabs_fmul_of_unit hfin (fle_fabs_triangle (fadd (fdiv x (fmul ffour t)) fhalf))
    rw [fle_fabs_iff ((isFinite_fabs _).trans hfin), fabs_wsThreshold] at hle
    exact (fle_fabs_iff hfin).2 hle

theorem fabs_wsMod_le (x p : F32) : fle (fabs (wsMod x p)) (wsThreshold p) = true := by
  unfold wsMod
  extract_lets m
  have hfin := isFinite_wsThreshold p
  split
  · exact fle_of_flt ‹_›
  · obtain ⟨hwrapfin, hwrap⟩ := (fle_fabs_iff rfl).1 (fle_fabs_wrap01_fsub_fhalf (fadd (fdiv x (fmul ftwo m)) fhalf))
    obtain ⟨hperiodfin, hperiod⟩ := fmul_ftwo_wsThreshold p
    have hhalf : unitsOf fhalf = 2 ^ 148 := by decide
    rw [hhalf] at hwrap
    refine fle_fabs_fmul hwrapfin hperiodfin hfin ?_
    calc _ = _ := abs_mul ..
      _ ≤ 2 ^ 148 * (2 * unitsOf (wsThreshold p)) := mul_le_mul hwrap hperiod (abs_nonneg _) (by positivity)
      _ = unitsOf (wsThreshold p) * 2 ^ 149 := by ring

/-! ### Diode and quantizer (R342, R343) -/

theorem wsDiode_nonneg {x : F32} (h : fle fzero x = true) (p : F32) : wsDiode x p = x := if_pos h

theorem fabs_wsDiode_le {x : F32} (hx : isFinite x = true) (p : F32) : fle (fabs (wsDiode x p)) (fabs x) = true := by
  unfold wsDiode
  split
  · exact fle_refl (by obtain ⟨n, m, rfl⟩ := isFinite_cases hx; rfl)
  · obtain ⟨hfin, h0, h1⟩ := (within_iff rfl rfl).1 (within_clamp p (lo := fzero) (hi := fone) rfl)
    rw [unitsOf_fzero] at h0
    rw [unitsOf_fone] at h1
    refine fle_fabs_fmul_of_unit hx (fle_fabs_fsub rfl hfin rfl (abs_le.2 ⟨?_, ?_⟩)) <;> rw [unitsOf_fone] <;> omega

/-- The conversion of R10 saturates at -2^31. -/
theorem le_f2i (x : F32) : -2 ^ 31 ≤ f2i x := by
  unfold f2i
  split
  · decide
  · split <;> decide
  · dsimp only
    split <;> omega

theorem abs_roundAway_le (v : F32) : |roundAway v| ≤ 2 ^ 31 := by
  unfold roundAway
  split
  · have hlow := le_f2i (fadd v fhalf)
    have hhigh := f2i_lt (fadd v fhalf)
    exact abs_le.2 ⟨hlow, hhigh.le⟩
  · have hlow := le_f2i (fsub fhalf v)
    have hhigh := f2i_lt (fsub fhalf v)
    exact abs_le.2 ⟨by omega, by omega⟩

/-- Every `I32` converts to a finite value. -/
theorem atMost_i2f {n : Int} (h : |n| ≤ 2 ^ 31) : AtMost 31 (i2f n) := by
  obtain ⟨hfin, hunits⟩ := powTwo_units (k := 31) (by decide)
  obtain ⟨hlo, hhi⟩ := abs_le.1 h
  have hexact : signed (decide (n < 0)) (n.natAbs * 2 ^ 149) = n * 2 ^ 149 := by
    rw [← signed_mul, signed_natAbs]
    norm_num
  refine .of_between (by decide) (le_roundUnits one_pos ((isFinite_fneg _).trans hfin) ?_) (roundUnits_le one_pos hfin ?_) <;> rw [hexact]
  · rw [unitsOf_fneg, hunits]
    push_cast
    omega
  · rw [hunits]
    push_cast
    omega

theorem isFinite_wsQuant (x p : F32) : isFinite (wsQuant x p) = true := by
  unfold wsQuant
  extract_lets l
  obtain ⟨hnfin, hn⟩ := atMost_i2f (abs_roundAway_le (fmul x l))
  obtain ⟨hlfin, hl, -⟩ := (within_iff rfl rfl).1 (within_clamp p (lo := fone) (hi := Config.wsStepsMax) rfl)
  obtain ⟨hfin, hunits⟩ := powTwo_units (k := 31) (by decide)
  rw [unitsOf_fone] at hl
  have hpos : (0 : Int) < unitsOf l := lt_of_lt_of_le (by norm_num) hl
  refine ((fle_fabs_iff hfin).1 (fle_fabs_fdiv hnfin hlfin hpos hfin ?_)).1
  rw [hunits]
  exact mul_le_mul hn hl (by positivity) (by positivity)

/-! ### The configured tanh (R345) -/

theorem fabs_wsTanh_le (x p : F32) : fle (fabs (wsTanh x p)) fone = true := fabs_le_fone (cfgTanh_within _)

/-! ### Exact values as rational numbers, and the errors of R9 in them -/

section RationalError

variable {a b : F32} {k : Nat}

/-- The exact value of a finite binary32, 0 for the others. -/
def valueOf (x : F32) : ℚ := unitsOf x / 2 ^ 149

theorem unitsOf_eq_valueOf (x : F32) : (unitsOf x : ℚ) = valueOf x * 2 ^ 149 := by
  unfold valueOf
  field_simp

theorem abs_unitsOf_le_iff {x : F32} {n : Int} : |unitsOf x| ≤ n * 2 ^ 149 ↔ |valueOf x| ≤ n := by
  have hpos : (0 : ℚ) < 2 ^ 149 := by norm_num
  rw [← @Int.cast_le ℚ, Int.cast_abs, unitsOf_eq_valueOf, abs_mul, abs_of_pos hpos]
  push_cast
  exact mul_le_mul_iff_left₀ hpos

/-- A bound on an integer is one on the rational number it is when scaled down. -/
theorem abs_mul_le_pow_iff {n c : Int} {r : ℚ} {j : Nat} (hn : (n : ℚ) = r * 2 ^ j) :
    |n| * c ≤ 2 ^ (j + k) ↔ |r| * c ≤ 2 ^ k := by
  have hpos : (0 : ℚ) < 2 ^ j := by positivity
  rw [← @Int.cast_le ℚ, Int.cast_mul, Int.cast_abs, hn, abs_mul, abs_of_pos hpos, Int.cast_pow, Int.cast_ofNat, pow_add, mul_right_comm,
    mul_comm (2 ^ j)]
  exact mul_le_mul_iff_left₀ hpos

/-- A sum of magnitude at most 2^k is off by at most 2^(k-24). -/
theorem valueOf_fadd (ha : isFinite a = true) (hb : isFinite b = true) (hk : k ≤ 127) (h : |valueOf a + valueOf b| ≤ 2 ^ k) :
    isFinite (fadd a b) = true ∧ |valueOf (fadd a b) - (valueOf a + valueOf b)| * 2 ^ 24 ≤ 2 ^ k := by
  obtain ⟨hpowfin, hpow⟩ := powTwo_units hk
  have hsum : |unitsOf a + unitsOf b| ≤ 2 ^ (149 + k) := by
    have hexact : ((unitsOf a + unitsOf b : Int) : ℚ) = (valueOf a + valueOf b) * 2 ^ 149 := by
      rw [Int.cast_add, unitsOf_eq_valueOf, unitsOf_eq_valueOf, add_mul]
    simpa using (abs_mul_le_pow_iff (c := 1) hexact).2 (by simpa using h)
  obtain ⟨hlo, hhi⟩ := abs_le.1 hsum
  have hfin : isFinite (fadd a b) = true :=
    (AtMost.of_between hk (le_fadd ha hb ((isFinite_fneg _).trans hpowfin) (by rwa [unitsOf_fneg, hpow]))
      (fadd_le ha hb hpowfin (by rwa [hpow]))).1
  have herror := (fadd_error ha hb hfin).trans (max_le hsum (pow_le_pow_right₀ (by norm_num) (by omega)))
  have hexact : ((unitsOf (fadd a b) - (unitsOf a + unitsOf b) : Int) : ℚ) =
      (valueOf (fadd a b) - (valueOf a + valueOf b)) * 2 ^ 149 := by
    push_cast
    rw [unitsOf_eq_valueOf, unitsOf_eq_valueOf, unitsOf_eq_valueOf]
    ring
  exact ⟨hfin, mod_cast (abs_mul_le_pow_iff hexact).1 herror⟩

/-- A product of magnitude at most 2^k is off by at most 2^(k-24). -/
theorem valueOf_fmul (ha : isFinite a = true) (hb : isFinite b = true) (hk : k ≤ 127) (h : |valueOf a * valueOf b| ≤ 2 ^ k) :
    isFinite (fmul a b) = true ∧ |valueOf (fmul a b) - valueOf a * valueOf b| * 2 ^ 24 ≤ 2 ^ k := by
  obtain ⟨hpowfin, hpow⟩ := powTwo_units hk
  have hprod : |unitsOf a * unitsOf b| ≤ 2 ^ (149 + 149 + k) := by
    have hexact : ((unitsOf a * unitsOf b : Int) : ℚ) = valueOf a * valueOf b * 2 ^ (149 + 149) := by
      rw [Int.cast_mul, unitsOf_eq_valueOf, unitsOf_eq_valueOf, pow_add]
      ring
    simpa using (abs_mul_le_pow_iff (c := 1) hexact).2 (by simpa using h)
  have hscale : (2 : Int) ^ (149 + 149 + k) = unitsOf (powTwo k) * 2 ^ 149 := by
    rw [hpow, ← pow_add, add_right_comm]
  have hfin : isFinite (fmul a b) = true := ((fle_fabs_iff hpowfin).1 (fle_fabs_fmul ha hb hpowfin (hprod.trans_eq hscale))).1
  have hsmall : (2 : Int) ^ 23 * 2 ^ 149 ≤ 2 ^ (149 + 149 + k) := by
    rw [← pow_add]
    exact pow_le_pow_right₀ (by norm_num) (by omega)
  have herror := (fmul_error ha hb hfin).trans (max_le hprod hsmall)
  have hexact : ((unitsOf (fmul a b) * 2 ^ 149 - unitsOf a * unitsOf b : Int) : ℚ) =
      (valueOf (fmul a b) - valueOf a * valueOf b) * 2 ^ (149 + 149) := by
    rw [pow_add, Int.cast_sub, Int.cast_mul, Int.cast_mul, Int.cast_pow, Int.cast_ofNat, unitsOf_eq_valueOf, unitsOf_eq_valueOf,
      unitsOf_eq_valueOf]
    ring
  exact ⟨hfin, mod_cast (abs_mul_le_pow_iff hexact).1 herror⟩

/-- An error bound as an interval. -/
theorem between_of_error {x y ε : ℚ} (h : |x - y| * 2 ^ 24 ≤ ε) : y - ε / 2 ^ 24 ≤ x ∧ x ≤ y + ε / 2 ^ 24 := by
  obtain ⟨h1, h2⟩ := abs_le.1 ((le_div_iff₀ (by norm_num)).2 h)
  exact ⟨by linarith, by linarith⟩

end RationalError

/-! ### The rational tanh (R346) -/

/-- The quotient of R346 is at most 1 up to 3, where numerator and denominator meet: they differ by (3 - |v|)^3. With the rounding errors of
all five operations, a part in 2^20 is room enough. -/
theorem pade_le_of_errors {v q a n c d : ℚ} (hv : |v| ≤ 3) (hq : |q - v * v| * 2 ^ 24 ≤ 2 ^ 4)
    (ha : |a - (27 + q)| * 2 ^ 24 ≤ 2 ^ 6) (hn : |n - v * a| * 2 ^ 24 ≤ 2 ^ 7) (hc : |c - 9 * q| * 2 ^ 24 ≤ 2 ^ 7)
    (hd : |d - (27 + c)| * 2 ^ 24 ≤ 2 ^ 7) :
    0 < d ∧ |n| ≤ (1 + 1 / 2 ^ 20) * d := by
  obtain ⟨hq1, hq2⟩ := between_of_error hq
  obtain ⟨ha1, ha2⟩ := between_of_error ha
  obtain ⟨hn1, hn2⟩ := between_of_error hn
  obtain ⟨hc1, -⟩ := between_of_error hc
  obtain ⟨hd1, -⟩ := between_of_error hd
  have hsq : v * v = |v| * |v| := (abs_mul_abs_self v).symm
  have hw : 0 ≤ |v| := abs_nonneg v
  have hww : 0 ≤ |v| * |v| := mul_nonneg hw hw
  have hnum : |n| ≤ |v| * (27 + |v| * |v|) + 368 / 2 ^ 24 := by
    have hsum : |a| ≤ 27 + |v| * |v| + 80 / 2 ^ 24 := abs_le.2 ⟨by linarith, by linarith⟩
    have hfar : |n - v * a| ≤ 128 / 2 ^ 24 := abs_le.2 ⟨by linarith, by linarith⟩
    have hsplit : |n| ≤ |n - v * a| + |v * a| := by simpa using abs_add_le (n - v * a) (v * a)
    have hprod : |v * a| ≤ |v| * (27 + |v| * |v| + 80 / 2 ^ 24) := by
      rw [abs_mul]
      exact mul_le_mul_of_nonneg_left hsum hw
    linarith
  have hden : 27 + 9 * (|v| * |v|) - 400 / 2 ^ 24 ≤ d := by linarith
  have hcube : |v| * (27 + |v| * |v|) + (3 - |v|) ^ 3 = 27 + 9 * (|v| * |v|) := by ring
  refine ⟨by linarith, hnum.trans ?_⟩
  rcases le_total |v| 2 with h2 | h2
  · have hgap : 1 ≤ (3 - |v|) ^ 3 := one_le_pow₀ (by linarith)
    linarith
  · have hgap : 0 ≤ (3 - |v|) ^ 3 := pow_nonneg (by linarith) 3
    have hfour : 2 * 2 ≤ |v| * |v| := mul_le_mul h2 h2 (by norm_num) hw
    linarith

/-- The operations of R346 on an operand in [-3, 3]. -/
theorem pade_operations {v : F32} (hv : fle (fabs v) Config.wsTanhfMax = true) :
    let q := fmul v v
    let n := fmul v (fadd Config.wsPade27 q)
    let d := fadd Config.wsPade27 (fmul Config.wsPade9 q)
    isFinite n = true ∧ isFinite d = true ∧ 0 < valueOf d ∧ |valueOf n| ≤ (1 + 1 / 2 ^ 20) * valueOf d := by
  intro q n d
  have h27 : valueOf Config.wsPade27 = 27 := by
    rw [valueOf, show unitsOf Config.wsPade27 = 27 * 2 ^ 149 by decide]
    norm_num
  have h9 : valueOf Config.wsPade9 = 9 := by
    rw [valueOf, show unitsOf Config.wsPade9 = 9 * 2 ^ 149 by decide]
    norm_num
  obtain ⟨hvfin, hv⟩ := (fle_fabs_iff rfl).1 hv
  have hv3 : |valueOf v| ≤ 3 := by
    rw [show unitsOf Config.wsTanhfMax = 3 * 2 ^ 149 by decide] at hv
    exact mod_cast abs_unitsOf_le_iff.1 hv
  have hsq0 : 0 ≤ valueOf v * valueOf v := mul_self_nonneg _
  have hsq9 : valueOf v * valueOf v ≤ 9 := by
    rw [← abs_mul_abs_self]
    exact (mul_le_mul hv3 hv3 (abs_nonneg _) (by norm_num)).trans (by norm_num)
  obtain ⟨hqfin, hq⟩ := valueOf_fmul (k := 4) hvfin hvfin (by norm_num) (abs_le.2 ⟨by linarith, by linarith⟩)
  obtain ⟨hq1, hq2⟩ := between_of_error hq
  obtain ⟨hafin, ha⟩ := valueOf_fadd (a := Config.wsPade27) (k := 6) rfl hqfin (by norm_num)
    (by rw [h27]; exact abs_le.2 ⟨by linarith, by linarith⟩)
  rw [h27] at ha
  obtain ⟨ha1, ha2⟩ := between_of_error ha
  have hprod : |valueOf v * valueOf (fadd Config.wsPade27 (fmul v v))| ≤ 2 ^ 7 := by
    have hsum : |valueOf (fadd Config.wsPade27 (fmul v v))| ≤ 38 := abs_le.2 ⟨by linarith, by linarith⟩
    rw [abs_mul]
    exact (mul_le_mul hv3 hsum (abs_nonneg _) (by norm_num)).trans (by norm_num)
  obtain ⟨hnfin, hn⟩ := valueOf_fmul hvfin hafin (by norm_num) hprod
  obtain ⟨hcfin, hc⟩ := valueOf_fmul (a := Config.wsPade9) (k := 7) rfl hqfin (by norm_num)
    (by rw [h9]; exact abs_le.2 ⟨by linarith, by linarith⟩)
  rw [h9] at hc
  obtain ⟨hc1, hc2⟩ := between_of_error hc
  obtain ⟨hdfin, hd⟩ := valueOf_fadd (a := Config.wsPade27) (k := 7) rfl hcfin (by norm_num)
    (by rw [h27]; exact abs_le.2 ⟨by linarith, by linarith⟩)
  rw [h27] at hd
  exact ⟨hnfin, hdfin, pade_le_of_errors hv3 hq ha hn hc hd⟩

theorem fabs_padeTanh_le {v : F32} (hv : fle (fabs v) Config.wsTanhfMax = true) :
    fle (fabs (padeTanh v)) (F32.ofBits 0x3F800008#32) = true := by
  obtain ⟨hnfin, hdfin, hpos, hle⟩ := pade_operations hv
  have hbound : unitsOf (F32.ofBits 0x3F800008#32) = 2 ^ 149 + 2 ^ 129 := by decide
  refine fle_fabs_fdiv hnfin hdfin ?_ rfl ?_
  · rw [← @Int.cast_pos ℚ, unitsOf_eq_valueOf]
    exact mul_pos hpos (by norm_num)
  · rw [hbound, ← @Int.cast_le ℚ]
    push_cast
    rw [unitsOf_eq_valueOf, unitsOf_eq_valueOf, abs_mul, abs_of_pos (show (0 : ℚ) < 2 ^ 149 by norm_num)]
    linarith

theorem fabs_wsTanhf_le (x p : F32) : fle (fabs (wsTanhf x p)) (F32.ofBits 0x3F800008#32) = true :=
  fabs_padeTanh_le (fle_fabs_of_within (l := Config.wsTanhfMin) rfl rfl (within_clamp _ rfl))

/-- R346's quotient passes 1.0 below the end of the range (log 19). -/
theorem wsTanhf_exceeds_fone : (wsTanhf (F32.ofBits 0x403FFFF8#32) fone).toBits = 0x3F800001#32 := by decide

/-! ### What the operations answer (R347) -/

theorem exec_wsFold (s : State) : exec .wsFold s = .next (waveshape wsFold s) := rfl

theorem exec_wsDiode (s : State) : exec .wsDiode s = .next (waveshape wsDiode s) := rfl

theorem exec_wsQuant (s : State) : exec .wsQuant s = .next (waveshape wsQuant s) := rfl

theorem exec_wsMod (s : State) : exec .wsMod s = .next (waveshape wsMod s) := rfl

theorem exec_wsTanh (s : State) : exec .wsTanh s = .next (waveshape wsTanh s) := rfl

theorem exec_wsTanhf (s : State) : exec .wsTanhf s = .next (waveshape wsTanhf s) := rfl

section Answers

variable {i : Instr} {f : F32 → F32 → F32} {s : State}

theorem waveshape_res (f : F32 → F32 → F32) (s : State) : (waveshape f s).res.get 0 = (f (finValue (argF s 0)) (argF s 1)).toBits :=
  (raise_setResF s .nonfin (notFinite (argF s 0)) _).1

theorem waveshape_nonfin (f : F32 → F32 → F32) (s : State) :
    (waveshape f s).status.flag .nonfin = (s.status.flag .nonfin || notFinite (argF s 0)) :=
  (raise_setResF s .nonfin (notFinite (argF s 0)) _).2

theorem finValue_of_isFinite {x : F32} (h : isFinite x = true) : finValue x = x := if_pos h

/-- A finite sample on which the transfer function is the identity comes out bit for bit. -/
theorem passes_of_exec (h : exec i s = .next (waveshape f s)) (hx : isFinite (argF s 0) = true) (hf : f (argF s 0) (argF s 1) = argF s 0) :
    ∃ u, exec i s = .next u ∧ u.res.get 0 = s.arg.get 0 := by
  refine ⟨_, h, ?_⟩
  rw [waveshape_res, finValue_of_isFinite hx, hf, argF, F32.toBits_ofBits]

theorem bounded_of_exec {b : F32} (h : exec i s = .next (waveshape f s)) (hf : fle (fabs (f (finValue (argF s 0)) (argF s 1))) b = true) :
    ∃ u, exec i s = .next u ∧ fle (fabs (F32.ofBits (u.res.get 0))) b = true :=
  ⟨_, h, by rwa [waveshape_res, F32.ofBits_toBits]⟩

theorem finite_of_exec (h : exec i s = .next (waveshape f s)) (hf : ∀ x p, isFinite x = true → isFinite (f x p) = true) :
    ∃ u, exec i s = .next u ∧ isFinite (F32.ofBits (u.res.get 0)) = true :=
  ⟨_, h, by rw [waveshape_res, F32.ofBits_toBits]; exact hf _ _ (isFinite_finValue _)⟩

end Answers

/-! ### The statements -/

/-- Settles O47: a magnitude within a finite bound is finite; the quantizer divides an `I32` by at least 1.0. -/
theorem wsFinite : Obligations.WsFinite := by
  intro i s hi
  simp only [List.mem_cons, List.not_mem_nil, or_false] at hi
  rcases hi with rfl | rfl | rfl | rfl | rfl | rfl
  · exact finite_of_exec (exec_wsFold s) fun x p _ => ((fle_fabs_iff (isFinite_wsThreshold p)).1 (fabs_wsFold_le x p)).1
  · exact finite_of_exec (exec_wsDiode s) fun x p hx => ((fle_fabs_iff ((isFinite_fabs x).trans hx)).1 (fabs_wsDiode_le hx p)).1
  · exact finite_of_exec (exec_wsQuant s) fun x p _ => isFinite_wsQuant x p
  · exact finite_of_exec (exec_wsMod s) fun x p _ => ((fle_fabs_iff (isFinite_wsThreshold p)).1 (fabs_wsMod_le x p)).1
  · exact finite_of_exec (exec_wsTanh s) fun x p _ => ((fle_fabs_iff rfl).1 (fabs_wsTanh_le x p)).1
  · exact finite_of_exec (exec_wsTanhf s) fun x p _ => ((fle_fabs_iff rfl).1 (fabs_wsTanhf_le x p)).1

/-- Settles O46: each clause is a bound or a pass region of the transfer function, read from `RES[0]`. -/
theorem wsRanges : Obligations.WsRanges := by
  intro s x one t bounded
  have ht : isFinite t = true := isFinite_wsThreshold (argF s 1)
  refine ⟨fun h => ?_, fun h => ?_, fun hx h => passes_of_exec (exec_wsDiode s) hx (wsDiode_nonneg h _),
    bounded_of_exec (exec_wsFold s) (fabs_wsFold_le _ _), bounded_of_exec (exec_wsMod s) (fabs_wsMod_le _ _), fun hx => ?_,
    bounded_of_exec (exec_wsTanh s) (fabs_wsTanh_le _ _), bounded_of_exec (exec_wsTanhf s) (fabs_wsTanhf_le _ _),
    fun h0 h1 => ⟨_, exec_wsTanhf s, ?_⟩⟩
  · exact passes_of_exec (exec_wsFold s) ((fle_fabs_iff ht).1 h).1 (wsFold_inside h)
  · exact passes_of_exec (exec_wsMod s) ((fle_fabs_iff ht).1 (fle_of_flt h)).1 (wsMod_inside h)
  · exact bounded_of_exec (exec_wsDiode s) (by rw [finValue_of_isFinite (x := argF s 0) hx]; exact fabs_wsDiode_le hx _)
  · rw [waveshape_res, argF, argF, h0, h1]
    exact wsTanhf_exceeds_fone

/-- Settles O45: each expression is the meaning's transfer function on the guarded sample and the raw parameter. -/
theorem wsTransfers : Obligations.WsTransfers := by
  intro s a0 p zero one two half lo hi x t l n v q w27 shapes
  have shaped {i : Instr} {f : F32 → F32 → F32} (h : exec i s = .next (waveshape f s))
      (hparts : mayChange i s = fun p => p = .res 0 ∨ p = .flag .nonfin) : shapes i (f x p) :=
    ⟨_, h, waveshape_res f s, waveshape_nonfin f s, hparts ▸ ownership i s _ h⟩
  exact ⟨shaped (exec_wsFold s) rfl, shaped (exec_wsDiode s) rfl, shaped (exec_wsQuant s) rfl, shaped (exec_wsMod s) rfl,
    shaped (exec_wsTanh s) rfl, shaped (exec_wsTanhf s) rfl⟩

end Sys2Proof.Machine
end

section
/-! Rounding goes to the nearest (R9): half a quantum is the most it is off. From this follow what `GD.DNK` flushes (O50) and the one error
bound of the round trips (O54) that a part in 2^24 of the sum is too coarse for. -/

namespace Sys2Proof

/-- `magUnits_join` with the quotient that carries into the next binade. -/
theorem magUnits_join_le {k q : Nat} (hq : q ≤ 2 ^ 24) (hk : k = 0 ∨ 2 ^ 23 ≤ q) : magUnits (k * 2 ^ 23 + q) = q * 2 ^ k := by
  rcases Nat.lt_or_ge q (2 ^ 24) with hlt | hge
  · exact magUnits_join hlt hk
  · obtain rfl : q = 2 ^ 24 := le_antisymm hq hge
    rw [show k * 2 ^ 23 + 2 ^ 24 = (k + 1) * 2 ^ 23 + 2 ^ 23 by ring, magUnits_join (by norm_num) (.inr le_rfl)]
    ring

/-- A whole number of units rounds to the nearest multiple of its quantum. -/
theorem roundBits_nearest (num : Nat) : ∃ q ≤ 2 ^ 24, (Nat.log2 num - 23 = 0 ∨ 2 ^ 23 ≤ q) ∧
    roundBits num 1 = (Nat.log2 num - 23) * 2 ^ 23 + q ∧ 2 * num ≤ (2 * q + 1) * 2 ^ (Nat.log2 num - 23) ∧
    2 * q * 2 ^ (Nat.log2 num - 23) ≤ 2 * num + 2 ^ (Nat.log2 num - 23) := by
  obtain ⟨hq, hk⟩ := roundBits_quotient num 1
  rw [Nat.div_one, one_mul] at hq hk
  simp only [roundBits, Nat.div_one, one_mul]
  have hpos : 0 < 2 ^ (Nat.log2 num - 23) := by positivity
  have hdivmod := Nat.div_add_mod num (2 ^ (Nat.log2 num - 23))
  have hmod := Nat.mod_lt num hpos
  generalize Nat.log2 num - 23 = k at *
  generalize num / 2 ^ k = q at *
  generalize num % 2 ^ k = r at *
  generalize 2 ^ k = u at *
  split
  · have hup : u ≤ 2 * r := by omega
    refine ⟨q + 1, by omega, by omega, rfl, ?_, ?_⟩ <;> linarith
  · have hdown : 2 * r ≤ u := by omega
    refine ⟨q, by omega, hk, rfl, ?_, ?_⟩ <;> linarith

/-- What is less than half a quantum away from a normal magnitude rounds to it. -/
theorem roundBits_of_near {num q k : Nat} (hlo : 2 ^ 23 < q) (hhi : q < 2 ^ 24) (hbelow : 2 * q * 2 ^ k < 2 * num + 2 ^ k)
    (habove : 2 * num < (2 * q + 1) * 2 ^ k) : roundBits num 1 = k * 2 ^ 23 + q := by
  have hlog : Nat.log2 num = k + 23 := by
    have hmin : 2 ^ 23 * 2 ^ k ≤ num := by nlinarith
    have hmax : num < 2 ^ 24 * 2 ^ k := by nlinarith
    have hne : num ≠ 0 := by
      have : 0 < 2 ^ k := by positivity
      omega
    rw [← pow_add] at hmin hmax
    have h1 := (Nat.le_log2 hne).2 hmin
    have h2 := (Nat.log2_lt hne).2 hmax
    omega
  obtain ⟨p, -, -, hround, hp1, hp2⟩ := roundBits_nearest num
  rw [hlog, Nat.add_sub_cancel] at hround hp1 hp2
  have hle : 2 * q < 2 * p + 2 := lt_of_mul_lt_mul_right (by linarith : 2 * q * 2 ^ k < (2 * p + 2) * 2 ^ k) (Nat.zero_le _)
  have hge : 2 * p < 2 * q + 2 := lt_of_mul_lt_mul_right (by linarith : 2 * p * 2 ^ k < (2 * q + 2) * 2 ^ k) (Nat.zero_le _)
  rw [hround, show p = q by omega]

/-- The error is at most half a quantum, so at most 2^-25 of a power of two above the operand. -/
theorem roundBits_error_below {num j : Nat} (hj : 24 ≤ j) (h : num < 2 ^ j) :
    |(magUnits (roundBits num 1) : Int) - num| * 2 ^ 25 ≤ 2 ^ j := by
  obtain ⟨q, hq, hk, hround, h1, h2⟩ := roundBits_nearest num
  have hlog : Nat.log2 num - 23 + 24 ≤ j := by
    rcases Nat.eq_zero_or_pos num with rfl | hpos
    · simpa using hj
    · have := (Nat.log2_lt (by omega)).2 h
      omega
  have hpow : 2 ^ (Nat.log2 num - 23) * 2 ^ 24 ≤ 2 ^ j := by
    rw [← pow_add]
    exact Nat.pow_le_pow_right (by norm_num) hlog
  rw [hround, magUnits_join_le hq hk]
  generalize 2 ^ (Nat.log2 num - 23) = u at *
  zify at h1 h2 hpow
  rcases abs_cases (((q * u : Nat) : Int) - num) with ⟨he, -⟩ | ⟨he, -⟩ <;> rw [he] <;> push_cast <;> linarith

theorem unitsOf_roundUnits {neg : Bool} {num den : Nat} (h : isFinite (roundUnits neg num den) = true) :
    unitsOf (roundUnits neg num den) = signed neg (magUnits (roundBits num den)) := by
  unfold roundUnits ofMagBits at h ⊢
  split at h
  · next hb => rw [dif_pos hb, unitsOf_eq_signed]
  · cases h

theorem abs_signed_sub (neg : Bool) (m n : Nat) : |signed neg m - signed neg n| = |(m : Int) - n| := by
  cases neg
  · rfl
  · rw [abs_sub_comm (m : Int)]
    exact congrArg abs (neg_sub_neg _ _)

/-- A finite sum below a power of two is off by at most 2^-25 of it. -/
theorem fadd_error_below {a b : F32} {j : Nat} (ha : isFinite a = true) (hb : isFinite b = true) (hf : isFinite (fadd a b) = true)
    (hj : 24 ≤ j) (h : |unitsOf a + unitsOf b| < 2 ^ j) : |unitsOf (fadd a b) - (unitsOf a + unitsOf b)| * 2 ^ 25 ≤ 2 ^ j := by
  rcases sumOr_finite (nanOf .add a b) ha hb with ⟨h0, n, e⟩ | ⟨-, e⟩
  · rw [fadd, e, h0]
    cases n <;> simp
  · have herror := roundBits_error_below (num := (unitsOf a + unitsOf b).natAbs) hj (by zify; exact h)
    rw [fadd, e] at hf ⊢
    rw [unitsOf_roundUnits hf]
    generalize unitsOf a + unitsOf b = t at *
    calc |signed (decide (t < 0)) (magUnits (roundBits t.natAbs 1)) - t| * 2 ^ 25
        = |signed (decide (t < 0)) (magUnits (roundBits t.natAbs 1)) - signed (decide (t < 0)) t.natAbs| * 2 ^ 25 := by
          rw [signed_natAbs]
      _ = |(magUnits (roundBits t.natAbs 1) : Int) - t.natAbs| * 2 ^ 25 := by rw [abs_signed_sub]
      _ ≤ 2 ^ j := herror

end Sys2Proof
end

section
/-! The smoothers and the guard commands (R361 to R367). `GD.DNK` flushes because its first sum rounds to the constant: below 2^-84 an
operand moves the exact sum by less than half of the constant's unit in the last place, and the constant less itself is +0.0. -/

namespace Sys2Proof.Machine

/-! ### The denormal killer (R366, R367) -/

theorem isFinite_dnK : isFinite Config.dnK = true := rfl

theorem unitsOf_dnK : unitsOf Config.dnK = (2 ^ 23 + 0x1392EF) * 2 ^ 66 := by decide

/-- An operand below half of the constant's unit in the last place does not show in the sum. -/
theorem fadd_dnK_of_small {x : F32} (hx : isFinite x = true) (h : |unitsOf x| < 2 ^ 65) : fadd x Config.dnK = Config.dnK := by
  obtain ⟨hlo, hhi⟩ := abs_lt.1 h
  have hdn := unitsOf_dnK
  rcases sumOr_finite (nanOf .add x Config.dnK) hx isFinite_dnK with ⟨h0, -⟩ | ⟨-, hsum⟩
  · omega
  · have hround : roundBits (unitsOf x + unitsOf Config.dnK).natAbs 1 = 66 * 2 ^ 23 + (2 ^ 23 + 0x1392EF) :=
      roundBits_of_near (by norm_num) (by norm_num) (by omega) (by omega)
    have hneg : ¬ unitsOf x + unitsOf Config.dnK < 0 := by omega
    rw [fadd, hsum, roundUnits, hround, decide_eq_false hneg]
    rfl

/-- `Dnk` flushes every magnitude below 2^-84, zeros and subnormals among them, to +0.0 (R367). -/
theorem dnk_of_small {x : F32} (h : flt (fabs x) (F32.ofBits 0x15800000#32) = true) : dnk x = fzero := by
  have hbound : unitsOf (F32.ofBits 0x15800000#32) = 2 ^ 65 := by decide
  obtain ⟨hx, -⟩ := (fle_fabs_iff rfl).1 (fle_of_flt h)
  have hunits := (flt_iff ((isFinite_fabs x).trans hx) rfl).1 h
  rw [unitsOf_fabs, hbound] at hunits
  rw [dnk, fadd_dnK_of_small hx hunits]
  exact fsub_self isFinite_dnK

/-! ### The statements -/

theorem exec_gdFin (s : State) :
    exec .gdFin s = .next ((s.raise .nonfin (notFinite (argF s 0))).setRes 0 (if isFinite (argF s 0) then s.arg.get 0 else 0#32)) := rfl

theorem exec_gdDnk (s : State) : exec .gdDnk s = .next (s.setResF 0 (dnk (argF s 0))) := rfl

/-- Settles O50: one guarded copy, and the denormal killer with its flush region. -/
theorem guardCommands : Obligations.GuardCommands := by
  intro s x k
  refine ⟨rfl, rfl, ⟨_, exec_gdFin s, setRes_get_self .., ?_, ownership _ _ _ (exec_gdFin s)⟩,
    _, exec_gdDnk s, setResF_get_self .., fun h => ?_, ownership _ _ _ (exec_gdDnk s)⟩
  · rw [State.setRes_status, State.raise_status, Status.flag_raise, if_pos rfl]
    rfl
  · exact (setResF_get_self s 0 _).trans (congrArg F32.toBits (dnk_of_small h))

/-- What a smoother's state load or step leaves: the smoother with the new output, the output as the answer, the guard's flag. -/
theorem smootherOutput_effect (s : State) (k : Fin 8) (m : Smoother) (bad : Bool) (y : F32) :
    (((s.raise .nonfin bad).setSm k m).setResF 0 y).sm.get k = m ∧ (((s.raise .nonfin bad).setSm k m).setResF 0 y).res.get 0 = y.toBits ∧
      (((s.raise .nonfin bad).setSm k m).setResF 0 y).status.flag .nonfin = (s.status.flag .nonfin || bad) := by
  simp

/-- A smoother put back is the one read. -/
theorem setSm_get_self (s : State) (k : Fin 8) (m : Smoother) : (s.setSm k m).sm.get k = m := by
  rw [State.setSm_sm, Per8.get_set, if_pos rfl]

theorem exec_smSet (k : Fin 8) (s : State) :
    exec (.smSet k) s = .next (((s.raise .nonfin (notFinite (argF s 0))).setSm k
      { s.sm.get k with y := finValue (argF s 0) }).setResF 0 (finValue (argF s 0))) := rfl

theorem exec_smCoef (k : Fin 8) (s : State) :
    exec (.smCoef k) s = .next ((s.setSm k { s.sm.get k with a := clamp01 (argF s 0) }).setResF 0 (clamp01 (argF s 0))) := rfl

theorem exec_smStep (k : Fin 8) (s : State) :
    exec (.smStep k) s = .next (((s.raise .nonfin (notFinite (argF s 0))).setSm k
      { s.sm.get k with y := smNext (s.sm.get k) (finValue (argF s 0)) }).setResF 0 (smNext (s.sm.get k) (finValue (argF s 0)))) := rfl

/-- Settles O48: each operation stores one smoother and answers with what it stored. -/
theorem smoothersUpdate : Obligations.SmoothersUpdate := by
  intro k s a0 m zero x dn r y a
  obtain ⟨hset, hsetRes, hsetFlag⟩ := smootherOutput_effect s k { m with y := x } (notFinite a0) x
  obtain ⟨hstep, hstepRes, hstepFlag⟩ := smootherOutput_effect s k { m with y := y } (notFinite a0) y
  exact ⟨commandWord_channel 0x60 k.val, commandWord_channel 0x61 k.val, commandWord_channel 0x62 k.val,
    ⟨_, exec_smSet k s, hset, hsetRes, hsetFlag, ownership _ _ _ (exec_smSet k s)⟩,
    ⟨_, exec_smCoef k s, setSm_get_self s k { m with a := a }, setResF_get_self .., ownership _ _ _ (exec_smCoef k s)⟩,
    ⟨_, exec_smStep k s, hstep, hstepRes, hstepFlag, ownership _ _ _ (exec_smStep k s)⟩⟩

end Sys2Proof.Machine
end

section
/-! The parameter spec table (R380, R381, R386): the shape of its entries, the words of its commands, and what `PS.GET` answers. -/

namespace Sys2Proof.Machine

/-! ### Words (R106, R112) -/

/-- A `PS.GET` word decodes only with a mode of R105 in [7:4] and no dead bit set. -/
theorem live_of_decode_psGet {imm : BitVec 16} {i : Instr} (h : decode (commandWord 0x70 0 imm.toNat) = .ok i) :
    imm.toNat / 16 % 16 < 12 ∧ imm &&& 0xFF0C#16 = 0#16 := by
  obtain ⟨hlegal, hop⟩ := decode_eq_ok_iff.1 h
  have hfields := fieldsOf_commandWord 0x70 (inst := 0) (by decide) imm.isLt
  rw [BitVec.ofNat_toNat, BitVec.setWidth_eq] at hfields
  have himm := hlegal.imm
  rw [hfields] at himm hop
  have hlive : imm &&& ~~~(liveImm 7 0) = 0 := himm
  have hps : decodePs .psGet imm = .ok i := hop
  have hdead : ~~~(liveImm 7 0) = 0xFF0C#16 := by decide
  refine ⟨?_, hdead ▸ hlive⟩
  unfold decodePs at hps
  split at hps
  · next m hmode => exact fxModeOf_eq_some_iff.1 hmode ▸ code_lt m
  · cases hps

/-! ### Entries (R386) -/

/-- Every entry's minimum is below its maximum, its default between them, and the minimum of an exponential one is positive. -/
theorem spec_shape (m : FxMode) (slot : Fin 4) :
    flt (specEntry m slot).min (specEntry m slot).max = true ∧
    within (specEntry m slot).min (specEntry m slot).max (specEntry m slot).dflt = true ∧
    ((specEntry m slot).curve = .exp → flt fzero (specEntry m slot).min = true) := by
  cases m <;> revert slot <;> decide

/-! ### `PS.GET` (R381) -/

theorem exec_psGet (m : FxMode) (slot : Fin 4) (s : State) :
    exec (.psGet m slot) s = .next (((((s.setResF 0 (specEntry m slot).min).setResF 1 (specEntry m slot).max).setRes 2
      (Config.curveCode (specEntry m slot).curve)).setRes 3 (Config.unitCode (specEntry m slot).tag)).setResF 4
      (specEntry m slot).dflt) := rfl

/-- Settles O51: the shape of the entries, the words by the decoder's own tests, and five answers each kept by the writes after it. -/
theorem psGetAnswers : Obligations.PsGetAnswers := by
  intro m slot s e
  obtain ⟨hlt, hdflt, hpos⟩ := spec_shape m slot
  refine ⟨by rw [Nat.add_assoc]; rfl, fun imm himm => ?_, hlt, hdflt, hpos, _, exec_psGet m slot s, ?_, ?_, ?_, ?_, ?_,
    ownership _ _ _ (exec_psGet m slot s)⟩
  · have hword : BitVec.ofNat 32 (0x70000000 + imm.toNat) = commandWord 0x70 0 imm.toNat := rfl
    rw [hword]
    cases hdec : decode (commandWord 0x70 0 imm.toNat) with
    | error r => exact ⟨r, rfl⟩
    | ok i =>
      obtain ⟨hmode, hlive⟩ := live_of_decode_psGet hdec
      exact absurd himm (not_or.2 ⟨Nat.not_le.2 hmode, not_not.2 hlive⟩)
  all_goals
    simp only [State.setResF_res, State.setRes_res, Per8.get_set]
    rfl

end Sys2Proof.Machine
end

section
/-! The curves of the parameter maps (R382, R383, R387). The exact points hold bit for bit: a linear entry's width `max - min` is exact, and
the open functions only enter through log2(1.0) = 0.0, exp2(0.0) = 1.0 and the sign of the logarithm of a ratio of at least 1.0. -/

namespace Sys2Proof.Machine

variable {a b x y z : F32}

/-! ### Values known by their exact value (R9) -/

theorem sameValue_iff (hy : isFinite y = true) : sameValue x y = true ↔ isFinite x = true ∧ unitsOf x = unitsOf y := by
  have hwithin : sameValue x y = within y y x := Bool.and_comm ..
  rw [hwithin, within_iff hy hy]
  exact and_congr_right fun _ => ⟨fun ⟨h1, h2⟩ => le_antisymm h2 h1, fun h => ⟨h.ge, h.le⟩⟩

/-- Only the two zeros compare equal without being equal. -/
theorem eq_of_sameValue (h : sameValue x y = true) (hy : isFinite y = true) (h0 : unitsOf y ≠ 0) : x = y := by
  obtain ⟨hx, hunits⟩ := (sameValue_iff hy).1 h
  calc x = fadd x fzero := (fadd_zero_right hx rfl (hunits ▸ h0) rfl).symm
    _ = y := fadd_exact hx rfl hy h0 (by rw [unitsOf_fzero, add_zero, hunits])

theorem isZero_cases (h : isZero z = true) : ∃ n, z = .fin n 0 := by
  obtain ⟨hfin, hunits⟩ := isZero_iff.1 h
  obtain ⟨n, m, rfl⟩ := isFinite_cases hfin
  have hm : m.val = 0 := by
    rw [← magUnits_eq_zero]
    cases n <;> simp only [unitsOf_fin, if_true, Bool.false_eq_true, if_false] at hunits <;> omega
  exact ⟨n, congrArg (F32.fin n) (Fin.ext hm)⟩

/-- A zero added to +0.0 or to a positive value leaves it as it is. -/
theorem fadd_isZero_right (hx : isFinite x = true) (h : x = fzero ∨ 0 < unitsOf x) (hz : isZero z = true) : fadd x z = x := by
  rcases h with rfl | hpos
  · obtain ⟨n, rfl⟩ := isZero_cases hz
    cases n <;> rfl
  · obtain ⟨hzfin, hzunits⟩ := isZero_iff.1 hz
    exact fadd_zero_right hx hzfin (ne_of_gt hpos) hzunits

theorem sameValue_fsub_zero_right (hx : isFinite x = true) (hz : isFinite z = true) (h0 : unitsOf z = 0) :
    sameValue (fsub x z) x = true :=
  Bool.and_eq_true_iff.2 ⟨fsub_le hx hz hx (by omega), le_fsub hx hz hx (by omega)⟩

theorem sameValue_fmul_fone_right (hx : isFinite x = true) : sameValue (fmul x fone) x = true :=
  Bool.and_eq_true_iff.2 ⟨fmul_le hx rfl hx (by rw [unitsOf_fone]), le_fmul hx rfl hx (by rw [unitsOf_fone])⟩

theorem fmul_fone_right (hx : isFinite x = true) (h0 : unitsOf x ≠ 0) : fmul x fone = x :=
  eq_of_sameValue (sameValue_fmul_fone_right hx) hx h0

theorem fmul_fone_left (hx : isFinite x = true) (h0 : unitsOf x ≠ 0) : fmul fone x = x :=
  eq_of_sameValue (Bool.and_eq_true_iff.2 ⟨fmul_le rfl hx hx (by rw [unitsOf_fone, mul_comm]),
    le_fmul rfl hx hx (by rw [unitsOf_fone, mul_comm])⟩) hx h0

/-- A positive value divided by itself is 1.0. -/
theorem fdiv_self (hx : isFinite x = true) (h0 : 0 < unitsOf x) : fdiv x x = fone :=
  eq_of_sameValue (Bool.and_eq_true_iff.2 ⟨fdiv_le hx hx h0 rfl (by rw [unitsOf_fone, mul_comm]),
    le_fdiv hx hx h0 rfl (by rw [unitsOf_fone, mul_comm])⟩) rfl (by rw [unitsOf_fone]; norm_num)

/-- +0.0 divided by a positive value is +0.0. -/
theorem fdiv_fzero_left (hb : isFinite b = true) (h0 : 0 < unitsOf b) : fdiv fzero b = fzero := by
  obtain ⟨n, m, rfl⟩ := isFinite_cases hb
  obtain rfl : n = false := by cases n <;> simp at h0 ⊢; omega
  have hm : m.val ≠ 0 := fun hm => by simp [hm] at h0
  have hmag : 0 < magUnits m.val := Nat.pos_of_ne_zero (mt magUnits_eq_zero.1 hm)
  have hzero : fdiv fzero (.fin false m) = roundUnits false (0 * 2 ^ 149) (magUnits m.val) := if_neg hm
  rw [hzero, zero_mul, roundUnits, roundBits_zero hmag]
  rfl

/-- A zero divided by a zero is a NaN, which the clamp reads as 0.0. -/
theorem clamp01_fdiv_zeros (ha : isZero a = true) (hb : isZero b = true) : clamp01 (fdiv a b) = fzero := by
  obtain ⟨n, rfl⟩ := isZero_cases ha
  obtain ⟨k, rfl⟩ := isZero_cases hb
  rfl

/-! ### The open functions (R13) at the points the maps need -/

theorem cfgExp2_of_isZero (h : isZero x = true) : cfgExp2 x = fone := by
  obtain ⟨n, rfl⟩ := isZero_cases h
  have hrank : rank (.fin n 0) = some 0 := by cases n <;> rfl
  rw [cfgExp2_of_rank hrank, exp2Rank_zero]
  rfl

/-- The logarithm of a finite value of at least 1.0 is finite and not negative. -/
theorem cfgLog2_of_fone_le (hx : isFinite x = true) (h : fle fone x = true) :
    isFinite (cfgLog2 x) = true ∧ 0 ≤ unitsOf (cfgLog2 x) := by
  have hpos : flt fzero x = true := flt_of_flt_of_fle rfl h
  obtain ⟨-, hlogFin, -⟩ := elementaryProperties
  have hfin := hlogFin x hx hpos
  have hmono := cfgLog2_mono rfl h
  rw [cfgLog2_fone] at hmono
  exact ⟨hfin, (fle_iff rfl hfin).1 hmono⟩

/-! ### The entries as the curves need them (R380) -/

/-- A linear entry: finite bounds from 0 up to at most 100, an exact width, a minimum of +0.0 or of at least a 64th of the maximum; and a
power of two above the maximum that is at most twice the width. -/
def LinearEntry (e : Config.SpecEntry) : Prop :=
  isFinite e.min = true ∧ isFinite e.max = true ∧ unitsOf e.min < unitsOf e.max ∧ unitsOf e.max ≤ 100 * 2 ^ 149 ∧
  isFinite (fsub e.max e.min) = true ∧ unitsOf (fsub e.max e.min) = unitsOf e.max - unitsOf e.min ∧
  (e.min = fzero ∨ 0 < unitsOf e.min ∧ unitsOf e.max ≤ 64 * unitsOf e.min) ∧
  ∃ j < 8, unitsOf e.max < 2 ^ (149 + j) ∧ 2 ^ (149 + j) ≤ 2 * (unitsOf e.max - unitsOf e.min)

/-- An exponential entry: a positive minimum, and a ratio that is a finite value of at least 1.0. -/
def ExpEntry (e : Config.SpecEntry) : Prop :=
  isFinite e.min = true ∧ 0 < unitsOf e.min ∧ isFinite (fdiv e.max e.min) = true ∧ fle fone (fdiv e.max e.min) = true

theorem linearEntry_spec {m : FxMode} {slot : Fin 4} (h : (specEntry m slot).curve = .lin) : LinearEntry (specEntry m slot) := by
  unfold LinearEntry
  revert slot
  cases m <;> decide

theorem expEntry_spec {m : FxMode} {slot : Fin 4} (h : (specEntry m slot).curve = .exp) : ExpEntry (specEntry m slot) := by
  unfold ExpEntry
  revert slot
  cases m <;> decide

theorem isFinite_bounds_spec (m : FxMode) (slot : Fin 4) :
    isFinite (specEntry m slot).min = true ∧ isFinite (specEntry m slot).max = true := by
  revert slot
  cases m <;> decide

/-! ### The maps (R387) -/

section Curves

variable {e : Config.SpecEntry} {n v : F32}

theorem specCurve_lin (h : e.curve = .lin) (n : F32) : specCurve e n = fadd e.min (fmul n (fsub e.max e.min)) := by
  rw [specCurve, h]

theorem specCurve_exp (h : e.curve = .exp) (n : F32) :
    specCurve e n = fmul e.min (cfgExp2 (fmul n (cfgLog2 (fdiv e.max e.min)))) := by
  rw [specCurve, h]

theorem specUncurve_lin (h : e.curve = .lin) (v : F32) : specUncurve e v = fdiv (fsub v e.min) (fsub e.max e.min) := by
  rw [specUncurve, h]

theorem specUncurve_exp (h : e.curve = .exp) (v : F32) :
    specUncurve e v = fdiv (cfgLog2 (fdiv v e.min)) (cfgLog2 (fdiv e.max e.min)) := by
  rw [specUncurve, h]

theorem specMap_within (h : fle e.min e.max = true) (n : F32) : within e.min e.max (specMap e n) = true := within_clamp _ h

theorem specUnmap_within (v : F32) : within fzero fone (specUnmap e v) = true := clamp01_within _

theorem within_ends {l h : F32} (hl : isFinite l = true) (hh : isFinite h = true) (hle : fle l h = true) :
    within l h l = true ∧ within l h h = true :=
  have hunits := (fle_iff hl hh).1 hle
  ⟨(within_iff hl hh).2 ⟨hl, le_rfl, hunits⟩, (within_iff hl hh).2 ⟨hh, hunits, le_rfl⟩⟩

/-- In [0, 1] the operand's clamp does nothing. -/
theorem specMap_of_within (h : within fzero fone n = true) : specMap e n = clamp (specCurve e n) e.min e.max := by
  rw [specMap, clamp01, clamp_of_within h]

theorem specUnmap_of_within (h : within e.min e.max v = true) : specUnmap e v = clamp01 (specUncurve e v) := by
  rw [specUnmap, clamp_of_within h]

/-! ### The exact points -/

theorem specCurve_fzero_lin (hcurve : e.curve = .lin) (he : LinearEntry e) : specCurve e fzero = e.min := by
  obtain ⟨hmin, -, -, -, hwidth, -, hsign, -⟩ := he
  rw [specCurve_lin hcurve]
  exact fadd_isZero_right hmin (hsign.imp_right And.left) (isZero_fmul rfl hwidth (.inl rfl))

theorem specCurve_fzero_exp (hcurve : e.curve = .exp) (he : ExpEntry e) : specCurve e fzero = e.min := by
  obtain ⟨hmin, hpos, hratio, hge⟩ := he
  obtain ⟨hlog, -⟩ := cfgLog2_of_fone_le hratio hge
  rw [specCurve_exp hcurve, cfgExp2_of_isZero (isZero_fmul rfl hlog (.inl rfl)), fmul_fone_right hmin hpos.ne']

theorem specCurve_fone_lin (hcurve : e.curve = .lin) (he : LinearEntry e) : specCurve e fone = e.max := by
  obtain ⟨hmin, hmax, hlt, -, hwidth, hunits, hsign, -⟩ := he
  have hmin0 : 0 ≤ unitsOf e.min := hsign.elim (fun h => h ▸ unitsOf_fzero.ge) fun h => h.1.le
  rw [specCurve_lin hcurve, fmul_fone_left hwidth (by omega)]
  exact fadd_exact hmin hwidth hmax (by omega) (by omega)

theorem specUncurve_min_lin (hcurve : e.curve = .lin) (he : LinearEntry e) : specUncurve e e.min = fzero := by
  obtain ⟨hmin, -, hlt, -, hwidth, hunits, -, -⟩ := he
  rw [specUncurve_lin hcurve, fsub_self hmin, fdiv_fzero_left hwidth (by omega)]

theorem specUncurve_max_lin (hcurve : e.curve = .lin) (he : LinearEntry e) : specUncurve e e.max = fone := by
  obtain ⟨-, -, hlt, -, hwidth, hunits, -, -⟩ := he
  rw [specUncurve_lin hcurve, fdiv_self hwidth (by omega)]

/-- The logarithm of the ratio is a zero or positive. -/
theorem log_ratio_cases (he : ExpEntry e) : isZero (cfgLog2 (fdiv e.max e.min)) = true ∨
    isZero (cfgLog2 (fdiv e.max e.min)) = false ∧ isFinite (cfgLog2 (fdiv e.max e.min)) = true ∧
      0 < unitsOf (cfgLog2 (fdiv e.max e.min)) := by
  obtain ⟨-, -, hratio, hge⟩ := he
  obtain ⟨hlog, hnonneg⟩ := cfgLog2_of_fone_le hratio hge
  cases hzero : isZero (cfgLog2 (fdiv e.max e.min)) with
  | true => exact .inl rfl
  | false =>
    have hne : unitsOf (cfgLog2 (fdiv e.max e.min)) ≠ 0 := fun h => Bool.false_ne_true (hzero.symm.trans (isZero_iff.2 ⟨hlog, h⟩))
    exact .inr ⟨rfl, hlog, by omega⟩

theorem specUncurve_min_exp (hcurve : e.curve = .exp) (he : ExpEntry e) : clamp01 (specUncurve e e.min) = fzero := by
  have hcases := log_ratio_cases he
  obtain ⟨hmin, hpos, -, -⟩ := he
  rw [specUncurve_exp hcurve, fdiv_self hmin hpos, cfgLog2_fone]
  rcases hcases with hzero | ⟨-, hlog, hlogPos⟩
  · exact clamp01_fdiv_zeros rfl hzero
  · rw [fdiv_fzero_left hlog hlogPos]
    rfl

theorem specUncurve_max_exp (hcurve : e.curve = .exp) (he : ExpEntry e) :
    clamp01 (specUncurve e e.max) = if isZero (cfgLog2 (fdiv e.max e.min)) = true then fzero else fone := by
  rw [specUncurve_exp hcurve]
  rcases log_ratio_cases he with hzero | ⟨hzero, hlog, hlogPos⟩
  · rw [if_pos hzero, clamp01_fdiv_zeros hzero hzero]
  · rw [hzero, fdiv_self hlog hlogPos]
    rfl

end Curves

theorem within_bounds_spec (m : FxMode) (slot : Fin 4) :
    within (specEntry m slot).min (specEntry m slot).max (specEntry m slot).min = true ∧
    within (specEntry m slot).min (specEntry m slot).max (specEntry m slot).max = true := by
  obtain ⟨hmin, hmax⟩ := isFinite_bounds_spec m slot
  exact within_ends hmin hmax (fle_of_flt (spec_shape m slot).1)

theorem specMap_fzero (m : FxMode) (slot : Fin 4) : specMap (specEntry m slot) fzero = (specEntry m slot).min := by
  have hcurve : specCurve (specEntry m slot) fzero = (specEntry m slot).min := by
    cases h : (specEntry m slot).curve with
    | lin => exact specCurve_fzero_lin h (linearEntry_spec h)
    | exp => exact specCurve_fzero_exp h (expEntry_spec h)
  rw [specMap_of_within rfl, hcurve, clamp_of_within (within_bounds_spec m slot).1]

theorem specMap_fone_lin {m : FxMode} {slot : Fin 4} (h : (specEntry m slot).curve = .lin) :
    specMap (specEntry m slot) fone = (specEntry m slot).max := by
  rw [specMap_of_within rfl, specCurve_fone_lin h (linearEntry_spec h), clamp_of_within (within_bounds_spec m slot).2]

theorem specUnmap_min (m : FxMode) (slot : Fin 4) : specUnmap (specEntry m slot) (specEntry m slot).min = fzero := by
  rw [specUnmap_of_within (within_bounds_spec m slot).1]
  cases h : (specEntry m slot).curve with
  | lin =>
    rw [specUncurve_min_lin h (linearEntry_spec h)]
    rfl
  | exp => exact specUncurve_min_exp h (expEntry_spec h)

theorem specUnmap_max_lin {m : FxMode} {slot : Fin 4} (h : (specEntry m slot).curve = .lin) :
    specUnmap (specEntry m slot) (specEntry m slot).max = fone := by
  rw [specUnmap_of_within (within_bounds_spec m slot).2, specUncurve_max_lin h (linearEntry_spec h)]
  rfl

theorem specUnmap_max_exp {m : FxMode} {slot : Fin 4} (h : (specEntry m slot).curve = .exp) :
    specUnmap (specEntry m slot) (specEntry m slot).max =
      if isZero (cfgLog2 (fdiv (specEntry m slot).max (specEntry m slot).min)) = true then fzero else fone := by
  rw [specUnmap_of_within (within_bounds_spec m slot).2, specUncurve_max_exp h (expEntry_spec h)]

/-! ### `PS.MAP` and `PS.UNMAP` (R382, R383) -/

theorem exec_psMap (m : FxMode) (slot : Fin 4) (s : State) :
    exec (.psMap m slot) s = .next (s.setResF 0 (specMap (specEntry m slot) (argF s 0))) := rfl

theorem exec_psUnmap (m : FxMode) (slot : Fin 4) (s : State) :
    exec (.psUnmap m slot) s = .next (s.setResF 0 (specUnmap (specEntry m slot) (argF s 0))) := rfl

/-- What `PS.MAP` answers where the map's value is known. -/
theorem psMap_answers {m : FxMode} {slot : Fin 4} {s : State} {x y : F32} (harg : s.arg.get 0 = x.toBits)
    (h : specMap (specEntry m slot) x = y) : ∃ t, exec (.psMap m slot) s = .next t ∧ t.res.get 0 = y.toBits := by
  refine ⟨_, exec_psMap m slot s, ?_⟩
  rw [setResF_get_self, argF, harg, F32.ofBits_toBits, h]

theorem psUnmap_answers {m : FxMode} {slot : Fin 4} {s : State} {x y : F32} (harg : s.arg.get 0 = x.toBits)
    (h : specUnmap (specEntry m slot) x = y) : ∃ t, exec (.psUnmap m slot) s = .next t ∧ t.res.get 0 = y.toBits := by
  refine ⟨_, exec_psUnmap m slot s, ?_⟩
  rw [setResF_get_self, argF, harg, F32.ofBits_toBits, h]

/-- Settles O52: the answers are the two maps of the operand, whose last step is the clamp. -/
theorem psMapsInRange : Obligations.PsMapsInRange := by
  intro m slot s e one n v up down
  have hup : up = specCurve e n := rfl
  have hdown : down = specUncurve e v := rfl
  refine ⟨⟨_, exec_psMap m slot s, ?_, ?_, ownership _ _ _ (exec_psMap m slot s)⟩,
    ⟨_, exec_psUnmap m slot s, ?_, ?_, ownership _ _ _ (exec_psUnmap m slot s)⟩⟩
  · rw [setResF_get_self, hup]
    rfl
  · rw [ofBits_res_setResF]
    exact specMap_within (fle_of_flt (spec_shape m slot).1) _
  · rw [setResF_get_self, hdown]
    rfl
  · rw [ofBits_res_setResF]
    exact specUnmap_within _

/-- Settles O53: the exact points of the two maps, read from `RES[0]`. -/
theorem psExactPoints : Obligations.PsExactPoints := by
  intro m slot s e
  refine ⟨fun h => psMap_answers (x := fzero) h (specMap_fzero m slot), fun h hcurve => psMap_answers (x := fone) h (specMap_fone_lin hcurve),
    fun h => psUnmap_answers h (specUnmap_min m slot), fun h => ?_⟩
  cases hcurve : e.curve with
  | lin =>
    rw [if_neg fun hexp => Config.Curve.noConfusion hexp.1]
    exact psUnmap_answers h (specUnmap_max_lin hcurve)
  | exp =>
    by_cases hzero : isZero (cfgLog2 (fdiv e.max e.min)) = true
    · rw [if_pos ⟨rfl, hzero⟩]
      exact psUnmap_answers h ((specUnmap_max_exp hcurve).trans (if_pos hzero))
    · rw [if_neg fun hexp => hzero hexp.2]
      exact psUnmap_answers h ((specUnmap_max_exp hcurve).trans (if_neg hzero))

end Sys2Proof.Machine
end

section
/-! The round trips of the parameter maps (R388). On a linear entry no clamp acts, so each trip is four rounded operations, and what is
left is to add up their errors; on an exponential entry the maps are the configuration's, since no clamp acts on the operands. -/

namespace Sys2Proof.Machine

section RoundTrip

variable {e : Config.SpecEntry} {n v : F32}

/-! ### The maps as operations without their operand's clamp -/

theorem specMap_exp (hcurve : e.curve = .exp) (h : within fzero fone n = true) :
    specMap e n = clamp (fmul e.min (cfgExp2 (fmul n (cfgLog2 (fdiv e.max e.min))))) e.min e.max := by
  rw [specMap_of_within h, specCurve_exp hcurve]

theorem specUnmap_exp (hcurve : e.curve = .exp) (h : within e.min e.max v = true) :
    specUnmap e v = clamp01 (fdiv (cfgLog2 (fdiv v e.min)) (cfgLog2 (fdiv e.max e.min))) := by
  rw [specUnmap_of_within h, specUncurve_exp hcurve]

/-- On an exponential entry R388's property is the configuration's: the trips only use the maps where their clamps do nothing. -/
theorem roundTrips_iff_cfg (hcurve : e.curve = .exp) (hle : fle e.min e.max = true) :
    roundTrips e (specMap e) (specUnmap e) ↔ cfgRoundTrips e := by
  unfold cfgRoundTrips roundTrips
  refine and_congr (forall₂_congr fun n hn => ?_) (forall₂_congr fun v hv => ?_)
  · have hmap := specMap_within hle n
    rw [specMap_exp hcurve hn] at hmap ⊢
    rw [specUnmap_exp hcurve hmap]
  · have hunmap := specUnmap_within (e := e) v
    rw [specUnmap_exp hcurve hv] at hunmap ⊢
    rw [specMap_exp hcurve hunmap]

/-- A linear entry's bounds in exact values. -/
theorem LinearEntry.units (he : LinearEntry e) : 0 ≤ unitsOf e.min ∧ 2 ^ 148 ≤ unitsOf e.max - unitsOf e.min := by
  obtain ⟨-, -, -, -, -, -, hsign, j, -, hroomLo, hroomHi⟩ := he
  have hpow : (2 : Int) ^ 149 ≤ 2 ^ (149 + j) := pow_le_pow_right₀ (by norm_num) (by omega)
  exact ⟨hsign.elim (fun h => h ▸ unitsOf_fzero.ge) fun h => h.1.le, by omega⟩

/-- The scaled operand of a linear entry is from 0 up to the width, the sum with the minimum within the bounds. -/
theorem linear_curve_within (he : LinearEntry e) (hn : within fzero fone n = true) :
    within fzero (fsub e.max e.min) (fmul n (fsub e.max e.min)) = true ∧
    within e.min e.max (fadd e.min (fmul n (fsub e.max e.min))) = true := by
  obtain ⟨hmin0, hwidthPos⟩ := he.units
  obtain ⟨hmin, hmax, -, -, hwidth, hunits, -, -⟩ := he
  obtain ⟨hnfin, hn0, hn1⟩ := (within_iff rfl rfl).1 hn
  rw [unitsOf_fzero] at hn0
  rw [unitsOf_fone] at hn1
  have hprod : within fzero (fsub e.max e.min) (fmul n (fsub e.max e.min)) = true :=
    Bool.and_eq_true_iff.2 ⟨le_fmul hnfin hwidth rfl (by rw [unitsOf_fzero, zero_mul]; exact mul_nonneg hn0 (by omega)),
      fmul_le hnfin hwidth hwidth (by rw [mul_comm]; exact mul_le_mul_of_nonneg_left hn1 (by omega))⟩
  obtain ⟨hpfin, hp0, hp1⟩ := (within_iff rfl hwidth).1 hprod
  rw [unitsOf_fzero] at hp0
  exact ⟨hprod, Bool.and_eq_true_iff.2 ⟨le_fadd hmin hpfin hmin (by omega), fadd_le hmin hpfin hmax (by omega)⟩⟩

/-- The offset of a value within a linear entry's bounds is from 0 up to the width, its quotient by the width in [0, 1]. -/
theorem linear_uncurve_within (he : LinearEntry e) (hv : within e.min e.max v = true) :
    within fzero (fsub e.max e.min) (fsub v e.min) = true ∧
    within fzero fone (fdiv (fsub v e.min) (fsub e.max e.min)) = true := by
  obtain ⟨hmin0, hwidthPos⟩ := he.units
  obtain ⟨hmin, hmax, -, -, hwidth, hunits, -, -⟩ := he
  obtain ⟨hvfin, hv0, hv1⟩ := (within_iff hmin hmax).1 hv
  have hdiff : within fzero (fsub e.max e.min) (fsub v e.min) = true :=
    Bool.and_eq_true_iff.2 ⟨le_fsub hvfin hmin rfl (by rw [unitsOf_fzero]; omega), fsub_le hvfin hmin hwidth (by omega)⟩
  obtain ⟨hdfin, hd0, hd1⟩ := (within_iff rfl hwidth).1 hdiff
  rw [unitsOf_fzero] at hd0
  refine ⟨hdiff, Bool.and_eq_true_iff.2 ⟨le_fdiv hdfin hwidth (by omega) rfl ?_, fdiv_le hdfin hwidth (by omega) rfl ?_⟩⟩
  · rw [unitsOf_fzero, zero_mul]
    positivity
  · rw [unitsOf_fone, mul_comm]
    omega

theorem specMap_lin (hcurve : e.curve = .lin) (he : LinearEntry e) (hn : within fzero fone n = true) :
    specMap e n = fadd e.min (fmul n (fsub e.max e.min)) := by
  rw [specMap_of_within hn, specCurve_lin hcurve, clamp_of_within (linear_curve_within he hn).2]

theorem specUnmap_lin (hcurve : e.curve = .lin) (he : LinearEntry e) (hv : within e.min e.max v = true) :
    specUnmap e v = fdiv (fsub v e.min) (fsub e.max e.min) := by
  rw [specUnmap_of_within hv, specUncurve_lin hcurve, clamp01, clamp_of_within (linear_uncurve_within he hv).2]

/-! ### From the normalised value and back -/

theorem abs_mul_pow_le_iff {x b : Int} {k : Nat} : |x| * 2 ^ k ≤ b ↔ -b ≤ x * 2 ^ k ∧ x * 2 ^ k ≤ b := by
  rw [← abs_le, abs_mul, abs_of_pos (show (0 : Int) < 2 ^ k by positivity)]

/-- The errors of the four operations on the way from `n` to `m + n * D` and back add up to 2^-22 of the width `D`. -/
theorem normalized_error {n m D p s d r : Int} (hD : 0 < D) (hp : |p * 2 ^ 149 - n * D| * 2 ^ 24 ≤ D * 2 ^ 149)
    (hs : |s - (m + p)| * 2 ^ 24 ≤ D) (hd : |d - (s - m)| * 2 ^ 24 ≤ D) (hr : |r * D - d * 2 ^ 149| * 2 ^ 24 ≤ D * 2 ^ 149) :
    |r - n| * 2 ^ 22 ≤ 2 ^ 149 := by
  obtain ⟨hp1, hp2⟩ := abs_mul_pow_le_iff.1 hp
  obtain ⟨hs1, hs2⟩ := abs_mul_pow_le_iff.1 hs
  obtain ⟨hd1, hd2⟩ := abs_mul_pow_le_iff.1 hd
  obtain ⟨hr1, hr2⟩ := abs_mul_pow_le_iff.1 hr
  have hsum : |(r - n) * D| * 2 ^ 22 ≤ 2 ^ 149 * D := abs_mul_pow_le_iff.2 ⟨by linarith, by linarith⟩
  rw [abs_mul, abs_of_pos hD, mul_right_comm] at hsum
  exact le_of_mul_le_mul_right hsum hD

/-- The errors of product, difference and quotient are at most 2^-24 of the width each; that of the sum is half a unit in the last place
below a power of two within twice the width. -/
theorem nearTo_linear (hcurve : e.curve = .lin) (he : LinearEntry e) (hn : within fzero fone n = true) :
    nearTo (specUnmap e (specMap e n)) n := by
  obtain ⟨hprod, hsum⟩ := linear_curve_within he hn
  obtain ⟨hdiff, hquot⟩ := linear_uncurve_within he hsum
  rw [specMap_lin hcurve he hn, specUnmap_lin hcurve he hsum]
  obtain ⟨hmin0, hwidthPos⟩ := he.units
  obtain ⟨hmin, hmax, -, -, hwidth, hunits, -, j, -, hroomLo, hroomHi⟩ := he
  obtain ⟨hnfin, hn0, hn1⟩ := (within_iff rfl rfl).1 hn
  obtain ⟨hpfin, -, -⟩ := (within_iff rfl hwidth).1 hprod
  obtain ⟨hsfin, hs0, hs1⟩ := (within_iff hmin hmax).1 hsum
  obtain ⟨hdfin, hd0, hd1⟩ := (within_iff rfl hwidth).1 hdiff
  obtain ⟨hrfin, -, -⟩ := (within_iff rfl rfl).1 hquot
  obtain ⟨-, hp0, hp1⟩ := (within_iff rfl hwidth).1 hprod
  rw [unitsOf_fzero] at hn0 hp0 hd0
  rw [unitsOf_fone] at hn1
  rw [← hunits] at hwidthPos hroomHi
  have hD : 0 < unitsOf (fsub e.max e.min) := by omega
  have hp : _ ≤ unitsOf (fsub e.max e.min) * 2 ^ 149 := (fmul_error hnfin hwidth hpfin).trans (max_le ?_ (by omega))
  have hs : |unitsOf (fadd e.min (fmul n (fsub e.max e.min))) - (unitsOf e.min + unitsOf (fmul n (fsub e.max e.min)))| * 2 ^ 24 ≤
      unitsOf (fsub e.max e.min) := by
    have hhalf := fadd_error_below hmin hpfin hsfin (j := 149 + j) (by omega) (by rw [abs_of_nonneg (by omega)]; omega)
    linarith
  have hd : _ ≤ unitsOf (fsub e.max e.min) :=
    (fsub_error hsfin hmin hdfin).trans (max_le (by rw [abs_of_nonneg (by omega)]; omega) (by omega))
  have hr : _ ≤ unitsOf (fsub e.max e.min) * 2 ^ 149 :=
    (fdiv_error hdfin hwidth hD hrfin).trans (max_le (by rw [abs_of_nonneg hd0]; omega) (by omega))
  · exact ⟨hrfin, hnfin, normalized_error hD hp hs hd hr⟩
  · rw [abs_of_nonneg (mul_nonneg hn0 hD.le), mul_comm]
    exact mul_le_mul_of_nonneg_left hn1 hD.le

/-! ### From the value and back -/

theorem le_add_of_le_max {a x y : Int} (h : a ≤ max |x| y) (hx : 0 ≤ x) (hy : 0 ≤ y) : a ≤ x + y := by
  rw [abs_of_nonneg hx] at h
  omega

/-- With a minimum of 0 only the quotient and the product round. The quotient's underflow costs half a unit times the width. -/
theorem value_error_of_zero {w D r p : Int} (hD : D ≤ 100 * 2 ^ 149)
    (hr : |r * D - w * 2 ^ 149| * 2 ^ 24 ≤ w * 2 ^ 149 + 2 ^ 23 * D) (hp : |p * 2 ^ 149 - r * D| * 2 ^ 24 ≤ r * D + 2 ^ 23 * 2 ^ 149) :
    |p - w| * 2 ^ 22 ≤ w + 64 * 2 ^ 22 := by
  obtain ⟨hr1, hr2⟩ := abs_mul_pow_le_iff.1 hr
  obtain ⟨hp1, hp2⟩ := abs_mul_pow_le_iff.1 hp
  exact abs_mul_pow_le_iff.2 ⟨by linarith, by linarith⟩

/-- With a minimum of at least a 64th of the value the errors of all four operations stay below 2^-22 of the value: three of them are parts of
the offset `w` alone. -/
theorem value_error_of_pos {m w D d r p u : Int} (hD : D ≤ 100 * 2 ^ 149) (hm : w ≤ 63 * m)
    (hd : |d - w| * 2 ^ 24 ≤ w + 2 ^ 23) (hr : |r * D - d * 2 ^ 149| * 2 ^ 24 ≤ d * 2 ^ 149 + 2 ^ 23 * D)
    (hp : |p * 2 ^ 149 - r * D| * 2 ^ 24 ≤ r * D + 2 ^ 23 * 2 ^ 149) (hu : |u - (m + p)| * 2 ^ 24 ≤ m + p + 2 ^ 23) :
    |u - (m + w)| * 2 ^ 22 ≤ m + w + 64 * 2 ^ 22 := by
  obtain ⟨hd1, hd2⟩ := abs_mul_pow_le_iff.1 hd
  obtain ⟨hr1, hr2⟩ := abs_mul_pow_le_iff.1 hr
  obtain ⟨hp1, hp2⟩ := abs_mul_pow_le_iff.1 hp
  obtain ⟨hu1, hu2⟩ := abs_mul_pow_le_iff.1 hu
  exact abs_mul_pow_le_iff.2 ⟨by linarith, by linarith⟩

theorem relNearTo_linear (hcurve : e.curve = .lin) (he : LinearEntry e) (hv : within e.min e.max v = true) :
    relNearTo (specMap e (specUnmap e v)) v := by
  obtain ⟨hdiff, hquot⟩ := linear_uncurve_within he hv
  obtain ⟨hprod, hsum⟩ := linear_curve_within he hquot
  rw [specUnmap_lin hcurve he hv, specMap_lin hcurve he hquot]
  obtain ⟨hmin0, hwidthPos⟩ := he.units
  obtain ⟨hmin, hmax, -, hle, hwidth, hunits, hsign, -⟩ := he
  obtain ⟨hvfin, hv0, hv1⟩ := (within_iff hmin hmax).1 hv
  obtain ⟨hdfin, hd0, -⟩ := (within_iff rfl hwidth).1 hdiff
  obtain ⟨hrfin, hr0, -⟩ := (within_iff rfl rfl).1 hquot
  obtain ⟨hpfin, hp0, -⟩ := (within_iff rfl hwidth).1 hprod
  obtain ⟨hufin, -, -⟩ := (within_iff hmin hmax).1 hsum
  rw [unitsOf_fzero] at hd0 hr0 hp0
  have hD : 0 < unitsOf (fsub e.max e.min) := by omega
  have hr : _ ≤ unitsOf (fsub v e.min) * 2 ^ 149 + 2 ^ 23 * unitsOf (fsub e.max e.min) :=
    (fdiv_error hdfin hwidth hD hrfin).trans (by rw [abs_of_nonneg hd0]; omega)
  have hp := le_add_of_le_max (fmul_error hrfin hwidth hpfin) (mul_nonneg hr0 hD.le) (by positivity)
  refine ⟨hufin, hvfin, ?_⟩
  rw [abs_of_nonneg (hmin0.trans hv0)]
  rcases hsign with hzero | ⟨-, h64⟩
  · have hmin0 : unitsOf e.min = 0 := congrArg unitsOf hzero
    obtain ⟨-, hd⟩ := (sameValue_iff hvfin).1 (sameValue_fsub_zero_right hvfin hmin hmin0)
    obtain ⟨-, hu⟩ := (sameValue_iff hpfin).1 (sameValue_fadd_zero_left hmin hmin0 hpfin)
    rw [hd] at hr
    rw [hu]
    exact value_error_of_zero (by omega) hr hp
  · have hd := le_add_of_le_max (fsub_error hvfin hmin hdfin) (by omega) (by norm_num)
    have hu := le_add_of_le_max (fadd_error hmin hpfin hufin) (by omega) (by norm_num)
    have herror := value_error_of_pos (by omega) (by omega) hd hr hp hu
    rwa [add_sub_cancel] at herror

end RoundTrip

/-! ### Operands outside the range -/

theorem isNan_of_rank {x : F32} {r : Int} (h : rank x = some r) : isNan x = false := by
  cases x with
  | fin n m | inf n => rfl
  | nan n p => cases h

theorem fle_of_fle_of_flt {x y z : F32} (h : fle x y = true) (h' : flt y z = true) : fle x z = true := by
  obtain ⟨a, b, ha, hb, hab⟩ := fle_iff_rank.1 h
  obtain ⟨b', c, hb', hc, hbc⟩ := flt_iff_rank.1 h'
  obtain rfl : b = b' := Option.some.inj (hb.symm.trans hb')
  exact fle_iff_rank.2 ⟨a, c, ha, hc, (hab.trans_lt hbc).le⟩

theorem clamp_of_flt_low {v l h : F32} (hv : flt v l = true) : clamp v l h = l := by
  obtain ⟨a, -, hrank, -⟩ := flt_iff_rank.1 hv
  rw [clamp, isNan_of_rank hrank, hv]
  rfl

theorem clamp_of_flt_high {v l h : F32} (hle : fle l h = true) (hv : flt h v = true) : clamp v l h = h := by
  obtain ⟨-, b, -, hrank, -⟩ := flt_iff_rank.1 hv
  rw [clamp, fgt, isNan_of_rank hrank, flt_eq_false_of_fle (fle_of_fle_of_flt hle hv), hv]
  rfl

theorem specUnmap_of_clamp {e : Config.SpecEntry} {v w : F32} (hclamp : clamp v e.min e.max = w) (hw : within e.min e.max w = true) :
    specUnmap e v = specUnmap e w := by
  rw [specUnmap_of_within hw, specUnmap, hclamp]

theorem specMap_specUnmap_below {m : FxMode} {slot : Fin 4} {v : F32} (h : flt v (specEntry m slot).min = true) :
    specMap (specEntry m slot) (specUnmap (specEntry m slot) v) = (specEntry m slot).min := by
  rw [specUnmap_of_clamp (clamp_of_flt_low h) (within_bounds_spec m slot).1, specUnmap_min, specMap_fzero]

theorem specUnmap_above {m : FxMode} {slot : Fin 4} {v : F32} (h : flt (specEntry m slot).max v = true) :
    specUnmap (specEntry m slot) v = specUnmap (specEntry m slot) (specEntry m slot).max :=
  specUnmap_of_clamp (clamp_of_flt_high (fle_of_flt (spec_shape m slot).1) h) (within_bounds_spec m slot).2

/-- An unused entry maps a normalised value to itself, a -0.0 to the other zero. -/
theorem sameValue_specMap_unused {n : F32} (h : within fzero fone n = true) : sameValue (specMap Config.unused n) n = true := by
  have he : LinearEntry Config.unused := linearEntry_spec (m := .basic) (slot := 2) rfl
  have hwidth : fsub Config.unused.max Config.unused.min = fone := by decide
  obtain ⟨hn, -, -⟩ := (within_iff rfl rfl).1 h
  obtain ⟨hpfin, hp⟩ := (sameValue_iff hn).1 (sameValue_fmul_fone_right hn)
  obtain ⟨hsfin, hs⟩ := (sameValue_iff hpfin).1 (sameValue_fadd_zero_left (z := Config.unused.min) rfl rfl hpfin)
  rw [specMap_lin rfl he h, hwidth]
  exact (sameValue_iff hn).2 ⟨hsfin, hs.trans hp⟩

/-- The answer of `PS.MAP` to an operand. -/
theorem runWith_psMap (m : FxMode) (slot : Fin 4) (s : State) (x : F32) :
    F32.ofBits ((runWith (.psMap m slot) s x.toBits).res.get 0) = specMap (specEntry m slot) x := by
  rw [runWith, exec_psMap, argF, State.setArg_arg, Per8.get_set, if_pos rfl, F32.ofBits_toBits]
  exact ofBits_res_setResF _ _

theorem runWith_psUnmap (m : FxMode) (slot : Fin 4) (s : State) (x : F32) :
    F32.ofBits ((runWith (.psUnmap m slot) s x.toBits).res.get 0) = specUnmap (specEntry m slot) x := by
  rw [runWith, exec_psUnmap, argF, State.setArg_arg, Per8.get_set, if_pos rfl, F32.ofBits_toBits]
  exact ofBits_res_setResF _ _

/-- Settles O54: a linear entry by the errors of its operations, an exponential one because the maps are the configuration's where R388 looks
at them; outside the range the operand's clamp leaves a bound, whose image is exact. -/
theorem psRoundTrip : Obligations.PsRoundTrip := by
  intro m slot s e up down
  have hup : up = specMap e := funext fun n => runWith_psMap m slot s n
  have hdown : down = specUnmap e := funext fun v => runWith_psUnmap m slot s v
  rw [hup, hdown]
  refine ⟨fun hcurve => ⟨⟨fun n hn => nearTo_linear hcurve (linearEntry_spec hcurve) hn,
    fun v hv => relNearTo_linear hcurve (linearEntry_spec hcurve) hv⟩, fun v => ⟨specMap_specUnmap_below, fun h => ?_⟩⟩,
    fun hcurve => ⟨roundTrips_iff_cfg hcurve (fle_of_flt (spec_shape m slot).1), fun v => ⟨specMap_specUnmap_below, fun h => ?_⟩⟩,
    fun hunused n hn => ?_⟩
  · exact (congrArg (specMap e) ((specUnmap_above h).trans (specUnmap_max_lin hcurve))).trans (specMap_fone_lin hcurve)
  · exact congrArg (specMap e) (specUnmap_above h)
  · rw [hunused]
    exact sameValue_specMap_unused hn

end Sys2Proof.Machine
end
